-- ==== Sys2Proof/Word.lean ====
section
/-! DEFINITION. The word types of the block (00_scope.md R9, 20_memory.md R76): a bank register is one
32-bit word, a mailbox byte is 8 bits, bit 0 is the least significant. -/

namespace Sys2Proof

/-- A bank register, a command word or a flags word: 32 bits (10_state.md R31, 30_encoding.md R101). -/
abbrev Word := BitVec 32

/-- One byte of the shared mailbox memory (20_memory.md R80). -/
abbrev Byte := BitVec 8

end Sys2Proof
end

