-- ==== Sys2Proof/Syntax.lean ====
section
/-! DEFINITION. The commands of the block (30_encoding.md R112): one constructor per row of the opcode table. -/

namespace Sys2Proof

/-- The legal trigger settings of a FLAGS word (30_encoding.md R102, R114 (c), (d), R119). -/
inductive Trigger where
  | edgeRise
  | edgeFall
  | edgeBoth
  | levelHigh
  | levelLow
  deriving DecidableEq, Repr, Inhabited

/-- The option groups of a CONFIGURE command (30_encoding.md R102): `none` is a group whose present bit is 0, `some v`
a present group with its value. -/
structure Options where
  out  : Option Bool := none
  dir  : Option Bool := none
  own  : Option Bool := none
  trig : Option Trigger := none
  int  : Option Bool := none
  wake : Option Bool := none
  deriving DecidableEq, Repr, Inhabited

/-- The twelve commands (30_encoding.md R112). `pin`, `irq` and `line` are the natural number of field N (R103). -/
inductive Instr where
  /-- `configure(pin, flags)`, 40_pin_config.md R130 -/
  | configure (pin : Nat) (opts : Options)
  /-- `read(pin)`, 40_pin_config.md R132 -/
  | read (pin : Nat)
  /-- `write(pin, level)`, 40_pin_config.md R134 -/
  | write (pin : Nat) (level : Bool)
  /-- `mask(irq)`, 42_irq_facade.md R180 -/
  | mask (irq : Nat)
  /-- `unmask(irq)`, 42_irq_facade.md R182 -/
  | unmask (irq : Nat)
  /-- `ack(irq)`, 42_irq_facade.md R183 -/
  | ack (irq : Nat)
  /-- `set_type(irq, trigger)`, 40_pin_config.md R140 -/
  | setType (irq : Nat) (trig : Trigger)
  /-- `set_wake(irq, enable)`, 42_irq_facade.md R184 -/
  | setWake (irq : Nat) (enable : Bool)
  /-- the chained handler of physical line `line`, 43_demux.md R210 -/
  | lineIrq (line : Nat)
  /-- `enter_sleep(from_idle)`, 44_sleep_wake.md R230 -/
  | enterSleep (fromIdle : Bool)
  /-- `exit_sleep()`, 44_sleep_wake.md R236 -/
  | exitSleep
  /-- the deferred replay, 44_sleep_wake.md R238 -/
  | replay
  deriving DecidableEq, Repr, Inhabited

end Sys2Proof
end

