-- ==== Sys2Proof/WellFormed.lean ====
section
/-! DEFINITION. When an instruction of `Instr` is one that a command word can hold: the number operand fits field N
(30_encoding.md R101, R103). Every other operand is legal by its type. Whether a line number exists on the platform
(R113 (e)) depends on `NUM_LINES` and is decided by LINE_IRQ itself. -/

namespace Sys2Proof

/-- The number an instruction carries in field N; 0 for the three commands that have none (30_encoding.md R101). -/
def Instr.number : Instr → Nat
  | .configure pin _ => pin
  | .read pin => pin
  | .write pin _ => pin
  | .mask irq => irq
  | .unmask irq => irq
  | .ack irq => irq
  | .setType irq _ => irq
  | .setWake irq _ => irq
  | .lineIrq line => line
  | .enterSleep _ => 0
  | .exitSleep => 0
  | .replay => 0

/-- The number operand fits the 16 bits of field N. -/
def Instr.wf (i : Instr) : Bool := decide (i.number < 2 ^ 16)

end Sys2Proof
end

