-- ==== Sys2Proof/Decode.lean ====
section
/-! DEFINITION. The decoder of the command port, total on any list of words and rejecting by name (30_encoding.md R101 to
R104, R112 to R114), and after it the encoder, written from the same tables. -/

namespace Sys2Proof

/-- Why the words of one command are illegal: one name per clause of 30_encoding.md R113 and R114. -/
inductive DecodeError where
  /-- R113 (a): OP is 0xC to 0xF -/
  | reservedOpcode
  /-- R113 (b): RSV, bits 26:16, is nonzero -/
  | reservedBits
  /-- R113 (c): V = 1 for an opcode whose V is fixed at 0 -/
  | fixedV
  /-- R113 (d): N is nonzero for ENTER_SLEEP, EXIT_SLEEP or REPLAY -/
  | nonzeroN
  /-- R114 (a): FLAGS bits 31:14 are nonzero -/
  | flagsReserved
  /-- R114 (b): a value bit without its present bit -/
  | valueWithoutPresent
  /-- R114 (c): TRIG_P with TRIG_POL = 00 -/
  | noPolarity
  /-- R114 (d): level detection with both polarities -/
  | levelBoth
  /-- R114 (e): SET_TYPE with a group other than the trigger, or without it -/
  | setTypeGroups
  /-- R104: the number of words is not the one OP fixes -/
  | wordCount
  deriving DecidableEq, Repr, Inhabited

/-- What the decoder answers. -/
abbrev Decoded (α : Type) := Except DecodeError α

/-! ### Fields of the command word (30_encoding.md R101) -/

/-- OP, bits 31:28. -/
def opField (c : Word) : Nat := (c.extractLsb' 28 4).toNat
/-- V, bit 27. -/
def vField (c : Word) : Bool := c.getLsbD 27
/-- RSV, bits 26:16. -/
def rsvField (c : Word) : Nat := (c.extractLsb' 16 11).toNat
/-- N, bits 15:0, zero-extended (R103). -/
def nField (c : Word) : Nat := (c.extractLsb' 0 16).toNat

/-- The number of words of a command, fixed by OP alone (30_encoding.md R104). -/
def commandLength (c : Word) : Nat := if opField c = 0x0 ∨ opField c = 0x6 then 2 else 1

/-! ### The flags word (30_encoding.md R102, R114) -/

/-- One option group: present bit `p`, value bit `p + 1`; a value bit without its present bit is illegal, R114 (b). -/
def flagGroup (f : Word) (p : Nat) : Decoded (Option Bool) :=
  if f.getLsbD p then .ok (some (f.getLsbD (p + 1)))
  else if f.getLsbD (p + 1) then .error .valueWithoutPresent
  else .ok none

/-- The trigger group: TRIG_P bit 6, TRIG_EDGE bit 7, TRIG_POL bits 9:8 (bit 8 rising or high, bit 9 falling or low). -/
def flagTrigger (f : Word) : Decoded (Option Trigger) :=
  if f.getLsbD 6 then
    match f.getLsbD 7, f.getLsbD 9, f.getLsbD 8 with
    | _, false, false => .error .noPolarity
    | true, false, true => .ok (some .edgeRise)
    | true, true, false => .ok (some .edgeFall)
    | true, true, true => .ok (some .edgeBoth)
    | false, false, true => .ok (some .levelHigh)
    | false, true, false => .ok (some .levelLow)
    | false, true, true => .error .levelBoth
  else if f.getLsbD 7 || f.getLsbD 8 || f.getLsbD 9 then .error .valueWithoutPresent
  else .ok none

/-- The FLAGS word of a CONFIGURE (30_encoding.md R102, R114 (a) to (d)). -/
def decodeFlags (f : Word) : Decoded Options := do
  if f.extractLsb' 14 18 ≠ 0 then .error .flagsReserved
  let out ← flagGroup f 0
  let dir ← flagGroup f 2
  let own ← flagGroup f 4
  let trig ← flagTrigger f
  let int ← flagGroup f 10
  let wake ← flagGroup f 12
  return { out, dir, own, trig, int, wake }

/-- The FLAGS word of a SET_TYPE: the trigger group and no other, R114 (e). -/
def decodeTypeFlags (f : Word) : Decoded Trigger := do
  let o ← decodeFlags f
  match o with
  | ⟨none, none, none, some t, none, none⟩ => return t
  | _ => .error .setTypeGroups

/-! ### The decoder -/

/-- V must be 0, R113 (c). -/
def needV0 (c : Word) : Decoded Unit := if vField c then .error .fixedV else .ok ()
/-- N must be 0, R113 (d). -/
def needN0 (c : Word) : Decoded Unit := if nField c ≠ 0 then .error .nonzeroN else .ok ()

/-- A one-word command by its opcode (30_encoding.md R112). -/
def decodeOne (c : Word) : Decoded Instr :=
  match opField c with
  | 0x1 => do needV0 c; return .read (nField c)
  | 0x2 => return .write (nField c) (vField c)
  | 0x3 => do needV0 c; return .mask (nField c)
  | 0x4 => do needV0 c; return .unmask (nField c)
  | 0x5 => do needV0 c; return .ack (nField c)
  | 0x7 => return .setWake (nField c) (vField c)
  | 0x8 => do needV0 c; return .lineIrq (nField c)
  | 0x9 => do needN0 c; return .enterSleep (vField c)
  | 0xA => do needV0 c; needN0 c; return .exitSleep
  | 0xB => do needV0 c; needN0 c; return .replay
  | 0x0 => .error .wordCount
  | 0x6 => .error .wordCount
  | _ => .error .reservedOpcode

/-- A two-word command by its opcode (30_encoding.md R104, R112). -/
def decodeTwo (c f : Word) : Decoded Instr :=
  match opField c with
  | 0x0 => do needV0 c; return .configure (nField c) (← decodeFlags f)
  | 0x6 => do needV0 c; return .setType (nField c) (← decodeTypeFlags f)
  | _ => .error .wordCount

/-- The instruction that the words of one command hold, or the name of what makes them illegal. -/
def decode : List Word → Decoded Instr
  | [c] => if rsvField c ≠ 0 then .error .reservedBits else decodeOne c
  | [c, f] => if rsvField c ≠ 0 then .error .reservedBits else decodeTwo c f
  | _ => .error .wordCount

/-! ### The encoder -/

/-- The command word with the fields OP, V and N, RSV = 0 (30_encoding.md R101). -/
def commandWord (op : BitVec 4) (v : Bool) (n : Nat) : Word :=
  op ++ BitVec.ofBool v ++ (0 : BitVec 11) ++ BitVec.ofNat 16 n

/-- The bits of one option group whose present bit is `p`. -/
def groupBits (p : Nat) : Option Bool → Word
  | none => 0
  | some false => (1 : Word) <<< p
  | some true => (3 : Word) <<< p

/-- The bits of the trigger group (30_encoding.md R119). -/
def triggerBits : Option Trigger → Word
  | none => 0
  | some .edgeRise => 0x1C0
  | some .edgeFall => 0x2C0
  | some .edgeBoth => 0x3C0
  | some .levelHigh => 0x140
  | some .levelLow => 0x240

/-- The FLAGS word of a set of option groups (30_encoding.md R102). -/
def flagsWord (o : Options) : Word :=
  groupBits 0 o.out ||| groupBits 2 o.dir ||| groupBits 4 o.own ||| triggerBits o.trig ||| groupBits 10 o.int |||
    groupBits 12 o.wake

/-- The words of an instruction (30_encoding.md R101, R102, R112). -/
def encode : Instr → List Word
  | .configure pin opts => [commandWord 0x0 false pin, flagsWord opts]
  | .read pin => [commandWord 0x1 false pin]
  | .write pin level => [commandWord 0x2 level pin]
  | .mask irq => [commandWord 0x3 false irq]
  | .unmask irq => [commandWord 0x4 false irq]
  | .ack irq => [commandWord 0x5 false irq]
  | .setType irq trig => [commandWord 0x6 false irq, triggerBits (some trig)]
  | .setWake irq enable => [commandWord 0x7 enable irq]
  | .lineIrq line => [commandWord 0x8 false line]
  | .enterSleep fromIdle => [commandWord 0x9 fromIdle 0]
  | .exitSleep => [commandWord 0xA false 0]
  | .replay => [commandWord 0xB false 0]

/-! ### The opcode table's numbering of bits -/

/-- The words of the command whose bits are `w`, the first word in bits 31:0 and a FLAGS word in bits 63:32. -/
def tableWords (w : Nat) : List Word :=
  let c := BitVec.ofNat 32 w
  if commandLength c = 2 then [c, BitVec.ofNat 32 (w / 2 ^ 32)] else [c]

/-- The instruction the decoder reads from a command whose low `nbits` bits are `w` and whose other bits are 0. -/
def decodeTableWord (nbits w : Nat) : Option Instr :=
  match decode (tableWords (w % 2 ^ nbits)) with
  | .ok i => some i
  | .error _ => none

end Sys2Proof
end

