-- ==== Sys2Proof/Config.lean ====
section
/-! DEFINITION. What the platform fixes (00_scope.md R4, R5; 10_state.md R30): one descriptor per bank and the
parameters of the block. Both are data that every claim quantifies over. The free values (00_scope.md R11 `draw`)
stand at the end: constants with no body, so that nothing can be proved of their value. -/

namespace Sys2Proof

/-- Byte order of the mailbox fields, `MB_BYTE_ORDER` (20_memory.md R84). -/
inductive ByteOrder where
  | littleEndian
  | bigEndian
  deriving DecidableEq, Repr, Inhabited

/-- The two processors that share the block (60_exceptions.md R284). -/
inductive Processor where
  | coreA
  | coreB
  deriving DecidableEq, Repr, Inhabited

/-- The nine register addresses of one bank, `addr[b][r]` (10_state.md R30, R31). -/
structure RegAddrs where
  out       : Word := 0
  inp       : Word := 0
  intStatus : Word := 0
  intClear  : Word := 0
  intEn     : Word := 0
  intEdge   : Word := 0
  intPos    : Word := 0
  oe        : Word := 0
  owner     : Word := 0
  deriving DecidableEq, Repr, Inhabited

/-- One descriptor of the bank table (10_state.md R30). `last` is the spec's `end[b]`, inclusive. -/
structure BankDesc where
  start : Nat := 0
  last  : Nat := 0
  line  : Nat := 0
  addrs : RegAddrs := {}
  deriving DecidableEq, Repr, Inhabited

/-- The parameters of the block other than the bank table (00_scope.md R4). The values written here are the spec's
defaults where it gives one; the others are OPEN in the spec (assumption log 7). -/
structure Params where
  numLines       : Nat := 1
  baseIrq        : Nat := 0
  beMaxPasses    : Nat := 100
  firedCap       : Nat := 8
  mbBase         : Nat := 0
  mbByteOrder    : ByteOrder := .littleEndian
  mailboxPresent : Bool := true
  ownerOneIs     : Processor := .coreA
  deriving DecidableEq, Repr, Inhabited

/-- One step of the pin environment (60_exceptions.md R270): bank `bank` takes the pad level `level`. `caught` is the
draw of R271 and R272 for a step taken while ASLEEP: the bits whose detection happens. -/
structure PinStep where
  bank   : Nat
  level  : Word
  caught : Word
  deriving DecidableEq, Repr, Inhabited

/-- Configuration A of 95_test_vectors.md, the bank of the source's scenario A: pins 16 to 42 on line 0. The register
addresses are OPEN in the spec (DESIGN CHOICE, assumption log 7). -/
def Config.bankA : BankDesc where
  start := 16
  last  := 42
  line  := 0
  addrs :=
    { out := 0x00, inp := 0x04, intStatus := 0x08, intClear := 0x0C, intEn := 0x10, intEdge := 0x14, intPos := 0x18,
      oe := 0x1C, owner := 0x20 }

/-- The parameters of configuration A of 95_test_vectors.md (DESIGN CHOICE, assumption log 7). -/
def Config.paramsA : Params where
  numLines := 1
  baseIrq  := 32
  mbBase   := 0x1000

/-- A drawn word whose value nothing states (00_scope.md R11; assumption log 4): reserved bits of a read, bits an
`int_clear` write also loses, spurious status bits. Used when the state's own list of draws is empty. -/
opaque Config.freeWord : Nat → Word

/-- What the pin environment does just before an access (00_scope.md R12; assumption log 4): any number of steps.
Used when the state's own list of pin activity is empty. -/
opaque Config.freePins : Nat → List PinStep

end Sys2Proof
end

