-- ==== Sys2Proof/Machine/State.lean ====
section
/-! DEFINITION. The architectural state of the block (spec/10_state.md), one field per piece of state the spec names,
and the state right after reset (70_reset_and_hazards.md R300). INVENTORY.md lists every field with its rule. -/

namespace Sys2Proof.Machine

/-- The register names of a bank (10_state.md R31). -/
inductive Reg where
  | out
  | inp
  | intStatus
  | intClear
  | intEn
  | intEdge
  | intPos
  | oe
  | owner
  deriving DecidableEq, Repr, Inhabited

/-- One bank: its descriptor (R30, immutable), its registers (R34 to R42), the pad level (R57) and its software masks
(R43 to R46). `in` is the pad level (R35) and has its one home in `pad`; `int_clear` stores nothing (R37). -/
structure Bank where
  desc      : BankDesc := {}
  out       : Word := 0
  pad       : Word := 0
  intStatus : Word := 0
  intEn     : Word := 0
  intEdge   : Word := 0
  intPos    : Word := 0
  oe        : Word := 0
  owner     : Word := 0
  en0       : Word := 0
  en1       : Word := 0
  be        : Word := 0
  shadow    : Word := 0
  deriving DecidableEq, Repr, Inhabited

/-- `sleep_state` (10_state.md R49). -/
inductive SleepState where
  | awake
  | asleep
  deriving DecidableEq, Repr, Inhabited

/-- `seq` (10_state.md R52): IDLE, or BUSY(c, k) inside command `c` before its access or mask update number `k`. -/
inductive Seq where
  | idle
  | busy (c : Instr) (k : Nat)
  deriving DecidableEq, Repr, Inhabited

/-- The registers of a running both-edge state machine (10_state.md R53). -/
structure BothEdgeRegs where
  iter : Nat
  v1   : Word
  p    : Word
  pol  : Word
  st   : Word
  v2   : Word
  deriving DecidableEq, Repr, Inhabited

/-- `pass` when ACTIVE(l, b, W) (10_state.md R54): the line served, the bank cursor, the working word. -/
structure Pass where
  line : Nat
  bank : Nat
  work : Word
  deriving DecidableEq, Repr, Inhabited

/-- `replay_run` when RUNNING (10_state.md R50), with the loop variables of 44_sleep_wake.md R238: the group, the count
read for it, the index of its next entry (assumption log 13). -/
structure ReplayCursor where
  group : Nat
  count : Nat
  index : Nat
  deriving DecidableEq, Repr, Inhabited

/-- Status of a command's result (60_exceptions.md R266). -/
inductive Status where
  | ok
  | outOfRange
  deriving DecidableEq, Repr, Inhabited

/-- Who handed a per-pin interrupt to the generic interrupt core (10_state.md R55). -/
inductive Via where
  | demux
  | replay
  deriving DecidableEq, Repr, Inhabited

/-- The output events (10_state.md R55, 60_exceptions.md R262). -/
inductive Event where
  /-- per-pin interrupt `irq` handed to the generic interrupt core -/
  | dispatch (irq : Nat) (via : Via)
  /-- physical line `line` acknowledged -/
  | lineAck (line : Nat)
  /-- `Log(ConvergenceBound, b, v1, v2)` -/
  | convergenceBound (bank : Nat) (v1 v2 : Word)
  /-- `Log(OutOfRange, p)`: a replay entry that names no bank's pin -/
  | logOutOfRange (pin : Nat)
  /-- `Log(MailboxUnavailable)` -/
  | mailboxUnavailable
  /-- `Result(c, R)`, the result word of command `c` (30_encoding.md R118) -/
  | result (c : Instr) (word : Word)
  deriving DecidableEq, Repr, Inhabited

/-- The sticky fault mark (10_state.md R56, 60_exceptions.md R263) with what R266 records. -/
inductive FaultMark where
  | mailboxCountOverflow (group count : Nat)
  deriving DecidableEq, Repr, Inhabited

/-- Why a command is refused (60_exceptions.md R264). -/
inductive RefuseReason where
  | illegalCommand
  | notBooted
  | asleep
  | notAsleep
  | busy
  | badBankTable
  deriving DecidableEq, Repr, Inhabited

/-- What was refused (60_exceptions.md R266, "recorded: the command"): a decoded command, the words of one that is
illegal, or the boot registration. -/
inductive Offered where
  | command (c : Instr)
  | words (ws : List Word)
  | boot
  deriving DecidableEq, Repr, Inhabited

/-- One refusal (assumption log 16). -/
structure RefusalRecord where
  reason  : RefuseReason
  offered : Offered
  deriving DecidableEq, Repr, Inhabited

/-- The free values still to come (00_scope.md R11 `draw`, R12; assumption log 4): the pin activity just before each of
the coming accesses, the drawn words, and how many values were taken from the constants of Config because a list had
run out. Plain data; no statement rests on a value of it. -/
structure Choices where
  pins  : List (List PinStep) := []
  words : List Word := []
  taken : Nat := 0
  deriving DecidableEq, Repr, Inhabited

/-- What an agent outside the sequencer does next (assumption log 5). -/
inductive Input where
  /-- the platform runs boot registration (70_reset_and_hazards.md R302) -/
  | boot
  /-- words presented on the command port (30_encoding.md R100) -/
  | command (ws : List Word)
  /-- the pin environment steps between two commands (60_exceptions.md R270) -/
  | pins (p : PinStep)
  /-- the coprocessor writes byte `offset` of the mailbox (60_exceptions.md R282) -/
  | mailboxByte (offset : Nat) (value : Byte)
  /-- the active pass, else the running replay, takes its next atomic step (43_demux.md R213, 60_exceptions.md R276) -/
  | proceed
  deriving DecidableEq, Repr, Inhabited

/-- Memory: address and byte pairs, addresses strictly rising, no pair equal to what an unlisted address reads as. -/
abbrev Memory := List Host.Cell

/-- The state of the block. -/
structure State where
  params         : Params
  banks          : List Bank
  sleepState     : SleepState := .awake
  replayPending  : Bool := false
  replayRun      : Option ReplayCursor := none
  mailboxPresent : Bool := false
  booted         : Bool := false
  seq            : Seq := .idle
  beRegs         : Option BothEdgeRegs := none
  pass           : Option Pass := none
  events         : List Event := []
  fault          : Option FaultMark := none
  refused        : Bool := false
  refusals       : List RefusalRecord := []
  mem            : Memory := []
  choices        : Choices := {}
  agenda         : List Input := []
  deriving DecidableEq, Repr, Inhabited

/-- Why the machine stops with a fault. -/
inductive Fault where
  /-- Raised by `memRead` and `memWrite` for a mailbox access to a byte that does not exist (10_state.md R58, 20_memory.md
  R80, R85): outside the mailbox, or with no mailbox. Safe: no command reaches it on a bank table that passed boot. -/
  | noSuchAddress (addr : Nat)
  deriving DecidableEq, Repr, Inhabited

/-- Why the machine has no step. All but `notModelled` are host duties broken, for which the spec has no step
(93_implementation_defined.md section 5): safe, the machine stops where the spec gives no behaviour. -/
inductive Refusal where
  /-- Raised by `exec` for an instruction that has no meaning yet. Safe. -/
  | notModelled (mnemonic : String)
  /-- Raised by every meaning and by the command port when `seq` is not IDLE (10_state.md R52). Safe. -/
  | sequencerBusy
  /-- Raised by the command port when a command's words are not all there (60_exceptions.md R285). Safe. -/
  | commandPort
  /-- Raised by LINE_IRQ when asleep or inside a pass (60_exceptions.md R275, 43_demux.md R216). Safe. -/
  | lineAgentDuty
  /-- Raised by REPLAY when the bottom-half agent may not issue it (60_exceptions.md R276). Safe. -/
  | bottomHalfDuty
  /-- Raised by `coprocessorWrite` while AWAKE or outside the mailbox (60_exceptions.md R282, R283). Safe. -/
  | coprocessorDuty
  /-- Raised by `bootRegistration` on a booted block (70_reset_and_hazards.md R302; a boot after a refused table is
  assumption log 24). Safe. -/
  | platformDuty
  deriving DecidableEq, Repr, Inhabited

/-- The machine right after reset (70_reset_and_hazards.md R300). The masks and the control state have the spec's values;
the registers the spec leaves to a draw are 0 (DESIGN CHOICE, assumption log 6); the platform is configuration A
(DESIGN CHOICE, assumption log 7); `mailbox_present` is set by boot (assumption log 9). -/
def State.reset : State where
  params := Config.paramsA
  banks := [{ desc := Config.bankA }]

end Sys2Proof.Machine
end

