-- ==== Sys2Proof/Machine/Flags.lean ====
section
/-! DEFINITION. The block has no condition flags (10_state.md R59): a command's outcome is the result word of
30_encoding.md R118 with the status codes of 60_exceptions.md R266. -/

namespace Sys2Proof.Machine

/-- The opcode of a command (30_encoding.md R112). -/
def opcode : Instr → Nat
  | .configure _ _ => 0x0
  | .read _ => 0x1
  | .write _ _ => 0x2
  | .mask _ => 0x3
  | .unmask _ => 0x4
  | .ack _ => 0x5
  | .setType _ _ => 0x6
  | .setWake _ _ => 0x7
  | .lineIrq _ => 0x8
  | .enterSleep _ => 0x9
  | .exitSleep => 0xA
  | .replay => 0xB

/-- The names of the code table (60_exceptions.md R266). -/
inductive Code where
  | ok
  | outOfRange
  | convergenceBound
  | mailboxUnavailable
  | mailboxCountOverflow
  deriving DecidableEq, Repr, Inhabited

/-- The numeric values of the code table (60_exceptions.md R266). -/
def codeValue : Code → Nat
  | .ok => 0x0
  | .outOfRange => 0x1
  | .convergenceBound => 0x2
  | .mailboxUnavailable => 0x3
  | .mailboxCountOverflow => 0x4

/-- The numeric status codes (60_exceptions.md R260, R266). -/
def statusCode : Status → Nat
  | .ok => codeValue .ok
  | .outOfRange => codeValue .outOfRange

/-- The result word: bits 31:28 the opcode, bits 27:24 the status code, bit 0 the value read (30_encoding.md R118). -/
def resultWord (c : Instr) (status : Status) (value : Bool) : Word :=
  BitVec.ofNat 4 (opcode c) ++ BitVec.ofNat 4 (statusCode status) ++ (0 : BitVec 23) ++ BitVec.ofBool value

/-- The code an event of the history reports (60_exceptions.md R260 to R262, R266): a result carries its status in bits
27:24, a log event has its event code, a dispatch and a line acknowledgement have none. -/
def eventCode : Event → Option Nat
  | .dispatch _ _ => none
  | .lineAck _ => none
  | .convergenceBound _ _ _ => some (codeValue .convergenceBound)
  | .logOutOfRange _ => some (codeValue .outOfRange)
  | .mailboxUnavailable => some (codeValue .mailboxUnavailable)
  | .result _ word => some (word.extractLsb' 24 4).toNat

/-- The code of the sticky fault mark (60_exceptions.md R263, R266). -/
def faultCode : FaultMark → Nat
  | .mailboxCountOverflow _ _ => codeValue .mailboxCountOverflow

end Sys2Proof.Machine
end

