-- ==== Sys2Proof/Machine/Memory.lean ====
section
/-! DEFINITION. The mailbox memory as bytes, and its fields in either byte order (20_memory.md R84). -/

namespace Sys2Proof.Machine

/-- What an address that nothing has written reads as. The spec draws it (10_state.md R58); the model fixes 0
(DESIGN CHOICE, unsafe, assumption log 8). -/
def Memory.unwritten : Byte := 0

/-- The byte at an address. -/
def Memory.read : Memory → Nat → Byte
  | [], _ => Memory.unwritten
  | (k, v) :: rest, a => if a = k then v else Memory.read rest a

/-- Memory with the byte at `a` replaced, in canonical form. -/
def Memory.write : Memory → Nat → Byte → Memory
  | [], a, v => if v = Memory.unwritten then [] else [(a, v)]
  | (k, w) :: rest, a, v =>
    if a < k then (if v = Memory.unwritten then (k, w) :: rest else (a, v) :: (k, w) :: rest)
    else if a = k then (if v = Memory.unwritten then rest else (a, v) :: rest)
    else (k, w) :: Memory.write rest a v

/-- Every listed address is above `low`. -/
def Memory.above (low : Nat) : Memory → Bool
  | [] => true
  | (k, _) :: rest => decide (low < k) && Memory.above low rest

/-- Canonical form: addresses strictly rising, no listed byte equal to the unwritten one. -/
def Memory.wf : Memory → Bool
  | [] => true
  | (k, v) :: rest => decide (v ≠ Memory.unwritten) && Memory.above k rest && Memory.wf rest

/-- The bytes at `a, a + 1, …`, `n` of them. -/
def Memory.readBytes (m : Memory) (a : Nat) : Nat → List Byte
  | 0 => []
  | n + 1 => Memory.read m a :: Memory.readBytes m (a + 1) n

/-- Memory with the bytes `bs` at `a, a + 1, …`. -/
def Memory.writeBytes (m : Memory) (a : Nat) : List Byte → Memory
  | [] => m
  | b :: bs => Memory.writeBytes (Memory.write m a b) (a + 1) bs

/-- The `n` low bytes of a value, least significant first. -/
def bytesOf : Nat → Nat → List Byte
  | 0, _ => []
  | n + 1, v => BitVec.ofNat 8 v :: bytesOf n (v / 256)

/-- The value of bytes, least significant first. -/
def valueOf : List Byte → Nat
  | [] => 0
  | b :: bs => b.toNat + 256 * valueOf bs

/-- Bytes in the order they lie in memory, the lowest address first (20_memory.md R84). -/
def orderBytes (o : ByteOrder) (bs : List Byte) : List Byte :=
  match o with
  | .littleEndian => bs
  | .bigEndian => bs.reverse

/-- The field of `n` bytes at `a`. -/
def Memory.readField (o : ByteOrder) (m : Memory) (a n : Nat) : Nat :=
  valueOf (orderBytes o (Memory.readBytes m a n))

/-- Memory with the field of `n` bytes at `a` set to `v`. -/
def Memory.writeField (o : ByteOrder) (m : Memory) (a n v : Nat) : Memory :=
  Memory.writeBytes m a (orderBytes o (bytesOf n v))

end Sys2Proof.Machine
end

