-- ==== Sys2Proof/Machine/Ops.lean ====
section
/-! DEFINITION. The shared operations: bank words, free values, the pin environment and its detector, register and
mailbox accesses, the both-edge registers' home, results and refusals. The block has no trap entry (60_exceptions.md
R267): `State.raise` and `State.refuse` are the two ways a command ends without its effect. -/

namespace Sys2Proof.Machine

/-- What a meaning answers. -/
abbrev Answer := Host.Outcome State Fault Refusal

/-! ### Bank words (00_scope.md R5, R9, R10) -/

/-- `WIDTH[b]`. -/
def Bank.width (k : Bank) : Nat := k.desc.last + 1 - k.desc.start

/-- `WMASK[b]`: bits `0 .. WIDTH[b]-1` are 1. -/
def Bank.wmask (k : Bank) : Word := BitVec.ofNat 32 (2 ^ k.width - 1)

/-- The bank bit `1 << off`. -/
def bitAt (off : Nat) : Word := BitVec.twoPow 32 off

/-- `val ? (v | bit) : (v & ~bit)`, the read-modify-write of every option group (40_pin_config.md R131). -/
def withBit (v bit : Word) (val : Bool) : Word := if val then v ||| bit else v &&& ~~~bit

/-- `lsb(W)`, the least set bit of a nonzero word (00_scope.md R10); no rule applies it to 0. -/
def lsb (w : Word) : Nat := ((List.range 32).find? fun i => w.getLsbD i).getD 0

/-- The bank with index `b`; no rule names an index that is not there. -/
def State.bank (s : State) (b : Nat) : Bank := s.banks.getD b default

/-- The state with bank `b` changed by `f`. -/
def State.setBank (s : State) (b : Nat) (f : Bank → Bank) : State := { s with banks := s.banks.modify b f }

/-! ### The sequencer (10_state.md R52) -/

/-- `k` advances by one per access or mask update; between the steps of a pass or replay `seq` is IDLE. -/
def Seq.advance : Seq → Seq
  | .idle => .idle
  | .busy c k => .busy c (k + 1)

/-- A command may start. -/
def Seq.isIdle : Seq → Bool
  | .idle => true
  | .busy _ _ => false

/-- Command `c` starts. -/
def State.start (s : State) (c : Instr) : State := { s with seq := .busy c 0 }

/-- Event `e` is appended to the history (10_state.md R55). -/
def State.emit (s : State) (e : Event) : State := { s with events := s.events ++ [e] }

/-- Command `c` ends and emits its result (30_encoding.md R118). -/
def State.finish (s : State) (c : Instr) (status : Status) (value : Bool) : State :=
  { s.emit (.result c (resultWord c status value)) with seq := .idle }

/-- `raise OutOfRange`: the command ends with status 0x1, nothing else changes (60_exceptions.md R260). -/
def State.raise (s : State) (c : Instr) : State := s.finish c .outOfRange false

/-- `refuse(reason)`: nothing is changed, no result is produced, the sticky mark is set (60_exceptions.md R264) and the
command is recorded (R266). -/
def State.refuse (s : State) (reason : RefuseReason) (offered : Offered) : State :=
  { s with refused := true, refusals := s.refusals ++ [⟨reason, offered⟩] }

/-- A change of a software mask of bank `b`: not an access (00_scope.md R11), but a step of the command (R52). -/
def State.maskUpdate (s : State) (b : Nat) (f : Bank → Bank) : State :=
  { s.setBank b f with seq := s.seq.advance }

/-! ### Free values (00_scope.md R11; assumption log 4) -/

/-- The next drawn word. -/
def Choices.nextWord (c : Choices) : Word × Choices :=
  match c.words with
  | w :: ws => (w, { c with words := ws })
  | [] => (Config.freeWord c.taken, { c with taken := c.taken + 1 })

/-- What the pin environment does just before the next access. -/
def Choices.nextPins (c : Choices) : List PinStep × Choices :=
  match c.pins with
  | p :: ps => (p, { c with pins := ps })
  | [] => (Config.freePins c.taken, { c with taken := c.taken + 1 })

/-- `draw`: a word that nothing constrains. -/
def State.draw (s : State) : Word × State :=
  (s.choices.nextWord.1, { s with choices := s.choices.nextWord.2 })

/-! ### The pin environment and its detector (60_exceptions.md R270 to R272) -/

/-- The bits whose interrupt condition is detected when the pad level of a bank becomes `level` (R271, R272). -/
def Bank.detected (k : Bank) (level : Word) : Word :=
  let rise := ~~~k.pad &&& level
  let fall := k.pad &&& ~~~level
  let edges := k.intEdge &&& ((k.intPos &&& rise) ||| (~~~k.intPos &&& fall))
  let levels := ~~~k.intEdge &&& ~~~(level ^^^ k.intPos)
  edges ||| levels

/-- The pad level and the status of bank number `b` after environment steps, starting from `(level, status)`. While ASLEEP
each detection is a draw: the step's `caught` says which happen (R271, R272). -/
def Bank.sense (sleep : SleepState) (b : Nat) (k : Bank) : List PinStep → Word × Word
  | [] => (k.pad, k.intStatus)
  | p :: ps =>
    if p.bank = b then
      let hits := k.detected p.level
      let seen := match sleep with
        | .awake => hits
        | .asleep => hits &&& p.caught
      Bank.sense sleep b { k with pad := p.level, intStatus := k.intStatus ||| seen } ps
    else Bank.sense sleep b k ps

/-- Bank number `b` after environment steps: they write the pad level and, through the detector, `int_status`, and nothing
else (R270). -/
def Bank.watch (sleep : SleepState) (steps : List PinStep) (b : Nat) (k : Bank) : Bank :=
  { k with pad := (k.sense sleep b steps).1, intStatus := (k.sense sleep b steps).2 }

/-- Any number of environment steps over the banks with indices from `b` on. -/
def pinSteps (sleep : SleepState) (steps : List PinStep) (b : Nat) : List Bank → List Bank
  | [] => []
  | k :: ks => k.watch sleep steps b :: pinSteps sleep steps (b + 1) ks

/-- The instant of an access: the environment has done what it does between the last access and this one (00_scope.md
R12), and the sequencer's index advances (10_state.md R52). -/
def State.access (s : State) : State :=
  { s with
    banks := pinSteps s.sleepState s.choices.nextPins.1 0 s.banks
    choices := s.choices.nextPins.2
    seq := s.seq.advance }

/-- Line `l` is asserted (60_exceptions.md R274): some bank of it has an enabled status bit. -/
def lineAsserted (s : State) (l : Nat) : Bool :=
  s.banks.any fun k => decide (k.desc.line = l) && decide (k.intStatus &&& k.intEn &&& k.wmask ≠ 0)

/-! ### Register accesses (20_memory.md R70 to R79) -/

/-- The stored content of a register; `int_clear` stores nothing and reads as the draw `d` (R71, R72). -/
def Bank.content (k : Bank) (r : Reg) (d : Word) : Word :=
  match r with
  | .out => k.out
  | .inp => k.pad
  | .intStatus => k.intStatus
  | .intClear => d
  | .intEn => k.intEn
  | .intEdge => k.intEdge
  | .intPos => k.intPos
  | .oe => k.oe
  | .owner => k.owner

/-- `RegRead(b, r)`: the whole word at the instant of the access (R71, R72, R76); the reserved bits are a draw
(10_state.md R32). -/
def regRead (s : State) (b : Nat) (r : Reg) : Word × State :=
  let s1 := s.access
  let (d, s2) := s1.draw
  let k := s2.bank b
  ((k.content r d &&& k.wmask) ||| (d &&& ~~~k.wmask), s2)

/-- What a write of `v` to register `r` does to the bank, `d` being the draw of the rule that has one: R71 for the plain
registers, R74 for the read-only ones, R73 for `int_clear` (the bits of `v`, and any others the erratum loses), R75 with
60_exceptions.md R273 for `int_edge` and `int_pos` (any subset of the changed bits of `WMASK` latches a status). -/
def Bank.written (k : Bank) (r : Reg) (v d : Word) : Bank :=
  match r with
  | .out => { k with out := v }
  | .inp => k
  | .intStatus => k
  | .intClear => { k with intStatus := k.intStatus &&& ~~~(v ||| d) }
  | .intEn => { k with intEn := v }
  | .intEdge => { k with intEdge := v, intStatus := k.intStatus ||| (d &&& ((k.intEdge ^^^ v) &&& k.wmask)) }
  | .intPos => { k with intPos := v, intStatus := k.intStatus ||| (d &&& ((k.intPos ^^^ v) &&& k.wmask)) }
  | .oe => { k with oe := v }
  | .owner => { k with owner := v }

/-- The writes that draw: `int_clear` (R73), `int_edge` and `int_pos` (R75). -/
def Reg.draws : Reg → Bool
  | .intClear => true
  | .intEdge => true
  | .intPos => true
  | .out => false
  | .inp => false
  | .intStatus => false
  | .intEn => false
  | .oe => false
  | .owner => false

/-- `RegWrite(b, r, v)` (R71, R73 to R76). -/
def regWrite (s : State) (b : Nat) (r : Reg) (v : Word) : State :=
  let s1 := s.access
  if r.draws then
    let (d, s2) := s1.draw
    s2.setBank b fun k => k.written r v d
  else s1.setBank b fun k => k.written r v 0

/-- The processor that owns pin `off` of a bank (10_state.md R42): a 1 names `OWNER_ONE_IS`, a 0 the other. -/
def pinOwner (p : Params) (k : Bank) (off : Nat) : Processor :=
  if k.owner.getLsbD off then p.ownerOneIs
  else match p.ownerOneIs with
    | .coreA => .coreB
    | .coreB => .coreA

/-! ### Mailbox layout and accesses (20_memory.md R80 to R85) -/

/-- `PIN_COUNT`, the largest `end[b] + 1` (00_scope.md R5). -/
def pinCount : List Bank → Nat
  | [] => 0
  | k :: ks => max (k.desc.last + 1) (pinCount ks)

/-- `NWORDS = ceil(PIN_COUNT / 32)` (00_scope.md R5). -/
def State.nwords (s : State) : Nat := (pinCount s.banks + 31) / 32

/-- The size of the mailbox in bytes (20_memory.md R80). -/
def State.mailboxSize (s : State) : Nat := 4 + 4 * s.params.firedCap + 12 * s.nwords

/-- The bytes `a .. a + n - 1` exist (10_state.md R58). -/
def State.inMailbox (s : State) (a n : Nat) : Bool :=
  s.mailboxPresent && decide (s.params.mbBase ≤ a) && decide (a + n ≤ s.params.mbBase + s.mailboxSize)

/-- The three bit arrays of the mailbox (20_memory.md R83). -/
inductive BitArray where
  | enabled
  | detection
  | polarity
  deriving DecidableEq, Repr, Inhabited

/-- Address of `num_fired[g]` (20_memory.md R80). -/
def State.countAddr (s : State) (g : Nat) : Nat := s.params.mbBase + 2 * g

/-- Address of `fired[g][j]` (20_memory.md R80). -/
def State.firedAddr (s : State) (g j : Nat) : Nat := s.params.mbBase + 4 + 2 * s.params.firedCap * g + 2 * j

/-- Address of word `w` of a bit array (20_memory.md R80, 44_sleep_wake.md R234). -/
def State.arrayAddr (s : State) (x : BitArray) (w : Nat) : Nat :=
  let base := s.params.mbBase + 4 + 4 * s.params.firedCap
  match x with
  | .enabled => base + 4 * w
  | .detection => base + 4 * s.nwords + 4 * w
  | .polarity => base + 8 * s.nwords + 4 * w

/-- `MemRead(a, n)` (00_scope.md R11, 20_memory.md R84). -/
def memRead (s : State) (a n : Nat) : Except Fault (Nat × State) :=
  if s.inMailbox a n then .ok (Memory.readField s.params.mbByteOrder s.mem a n, s.access)
  else .error (.noSuchAddress a)

/-- `MemWrite(a, n, v)` (00_scope.md R11, 20_memory.md R84). -/
def memWrite (s : State) (a n v : Nat) : Except Fault State :=
  if s.inMailbox a n then .ok { s.access with mem := Memory.writeField s.params.mbByteOrder s.mem a n v }
  else .error (.noSuchAddress a)

/-- The outcome of an activity that accesses the mailbox. -/
def answer : Except Fault State → Answer
  | .ok s => .next s
  | .error f => .fault f

end Sys2Proof.Machine
end

