-- ==== Sys2Proof/Machine/Operands.lean ====
section
/-! DEFINITION. The operand forms: a pin number and an interrupt number resolved to a bank and a bit (00_scope.md R7, R8;
42_irq_facade.md R181), and the admission of a host command (60_exceptions.md R264, R265, R268). -/

namespace Sys2Proof.Machine

/-- Pin `p` belongs to bank `k` (00_scope.md R7). -/
def Bank.owns (k : Bank) (p : Nat) : Bool := decide (k.desc.start ≤ p) && decide (p ≤ k.desc.last)

/-- `resolve(p)` over the banks from index `b` on. -/
def resolveFrom (b : Nat) : List Bank → Nat → Option (Nat × Nat)
  | [], _ => none
  | k :: ks, p => if k.owns p then some (b, p - k.desc.start) else resolveFrom (b + 1) ks p

/-- `resolve(p)`: the bank and the bit offset of a global pin, or none (00_scope.md R7). -/
def resolve (s : State) (p : Nat) : Option (Nat × Nat) := resolveFrom 0 s.banks p

/-- `resolve_irq(n)` (00_scope.md R8). -/
def resolveIrq (s : State) (n : Nat) : Option (Nat × Nat) :=
  if s.params.baseIrq ≤ n then resolve s (n - s.params.baseIrq) else none

/-- A command starts only from IDLE (10_state.md R52) and only after boot (60_exceptions.md R265 (o)). -/
def admitBooted (c : Instr) (s : State) (body : State → Answer) : Answer :=
  if s.seq.isIdle then
    if s.booted then body s else .next (s.refuse .notBooted (.command c))
  else .refused .sequencerBusy

/-- A host command other than EXIT_SLEEP is refused while ASLEEP (60_exceptions.md R265 (a)). -/
def admitAwake (c : Instr) (s : State) (body : State → Answer) : Answer :=
  admitBooted c s fun s =>
    match s.sleepState with
    | .asleep => .next (s.refuse .asleep (.command c))
    | .awake => body s

/-- A pin or interrupt command on the pin its operand resolved to: `OutOfRange` before any access when there is none
(40_pin_config.md R141), else the body on the bank and the bit offset, and a result with status OK. -/
def onResolved (c : Instr) (s : State) (target : Option (Nat × Nat)) (body : State → Nat → Nat → State) : Answer :=
  match target with
  | none => .next ((s.start c).raise c)
  | some (b, off) => .next ((body (s.start c) b off).finish c .ok false)

/-- A command on a pin number (40_pin_config.md R130, R134). -/
def onPin (c : Instr) (pin : Nat) (s : State) (body : State → Nat → Nat → State) : Answer :=
  admitAwake c s fun s => onResolved c s (resolve s pin) body

/-- A command on an interrupt number (42_irq_facade.md R181). -/
def onIrq (c : Instr) (irq : Nat) (s : State) (body : State → Nat → Nat → State) : Answer :=
  admitAwake c s fun s => onResolved c s (resolveIrq s irq) body

end Sys2Proof.Machine
end

