-- ==== Sys2Proof/Machine/Demux.lean ====
section
/-! DEFINITION. The demultiplexer: LINE_IRQ and the atomic steps of its pass (spec/43_demux.md). -/

namespace Sys2Proof.Machine

/-- The first bank of line `l` with index `from` or more, the banks given being those from index `b` on (R215). -/
def nextBankFrom (b : Nat) : List Bank → Nat → Nat → Option Nat
  | [], _, _ => none
  | k :: ks, l, low => if low ≤ b ∧ k.desc.line = l then some b else nextBankFrom (b + 1) ks l low

/-- The first bank of line `l` with index `low` or more, in ascending order (R215). -/
def nextBank (s : State) (l low : Nat) : Option Nat := nextBankFrom 0 s.banks l low

/-- `Snapshot(b)` (R211): one access; the shadow is read and not cleared. -/
def snapshot (s : State) (l b : Nat) : State :=
  let (st, s1) := regRead s b .intStatus
  let k := s1.bank b
  { s1 with pass := some ⟨l, b, (st ||| k.shadow) &&& k.en0⟩ }

/-- `Dispatch(b, i)` (R213). -/
def dispatch (s : State) (b i : Nat) : State :=
  s.emit (.dispatch (s.params.baseIrq + (s.bank b).desc.start + i) .demux)

/-- The line acknowledgement and the end of the pass (R210, R214). -/
def passEnd (s : State) (l : Nat) : State :=
  { s.emit (.lineAck l) |>.emit (.result (.lineIrq l) (resultWord (.lineIrq l) .ok false)) with pass := none }

/-- The pass goes on to the next bank of its line, or ends (R210). -/
def passVisit (s : State) (l low : Nat) : State :=
  match nextBank s l low with
  | some b => snapshot s l b
  | none => passEnd s l

/-- One atomic step of an active pass: dispatch the lowest set bit of the working word and clear it there (R212, R213),
or, the word being 0, visit the next bank. -/
def passStep (s : State) (p : Pass) : State :=
  if p.work ≠ 0 then
    { dispatch s p.bank (lsb p.work) with pass := some { p with work := p.work &&& ~~~bitAt (lsb p.work) } }
  else passVisit s p.line (p.bank + 1)

/-- LINE_IRQ (R210): the pass starts with its first atomic step; `advance` takes the others, with host commands between
them (assumption log 12). A line the platform does not have is an illegal encoding (30_encoding.md R113 (e)); the line
agent issues the command only while AWAKE and outside a pass (60_exceptions.md R275). -/
def execLineIrq (line : Nat) (s : State) : Answer :=
  if s.seq.isIdle then
    if line < s.params.numLines then
      admitBooted (.lineIrq line) s fun s =>
        match s.sleepState, s.pass with
        | .awake, none => .next { passVisit (s.start (.lineIrq line)) line 0 with seq := .idle }
        | _, _ => .refused .lineAgentDuty
    else .next (s.refuse .illegalCommand (.command (.lineIrq line)))
  else .refused .sequencerBusy

end Sys2Proof.Machine
end

