-- ==== Sys2Proof/Machine/Sleep.lean ====
section
/-! DEFINITION. The sleep and wake handoff: the wake-bit packer, ENTER_SLEEP, EXIT_SLEEP, REPLAY (spec/44_sleep_wake.md). -/

namespace Sys2Proof.Machine

/-! ### The wake-bit packer -/

/-- `MemWrite(a, 4, MemRead(a, 4) | m)` (R234). -/
def orWord (s : State) (a : Nat) (m : Word) : Except Fault State := do
  let (x, s1) ← memRead s a 4
  memWrite s1 a 4 (BitVec.ofNat 32 x ||| m).toNat

/-- `PackInto(X, b, M)` (R234). -/
def packInto (s : State) (x : BitArray) (b : Nat) (m : Word) : Except Fault State := do
  let k := s.bank b
  let m := m &&& k.wmask
  let w0 := k.desc.start / 32
  let sh := k.desc.start % 32
  let s1 ← orWord s (s.arrayAddr x w0) (m <<< sh)
  if sh + k.width > 32 then orWord s1 (s.arrayAddr x (w0 + 1)) (m >>> (32 - sh)) else .ok s1

/-- `Unpack(X, b)`, the coprocessor's gather (R235); the block itself never unpacks. -/
def unpack (s : State) (x : BitArray) (b : Nat) : Word :=
  let k := s.bank b
  let w0 := k.desc.start / 32
  let sh := k.desc.start % 32
  let word (w : Nat) : Word := BitVec.ofNat 32 (Memory.readField s.params.mbByteOrder s.mem (s.arrayAddr x w) 4)
  ((word w0 >>> sh) ||| (if sh + k.width > 32 then word (w0 + 1) <<< (32 - sh) else 0)) &&& k.wmask

/-- `en[b][sel]`: `sel` is 0, the active set, from idle, and 1, the wake set, for deep sleep (R239). -/
def Bank.selected (k : Bank) (fromIdle : Bool) : Word := if fromIdle then k.en0 else k.en1

/-- `Pack(b, sel)` (R233). -/
def packBank (s : State) (b : Nat) (fromIdle : Bool) : Except Fault State := do
  let s1 ← packInto s .enabled b ((s.bank b).selected fromIdle)
  let (d, s2) := regRead s1 b .intEdge
  let s3 ← packInto s2 .detection b d
  let (q, s4) := regRead s3 b .intPos
  packInto s4 .polarity b q

/-- `Pack(b, sel)` for the banks of a list of indices, in order. -/
def packBanks (s : State) (fromIdle : Bool) : List Nat → Except Fault State
  | [] => .ok s
  | b :: bs => do
    let s1 ← packBank s b fromIdle
    packBanks s1 fromIdle bs

/-- The fields of the mailbox in ascending offset, each with its address and its width in bytes (20_memory.md R80). -/
def State.mailboxFields (s : State) : List (Nat × Nat) :=
  (List.range 2).map (fun g => (s.countAddr g, 2)) ++
  (List.range 2).flatMap (fun g => (List.range s.params.firedCap).map fun j => (s.firedAddr g j, 2)) ++
  [BitArray.enabled, .detection, .polarity].flatMap fun x => (List.range s.nwords).map fun w => (s.arrayAddr x w, 4)

/-- Writes 0 to each field of a list. -/
def clearFields (s : State) : List (Nat × Nat) → Except Fault State
  | [] => .ok s
  | (a, n) :: fs => do
    let s1 ← memWrite s a n 0
    clearFields s1 fs

/-- `MailboxClear()` (R231). -/
def mailboxClear (s : State) : Except Fault State := clearFields s s.mailboxFields

/-- `RegWrite(b, int_en, en[b][sel])` for the banks of a list of indices, in order (R232, R236). -/
def writeEnables (s : State) (fromIdle : Bool) : List Nat → State
  | [] => s
  | b :: bs => writeEnables (regWrite s b .intEn ((s.bank b).selected fromIdle)) fromIdle bs

/-- The bank indices in ascending order. -/
def State.bankIndices (s : State) : List Nat := List.range s.banks.length

/-! ### The commands -/

/-- The mailbox side of ENTER_SLEEP: clear, then pack every bank; nothing with no mailbox (R231, R233, R240). -/
def handOff (s : State) (fromIdle : Bool) : Except Fault State :=
  if s.mailboxPresent then do
    let s1 ← mailboxClear s
    packBanks s1 fromIdle s1.bankIndices
  else .ok s

/-- The body of ENTER_SLEEP (R230, R240): hand off, write the enables, result, ASLEEP. -/
def enterSleepBody (s : State) (fromIdle : Bool) : Except Fault State := do
  let s1 ← handOff s fromIdle
  let s2 := writeEnables s1 fromIdle s1.bankIndices
  return { s2.finish (.enterSleep fromIdle) .ok false with sleepState := .asleep }

/-- ENTER_SLEEP (R230); refused inside a pass or a replay (60_exceptions.md R265 (c)). -/
def execEnterSleep (fromIdle : Bool) (s : State) : Answer :=
  admitAwake (.enterSleep fromIdle) s fun s =>
    match s.pass, s.replayRun with
    | none, none => answer (enterSleepBody (s.start (.enterSleep fromIdle)) fromIdle)
    | _, _ => .next (s.refuse .busy (.command (.enterSleep fromIdle)))

/-- The counts are read, and a count above 0 makes a replay pending; nothing with no mailbox (R236, R237, R240). -/
def takeReport (s : State) : Except Fault State :=
  if s.mailboxPresent then do
    let (n0, s1) ← memRead s (s.countAddr 0) 2
    let (n1, s2) ← memRead s1 (s.countAddr 1) 2
    return { s2 with replayPending := s2.replayPending || decide (n0 > 0) || decide (n1 > 0) }
  else .ok s

/-- The body of EXIT_SLEEP (R236): AWAKE, restore the active set, take the report, result. -/
def exitSleepBody (s : State) : Except Fault State := do
  let s1 := writeEnables { s with sleepState := .awake } true s.bankIndices
  let s2 ← takeReport s1
  return s2.finish .exitSleep .ok false

/-- EXIT_SLEEP (R236); refused while AWAKE (60_exceptions.md R265 (b)). -/
def execExitSleep (s : State) : Answer :=
  admitBooted .exitSleep s fun s =>
    match s.sleepState with
    | .awake => .next (s.refuse .notAsleep (.command .exitSleep))
    | .asleep => answer (exitSleepBody (s.start .exitSleep))

/-! ### The replay (R238) -/

/-- Group `g` of the replay begins: its count is read, and a count above K sets the fault mark (60_exceptions.md R263). -/
def replayGroup (s : State) (g : Nat) : Except Fault State := do
  let (n, s1) ← memRead s (s.countAddr g) 2
  let s2 := { s1 with replayRun := some ⟨g, n, 0⟩ }
  if n > s.params.firedCap then .ok { s2 with fault := some (.mailboxCountOverflow g n) } else .ok s2

/-- The event of one fired entry: a dispatch, or a log entry for a pin in no bank (R238, 60_exceptions.md R260). -/
def replayEvent (s : State) (p : Nat) : Event :=
  match resolve s p with
  | none => .logOutOfRange p
  | some _ => .dispatch (s.params.baseIrq + p) .replay

/-- The end of the replay (R238). -/
def replayEnd (s : State) : State :=
  { s.emit (.result .replay (resultWord .replay .ok false)) with replayPending := false, replayRun := none }

/-- One atomic step of a running replay. After a fault it makes no further step (60_exceptions.md R263). -/
def replayStep (s : State) (c : ReplayCursor) : Except Fault State :=
  match s.fault with
  | some _ => .ok s
  | none =>
    if c.index < c.count then do
      let (p, s1) ← memRead s (s.firedAddr c.group c.index) 2
      return { s1.emit (replayEvent s1 p) with replayRun := some { c with index := c.index + 1 } }
    else if c.group = 0 then replayGroup s 1
    else .ok (replayEnd s)

/-- REPLAY (R238): the replay starts with group 0; `advance` takes the other steps (assumption log 13). The bottom-half
agent issues the command only when a replay is pending, AWAKE, outside a pass, and none is running (60_exceptions.md
R276). -/
def execReplay (s : State) : Answer :=
  admitBooted .replay s fun s =>
    match s.replayPending, s.sleepState, s.pass, s.replayRun with
    | true, .awake, none, none =>
      match replayGroup (s.start .replay) 0 with
      | .ok t => .next { t with seq := .idle }
      | .error f => .fault f
    | _, _, _, _ => .refused .bottomHalfDuty

end Sys2Proof.Machine
end

