-- ==== Sys2Proof/Machine/Agents.lean ====
section
/-! DEFINITION. The agents besides the sequencer (60_exceptions.md R285): boot registration, the pin environment between
commands, the coprocessor, the steps of a pass or a replay, and the command port that hands a command to the sequencer. -/

namespace Sys2Proof.Machine

/-! ### Boot (70_reset_and_hazards.md R302, R303) -/

/-- The nine addresses of a bank. -/
def RegAddrsList (a : RegAddrs) : List Nat :=
  [a.out.toNat, a.inp.toNat, a.intStatus.toNat, a.intClear.toNat, a.intEn.toNat, a.intEdge.toNat, a.intPos.toNat,
    a.oe.toNat, a.owner.toNat]

/-- Two pin ranges have no pin in common (00_scope.md R6). -/
def rangesDisjoint (a b : Bank) : Bool := decide (a.desc.last < b.desc.start) || decide (b.desc.last < a.desc.start)

/-- Every two ranges of a list are disjoint. -/
def allDisjoint : List Bank → Bool
  | [] => true
  | k :: ks => ks.all (rangesDisjoint k) && allDisjoint ks

/-- One bank meets its own constraints: `start <= end`, at most 32 pins, a line that exists (00_scope.md R4, R6). -/
def bankFits (p : Params) (k : Bank) : Bool :=
  decide (k.desc.start ≤ k.desc.last) && decide (k.width ≤ 32) && decide (k.desc.line < p.numLines)

/-- The constraints on the platform: the bank table's (00_scope.md R6), with the domains of the parameters of R4 and the
alignment of the mailbox (20_memory.md R85) checked beside them (DESIGN CHOICE, assumption log 10). -/
def tableOk (p : Params) (banks : List Bank) : Bool :=
  decide (banks ≠ []) && banks.all (bankFits p) && allDisjoint banks &&
  (banks.flatMap fun k => RegAddrsList k.desc.addrs).all (fun a => decide (a % 4 = 0)) &&
  decide (banks.flatMap fun k => RegAddrsList k.desc.addrs).Nodup &&
  decide (p.baseIrq + pinCount banks ≤ 65536) &&
  decide (1 ≤ p.beMaxPasses) && decide (1 ≤ p.firedCap) && decide (p.mbBase % 4 = 0)

/-- The masks of bank `b` to 0, then `int_en` to 0, for the banks of a list of indices (R302). -/
def bootBanks (s : State) : List Nat → State
  | [] => s
  | b :: bs =>
    let s1 := s.setBank b fun k => { k with en0 := 0, en1 := 0, be := 0, shadow := 0 }
    bootBanks (regWrite s1 b .intEn 0) bs

/-- Mailbox allocation (R303). -/
def mailboxAllocation (s : State) : State :=
  let s1 := { s with mailboxPresent := s.params.mailboxPresent }
  if s.params.mailboxPresent then s1 else s1.emit .mailboxUnavailable

/-- Boot registration, run once by the platform (R302): on a booted block it has no step (assumption log 2). Whether it may
be tried again after a table was refused is left open by the spec (00_scope.md R6, "checked once at boot"); here every
boot input on a block that is not booted checks the table, and refuses it, again (DESIGN CHOICE, safe, assumption log
24). -/
def bootRegistration (s : State) : Answer :=
  if s.booted then .refused .platformDuty
  else if tableOk s.params s.banks then
    .next { mailboxAllocation (bootBanks s s.bankIndices) with booted := true }
  else .next (s.refuse .badBankTable .boot)

/-! ### The other agents -/

/-- The pin environment steps between two commands (60_exceptions.md R270). -/
def pinEnvironment (s : State) (p : PinStep) : State := { s with banks := pinSteps s.sleepState [p] 0 s.banks }

/-- The coprocessor writes a byte of the mailbox: only while ASLEEP and nowhere else (60_exceptions.md R282, R283). -/
def coprocessorWrite (s : State) (offset : Nat) (v : Byte) : Answer :=
  let a := s.params.mbBase + offset
  match s.sleepState with
  | .asleep =>
    if s.inMailbox a 1 then .next { s with mem := Memory.write s.mem a v } else .refused .coprocessorDuty
  | .awake => .refused .coprocessorDuty

/-- The next atomic step of the active pass, else of the running replay (a pass preempts the replay, never the reverse,
60_exceptions.md R276), else nothing. Each step is one use of the sequencer, which is IDLE before it (10_state.md R52). -/
def advance (s : State) : Answer :=
  if s.seq.isIdle then
    match s.pass with
    | some p => .next (passStep s p)
    | none =>
      match s.replayRun with
      | some c => answer (replayStep s c)
      | none => .next s
  else .refused .sequencerBusy

/-! ### The command port (30_encoding.md R100, R104) -/

/-- What the block does next. -/
inductive Fetched where
  /-- run a decoded command -/
  | run (i : Instr) (s : State)
  /-- anything else, done -/
  | done (o : Answer)

/-- Words are presented on the command port: the first command's words are taken, by the length its OP fixes, and any
words after them stay as the next input (assumption log 15). An illegal command is refused (60_exceptions.md R264). -/
def fetchCommand (s : State) (ws : List Word) : Fetched :=
  match ws with
  | [] => .done (.refused .commandPort)
  | c :: rest =>
    if s.seq.isIdle then
      if ws.length < commandLength c then .done (.refused .commandPort)
      else
        let later := rest.drop (commandLength c - 1)
        let s1 := if later = [] then s else { s with agenda := .command later :: s.agenda }
        match decode (ws.take (commandLength c)) with
        | .ok i => .run i s1
        | .error _ => .done (.next (s1.refuse .illegalCommand (.words (ws.take (commandLength c)))))
    else .done (.refused .sequencerBusy)

/-- The next input of the agenda is taken; with none left, an active pass or replay goes on, and an idle block stays as it
is (assumption log 5). -/
def fetch (s : State) : Fetched :=
  match s.agenda with
  | [] => .done (advance s)
  | i :: rest =>
    let s1 := { s with agenda := rest }
    match i with
    | .boot => .done (bootRegistration s1)
    | .command ws => fetchCommand s1 ws
    | .pins p => .done (.next (pinEnvironment s1 p))
    | .mailboxByte o v => .done (coprocessorWrite s1 o v)
    | .proceed => .done (advance s1)

/-- A state in which the command whose words are `ws` is the next input and the port accepts it: booted as boot
registration leaves it, the sequencer idle (assumption log 14). -/
def presentCommand (s : State) (ws : List Word) : State :=
  let s1 := if s.booted then s else { s with booted := true, mailboxPresent := s.params.mailboxPresent }
  { s1 with
    seq := .idle
    replayPending := s.replayPending || decide (ws.map opField = [0xB])
    agenda := .command ws :: s.agenda }

end Sys2Proof.Machine
end

