-- ==== Sys2Proof/Machine/BothEdge.lean ====
section
/-! DEFINITION. The both-edge convergence state machine (spec/41_both_edge.md). -/

namespace Sys2Proof.Machine

/-- The polarity that arms every both-edge pin away from level `v1` and keeps the other bits of `p` (R162). -/
def armedPolarity (be p v1 : Word) : Word := (p &&& ~~~be) ||| (~~~v1 &&& be)

/-- One pass, states S1 to S5: five accesses, their values left in the registers of R53 (R161 to R164). -/
def bothEdgePass (s : State) (b iter : Nat) : State :=
  let (v1, s1) := regRead s b .inp
  let (p, s2) := regRead s1 b .intPos
  let pol := armedPolarity (s2.bank b).be p v1
  let s3 := regWrite s2 b .intPos pol
  let (st, s4) := regRead s3 b .intStatus
  let (v2, s5) := regRead s4 b .inp
  { s5 with beRegs := some ⟨iter, v1, p, pol, st, v2⟩ }

/-- S6 CHECK: every both-edge bit kept its level or is pending (R165). -/
def bothEdgeStable (be : Word) (r : BothEdgeRegs) : Bool := decide ((r.v1 ^^^ r.v2) &&& be &&& ~~~r.st = 0)

/-- The passes still allowed, from pass number `iter`: exit STABLE, exit BOUND with its log event, or retry (R165, R166).
The registers hold no value after the exit (R53). -/
def bothEdgeLoop (s : State) (b iter : Nat) : Nat → State
  | 0 => { s with beRegs := none }
  | left + 1 =>
    let s1 := bothEdgePass s b iter
    let r := s1.beRegs.getD default
    if bothEdgeStable (s1.bank b).be r then { s1 with beRegs := none }
    else if left = 0 then { s1.emit (.convergenceBound b r.v1 r.v2) with beRegs := none }
    else bothEdgeLoop s1 b (iter + 1) left

/-- `BothEdge(b)`: at most `BE_MAX_PASSES` passes (R161, R166, R167). -/
def bothEdge (s : State) (b : Nat) : State := bothEdgeLoop s b 0 s.params.beMaxPasses

end Sys2Proof.Machine
end

