-- ==== Sys2Proof/Machine/Facade.lean ====
section
/-! DEFINITION. The interrupt facade: MASK, UNMASK, ACK, SET_WAKE (spec/42_irq_facade.md). -/

namespace Sys2Proof.Machine

/-! ### Updates of the software masks -/

/-- `shadow <- (shadow | (s & WMASK)) & ~bit` (R185). -/
def Bank.foldShadow (st bit : Word) (k : Bank) : Bank :=
  { k with shadow := (k.shadow ||| (st &&& k.wmask)) &&& ~~~bit }

/-- `shadow <- shadow & ~bit` (R180). -/
def Bank.dropShadow (bit : Word) (k : Bank) : Bank := { k with shadow := k.shadow &&& ~~~bit }

/-- `en[b][0] <- en[b][0] & ~bit` (R180). -/
def Bank.disable (bit : Word) (k : Bank) : Bank := { k with en0 := k.en0 &&& ~~~bit }

/-- `en[b][0] <- en[b][0] | bit` (R182). -/
def Bank.enable (bit : Word) (k : Bank) : Bank := { k with en0 := k.en0 ||| bit }

/-- `en[b][1] <- V ? (en[b][1] | bit) : (en[b][1] & ~bit)` (R184). -/
def Bank.setWake (bit : Word) (v : Bool) (k : Bank) : Bank := { k with en1 := withBit k.en1 bit v }

/-! ### The bodies -/

/-- `ClearDetect(b, off)` (R185): sample the status, fold it into the shadow without the pin's bit, write `int_clear`, and
rerun the both-edge machine when the pin is a both-edge pin. -/
def clearDetect (s : State) (b off : Nat) : State :=
  let bit := bitAt off
  let (st, s1) := regRead s b .intStatus
  let s2 := s1.maskUpdate b (Bank.foldShadow st bit)
  let s3 := regWrite s2 b .intClear bit
  if (s3.bank b).be &&& bit ≠ 0 then bothEdge s3 b else s3

/-- `MaskBody(b, off)` (R180). -/
def maskBody (s : State) (b off : Nat) : State :=
  let bit := bitAt off
  let s1 := s.maskUpdate b (Bank.disable bit)
  let s2 := s1.maskUpdate b (Bank.dropShadow bit)
  regWrite s2 b .intEn (s2.bank b).en0

/-- `UnmaskBody(b, off)` (R182): a level-triggered pin first loses its stale pending state. -/
def unmaskBody (s : State) (b off : Nat) : State :=
  let (e, s1) := regRead s b .intEdge
  let s2 := if e.getLsbD off then s1 else clearDetect s1 b off
  let s3 := s2.maskUpdate b (Bank.enable (bitAt off))
  regWrite s3 b .intEn (s3.bank b).en0

/-- `WakeBody(b, off, V)` (R184): the wake set only, no register access. -/
def wakeBody (s : State) (b off : Nat) (v : Bool) : State := s.maskUpdate b (Bank.setWake (bitAt off) v)

/-- MASK (R180). -/
def execMask (irq : Nat) (s : State) : Answer := onIrq (.mask irq) irq s maskBody

/-- UNMASK (R182). -/
def execUnmask (irq : Nat) (s : State) : Answer := onIrq (.unmask irq) irq s unmaskBody

/-- ACK (R183). -/
def execAck (irq : Nat) (s : State) : Answer := onIrq (.ack irq) irq s clearDetect

/-- SET_WAKE (R184). -/
def execSetWake (irq : Nat) (enable : Bool) (s : State) : Answer :=
  onIrq (.setWake irq enable) irq s fun s b off => wakeBody s b off enable

end Sys2Proof.Machine
end

