-- ==== Sys2Proof/Machine/PinConfig.lean ====
section
/-! DEFINITION. The pin configuration engine: CONFIGURE, READ, WRITE, SET_TYPE (spec/40_pin_config.md). -/

namespace Sys2Proof.Machine

/-- The read-modify-write of one bit of a register (R131, R135, R136; 20_memory.md R91). -/
def modifyBit (s : State) (b : Nat) (r : Reg) (bit : Word) (val : Bool) : State :=
  let (v, s1) := regRead s b r
  regWrite s1 b r (withBit v bit val)

/-- `OutputGroup(b, bit, val)` (R131). -/
def outputGroup (s : State) (b : Nat) (bit : Word) (val : Bool) : State := modifyBit s b .out bit val

/-- `DirectionGroup(b, bit, val)`: 1 is output-enable (R135). -/
def directionGroup (s : State) (b : Nat) (bit : Word) (val : Bool) : State := modifyBit s b .oe bit val

/-- `OwnerGroup(b, bit, val)`: 1 names `OWNER_ONE_IS` (R136). -/
def ownerGroup (s : State) (b : Nat) (bit : Word) (val : Bool) : State := modifyBit s b .owner bit val

/-- TRIG_EDGE of a trigger setting (30_encoding.md R119). -/
def triggerEdge : Trigger → Bool
  | .edgeRise => true
  | .edgeFall => true
  | .edgeBoth => true
  | .levelHigh => false
  | .levelLow => false

/-- TRIG_POL of a trigger setting: `none` is both polarities, `some true` rising or high, `some false` falling or low
(30_encoding.md R102, R119). -/
def triggerPolarity : Trigger → Option Bool
  | .edgeRise => some true
  | .edgeFall => some false
  | .edgeBoth => none
  | .levelHigh => some true
  | .levelLow => some false

/-- `be[b] <- be[b] | bit` (R137). -/
def Bank.joinBothEdge (bit : Word) (k : Bank) : Bank := { k with be := k.be ||| bit }

/-- `be[b] <- be[b] & ~bit` (R137). -/
def Bank.leaveBothEdge (bit : Word) (k : Bank) : Bank := { k with be := k.be &&& ~~~bit }

/-- `TriggerGroup(b, bit, edge, pol)` (R137): `int_edge` first, then the both-edge machine or the polarity. -/
def triggerGroup (s : State) (b : Nat) (bit : Word) (t : Trigger) : State :=
  let s1 := modifyBit s b .intEdge bit (triggerEdge t)
  match triggerPolarity t with
  | none => bothEdge (s1.maskUpdate b (Bank.joinBothEdge bit)) b
  | some rising => modifyBit (s1.maskUpdate b (Bank.leaveBothEdge bit)) b .intPos bit rising

/-- An option group that is applied only when present (R130). -/
def whenPresent {α : Type} (o : Option α) (s : State) (f : State → α → State) : State :=
  match o with
  | none => s
  | some v => f s v

/-- The interrupt-enable group (R138). -/
def enableGroup (s : State) (b off : Nat) (enable : Bool) : State :=
  if enable then unmaskBody s b off else maskBody s b off

/-- The groups of a CONFIGURE in their order: output level, direction, ownership, trigger, interrupt enable, wake
(R130). -/
def configureBody (opts : Options) (s : State) (b off : Nat) : State :=
  let bit := bitAt off
  let s1 := whenPresent opts.out s fun s v => outputGroup s b bit v
  let s2 := whenPresent opts.dir s1 fun s v => directionGroup s b bit v
  let s3 := whenPresent opts.own s2 fun s v => ownerGroup s b bit v
  let s4 := whenPresent opts.trig s3 fun s t => triggerGroup s b bit t
  let s5 := whenPresent opts.int s4 fun s v => enableGroup s b off v
  whenPresent opts.wake s5 fun s v => wakeBody s b off v

/-- CONFIGURE (R130). -/
def execConfigure (pin : Nat) (opts : Options) (s : State) : Answer :=
  onPin (.configure pin opts) pin s (configureBody opts)

/-- READ (R132): the pad level of the pin, in bit 0 of the result. -/
def execRead (pin : Nat) (s : State) : Answer :=
  admitAwake (.read pin) s fun s =>
    match resolve s pin with
    | none => .next ((s.start (.read pin)).raise (.read pin))
    | some (b, off) =>
      let (v, s1) := regRead (s.start (.read pin)) b .inp
      .next (s1.finish (.read pin) .ok (v.getLsbD off))

/-- WRITE (R134). -/
def execWrite (pin : Nat) (level : Bool) (s : State) : Answer :=
  onPin (.write pin level) pin s fun s b off => outputGroup s b (bitAt off) level

/-- SET_TYPE (R140). -/
def execSetType (irq : Nat) (trig : Trigger) (s : State) : Answer :=
  onIrq (.setType irq trig) irq s fun s b off => triggerGroup s b (bitAt off) trig

end Sys2Proof.Machine
end

