-- ==== Sys2Proof/Machine/Dispatch.lean ====
section
/-! DEFINITION. The meaning of each command (30_encoding.md R112). -/

namespace Sys2Proof.Machine

def exec (i : Instr) (s : State) : Host.Outcome State Fault Refusal :=
  match i with
  | .configure pin opts => Sys2Proof.Machine.execConfigure pin opts s
  | .read pin => Sys2Proof.Machine.execRead pin s
  | .write pin level => Sys2Proof.Machine.execWrite pin level s
  | .mask irq => Sys2Proof.Machine.execMask irq s
  | .unmask irq => Sys2Proof.Machine.execUnmask irq s
  | .ack irq => Sys2Proof.Machine.execAck irq s
  | .setType irq trig => Sys2Proof.Machine.execSetType irq trig s
  | .setWake irq enable => Sys2Proof.Machine.execSetWake irq enable s
  | .lineIrq line => Sys2Proof.Machine.execLineIrq line s
  | .enterSleep fromIdle => Sys2Proof.Machine.execEnterSleep fromIdle s
  | .exitSleep => Sys2Proof.Machine.execExitSleep s
  | .replay => Sys2Proof.Machine.execReplay s

end Sys2Proof.Machine
end

