-- ==== Sys2Proof/Machine/Step.lean ====
section
/-! DEFINITION. One step of the block: the next input of the agenda, a decoded command being run by `exec`. -/

namespace Sys2Proof.Machine

/-- One step. -/
def step (s : State) : Host.Outcome State Fault Refusal :=
  match fetch s with
  | .run i t => exec i t
  | .done o => o

/-- `s` with the command of bits `w` (numbered as the opcode table numbers them) as the input the next step takes. -/
def State.withFetchWord (s : State) (nbits w : Nat) : State := presentCommand s (tableWords (w % 2 ^ nbits))

end Sys2Proof.Machine
end

