-- ==== Sys2Proof/Safety.lean ====
section
/-! DEFINITION. What the statements about the block are said with: when a command is admitted, what the pin environment
may do to a bank, the frame of a command, the invariant of the machine. -/

namespace Sys2Proof.Machine

/-- A host command is admitted: the sequencer is idle, with no both-edge machine running (10_state.md R52, R53; the
invariant below), and the block is booted and awake (60_exceptions.md R265, R285). -/
structure State.Ready (s : State) : Prop where
  idle   : s.seq = .idle
  noRun  : s.beRegs = none
  booted : s.booted = true
  awake  : s.sleepState = .awake

/-- `k'` is `k` but for what the pin environment may do while AWAKE or ASLEEP (60_exceptions.md R270): another pad level,
more status bits. -/
structure Bank.PinsOnly (k k' : Bank) : Prop where
  same : k' = { k with pad := k'.pad, intStatus := k'.intStatus }
  kept : k.intStatus &&& ~~~k'.intStatus = 0

/-- Nothing outside bank `b` changed but what the pin environment may do (10_state.md R33). -/
structure OthersKept (b : Nat) (s t : State) : Prop where
  length : t.banks.length = s.banks.length
  banks  : ∀ b', b' ≠ b → (s.bank b').PinsOnly (t.bank b')

/-- The frame of a command that stores nothing to memory: all of the state but the banks, the event history and the
model's own free values is as it was, memory byte by byte. -/
structure Frame (s t : State) : Prop where
  rest  : t = { s with banks := t.banks, choices := t.choices, events := t.events }
  bytes : ∀ a, Memory.read t.mem a = Memory.read s.mem a

/-- The next step is one of an active pass or a running replay, and leaves `rest` as the agenda: the agenda says to go on,
or is empty (assumption log 5). -/
def State.GoesOn (s : State) (rest : List Input) : Prop := s.agenda = .proceed :: rest ∨ (s.agenda = [] ∧ rest = [])

/-- The pin environment did nothing from `s` to `t`: every entry of the list it acts by that was used up is empty, and the
list itself was not used up (00_scope.md R12, assumption log 4). -/
def SteadyPins (s t : State) : Prop :=
  ∃ used, s.choices.pins = used ++ t.choices.pins ∧ (∀ p ∈ used, p = []) ∧ t.choices.pins ≠ []

/-- The events a command adds: logs of the both-edge machine of bank `b` (41_both_edge.md R166), then its result. -/
def EventsAdded (b : Nat) (s t : State) (result : Event) : Prop :=
  ∃ logs : List Event, t.events = s.events ++ logs ++ [result] ∧
    ∀ e ∈ logs, ∃ v1 v2, e = .convergenceBound b v1 v2

/-- The masks of a bank have no bit above `WIDTH[b]` (10_state.md R43 to R46). -/
structure Bank.MasksFit (k : Bank) : Prop where
  en0    : k.en0 &&& ~~~k.wmask = 0
  en1    : k.en1 &&& ~~~k.wmask = 0
  be     : k.be &&& ~~~k.wmask = 0
  shadow : k.shadow &&& ~~~k.wmask = 0

/-- The invariant of the machine. -/
structure Inv (s : State) : Prop where
  /-- between two steps no command is in progress (10_state.md R52) and no both-edge machine runs (R53) -/
  idle : s.seq = .idle
  noRun : s.beRegs = none
  /-- memory is in canonical form -/
  memory : Memory.wf s.mem = true
  /-- a booted block has a bank table that passed R6, and the mailbox the platform allocated (10_state.md R51) -/
  table : s.booted = true → tableOk s.params s.banks = true
  mailbox : s.booted = true → s.mailboxPresent = s.params.mailboxPresent
  /-- masks stay within the bank's pins (10_state.md R43 to R46) -/
  masks : ∀ k ∈ s.banks, k.MasksFit
  /-- `int_en` agrees with the active set while AWAKE (10_state.md R48) -/
  enables : s.booted = true → s.sleepState = .awake → ∀ k ∈ s.banks, k.intEn &&& k.wmask = k.en0
  /-- only a booted block sleeps, and neither a pass nor a replay runs while it sleeps (60_exceptions.md R265 (c)) -/
  asleep : s.sleepState = .asleep → s.booted = true ∧ s.pass = none ∧ s.replayRun = none
  /-- a pass is on a bank of its line, and dispatches only pins of that bank (43_demux.md R211) -/
  pass : ∀ p, s.pass = some p → p.bank < s.banks.length ∧ (s.bank p.bank).desc.line = p.line ∧
    p.work &&& ~~~(s.bank p.bank).wmask = 0
  /-- a replay runs only when one is pending, on one of the two groups, within the fired list unless it has faulted -/
  replay : ∀ c, s.replayRun = some c → s.replayPending = true ∧ c.group < 2 ∧ c.index ≤ c.count ∧
    (s.fault = none → c.count ≤ s.params.firedCap)
  /-- a replay is pending only with a mailbox (44_sleep_wake.md R240) -/
  pending : s.replayPending = true → s.mailboxPresent = true ∧ s.booted = true
  /-- the `refused` mark and the record of refusals agree (60_exceptions.md R264) -/
  marks : s.refused = true ↔ s.refusals ≠ []

/-- The set bits of a word, ascending: the order of dispatch (43_demux.md R212). -/
def setBits (w : Word) : List Nat := (List.range 32).filter fun i => w.getLsbD i

/-- Register word `v` of bank `k` after an option group (40_pin_config.md R131, R135, R136): as it was when the group is
absent, else written back as read with the pin's bit set to the group's value, `d` standing in the reserved bits of the
read (10_state.md R32). -/
def regrouped (k : Bank) (off : Nat) (v d : Word) : Option Bool → Word
  | none => v
  | some x => withBit ((v &&& k.wmask) ||| (d &&& ~~~k.wmask)) (bitAt off) x

/-- The value of a field of the mailbox. -/
def State.field (s : State) (a n : Nat) : Nat := Memory.readField s.params.mbByteOrder s.mem a n

/-- The event of a fired entry that holds pin `p` (44_sleep_wake.md R238). -/
def firedEvent (s : State) (p : Nat) : Event :=
  if ∃ k ∈ s.banks, k.desc.start ≤ p ∧ p ≤ k.desc.last then .dispatch (s.params.baseIrq + p) .replay
  else .logOutOfRange p

/-! ### Which commands may change what -/

end Sys2Proof.Machine

namespace Sys2Proof

/-- Commands with a trigger group: SET_TYPE, and CONFIGURE with TRIG_P. -/
def Instr.hasTrigger : Instr → Bool
  | .setType _ _ => true
  | .configure _ o => o.trig.isSome
  | _ => false

/-- Commands with the body of MASK or UNMASK. -/
def Instr.hasEnable : Instr → Bool
  | .mask _ => true
  | .unmask _ => true
  | .configure _ o => o.int.isSome
  | _ => false

/-- Commands that may run ClearDetect (42_irq_facade.md R185): ACK, and the body of UNMASK. -/
def Instr.hasClear : Instr → Bool
  | .ack _ => true
  | .unmask _ => true
  | .configure _ o => o.int == some true
  | _ => false

/-- Commands with the body of SET_WAKE. -/
def Instr.hasWake : Instr → Bool
  | .setWake _ _ => true
  | .configure _ o => o.wake.isSome
  | _ => false

/-- Commands with an output-level group. -/
def Instr.hasOutput : Instr → Bool
  | .write _ _ => true
  | .configure _ o => o.out.isSome
  | _ => false

/-- Commands with a direction group. -/
def Instr.hasDirection : Instr → Bool
  | .configure _ o => o.dir.isSome
  | _ => false

/-- Commands with an ownership group. -/
def Instr.hasOwner : Instr → Bool
  | .configure _ o => o.own.isSome
  | _ => false

/-- Pin and interrupt commands: those whose number may be in no bank (60_exceptions.md R260). -/
def Instr.takesPin : Instr → Bool
  | .configure _ _ => true
  | .read _ => true
  | .write _ _ => true
  | .mask _ => true
  | .unmask _ => true
  | .ack _ => true
  | .setType _ _ => true
  | .setWake _ _ => true
  | _ => false

/-- The two commands of the sleep handoff. -/
def Instr.isSleep : Instr → Bool
  | .enterSleep _ => true
  | .exitSleep => true
  | _ => false

end Sys2Proof

namespace Sys2Proof.Machine

/-! ### Ownership -/

/-- A bank without its `owner` register: what a command may depend on (10_state.md R42). -/
def Bank.ownerless (k : Bank) : Bank := { k with owner := 0 }

/-- A state without the `owner` registers. -/
def State.ownerless (s : State) : State := { s with banks := s.banks.map Bank.ownerless }

/-- Two answers that differ at most in the `owner` registers. -/
def sameButOwner : Answer → Answer → Prop
  | .next t1, .next t2 => t1.ownerless = t2.ownerless
  | .fault f1, .fault f2 => f1 = f2
  | .refused r1, .refused r2 => r1 = r2
  | _, _ => False

end Sys2Proof.Machine
end

