-- ==== Sys2Proof/Certificates/Slice0/Obligations.lean ====
section
/-! DEFINITION. The statements for the provers, from the numbered rules of spec/. `EventsAdded`, `Frame`, `OthersKept`,
`Bank.PinsOnly` and the other words they are said with stand in Sys2Proof/Safety.lean. A command leaves the pads and the
status bits to the pin environment, which may step before each of its accesses (00_scope.md R12): the statements say
what holds whatever it does, and a few say what holds when it does nothing. -/

open Sys2Proof Sys2Proof.Machine

/-! ### Reset, boot, the invariant -/

/-- The invariant holds right after reset. The reset values of the registers the spec leaves to a draw are the model's
choice (assumption logs 6, 7, 8, 9). -/
def Obligations.ResetMeetsInvariant : Prop := Inv State.reset

/-- The values 70_reset_and_hazards.md R300 states for reset, other than its draws. -/
def Obligations.ResetHoldsStatedValues : Prop :=
  let s := State.reset
  (∀ k ∈ s.banks, k.en0 = 0 ∧ k.en1 = 0 ∧ k.be = 0 ∧ k.shadow = 0) ∧ s.sleepState = .awake ∧
  s.replayPending = false ∧ s.replayRun = none ∧ s.seq = .idle ∧ s.pass = none ∧ s.events = [] ∧ s.fault = none ∧
  s.refused = false ∧ s.booted = false

/-- 70_reset_and_hazards.md R302, R303 and 60_exceptions.md R262: what boot registration does with a good table, and that
a bad one is refused; once booted it has no step (assumption log 2). That a block whose table was refused before checks
and refuses it again at a later boot input is the model's choice (assumption log 24), and so is the growing list that
records the refusal (assumption log 16). What becomes of `seq` is left to StepKeepsInvariant. -/
def Obligations.BootRegistrationRunsOnce : Prop :=
  ∀ (s : State) (rest : List Input), s.agenda = .boot :: rest →
    (s.booted = false → tableOk s.params s.banks = true →
      ∃ t, step s = .next t ∧ t.booted = true ∧ t.mailboxPresent = s.params.mailboxPresent ∧
        t.events = s.events ++ (if s.params.mailboxPresent then [] else [.mailboxUnavailable]) ∧
        t.banks.length = s.banks.length ∧
        (∀ b < s.banks.length,
          Bank.PinsOnly { s.bank b with en0 := 0, en1 := 0, be := 0, shadow := 0, intEn := 0 } (t.bank b)) ∧
        t = { s with
          agenda := rest, banks := t.banks, choices := t.choices, seq := t.seq, events := t.events, booted := t.booted,
          mailboxPresent := t.mailboxPresent }) ∧
    (s.booted = false → tableOk s.params s.banks = false →
      step s = .next { s with
        agenda := rest, refused := true, refusals := s.refusals ++ [⟨.badBankTable, .boot⟩] }) ∧
    (s.booted = true → step s = .refused .platformDuty)

/-- Every step keeps the invariant: 10_state.md R43 to R46 and R48 among its clauses. Its clause on the record of refusals
rests on the list that the model chose for it (assumption log 16). -/
def Obligations.StepKeepsInvariant : Prop := ∀ s t : State, Inv s → step s = .next t → Inv t

/-- No state that meets the invariant steps to a fault: every mailbox access of the block lies in the mailbox. -/
def Obligations.NoFaultUnderInvariant : Prop := ∀ (s : State) (f : Fault), Inv s → step s ≠ .fault f

/-- 10_state.md R30: the bank table and the parameters are never changed. -/
def Obligations.BankTableImmutable : Prop :=
  ∀ s t : State, step s = .next t → t.params = s.params ∧ t.banks.map Bank.desc = s.banks.map Bank.desc

/-- 10_state.md R55, R56: the event history only grows, and the two marks are sticky. That the record of refusals is a list,
and so grows too, is the model's choice (assumption log 16). -/
def Obligations.HistoryAndMarksOnlyGrow : Prop :=
  ∀ s t : State, step s = .next t →
    (∃ more, t.events = s.events ++ more) ∧ (s.refused = true → t.refused = true) ∧
    (∃ more, t.refusals = s.refusals ++ more) ∧ (s.fault ≠ none → t.fault ≠ none)

/-! ### Decoding -/

/-- 30_encoding.md R121: each example encodes to its words, and the words decode to it. -/
def Obligations.EncodingExamples : Prop :=
  let shows (i : Instr) (ws : List Word) : Prop := encode i = ws ∧ decode ws = .ok i
  shows (.read 29) [0x1000001D] ∧ shows (.write 29 true) [0x2800001D] ∧
  shows (.enterSleep false) [0x90000000] ∧ shows (.enterSleep true) [0x98000000] ∧
  shows (.configure 29 { trig := some .edgeFall, wake := some true }) [0x0000001D, 0x000032C0] ∧
  shows (.setType 61 .edgeBoth) [0x6000003D, 0x000003C0]

/-- 30_encoding.md R118, the layout of the result word: the opcode of the command's own words in bits 31:28, the status
code in bits 27:24, the value read in bit 0, every other bit 0. -/
def Obligations.ResultWordLayout : Prop :=
  ∀ (c : Instr) (st : Status) (v : Bool),
    let w := resultWord c st v
    (∀ h ∈ (encode c).head?, opField w = opField h) ∧
    (w.extractLsb' 24 4).toNat = (match st with | .ok => 0x0 | .outOfRange => 0x1) ∧
    w.extractLsb' 1 23 = 0 ∧ w.getLsbD 0 = v

/-- Decoding an encoded well-formed command gives it back, with every operand at every value. -/
def Obligations.DecodeOfEncode : Prop := ∀ i : Instr, i.wf = true → decode (encode i) = .ok i

/-- 30_encoding.md R116: words that decode are the encoding of the one command they decode to. -/
def Obligations.EncodeOfDecode : Prop := ∀ (ws : List Word) (i : Instr), decode ws = .ok i → encode i = ws ∧ i.wf = true

/-- 30_encoding.md R113 (a) to (d): which command words are legal. -/
def Obligations.CommandWordLegality : Prop :=
  ∀ c f : Word,
    ((opField c = 0x0 ∨ opField c = 0x6) →
      ((∃ i, decode [c, f] = .ok i) ↔ rsvField c = 0 ∧ vField c = false ∧
        (opField c = 0x0 → ∃ o, decodeFlags f = .ok o) ∧ (opField c = 0x6 → ∃ t, decodeTypeFlags f = .ok t))) ∧
    (opField c ≠ 0x0 → opField c ≠ 0x6 →
      ((∃ i, decode [c] = .ok i) ↔ opField c ≤ 0xB ∧ rsvField c = 0 ∧
        (vField c = true → opField c = 0x2 ∨ opField c = 0x7 ∨ opField c = 0x9) ∧
        (nField c ≠ 0 → opField c ≠ 0x9 ∧ opField c ≠ 0xA ∧ opField c ≠ 0xB)))

/-- 30_encoding.md R114: which flags words are legal, and which of them a SET_TYPE may carry. -/
def Obligations.FlagsWordLegality : Prop :=
  ∀ f : Word,
    let legal :=
      f >>> 14 = 0 ∧ (f.getLsbD 1 → f.getLsbD 0) ∧ (f.getLsbD 3 → f.getLsbD 2) ∧ (f.getLsbD 5 → f.getLsbD 4) ∧
      (f.getLsbD 7 ∨ f.getLsbD 8 ∨ f.getLsbD 9 → f.getLsbD 6) ∧ (f.getLsbD 11 → f.getLsbD 10) ∧
      (f.getLsbD 13 → f.getLsbD 12) ∧ (f.getLsbD 6 → f.getLsbD 8 ∨ f.getLsbD 9) ∧
      (f.getLsbD 6 → ¬f.getLsbD 7 → ¬(f.getLsbD 8 ∧ f.getLsbD 9))
    ((∃ o, decodeFlags f = .ok o) ↔ legal) ∧
    ((∃ t, decodeTypeFlags f = .ok t) ↔ legal ∧ f.getLsbD 6 = true ∧ f.getLsbD 0 = false ∧ f.getLsbD 2 = false ∧
      f.getLsbD 4 = false ∧ f.getLsbD 10 = false ∧ f.getLsbD 12 = false)

/-- A step runs the decoded command (30_encoding.md R100, R104): the words of the next command of the port are taken, and
the step is `exec` of what they decode to. That words after them stay the next input is the model's choice (assumption log
15). -/
def Obligations.StepRunsDecodedCommand : Prop :=
  ∀ (s : State) (ws later : List Word) (rest : List Input) (i : Instr),
    s.seq = .idle → s.agenda = .command (ws ++ later) :: rest → decode ws = .ok i →
    step s = exec i { s with agenda := if later = [] then rest else .command later :: rest }

/-- 60_exceptions.md R264 with 30_encoding.md R113, R114: an illegal command changes nothing but the sticky mark and the
record of refusals (a growing list by the model's choice, assumption log 16); a LINE_IRQ for a line that does not exist is
one (R113 (e)). -/
def Obligations.IllegalCommandIsRefused : Prop :=
  (∀ (s : State) (c : Word) (cs : List Word) (rest : List Input) (e : DecodeError),
    s.seq = .idle → s.agenda = .command (c :: cs) :: rest → (c :: cs).length = commandLength c →
    decode (c :: cs) = .error e →
    step s = .next { s with
      agenda := rest, refused := true, refusals := s.refusals ++ [⟨.illegalCommand, .words (c :: cs)⟩] }) ∧
  (∀ (s : State) (l : Nat), s.seq = .idle → s.params.numLines ≤ l →
    exec (.lineIrq l) s = .next { s with
      refused := true, refusals := s.refusals ++ [⟨.illegalCommand, .command (.lineIrq l)⟩] })

/-! ### Refusals and errors -/

/-- 60_exceptions.md R265: the state-dependent refusals, each leaving everything but the mark and the record as it was,
and that LINE_IRQ and REPLAY are never refused for state once booted. What a refusal does is R264's and R266's (assumption
log 1); that the record is a growing list is the model's choice (assumption log 16). -/
def Obligations.StateRefusals : Prop :=
  ∀ (i : Instr) (s : State), s.seq = .idle → (∀ l, i = .lineIrq l → l < s.params.numLines) →
    let refusedFor (r : RefuseReason) : Answer :=
      .next { s with refused := true, refusals := s.refusals ++ [⟨r, .command i⟩] }
    (s.booted = false → exec i s = refusedFor .notBooted) ∧
    (s.booted = true → s.sleepState = .asleep → i ≠ .exitSleep → i ≠ .replay → (∀ l, i ≠ .lineIrq l) →
      exec i s = refusedFor .asleep) ∧
    (s.booted = true → s.sleepState = .awake → i = .exitSleep → exec i s = refusedFor .notAsleep) ∧
    (s.booted = true → s.sleepState = .awake → (s.pass ≠ none ∨ s.replayRun ≠ none) → ∀ v, i = .enterSleep v →
      exec i s = refusedFor .busy) ∧
    (s.booted = true → (i = .replay ∨ ∃ l, i = .lineIrq l) → ∀ t, exec i s = .next t → t.refusals = s.refusals)

/-- 60_exceptions.md R260 to R263 and R266: the code table, and its column "raised by" over all commands. An OutOfRange
result is the one event of a pin or interrupt command, a ConvergenceBound comes only from commands that may run the
both-edge machine and only beside a result OK, no command raises MailboxUnavailable, and the fault mark is set only by
REPLAY, on a count above K. -/
def Obligations.CommandsReportTheirCodes : Prop :=
  (statusCode .ok = 0x0 ∧ statusCode .outOfRange = 0x1 ∧
    (∀ p, eventCode (.logOutOfRange p) = some 0x1) ∧ (∀ b v1 v2, eventCode (.convergenceBound b v1 v2) = some 0x2) ∧
    eventCode .mailboxUnavailable = some 0x3 ∧ (∀ g n, faultCode (.mailboxCountOverflow g n) = 0x4) ∧
    (∀ c st v, eventCode (.result c (resultWord c st v)) = some (statusCode st)) ∧
    (∀ irq via, eventCode (.dispatch irq via) = none) ∧ ∀ l, eventCode (.lineAck l) = none) ∧
  ∀ (i : Instr) (s t : State), exec i s = .next t →
    ∃ more, t.events = s.events ++ more ∧
      (∀ e ∈ more,
        (eventCode e = some 0x0 → ∃ v, e = .result i (resultWord i .ok v)) ∧
        (eventCode e = some 0x1 → more = [.result i (resultWord i .outOfRange false)] ∧ i.takesPin = true) ∧
        (eventCode e = some 0x2 → (∃ b v1 v2, e = .convergenceBound b v1 v2) ∧
          (i.hasTrigger = true ∨ i.hasClear = true) ∧ .result i (resultWord i .ok false) ∈ more) ∧
        eventCode e ≠ some 0x3) ∧
      (t.fault ≠ s.fault → i = .replay ∧ ∃ n, s.params.firedCap < n ∧ t.fault = some (.mailboxCountOverflow 0 n))

/-- The duties of the line agent and of the bottom-half agent (60_exceptions.md R275, R276): a command issued against them
has no step. -/
def Obligations.AgentDutiesHaveNoStep : Prop :=
  ∀ s : State, s.seq = .idle → s.booted = true →
    (∀ l < s.params.numLines, s.sleepState = .asleep ∨ s.pass ≠ none →
      exec (.lineIrq l) s = .refused .lineAgentDuty) ∧
    (s.replayPending = false ∨ s.sleepState = .asleep ∨ s.pass ≠ none ∨ s.replayRun ≠ none →
      exec .replay s = .refused .bottomHalfDuty)

/-- 60_exceptions.md R260 and 40_pin_config.md R141: a number in no bank ends the command with its result, before any
access. -/
def Obligations.OutOfRangeChangesNothing : Prop :=
  ∀ s : State, s.Ready →
    let ends (c : Instr) (op : Nat) : Prop :=
      exec c s = .next { s with
        events := s.events ++ [.result c (BitVec.ofNat 32 (op * 2 ^ 28 + 1 * 2 ^ 24))] }
    (∀ pin, (∀ k ∈ s.banks, ¬(k.desc.start ≤ pin ∧ pin ≤ k.desc.last)) →
      (∀ opts, ends (.configure pin opts) 0x0) ∧ ends (.read pin) 0x1 ∧ (∀ v, ends (.write pin v) 0x2)) ∧
    (∀ irq, (irq < s.params.baseIrq ∨
        ∀ k ∈ s.banks, ¬(k.desc.start ≤ irq - s.params.baseIrq ∧ irq - s.params.baseIrq ≤ k.desc.last)) →
      ends (.mask irq) 0x3 ∧ ends (.unmask irq) 0x4 ∧ ends (.ack irq) 0x5 ∧ (∀ t, ends (.setType irq t) 0x6) ∧
        (∀ v, ends (.setWake irq v) 0x7))

/-- 00_scope.md R7, R8: on a good table a pin resolves to the one bank whose range holds it, with its offset, and to none
when no bank holds it; an interrupt number resolves as its pin does. -/
def Obligations.PinResolution : Prop :=
  ∀ s : State, tableOk s.params s.banks = true → ∀ p : Nat,
    (∀ b off, resolve s p = some (b, off) ↔
      b < s.banks.length ∧ (s.bank b).desc.start ≤ p ∧ p ≤ (s.bank b).desc.last ∧ off = p - (s.bank b).desc.start) ∧
    (∀ b off, resolve s p = some (b, off) → off < (s.bank b).width) ∧
    (resolve s p = none ↔ ∀ k ∈ s.banks, ¬(k.desc.start ≤ p ∧ p ≤ k.desc.last)) ∧
    resolveIrq s (s.params.baseIrq + p) = resolve s p ∧ (p < s.params.baseIrq → resolveIrq s p = none)

/-! ### Pin configuration -/

/-- 40_pin_config.md R132: READ answers the pad level at its one access and changes nothing. -/
def Obligations.ReadGivesPadLevel : Prop :=
  ∀ (s : State) (pin b off : Nat), s.Ready → resolve s pin = some (b, off) →
    ∃ t, exec (.read pin) s = .next t ∧ Frame s t ∧ t.banks.length = s.banks.length ∧
      (∀ b', (s.bank b').PinsOnly (t.bank b')) ∧
      t.events = s.events ++ [.result (.read pin) (if (t.bank b).pad.getLsbD off then 0x10000001 else 0x10000000)]

/-- 40_pin_config.md R134, R131: WRITE rewrites `out` with the pin's bit set to the level. -/
def Obligations.WriteSetsOutputLevel : Prop :=
  ∀ (s : State) (pin b off : Nat) (level : Bool), s.Ready → resolve s pin = some (b, off) →
    ∃ t d, exec (.write pin level) s = .next t ∧ Frame s t ∧ OthersKept b s t ∧
      Bank.PinsOnly { s.bank b with out := regrouped (s.bank b) off (s.bank b).out d (some level) } (t.bank b) ∧
      t.events = s.events ++ [.result (.write pin level) 0x20000000]

/-- 40_pin_config.md R131, R135, R136: the output-level, direction and ownership groups of a CONFIGURE, each present or
absent. -/
def Obligations.ConfigureOutputDirectionOwner : Prop :=
  ∀ (s : State) (pin b off : Nat) (out dir own : Option Bool), s.Ready → resolve s pin = some (b, off) →
    let opts : Options := { out := out, dir := dir, own := own }
    ∃ t d1 d2 d3, exec (.configure pin opts) s = .next t ∧ Frame s t ∧ OthersKept b s t ∧
      Bank.PinsOnly
        { s.bank b with
          out := regrouped (s.bank b) off (s.bank b).out d1 out
          oe := regrouped (s.bank b) off (s.bank b).oe d2 dir
          owner := regrouped (s.bank b) off (s.bank b).owner d3 own } (t.bank b) ∧
      t.events = s.events ++ [.result (.configure pin opts) 0x00000000]

/-- 30_encoding.md R115: a CONFIGURE with no group makes no access and touches nothing. -/
def Obligations.EmptyConfigureTouchesNothing : Prop :=
  ∀ (s : State) (pin b off : Nat), s.Ready → resolve s pin = some (b, off) →
    exec (.configure pin {}) s = .next { s with events := s.events ++ [.result (.configure pin {}) 0x00000000] }

/-- 40_pin_config.md R130, R137 to R139: CONFIGURE completes with every set of option groups and leaves, for the pin
itself, exactly what the groups present ask for; a register or mask of no group present keeps every bit of every pin. The
enable group drops the pin's shadow bit when it disables, and when it enables a level pin (42_irq_facade.md R180, R182);
`int_pos` without a trigger group changes at most at both-edge pins, and only when a level pin is enabled (R185). On steady
pins (assumption log 4) no pad changes, the status is kept unless a trigger or a level pin's enable is asked for, and
enabling a level pin clears its stale status, which only 60_exceptions.md R273 can then set again, at a both-edge pin whose
polarity changed. -/
def Obligations.ConfigureReflectsGroups : Prop :=
  ∀ (s : State) (pin b off : Nat) (o : Options), s.Ready → resolve s pin = some (b, off) → (s.bank b).width ≤ 32 →
    ∃ t, exec (.configure pin o) s = .next t ∧ Frame s t ∧ OthersKept b s t ∧ (t.bank b).desc = (s.bank b).desc ∧
      EventsAdded b s t (.result (.configure pin o) 0x00000000) ∧
      (∀ v, o.out = some v → (t.bank b).out.getLsbD off = v) ∧ (o.out = none → (t.bank b).out = (s.bank b).out) ∧
      (∀ v, o.dir = some v → (t.bank b).oe.getLsbD off = v) ∧ (o.dir = none → (t.bank b).oe = (s.bank b).oe) ∧
      (∀ v, o.own = some v → (t.bank b).owner.getLsbD off = v) ∧ (o.own = none → (t.bank b).owner = (s.bank b).owner) ∧
      (∀ g, o.trig = some g → (t.bank b).intEdge.getLsbD off = triggerEdge g ∧
        (t.bank b).be.getLsbD off = (g == .edgeBoth) ∧
        ∀ rising, triggerPolarity g = some rising → (t.bank b).intPos.getLsbD off = rising) ∧
      (o.trig = none → (t.bank b).intEdge = (s.bank b).intEdge ∧ (t.bank b).be = (s.bank b).be ∧
        (o.int ≠ some true ∨ (s.bank b).intEdge.getLsbD off = true → (t.bank b).intPos = (s.bank b).intPos) ∧
        ∀ i, i < (s.bank b).width → (s.bank b).be.getLsbD i = false →
          (t.bank b).intPos.getLsbD i = (s.bank b).intPos.getLsbD i) ∧
      (∀ v, o.int = some v → (t.bank b).en0.getLsbD off = v ∧ (t.bank b).intEn = (t.bank b).en0) ∧
      (o.int = some false → (t.bank b).shadow = (s.bank b).shadow &&& ~~~bitAt off) ∧
      (o.int = some true →
        ((t.bank b).intEdge.getLsbD off = true → (t.bank b).shadow = (s.bank b).shadow) ∧
        ((t.bank b).intEdge.getLsbD off = false → (t.bank b).shadow.getLsbD off = false)) ∧
      (o.int = none → (t.bank b).en0 = (s.bank b).en0 ∧ (t.bank b).intEn = (s.bank b).intEn ∧
        (t.bank b).shadow = (s.bank b).shadow) ∧
      (∀ v, o.wake = some v → (t.bank b).en1.getLsbD off = v) ∧ (o.wake = none → (t.bank b).en1 = (s.bank b).en1) ∧
      (SteadyPins s t →
        (t.bank b).pad = (s.bank b).pad ∧
        (o.trig = none → o.int ≠ some true ∨ (s.bank b).intEdge.getLsbD off = true →
          (t.bank b).intStatus = (s.bank b).intStatus) ∧
        (o.int = some true → (t.bank b).intEdge.getLsbD off = false →
          ((t.bank b).intStatus.getLsbD off = true →
            (t.bank b).be.getLsbD off = true ∧
              (t.bank b).intPos.getLsbD off ≠ (s.bank b).intPos.getLsbD off) ∧
          (o.trig = none → (s.bank b).be.getLsbD off = false → ∃ lost,
            (t.bank b).intStatus = (s.bank b).intStatus &&& ~~~(bitAt off ||| lost) ∧
            (t.bank b).shadow =
              ((s.bank b).shadow ||| ((s.bank b).intStatus &&& (s.bank b).wmask)) &&& ~~~bitAt off)))

/-- 40_pin_config.md R142, the untouched-bits invariant with its exceptions: after any CONFIGURE, every register bit and
mask bit of another pin of the bank is as it was, but (a) `int_pos` of a both-edge pin and (b) `int_status` and `shadow`,
and (b) only when the command enables an interrupt; other banks keep everything. Its premise is 10_state.md R48. -/
def Obligations.ConfigureLeavesOtherPins : Prop :=
  ∀ (s t : State) (pin b off : Nat) (o : Options), s.Ready → resolve s pin = some (b, off) →
    (s.bank b).intEn &&& (s.bank b).wmask = (s.bank b).en0 → exec (.configure pin o) s = .next t →
    OthersKept b s t ∧
    ∀ i, i ≠ off → i < 32 → i < (s.bank b).width →
      (t.bank b).out.getLsbD i = (s.bank b).out.getLsbD i ∧ (t.bank b).oe.getLsbD i = (s.bank b).oe.getLsbD i ∧
      (t.bank b).owner.getLsbD i = (s.bank b).owner.getLsbD i ∧
      (t.bank b).intEdge.getLsbD i = (s.bank b).intEdge.getLsbD i ∧
      (t.bank b).intEn.getLsbD i = (s.bank b).intEn.getLsbD i ∧ (t.bank b).en0.getLsbD i = (s.bank b).en0.getLsbD i ∧
      (t.bank b).en1.getLsbD i = (s.bank b).en1.getLsbD i ∧ (t.bank b).be.getLsbD i = (s.bank b).be.getLsbD i ∧
      ((s.bank b).be.getLsbD i = false → (t.bank b).intPos.getLsbD i = (s.bank b).intPos.getLsbD i) ∧
      (o.int ≠ some true → (t.bank b).shadow.getLsbD i = (s.bank b).shadow.getLsbD i ∧
        ((s.bank b).intStatus.getLsbD i = true → (t.bank b).intStatus.getLsbD i = true))

/-- 40_pin_config.md R137, R140: SET_TYPE with one polarity writes `int_edge` and `int_pos` and takes the pin out of the
both-edge mask; pending status stays (it may only gain bits). -/
def Obligations.SetTypeOnePolarity : Prop :=
  ∀ (s : State) (irq b off : Nat) (g : Trigger) (rising : Bool), s.Ready → resolveIrq s irq = some (b, off) →
    triggerPolarity g = some rising →
    ∃ t d1 d2, exec (.setType irq g) s = .next t ∧ Frame s t ∧ OthersKept b s t ∧
      Bank.PinsOnly
        { s.bank b with
          intEdge := regrouped (s.bank b) off (s.bank b).intEdge d1 (some (triggerEdge g))
          be := (s.bank b).be &&& ~~~bitAt off
          intPos := regrouped (s.bank b) off (s.bank b).intPos d2 (some rising) } (t.bank b) ∧
      t.events = s.events ++ [.result (.setType irq g) 0x60000000]

/-- 60_exceptions.md R273 with 20_memory.md R75: on steady pins, the status bits that a SET_TYPE with one polarity raises lie
among the pins of the bank whose trigger bits it changed. -/
def Obligations.SpuriousStatusOnChangedBits : Prop :=
  ∀ (s : State) (irq b off : Nat) (g : Trigger) (rising : Bool) (later : List (List PinStep)), s.Ready →
    resolveIrq s irq = some (b, off) → triggerPolarity g = some rising →
    s.choices.pins = [[], [], [], []] ++ later →
    ∃ t, exec (.setType irq g) s = .next t ∧ (t.bank b).pad = (s.bank b).pad ∧ ∀ i,
      (t.bank b).intStatus.getLsbD i = true → (s.bank b).intStatus.getLsbD i = false →
        i < (s.bank b).width ∧ ((t.bank b).intEdge.getLsbD i ≠ (s.bank b).intEdge.getLsbD i ∨
          (t.bank b).intPos.getLsbD i ≠ (s.bank b).intPos.getLsbD i)

/-- 40_pin_config.md R137 with 41_both_edge.md R160, R162: SET_TYPE with both polarities puts the pin into the both-edge
mask and runs the machine, which rewrites only both-edge bits of `int_pos`; when it logs nothing, every both-edge pin
ends armed away from its level or pending. -/
def Obligations.SetTypeBothEdges : Prop :=
  ∀ (s : State) (irq b off : Nat), s.Ready → resolveIrq s irq = some (b, off) → 1 ≤ s.params.beMaxPasses →
    ∃ t d, exec (.setType irq .edgeBoth) s = .next t ∧ Frame s t ∧ OthersKept b s t ∧
      EventsAdded b s t (.result (.setType irq .edgeBoth) 0x60000000) ∧
      Bank.PinsOnly
        { s.bank b with
          intEdge := regrouped (s.bank b) off (s.bank b).intEdge d (some true)
          be := (s.bank b).be ||| bitAt off
          intPos := (t.bank b).intPos } (t.bank b) ∧
      (∀ i, i < 32 → i < (s.bank b).width → (t.bank b).be.getLsbD i = false →
        (t.bank b).intPos.getLsbD i = (s.bank b).intPos.getLsbD i) ∧
      (t.events = s.events ++ [.result (.setType irq .edgeBoth) 0x60000000] →
        ∀ i, i < 32 → i < (s.bank b).width → (t.bank b).be.getLsbD i = true →
          (t.bank b).intPos.getLsbD i = !(t.bank b).pad.getLsbD i ∨ (t.bank b).intStatus.getLsbD i = true)

/-! ### The both-edge state machine -/

/-- 41_both_edge.md R165, R166, R168: a run ends STABLE with no event, and then every both-edge pin is armed for the
level opposite to the one last read or is pending; or it ends BOUND after exactly `BE_MAX_PASSES` passes of 5 accesses,
with its one log event, whose levels are the last pass's: they differ at a both-edge pin, every both-edge pin is armed
away from `v1`, and the pads still have `v2`. -/
def Obligations.BothEdgeExit : Prop :=
  ∀ (s : State) (b : Nat), b < s.banks.length → 1 ≤ s.params.beMaxPasses →
    let t := bothEdge s b
    (t.events = s.events ∧ ∀ i, i < 32 → i < (s.bank b).width → (s.bank b).be.getLsbD i = true →
      (t.bank b).intPos.getLsbD i = !(t.bank b).pad.getLsbD i ∨ (t.bank b).intStatus.getLsbD i = true) ∨
    (∃ v1 v2, t.events = s.events ++ [.convergenceBound b v1 v2] ∧
      (∀ c k, s.seq = .busy c k → t.seq = .busy c (k + 5 * s.params.beMaxPasses)) ∧
      v2 &&& (s.bank b).wmask = (t.bank b).pad &&& (s.bank b).wmask ∧ (v1 ^^^ v2) &&& (s.bank b).be ≠ 0 ∧
      ∀ i, i < 32 → i < (s.bank b).width → (s.bank b).be.getLsbD i = true →
        (t.bank b).intPos.getLsbD i = !v1.getLsbD i)

/-- 41_both_edge.md R167: a run makes at most `BE_MAX_PASSES` passes of exactly 5 accesses, whatever the pins do. -/
def Obligations.BothEdgeBounded : Prop :=
  ∀ (s : State) (b k : Nat) (c : Instr), s.seq = .busy c k →
    ∃ n, n ≤ s.params.beMaxPasses ∧ (bothEdge s b).seq = .busy c (k + 5 * n)

/-- 41_both_edge.md R161 to R165 on steady pins (R171): with no environment step at its five accesses, one pass arms
every both-edge pin away from its level, keeps every other polarity bit, and ends STABLE. Its premise on the mask is
10_state.md R45. -/
def Obligations.BothEdgeSettlesOnSteadyPins : Prop :=
  ∀ (s : State) (b : Nat) (later : List (List PinStep)), b < s.banks.length → 1 ≤ s.params.beMaxPasses →
    s.choices.pins = [[], [], [], [], []] ++ later → (s.bank b).be &&& ~~~(s.bank b).wmask = 0 →
    let k := s.bank b
    let t := bothEdge s b
    t.events = s.events ∧ t.choices.pins = later ∧ (t.bank b).pad = k.pad ∧
      (t.bank b).intPos &&& k.wmask = ((k.intPos &&& ~~~k.be) ||| (~~~k.pad &&& k.be)) &&& k.wmask ∧
      k.intStatus &&& ~~~(t.bank b).intStatus = 0

/-! ### The interrupt facade -/

/-- 42_irq_facade.md R180. -/
def Obligations.MaskDisablesAndDropsShadow : Prop :=
  ∀ (s : State) (irq b off : Nat), s.Ready → resolveIrq s irq = some (b, off) →
    ∃ t, exec (.mask irq) s = .next t ∧ Frame s t ∧ OthersKept b s t ∧
      Bank.PinsOnly
        { s.bank b with
          en0 := (s.bank b).en0 &&& ~~~bitAt off
          shadow := (s.bank b).shadow &&& ~~~bitAt off
          intEn := (s.bank b).en0 &&& ~~~bitAt off } (t.bank b) ∧
      t.events = s.events ++ [.result (.mask irq) 0x30000000]

/-- 42_irq_facade.md R182 for an edge-triggered pin: enabled, nothing else touched. -/
def Obligations.UnmaskEdgePin : Prop :=
  ∀ (s : State) (irq b off : Nat), s.Ready → resolveIrq s irq = some (b, off) →
    (s.bank b).intEdge.getLsbD off = true →
    ∃ t, exec (.unmask irq) s = .next t ∧ Frame s t ∧ OthersKept b s t ∧
      Bank.PinsOnly
        { s.bank b with
          en0 := (s.bank b).en0 ||| bitAt off
          intEn := (s.bank b).en0 ||| bitAt off } (t.bank b) ∧
      t.events = s.events ++ [.result (.unmask irq) 0x40000000]

/-- 42_irq_facade.md R182 for a level-triggered pin: its shadow bit goes, the other pins' shadow bits and pending status
are kept in the shadow, and it is enabled; the polarity of a pin that is not both-edge never changes (41_both_edge.md
R162). -/
def Obligations.UnmaskLevelPin : Prop :=
  ∀ (s : State) (irq b off : Nat), s.Ready → resolveIrq s irq = some (b, off) →
    (s.bank b).intEdge.getLsbD off = false →
    ∃ t, exec (.unmask irq) s = .next t ∧ Frame s t ∧ OthersKept b s t ∧
      EventsAdded b s t (.result (.unmask irq) 0x40000000) ∧
      t.bank b =
        { s.bank b with
          en0 := (s.bank b).en0 ||| bitAt off
          intEn := (s.bank b).en0 ||| bitAt off
          shadow := (t.bank b).shadow
          intPos := (t.bank b).intPos
          intStatus := (t.bank b).intStatus
          pad := (t.bank b).pad } ∧
      ((s.bank b).be &&& bitAt off = 0 → (t.bank b).intPos = (s.bank b).intPos) ∧
      (∀ i, i < 32 → i < (s.bank b).width → (s.bank b).be.getLsbD i = false →
        (t.bank b).intPos.getLsbD i = (s.bank b).intPos.getLsbD i) ∧
      (t.bank b).shadow.getLsbD off = false ∧
      ∀ i, i ≠ off → (s.bank b).shadow.getLsbD i = true ∨
          (i < (s.bank b).width ∧ (s.bank b).intStatus.getLsbD i = true) →
        (t.bank b).shadow.getLsbD i = true

/-- 42_irq_facade.md R182 with R185 on steady pins: the stale status of a level pin is cleared with its shadow bit, and
the erratum loses what it draws. -/
def Obligations.UnmaskClearsStaleStatus : Prop :=
  ∀ (s : State) (irq b off : Nat) (later : List (List PinStep)) (d1 d2 lost : Word) (words : List Word),
    s.Ready → resolveIrq s irq = some (b, off) → (s.bank b).intEdge.getLsbD off = false →
    (s.bank b).be &&& bitAt off = 0 → s.choices.pins = [[], [], [], []] ++ later →
    s.choices.words = d1 :: d2 :: lost :: words →
    ∃ t, exec (.unmask irq) s = .next t ∧
      t.bank b =
        { s.bank b with
          en0 := (s.bank b).en0 ||| bitAt off
          intEn := (s.bank b).en0 ||| bitAt off
          shadow := ((s.bank b).shadow ||| ((s.bank b).intStatus &&& (s.bank b).wmask)) &&& ~~~bitAt off
          intStatus := (s.bank b).intStatus &&& ~~~(bitAt off ||| lost) }

/-- 42_irq_facade.md R183, R186 (a): whatever the erratum loses and the pins do, ACK leaves every other pin that was
pending at its start in the shadow, and takes the acked pin out of it. The both-edge machine that ACK of a both-edge pin
runs keeps the polarity of every other pin (41_both_edge.md R162, R170 (e)). -/
def Obligations.AckSavesOtherPending : Prop :=
  ∀ (s : State) (irq b off : Nat), s.Ready → resolveIrq s irq = some (b, off) →
    ∃ t, exec (.ack irq) s = .next t ∧ Frame s t ∧ OthersKept b s t ∧
      EventsAdded b s t (.result (.ack irq) 0x50000000) ∧
      t.bank b =
        { s.bank b with
          shadow := (t.bank b).shadow
          intPos := (t.bank b).intPos
          intStatus := (t.bank b).intStatus
          pad := (t.bank b).pad } ∧
      ((s.bank b).be &&& bitAt off = 0 → (t.bank b).intPos = (s.bank b).intPos) ∧
      (∀ i, i < 32 → i < (s.bank b).width → (s.bank b).be.getLsbD i = false →
        (t.bank b).intPos.getLsbD i = (s.bank b).intPos.getLsbD i) ∧
      (t.bank b).shadow.getLsbD off = false ∧
      ∀ i, i ≠ off → (s.bank b).shadow.getLsbD i = true ∨
          (i < (s.bank b).width ∧ (s.bank b).intStatus.getLsbD i = true) →
        (t.bank b).shadow.getLsbD i = true

/-- 42_irq_facade.md R185 with 20_memory.md R73, exactly, on steady pins: the sampled status is folded into the shadow
without the acked bit, and the clear loses the acked bit and the drawn bits. For a both-edge pin one pass follows
(41_both_edge.md R161 to R165), which rewrites `int_pos` and may raise status at the bits it changes (60_exceptions.md
R273). Its premise on the mask is 10_state.md R45. -/
def Obligations.AckExactWithErratum : Prop :=
  ∀ (s : State) (irq b off : Nat) (later : List (List PinStep)) (d lost : Word) (words : List Word),
    s.Ready → resolveIrq s irq = some (b, off) →
    ((s.bank b).be &&& bitAt off = 0 → s.choices.pins = [[], []] ++ later → s.choices.words = d :: lost :: words →
      exec (.ack irq) s = .next { s with
        banks := s.banks.modify b fun k =>
          { k with
            shadow := (k.shadow ||| (k.intStatus &&& k.wmask)) &&& ~~~bitAt off
            intStatus := k.intStatus &&& ~~~(bitAt off ||| lost) }
        choices := { s.choices with pins := later, words := words }
        events := s.events ++ [.result (.ack irq) 0x50000000] }) ∧
    ∀ d1 d2 spurious d3 d4 : Word, (s.bank b).be &&& bitAt off ≠ 0 → (s.bank b).be &&& ~~~(s.bank b).wmask = 0 →
      1 ≤ s.params.beMaxPasses → s.choices.pins = [[], [], [], [], [], [], []] ++ later →
      s.choices.words = d :: lost :: d1 :: d2 :: spurious :: d3 :: d4 :: words →
      let level := ((s.bank b).pad &&& (s.bank b).wmask) ||| (d1 &&& ~~~(s.bank b).wmask)
      let before := ((s.bank b).intPos &&& (s.bank b).wmask) ||| (d2 &&& ~~~(s.bank b).wmask)
      let after := (before &&& ~~~(s.bank b).be) ||| (~~~level &&& (s.bank b).be)
      exec (.ack irq) s = .next { s with
        banks := s.banks.modify b fun k =>
          { k with
            shadow := (k.shadow ||| (k.intStatus &&& k.wmask)) &&& ~~~bitAt off
            intPos := after
            intStatus := (k.intStatus &&& ~~~(bitAt off ||| lost)) ||| (spurious &&& ((k.intPos ^^^ after) &&& k.wmask)) }
        choices := { s.choices with pins := later, words := words }
        events := s.events ++ [.result (.ack irq) 0x50000000] }

/-- 42_irq_facade.md R185 (last line), 41_both_edge.md R160 (b): ACK of a both-edge pin reruns the machine, so that when
it logs nothing every both-edge pin ends armed away from its level or pending. -/
def Obligations.AckRearmsBothEdgePins : Prop :=
  ∀ (s t : State) (irq b off : Nat), s.Ready → resolveIrq s irq = some (b, off) → off < 32 →
    (s.bank b).be.getLsbD off = true → 1 ≤ s.params.beMaxPasses → exec (.ack irq) s = .next t →
    t.events = s.events ++ [.result (.ack irq) 0x50000000] →
    ∀ i, i < 32 → i < (s.bank b).width → (s.bank b).be.getLsbD i = true →
      (t.bank b).intPos.getLsbD i = !(t.bank b).pad.getLsbD i ∨ (t.bank b).intStatus.getLsbD i = true

/-- 42_irq_facade.md R184, whole and exactly: refused while ASLEEP (60_exceptions.md R264, R265), `OutOfRange` for a number
in no bank (R181, 60_exceptions.md R260), else the wake set's bit and the result, with no register access. The growing list
of refusals is the model's choice (assumption log 16). -/
def Obligations.SetWakeWritesWakeSetOnly : Prop :=
  ∀ (s : State) (irq : Nat) (v : Bool), s.seq = .idle → s.booted = true →
    (s.sleepState = .asleep → exec (.setWake irq v) s = .next { s with
      refused := true, refusals := s.refusals ++ [⟨.asleep, .command (.setWake irq v)⟩] }) ∧
    (s.sleepState = .awake → resolveIrq s irq = none → exec (.setWake irq v) s = .next { s with
      events := s.events ++ [.result (.setWake irq v) 0x71000000] }) ∧
    (s.sleepState = .awake → ∀ b off, resolveIrq s irq = some (b, off) → exec (.setWake irq v) s = .next { s with
      banks := s.banks.modify b fun k =>
        { k with en1 := if v then k.en1 ||| bitAt off else k.en1 &&& ~~~bitAt off }
      events := s.events ++ [.result (.setWake irq v) 0x70000000] })

/-! ### The demultiplexer -/

/-- 43_demux.md R210, R211, R214, R215: LINE_IRQ starts with the snapshot of the line's first bank, whose working word is
`(status | shadow) & enabled`, and writes no register and no mask; on a line with no bank it acknowledges the line. -/
def Obligations.LineIrqTakesSnapshot : Prop :=
  ∀ (s : State) (l : Nat), s.Ready → s.pass = none → l < s.params.numLines →
    (∀ b, b < s.banks.length → (s.bank b).desc.line = l → (∀ b' < b, (s.bank b').desc.line ≠ l) →
      (s.bank b).en0 &&& ~~~(s.bank b).wmask = 0 →
      ∃ t, exec (.lineIrq l) s = .next t ∧
        t.pass = some ⟨l, b, ((t.bank b).intStatus ||| (s.bank b).shadow) &&& (s.bank b).en0⟩ ∧
        t = { s with banks := t.banks, choices := t.choices, pass := t.pass } ∧
        t.banks.length = s.banks.length ∧ ∀ b', (s.bank b').PinsOnly (t.bank b')) ∧
    ((∀ b < s.banks.length, (s.bank b).desc.line ≠ l) →
      exec (.lineIrq l) s = .next { s with
        events := s.events ++ [.lineAck l, .result (.lineIrq l) 0x80000000] })

/-- 43_demux.md R212, R213: one step of a pass dispatches the lowest set bit of its working word and clears it there,
whether the agenda is empty or says to go on between two host commands, and changes nothing else; a running replay waits
(60_exceptions.md R276). -/
def Obligations.PassDispatchesLowestBit : Prop :=
  ∀ (s : State) (rest : List Input) (p : Pass) (i : Nat), s.seq = .idle → s.GoesOn rest → s.pass = some p →
    p.work.getLsbD i = true → (∀ j < i, p.work.getLsbD j = false) →
    step s = .next { s with
      agenda := rest
      pass := some { p with work := p.work &&& ~~~bitAt i }
      events := s.events ++ [.dispatch (s.params.baseIrq + (s.bank p.bank).desc.start + i) .demux] }

/-- 43_demux.md R212, R213, R217: from a snapshot, the pass left alone (the agenda empty, assumption log 5) dispatches exactly the
set bits of its working word, each once, in ascending order, and changes nothing else. -/
def Obligations.PassDispatchesExactlySetBits : Prop :=
  ∀ (s : State) (p : Pass), s.seq = .idle → s.agenda = [] → s.pass = some p →
    Host.Core.run Sys2Proof.core (setBits p.work).length s = .next { s with
      pass := some { p with work := 0 }
      events := s.events ++ (setBits p.work).map fun i =>
        .dispatch (s.params.baseIrq + (s.bank p.bank).desc.start + i) .demux }

/-- 43_demux.md R210, R214, R215: with its working word empty, the pass takes the snapshot of the next bank of its line,
in ascending order, and after the last acknowledges the line and ends, whether the agenda is empty or says to go on. -/
def Obligations.PassVisitsNextBankOrEnds : Prop :=
  ∀ (s : State) (rest : List Input) (l b : Nat), s.seq = .idle → s.GoesOn rest → s.pass = some ⟨l, b, 0⟩ →
    (∀ b', b < b' → b' < s.banks.length → (s.bank b').desc.line = l →
      (∀ b'', b < b'' → b'' < b' → (s.bank b'').desc.line ≠ l) → (s.bank b').en0 &&& ~~~(s.bank b').wmask = 0 →
      ∃ t, step s = .next t ∧
        t.pass = some ⟨l, b', ((t.bank b').intStatus ||| (s.bank b').shadow) &&& (s.bank b').en0⟩ ∧
        t = { s with agenda := rest, banks := t.banks, choices := t.choices, pass := t.pass } ∧
        ∀ b'', (s.bank b'').PinsOnly (t.bank b'')) ∧
    ((∀ b', b < b' → b' < s.banks.length → (s.bank b').desc.line ≠ l) →
      step s = .next { s with
        agenda := rest, pass := none, events := s.events ++ [.lineAck l, .result (.lineIrq l) 0x80000000] })

/-- 60_exceptions.md R274: a line is asserted exactly when a bank of it has a pin that is pending in `int_status` and
enabled in `int_en`; a bit pending only in the shadow does not count. -/
def Obligations.LineLevel : Prop :=
  ∀ (s : State) (l : Nat), lineAsserted s l = true ↔
    ∃ b < s.banks.length, (s.bank b).desc.line = l ∧
      ∃ i, i < 32 ∧ i < (s.bank b).width ∧ (s.bank b).intStatus.getLsbD i = true ∧ (s.bank b).intEn.getLsbD i = true

/-! ### Sleep and wake -/

/-- 44_sleep_wake.md R230, R232, R239, R240: ENTER_SLEEP completes, writes every bank's `int_en` with the selected set,
emits its result and leaves the block ASLEEP; with no mailbox it makes no mailbox access. -/
def Obligations.EnterSleepWritesSelectedSet : Prop :=
  ∀ (s : State) (fromIdle : Bool), s.Ready → s.pass = none → s.replayRun = none → tableOk s.params s.banks = true →
    ∃ t, exec (.enterSleep fromIdle) s = .next t ∧ t.sleepState = .asleep ∧
      t = { s with
        banks := t.banks, choices := t.choices, events := t.events, mem := t.mem, sleepState := t.sleepState } ∧
      t.events = s.events ++ [.result (.enterSleep fromIdle) 0x90000000] ∧ t.banks.length = s.banks.length ∧
      (∀ b < s.banks.length,
        Bank.PinsOnly { s.bank b with intEn := if fromIdle then (s.bank b).en0 else (s.bank b).en1 } (t.bank b)) ∧
      (s.mailboxPresent = false → t.mem = s.mem)

/-- 44_sleep_wake.md R241: after ENTER_SLEEP the coprocessor's gather of each array gives back, for every bank, the
selected set, `int_edge` and `int_pos`, also for a bank that straddles a word boundary, and the array bits of a pin in no
bank are 0. -/
def Obligations.EnterSleepPacksEveryBank : Prop :=
  ∀ (s : State) (fromIdle : Bool), s.Ready → s.pass = none → s.replayRun = none → tableOk s.params s.banks = true →
    s.mailboxPresent = true → Memory.wf s.mem = true →
    ∃ t, exec (.enterSleep fromIdle) s = .next t ∧ Memory.wf t.mem = true ∧
      (∀ b < s.banks.length,
        unpack t .enabled b = (if fromIdle then (s.bank b).en0 else (s.bank b).en1) &&& (s.bank b).wmask ∧
        unpack t .detection b = (s.bank b).intEdge &&& (s.bank b).wmask ∧
        unpack t .polarity b = (s.bank b).intPos &&& (s.bank b).wmask) ∧
      ∀ x w i, w < s.nwords → i < 32 → (∀ k ∈ s.banks, ¬(k.desc.start ≤ 32 * w + i ∧ 32 * w + i ≤ k.desc.last)) →
        (t.field (t.arrayAddr x w) 4).testBit i = false

/-- 44_sleep_wake.md R231: after ENTER_SLEEP the counts and the fired lists are 0, and no byte outside the mailbox has
changed. -/
def Obligations.EnterSleepClearsTheRest : Prop :=
  ∀ (s t : State) (fromIdle : Bool), s.Ready → s.pass = none → s.replayRun = none → tableOk s.params s.banks = true →
    s.mailboxPresent = true → Memory.wf s.mem = true → exec (.enterSleep fromIdle) s = .next t →
    (∀ g < 2, t.field (t.countAddr g) 2 = 0 ∧ ∀ j < s.params.firedCap, t.field (t.firedAddr g j) 2 = 0) ∧
    (∀ a, a < s.params.mbBase ∨ s.params.mbBase + s.mailboxSize ≤ a → Memory.read t.mem a = Memory.read s.mem a)

/-- 44_sleep_wake.md R236, R237, R240: EXIT_SLEEP completes, restores the active set in every `int_en`, makes a replay
pending exactly when a count is above 0, and dispatches nothing. -/
def Obligations.ExitSleepRestoresActiveSet : Prop :=
  ∀ s : State, s.seq = .idle → s.booted = true → s.sleepState = .asleep →
    ∃ t, exec .exitSleep s = .next t ∧ t.sleepState = .awake ∧ t.banks.length = s.banks.length ∧
      (∀ b < s.banks.length, Bank.PinsOnly { s.bank b with intEn := (s.bank b).en0 } (t.bank b)) ∧
      t.events = s.events ++ [.result .exitSleep 0xA0000000] ∧
      (t.replayPending = true ↔ s.replayPending = true ∨
        (s.mailboxPresent = true ∧ (0 < s.field (s.countAddr 0) 2 ∨ 0 < s.field (s.countAddr 1) 2))) ∧
      t = { s with
        banks := t.banks, choices := t.choices, events := t.events, sleepState := t.sleepState,
        replayPending := t.replayPending }

/-- 44_sleep_wake.md R238, 60_exceptions.md R263: REPLAY starts with group 0 and dispatches nothing yet; a count above K
sets the sticky fault mark, and the faulted replay makes no further step. That it stays RUNNING, `replayRun` being set with
a count above K too, is the model's choice (assumption log 13). -/
def Obligations.ReplayStartsOrFaults : Prop :=
  ∀ s : State, s.Ready → s.replayPending = true → s.pass = none → s.replayRun = none → s.mailboxPresent = true →
    let n := s.field (s.countAddr 0) 2
    ∃ t, exec .replay s = .next t ∧ t.replayRun = some ⟨0, n, 0⟩ ∧
      t = { s with banks := t.banks, choices := t.choices, replayRun := t.replayRun, fault := t.fault } ∧
      t.banks.length = s.banks.length ∧ (∀ b, (s.bank b).PinsOnly (t.bank b)) ∧
      (n ≤ s.params.firedCap → t.fault = s.fault) ∧
      (s.params.firedCap < n → t.fault = some (.mailboxCountOverflow 0 n) ∧
        ∀ rest, t.GoesOn rest → step t = .next { t with agenda := rest })

/-- 44_sleep_wake.md R238: a replay step dispatches one entry, or logs a pin in no bank, and goes to the next index,
whether the agenda is empty or says to go on. -/
def Obligations.ReplayStepHandsOverOneEntry : Prop :=
  ∀ (s : State) (rest : List Input) (g n j : Nat), s.seq = .idle → s.GoesOn rest → s.pass = none → s.fault = none →
    s.mailboxPresent = true → s.replayRun = some ⟨g, n, j⟩ → g < 2 → j < n → n ≤ s.params.firedCap →
    ∃ t, step s = .next t ∧ t.replayRun = some ⟨g, n, j + 1⟩ ∧
      t.events = s.events ++ [firedEvent s (s.field (s.firedAddr g j) 2)] ∧
      t = { s with
        agenda := rest, banks := t.banks, choices := t.choices, events := t.events, replayRun := t.replayRun } ∧
      ∀ b, (s.bank b).PinsOnly (t.bank b)

/-- 44_sleep_wake.md R238, 60_exceptions.md R263: at the end of group 0 a replay step reads the count of group 1 and
dispatches nothing; a count above K sets the sticky fault mark with that group and count, and the faulted replay makes no
further step and stays pending; that it stays RUNNING is the model's choice (assumption log 13). At the end of group 1 a replay step ends the replay with its result, and no replay is
pending any more. -/
def Obligations.ReplayEndsEachGroup : Prop :=
  ∀ (s : State) (rest : List Input) (g m j : Nat), s.seq = .idle → s.GoesOn rest → s.pass = none → s.fault = none →
    s.replayRun = some ⟨g, m, j⟩ → m ≤ j →
    (g = 0 → s.mailboxPresent = true →
      let n := s.field (s.countAddr 1) 2
      ∃ t, step s = .next t ∧ t.replayRun = some ⟨1, n, 0⟩ ∧
        t = { s with
          agenda := rest, banks := t.banks, choices := t.choices, replayRun := t.replayRun, fault := t.fault } ∧
        t.banks.length = s.banks.length ∧ (∀ b, (s.bank b).PinsOnly (t.bank b)) ∧
        (n ≤ s.params.firedCap → t.fault = none) ∧
        (s.params.firedCap < n → t.fault = some (.mailboxCountOverflow 1 n) ∧
          ∀ later, t.GoesOn later → step t = .next { t with agenda := later })) ∧
    (g = 1 → step s = .next { s with
      agenda := rest, replayRun := none, replayPending := false, events := s.events ++ [.result .replay 0xB0000000] })

/-- 44_sleep_wake.md R238: left alone (the agenda empty, assumption log 5), a replay that has read the count of group 0 hands over every fired entry, group 0
before group 1, each in ascending index, and ends with its result and no replay pending. -/
def Obligations.ReplayRunsToItsEnd : Prop :=
  ∀ (s : State) (n0 n1 : Nat), s.seq = .idle → s.agenda = [] → s.pass = none → s.fault = none →
    s.mailboxPresent = true → s.replayRun = some ⟨0, n0, 0⟩ → n0 ≤ s.params.firedCap →
    s.field (s.countAddr 1) 2 = n1 → n1 ≤ s.params.firedCap →
    ∃ t, Host.Core.run Sys2Proof.core (n0 + 1 + n1 + 1) s = .next t ∧
      t.events = s.events ++ (List.range n0).map (fun j => firedEvent s (s.field (s.firedAddr 0 j) 2)) ++
        (List.range n1).map (fun j => firedEvent s (s.field (s.firedAddr 1 j) 2)) ++ [.result .replay 0xB0000000] ∧
      t.replayPending = false ∧ t.replayRun = none ∧ t.mem = s.mem ∧ t.fault = none ∧
      ∀ b, (s.bank b).PinsOnly (t.bank b)

/-! ### The other agents -/

/-- 60_exceptions.md R270, R271, R272: one step of the pin environment sets the pad level and latches exactly the detected
bits (while ASLEEP, those of them it draws), and touches nothing else. -/
def Obligations.DetectorLatchesStatus : Prop :=
  ∀ (s : State) (p : PinStep) (rest : List Input), s.agenda = .pins p :: rest → p.bank < s.banks.length →
    let k := s.bank p.bank
    ∃ t, step s = .next t ∧ t = { s with agenda := rest, banks := t.banks } ∧ t.banks.length = s.banks.length ∧
      (∀ b, b ≠ p.bank → t.bank b = s.bank b) ∧
      t.bank p.bank = { k with pad := p.level, intStatus := (t.bank p.bank).intStatus } ∧
      ∀ i < 32, (t.bank p.bank).intStatus.getLsbD i = (k.intStatus.getLsbD i ||
        ((if k.intEdge.getLsbD i then
            (if k.intPos.getLsbD i then !k.pad.getLsbD i && p.level.getLsbD i
             else k.pad.getLsbD i && !p.level.getLsbD i)
          else p.level.getLsbD i == k.intPos.getLsbD i) &&
         (decide (s.sleepState = .awake) || p.caught.getLsbD i)))

/-- 60_exceptions.md R282, R283: the coprocessor writes a byte of the mailbox and nothing else, and only while ASLEEP. -/
def Obligations.CoprocessorWritesMailboxOnlyAsleep : Prop :=
  ∀ (s : State) (o : Nat) (v : Byte) (rest : List Input), s.agenda = .mailboxByte o v :: rest →
    (s.sleepState = .asleep → s.mailboxPresent = true → o < s.mailboxSize → Memory.wf s.mem = true →
      ∃ t, step s = .next t ∧ t = { s with agenda := rest, mem := t.mem } ∧
        Memory.read t.mem (s.params.mbBase + o) = v ∧
        ∀ a, a ≠ s.params.mbBase + o → Memory.read t.mem a = Memory.read s.mem a) ∧
    (s.sleepState = .awake ∨ s.mailboxPresent = false ∨ s.mailboxSize ≤ o → step s = .refused .coprocessorDuty)

/-! ### Whole-machine rules -/

/-- 10_state.md R36, R35: `int_status` bits are cleared only by a write of `int_clear`, so by no command but ACK, UNMASK and
a CONFIGURE that enables an interrupt. They are set only by the detector and by 60_exceptions.md R273's draw: on steady pins
(assumption log 4) no command changes a pad, none raises a status bit but at a pin of the bank whose `int_edge` or `int_pos`
it changed, and neither a command without trigger group and ClearDetect, nor boot, a coprocessor write or a step of a pass
or a replay, changes a status bit at all. -/
def Obligations.StatusClearedOnlyByClearDetect : Prop :=
  (∀ (i : Instr) (s t : State), exec i s = .next t → i.hasClear = false → ∀ b < s.banks.length,
    (s.bank b).intStatus &&& ~~~(t.bank b).intStatus = 0) ∧
  (∀ (i : Instr) (s t : State), exec i s = .next t → SteadyPins s t → ∀ b < s.banks.length,
    (t.bank b).pad = (s.bank b).pad ∧
    (∀ j, (t.bank b).intStatus.getLsbD j = true → (s.bank b).intStatus.getLsbD j = false →
      j < (s.bank b).width ∧ ((t.bank b).intEdge.getLsbD j ≠ (s.bank b).intEdge.getLsbD j ∨
        (t.bank b).intPos.getLsbD j ≠ (s.bank b).intPos.getLsbD j)) ∧
    (i.hasTrigger = false → i.hasClear = false → (t.bank b).intStatus = (s.bank b).intStatus)) ∧
  ∀ s t : State, step s = .next t → SteadyPins s t → (∀ ws rest, s.agenda ≠ .command ws :: rest) →
    (∀ p rest, s.agenda ≠ .pins p :: rest) → ∀ b < s.banks.length,
    (t.bank b).pad = (s.bank b).pad ∧ (t.bank b).intStatus = (s.bank b).intStatus

/-- 10_state.md R34 and R38 to R46: no command writes a register or a mask but those the rules name as its writers. -/
def Obligations.OnlyNamedWriters : Prop :=
  ∀ (i : Instr) (s t : State), exec i s = .next t → ∀ b < s.banks.length,
    (i.hasOutput = false → (t.bank b).out = (s.bank b).out) ∧
    (i.hasDirection = false → (t.bank b).oe = (s.bank b).oe) ∧
    (i.hasOwner = false → (t.bank b).owner = (s.bank b).owner) ∧
    (i.hasTrigger = false → (t.bank b).intEdge = (s.bank b).intEdge ∧ (t.bank b).be = (s.bank b).be) ∧
    (i.hasTrigger = false → i.hasClear = false → (t.bank b).intPos = (s.bank b).intPos) ∧
    (i.hasEnable = false → (t.bank b).en0 = (s.bank b).en0) ∧
    (i.hasEnable = false → i.isSleep = false → (t.bank b).intEn = (s.bank b).intEn) ∧
    (i.hasWake = false → (t.bank b).en1 = (s.bank b).en1) ∧
    (i.hasEnable = false → i.hasClear = false → (t.bank b).shadow = (s.bank b).shadow)

/-- 20_memory.md R86: the block writes the mailbox only inside ENTER_SLEEP; every other command, and every step of a pass
or a replay, leaves every byte of memory as it was. -/
def Obligations.MailboxWrittenOnlyByEnterSleep : Prop :=
  (∀ (i : Instr) (s t : State), exec i s = .next t → (∀ v, i ≠ .enterSleep v) → t.mem = s.mem) ∧
  (∀ (s t : State) (rest : List Input), s.GoesOn rest → step s = .next t → t.mem = s.mem)

/-- 10_state.md R42, 60_exceptions.md R281: no command's effect depends on an `owner` register. -/
def Obligations.OwnershipHasNoEffect : Prop :=
  ∀ (i : Instr) (s1 s2 : State), s1.ownerless = s2.ownerless → sameButOwner (exec i s1) (exec i s2)

/-- 20_memory.md R84: the bytes of a written field lie in the parameter's byte order, a read of the field is the inverse
of the write, and the block's mailbox accesses are such reads and writes. -/
def Obligations.FieldByteOrder : Prop :=
  (∀ (s t : State) (a n v : Nat), memWrite s a n v = .ok t →
    t.mem = Memory.writeField s.params.mbByteOrder s.mem a n v) ∧
  (∀ (s t : State) (a n v : Nat), memRead s a n = .ok (v, t) →
    v = Memory.readField s.params.mbByteOrder s.mem a n ∧ t.mem = s.mem) ∧
  ∀ (m : Memory) (a v : Nat), Memory.wf m = true →
    (∀ o, v < 2 ^ 16 → Memory.readField o (Memory.writeField o m a 2 v) a 2 = v) ∧
    (∀ o, v < 2 ^ 32 → Memory.readField o (Memory.writeField o m a 4 v) a 4 = v) ∧
    (∀ j < 2, Memory.read (Memory.writeField .littleEndian m a 2 v) (a + j) = BitVec.ofNat 8 (v >>> (8 * j)) ∧
      Memory.read (Memory.writeField .bigEndian m a 2 v) (a + (1 - j)) = BitVec.ofNat 8 (v >>> (8 * j))) ∧
    (∀ j < 4, Memory.read (Memory.writeField .littleEndian m a 4 v) (a + j) = BitVec.ofNat 8 (v >>> (8 * j)) ∧
      Memory.read (Memory.writeField .bigEndian m a 4 v) (a + (3 - j)) = BitVec.ofNat 8 (v >>> (8 * j)))
end

