-- ==== Sys2Proof/Laws/Bits.lean ====
section
/-! SUPPORT. The bits of the bank words: masks, bank bits, read-modify-write values, and when one word lies within
another. -/

namespace Sys2Proof.Machine

@[simp] theorem Bank.getLsbD_wmask (k : Bank) (i : Nat) :
    k.wmask.getLsbD i = (decide (i < 32) && decide (i < k.width)) := by
  simp [Bank.wmask, BitVec.getLsbD_ofNat, Nat.testBit_two_pow_sub_one]

@[simp] theorem getLsbD_bitAt (off i : Nat) : (bitAt off).getLsbD i = (decide (i < 32) && decide (off = i)) := by
  simp [bitAt, BitVec.getLsbD_twoPow]
  by_cases h : off = i <;> simp [h]

@[simp] theorem getElem_bitAt (off i : Nat) (h : i < 32) : (bitAt off)[i] = decide (off = i) := by
  rw [← BitVec.getLsbD_eq_getElem, getLsbD_bitAt]
  simp [h]

@[simp] theorem getLsbD_withBit (v : Word) (off : Nat) (val : Bool) (i : Nat) :
    (withBit v (bitAt off) val).getLsbD i = if i = off ∧ i < 32 then val else v.getLsbD i := by
  by_cases h : i < 32
  · by_cases e : off = i
    · subst e; cases val <;> simp [withBit, h]
    · have e' : ¬ i = off := fun x => e x.symm
      cases val <;> simp [withBit, h, e, e']
  · have h' : 32 ≤ i := by omega
    cases val <;> simp [withBit, h, BitVec.getLsbD_of_ge v i h']

/-- `w` has no bit outside `m`. -/
theorem within_iff (w m : Word) : w &&& ~~~m = 0 ↔ ∀ i, w.getLsbD i = true → m.getLsbD i = true := by
  constructor
  · intro h i hi
    have hl : i < 32 := BitVec.lt_of_getLsbD hi
    have := congrArg (fun x : Word => x.getLsbD i) h
    simpa [hi, hl] using this
  · intro h
    apply BitVec.eq_of_getLsbD_eq
    intro i hi
    cases e : w.getLsbD i
    · simp [e]
    · simp [e, h i e, hi]

/-- Two words agree on the bits of `m` exactly when their masked values are equal. -/
theorem masked_eq_iff (v w m : Word) : v &&& m = w &&& m ↔ ∀ i, m.getLsbD i = true → v.getLsbD i = w.getLsbD i := by
  constructor
  · intro h i hi
    have := congrArg (fun x : Word => x.getLsbD i) h
    simpa [hi] using this
  · intro h
    apply BitVec.eq_of_getLsbD_eq
    intro i hi
    cases e : m.getLsbD i
    · simp [e]
    · simp [e, h i e]

theorem and_eq_self_of_within {w m : Word} (h : w &&& ~~~m = 0) : w &&& m = w := by
  apply BitVec.eq_of_getLsbD_eq
  intro i _
  have := (within_iff w m).1 h i
  cases e : w.getLsbD i <;> simp_all

end Sys2Proof.Machine
end

