-- ==== Sys2Proof/Laws/State.lean ====
section
/-! SUPPORT. One lemma per field per update of the state, each true by rfl: no later proof unfolds an update. -/

namespace Sys2Proof.Machine

@[simp] theorem State.start_params (s : State) (c : Instr) :
    (s.start c).params = s.params := rfl
@[simp] theorem State.start_banks (s : State) (c : Instr) :
    (s.start c).banks = s.banks := rfl
@[simp] theorem State.start_sleepState (s : State) (c : Instr) :
    (s.start c).sleepState = s.sleepState := rfl
@[simp] theorem State.start_replayPending (s : State) (c : Instr) :
    (s.start c).replayPending = s.replayPending := rfl
@[simp] theorem State.start_replayRun (s : State) (c : Instr) :
    (s.start c).replayRun = s.replayRun := rfl
@[simp] theorem State.start_mailboxPresent (s : State) (c : Instr) :
    (s.start c).mailboxPresent = s.mailboxPresent := rfl
@[simp] theorem State.start_booted (s : State) (c : Instr) :
    (s.start c).booted = s.booted := rfl
@[simp] theorem State.start_seq (s : State) (c : Instr) :
    (s.start c).seq = .busy c 0 := rfl
@[simp] theorem State.start_beRegs (s : State) (c : Instr) :
    (s.start c).beRegs = s.beRegs := rfl
@[simp] theorem State.start_pass (s : State) (c : Instr) :
    (s.start c).pass = s.pass := rfl
@[simp] theorem State.start_events (s : State) (c : Instr) :
    (s.start c).events = s.events := rfl
@[simp] theorem State.start_fault (s : State) (c : Instr) :
    (s.start c).fault = s.fault := rfl
@[simp] theorem State.start_refused (s : State) (c : Instr) :
    (s.start c).refused = s.refused := rfl
@[simp] theorem State.start_refusals (s : State) (c : Instr) :
    (s.start c).refusals = s.refusals := rfl
@[simp] theorem State.start_mem (s : State) (c : Instr) :
    (s.start c).mem = s.mem := rfl
@[simp] theorem State.start_choices (s : State) (c : Instr) :
    (s.start c).choices = s.choices := rfl
@[simp] theorem State.start_agenda (s : State) (c : Instr) :
    (s.start c).agenda = s.agenda := rfl

@[simp] theorem State.emit_params (s : State) (e : Event) :
    (s.emit e).params = s.params := rfl
@[simp] theorem State.emit_banks (s : State) (e : Event) :
    (s.emit e).banks = s.banks := rfl
@[simp] theorem State.emit_sleepState (s : State) (e : Event) :
    (s.emit e).sleepState = s.sleepState := rfl
@[simp] theorem State.emit_replayPending (s : State) (e : Event) :
    (s.emit e).replayPending = s.replayPending := rfl
@[simp] theorem State.emit_replayRun (s : State) (e : Event) :
    (s.emit e).replayRun = s.replayRun := rfl
@[simp] theorem State.emit_mailboxPresent (s : State) (e : Event) :
    (s.emit e).mailboxPresent = s.mailboxPresent := rfl
@[simp] theorem State.emit_booted (s : State) (e : Event) :
    (s.emit e).booted = s.booted := rfl
@[simp] theorem State.emit_seq (s : State) (e : Event) :
    (s.emit e).seq = s.seq := rfl
@[simp] theorem State.emit_beRegs (s : State) (e : Event) :
    (s.emit e).beRegs = s.beRegs := rfl
@[simp] theorem State.emit_pass (s : State) (e : Event) :
    (s.emit e).pass = s.pass := rfl
@[simp] theorem State.emit_events (s : State) (e : Event) :
    (s.emit e).events = s.events ++ [e] := rfl
@[simp] theorem State.emit_fault (s : State) (e : Event) :
    (s.emit e).fault = s.fault := rfl
@[simp] theorem State.emit_refused (s : State) (e : Event) :
    (s.emit e).refused = s.refused := rfl
@[simp] theorem State.emit_refusals (s : State) (e : Event) :
    (s.emit e).refusals = s.refusals := rfl
@[simp] theorem State.emit_mem (s : State) (e : Event) :
    (s.emit e).mem = s.mem := rfl
@[simp] theorem State.emit_choices (s : State) (e : Event) :
    (s.emit e).choices = s.choices := rfl
@[simp] theorem State.emit_agenda (s : State) (e : Event) :
    (s.emit e).agenda = s.agenda := rfl

@[simp] theorem State.finish_params (s : State) (c : Instr) (st : Status) (v : Bool) :
    (s.finish c st v).params = s.params := rfl
@[simp] theorem State.finish_banks (s : State) (c : Instr) (st : Status) (v : Bool) :
    (s.finish c st v).banks = s.banks := rfl
@[simp] theorem State.finish_sleepState (s : State) (c : Instr) (st : Status) (v : Bool) :
    (s.finish c st v).sleepState = s.sleepState := rfl
@[simp] theorem State.finish_replayPending (s : State) (c : Instr) (st : Status) (v : Bool) :
    (s.finish c st v).replayPending = s.replayPending := rfl
@[simp] theorem State.finish_replayRun (s : State) (c : Instr) (st : Status) (v : Bool) :
    (s.finish c st v).replayRun = s.replayRun := rfl
@[simp] theorem State.finish_mailboxPresent (s : State) (c : Instr) (st : Status) (v : Bool) :
    (s.finish c st v).mailboxPresent = s.mailboxPresent := rfl
@[simp] theorem State.finish_booted (s : State) (c : Instr) (st : Status) (v : Bool) :
    (s.finish c st v).booted = s.booted := rfl
@[simp] theorem State.finish_seq (s : State) (c : Instr) (st : Status) (v : Bool) :
    (s.finish c st v).seq = .idle := rfl
@[simp] theorem State.finish_beRegs (s : State) (c : Instr) (st : Status) (v : Bool) :
    (s.finish c st v).beRegs = s.beRegs := rfl
@[simp] theorem State.finish_pass (s : State) (c : Instr) (st : Status) (v : Bool) :
    (s.finish c st v).pass = s.pass := rfl
@[simp] theorem State.finish_events (s : State) (c : Instr) (st : Status) (v : Bool) :
    (s.finish c st v).events = s.events ++ [.result c (resultWord c st v)] := rfl
@[simp] theorem State.finish_fault (s : State) (c : Instr) (st : Status) (v : Bool) :
    (s.finish c st v).fault = s.fault := rfl
@[simp] theorem State.finish_refused (s : State) (c : Instr) (st : Status) (v : Bool) :
    (s.finish c st v).refused = s.refused := rfl
@[simp] theorem State.finish_refusals (s : State) (c : Instr) (st : Status) (v : Bool) :
    (s.finish c st v).refusals = s.refusals := rfl
@[simp] theorem State.finish_mem (s : State) (c : Instr) (st : Status) (v : Bool) :
    (s.finish c st v).mem = s.mem := rfl
@[simp] theorem State.finish_choices (s : State) (c : Instr) (st : Status) (v : Bool) :
    (s.finish c st v).choices = s.choices := rfl
@[simp] theorem State.finish_agenda (s : State) (c : Instr) (st : Status) (v : Bool) :
    (s.finish c st v).agenda = s.agenda := rfl

@[simp] theorem State.refuse_params (s : State) (r : RefuseReason) (o : Offered) :
    (s.refuse r o).params = s.params := rfl
@[simp] theorem State.refuse_banks (s : State) (r : RefuseReason) (o : Offered) :
    (s.refuse r o).banks = s.banks := rfl
@[simp] theorem State.refuse_sleepState (s : State) (r : RefuseReason) (o : Offered) :
    (s.refuse r o).sleepState = s.sleepState := rfl
@[simp] theorem State.refuse_replayPending (s : State) (r : RefuseReason) (o : Offered) :
    (s.refuse r o).replayPending = s.replayPending := rfl
@[simp] theorem State.refuse_replayRun (s : State) (r : RefuseReason) (o : Offered) :
    (s.refuse r o).replayRun = s.replayRun := rfl
@[simp] theorem State.refuse_mailboxPresent (s : State) (r : RefuseReason) (o : Offered) :
    (s.refuse r o).mailboxPresent = s.mailboxPresent := rfl
@[simp] theorem State.refuse_booted (s : State) (r : RefuseReason) (o : Offered) :
    (s.refuse r o).booted = s.booted := rfl
@[simp] theorem State.refuse_seq (s : State) (r : RefuseReason) (o : Offered) :
    (s.refuse r o).seq = s.seq := rfl
@[simp] theorem State.refuse_beRegs (s : State) (r : RefuseReason) (o : Offered) :
    (s.refuse r o).beRegs = s.beRegs := rfl
@[simp] theorem State.refuse_pass (s : State) (r : RefuseReason) (o : Offered) :
    (s.refuse r o).pass = s.pass := rfl
@[simp] theorem State.refuse_events (s : State) (r : RefuseReason) (o : Offered) :
    (s.refuse r o).events = s.events := rfl
@[simp] theorem State.refuse_fault (s : State) (r : RefuseReason) (o : Offered) :
    (s.refuse r o).fault = s.fault := rfl
@[simp] theorem State.refuse_refused (s : State) (r : RefuseReason) (o : Offered) :
    (s.refuse r o).refused = true := rfl
@[simp] theorem State.refuse_refusals (s : State) (r : RefuseReason) (o : Offered) :
    (s.refuse r o).refusals = s.refusals ++ [⟨r, o⟩] := rfl
@[simp] theorem State.refuse_mem (s : State) (r : RefuseReason) (o : Offered) :
    (s.refuse r o).mem = s.mem := rfl
@[simp] theorem State.refuse_choices (s : State) (r : RefuseReason) (o : Offered) :
    (s.refuse r o).choices = s.choices := rfl
@[simp] theorem State.refuse_agenda (s : State) (r : RefuseReason) (o : Offered) :
    (s.refuse r o).agenda = s.agenda := rfl

@[simp] theorem State.setBank_params (s : State) (b : Nat) (f : Bank → Bank) :
    (s.setBank b f).params = s.params := rfl
@[simp] theorem State.setBank_banks (s : State) (b : Nat) (f : Bank → Bank) :
    (s.setBank b f).banks = s.banks.modify b f := rfl
@[simp] theorem State.setBank_sleepState (s : State) (b : Nat) (f : Bank → Bank) :
    (s.setBank b f).sleepState = s.sleepState := rfl
@[simp] theorem State.setBank_replayPending (s : State) (b : Nat) (f : Bank → Bank) :
    (s.setBank b f).replayPending = s.replayPending := rfl
@[simp] theorem State.setBank_replayRun (s : State) (b : Nat) (f : Bank → Bank) :
    (s.setBank b f).replayRun = s.replayRun := rfl
@[simp] theorem State.setBank_mailboxPresent (s : State) (b : Nat) (f : Bank → Bank) :
    (s.setBank b f).mailboxPresent = s.mailboxPresent := rfl
@[simp] theorem State.setBank_booted (s : State) (b : Nat) (f : Bank → Bank) :
    (s.setBank b f).booted = s.booted := rfl
@[simp] theorem State.setBank_seq (s : State) (b : Nat) (f : Bank → Bank) :
    (s.setBank b f).seq = s.seq := rfl
@[simp] theorem State.setBank_beRegs (s : State) (b : Nat) (f : Bank → Bank) :
    (s.setBank b f).beRegs = s.beRegs := rfl
@[simp] theorem State.setBank_pass (s : State) (b : Nat) (f : Bank → Bank) :
    (s.setBank b f).pass = s.pass := rfl
@[simp] theorem State.setBank_events (s : State) (b : Nat) (f : Bank → Bank) :
    (s.setBank b f).events = s.events := rfl
@[simp] theorem State.setBank_fault (s : State) (b : Nat) (f : Bank → Bank) :
    (s.setBank b f).fault = s.fault := rfl
@[simp] theorem State.setBank_refused (s : State) (b : Nat) (f : Bank → Bank) :
    (s.setBank b f).refused = s.refused := rfl
@[simp] theorem State.setBank_refusals (s : State) (b : Nat) (f : Bank → Bank) :
    (s.setBank b f).refusals = s.refusals := rfl
@[simp] theorem State.setBank_mem (s : State) (b : Nat) (f : Bank → Bank) :
    (s.setBank b f).mem = s.mem := rfl
@[simp] theorem State.setBank_choices (s : State) (b : Nat) (f : Bank → Bank) :
    (s.setBank b f).choices = s.choices := rfl
@[simp] theorem State.setBank_agenda (s : State) (b : Nat) (f : Bank → Bank) :
    (s.setBank b f).agenda = s.agenda := rfl

@[simp] theorem State.maskUpdate_params (s : State) (b : Nat) (f : Bank → Bank) :
    (s.maskUpdate b f).params = s.params := rfl
@[simp] theorem State.maskUpdate_banks (s : State) (b : Nat) (f : Bank → Bank) :
    (s.maskUpdate b f).banks = s.banks.modify b f := rfl
@[simp] theorem State.maskUpdate_sleepState (s : State) (b : Nat) (f : Bank → Bank) :
    (s.maskUpdate b f).sleepState = s.sleepState := rfl
@[simp] theorem State.maskUpdate_replayPending (s : State) (b : Nat) (f : Bank → Bank) :
    (s.maskUpdate b f).replayPending = s.replayPending := rfl
@[simp] theorem State.maskUpdate_replayRun (s : State) (b : Nat) (f : Bank → Bank) :
    (s.maskUpdate b f).replayRun = s.replayRun := rfl
@[simp] theorem State.maskUpdate_mailboxPresent (s : State) (b : Nat) (f : Bank → Bank) :
    (s.maskUpdate b f).mailboxPresent = s.mailboxPresent := rfl
@[simp] theorem State.maskUpdate_booted (s : State) (b : Nat) (f : Bank → Bank) :
    (s.maskUpdate b f).booted = s.booted := rfl
@[simp] theorem State.maskUpdate_seq (s : State) (b : Nat) (f : Bank → Bank) :
    (s.maskUpdate b f).seq = s.seq.advance := rfl
@[simp] theorem State.maskUpdate_beRegs (s : State) (b : Nat) (f : Bank → Bank) :
    (s.maskUpdate b f).beRegs = s.beRegs := rfl
@[simp] theorem State.maskUpdate_pass (s : State) (b : Nat) (f : Bank → Bank) :
    (s.maskUpdate b f).pass = s.pass := rfl
@[simp] theorem State.maskUpdate_events (s : State) (b : Nat) (f : Bank → Bank) :
    (s.maskUpdate b f).events = s.events := rfl
@[simp] theorem State.maskUpdate_fault (s : State) (b : Nat) (f : Bank → Bank) :
    (s.maskUpdate b f).fault = s.fault := rfl
@[simp] theorem State.maskUpdate_refused (s : State) (b : Nat) (f : Bank → Bank) :
    (s.maskUpdate b f).refused = s.refused := rfl
@[simp] theorem State.maskUpdate_refusals (s : State) (b : Nat) (f : Bank → Bank) :
    (s.maskUpdate b f).refusals = s.refusals := rfl
@[simp] theorem State.maskUpdate_mem (s : State) (b : Nat) (f : Bank → Bank) :
    (s.maskUpdate b f).mem = s.mem := rfl
@[simp] theorem State.maskUpdate_choices (s : State) (b : Nat) (f : Bank → Bank) :
    (s.maskUpdate b f).choices = s.choices := rfl
@[simp] theorem State.maskUpdate_agenda (s : State) (b : Nat) (f : Bank → Bank) :
    (s.maskUpdate b f).agenda = s.agenda := rfl

@[simp] theorem State.draw_params (s : State) :
    (s.draw.2).params = s.params := rfl
@[simp] theorem State.draw_banks (s : State) :
    (s.draw.2).banks = s.banks := rfl
@[simp] theorem State.draw_sleepState (s : State) :
    (s.draw.2).sleepState = s.sleepState := rfl
@[simp] theorem State.draw_replayPending (s : State) :
    (s.draw.2).replayPending = s.replayPending := rfl
@[simp] theorem State.draw_replayRun (s : State) :
    (s.draw.2).replayRun = s.replayRun := rfl
@[simp] theorem State.draw_mailboxPresent (s : State) :
    (s.draw.2).mailboxPresent = s.mailboxPresent := rfl
@[simp] theorem State.draw_booted (s : State) :
    (s.draw.2).booted = s.booted := rfl
@[simp] theorem State.draw_seq (s : State) :
    (s.draw.2).seq = s.seq := rfl
@[simp] theorem State.draw_beRegs (s : State) :
    (s.draw.2).beRegs = s.beRegs := rfl
@[simp] theorem State.draw_pass (s : State) :
    (s.draw.2).pass = s.pass := rfl
@[simp] theorem State.draw_events (s : State) :
    (s.draw.2).events = s.events := rfl
@[simp] theorem State.draw_fault (s : State) :
    (s.draw.2).fault = s.fault := rfl
@[simp] theorem State.draw_refused (s : State) :
    (s.draw.2).refused = s.refused := rfl
@[simp] theorem State.draw_refusals (s : State) :
    (s.draw.2).refusals = s.refusals := rfl
@[simp] theorem State.draw_mem (s : State) :
    (s.draw.2).mem = s.mem := rfl
@[simp] theorem State.draw_choices (s : State) :
    (s.draw.2).choices = s.choices.nextWord.2 := rfl
@[simp] theorem State.draw_agenda (s : State) :
    (s.draw.2).agenda = s.agenda := rfl

@[simp] theorem State.access_params (s : State) :
    (s.access).params = s.params := rfl
@[simp] theorem State.access_banks (s : State) :
    (s.access).banks = pinSteps s.sleepState s.choices.nextPins.1 0 s.banks := rfl
@[simp] theorem State.access_sleepState (s : State) :
    (s.access).sleepState = s.sleepState := rfl
@[simp] theorem State.access_replayPending (s : State) :
    (s.access).replayPending = s.replayPending := rfl
@[simp] theorem State.access_replayRun (s : State) :
    (s.access).replayRun = s.replayRun := rfl
@[simp] theorem State.access_mailboxPresent (s : State) :
    (s.access).mailboxPresent = s.mailboxPresent := rfl
@[simp] theorem State.access_booted (s : State) :
    (s.access).booted = s.booted := rfl
@[simp] theorem State.access_seq (s : State) :
    (s.access).seq = s.seq.advance := rfl
@[simp] theorem State.access_beRegs (s : State) :
    (s.access).beRegs = s.beRegs := rfl
@[simp] theorem State.access_pass (s : State) :
    (s.access).pass = s.pass := rfl
@[simp] theorem State.access_events (s : State) :
    (s.access).events = s.events := rfl
@[simp] theorem State.access_fault (s : State) :
    (s.access).fault = s.fault := rfl
@[simp] theorem State.access_refused (s : State) :
    (s.access).refused = s.refused := rfl
@[simp] theorem State.access_refusals (s : State) :
    (s.access).refusals = s.refusals := rfl
@[simp] theorem State.access_mem (s : State) :
    (s.access).mem = s.mem := rfl
@[simp] theorem State.access_choices (s : State) :
    (s.access).choices = s.choices.nextPins.2 := rfl
@[simp] theorem State.access_agenda (s : State) :
    (s.access).agenda = s.agenda := rfl

end Sys2Proof.Machine
end

