-- ==== Sys2Proof/Laws/Ops.lean ====
section
/-! SUPPORT. What each shared operation does to a bank, said once: the pin environment writes only the pad and sets status
bits, a register read changes nothing else, a register write changes one register of one bank. -/

namespace Sys2Proof.Machine

/-! ### Looking up and changing a bank -/

@[simp] theorem bank_setBank_same {s : State} {b : Nat} (f : Bank → Bank) (h : b < s.banks.length) :
    (s.setBank b f).bank b = f (s.bank b) := by
  simp [State.bank, State.setBank, List.getD_eq_getElem?_getD, h]

@[simp] theorem bank_setBank_ne {s : State} {b b' : Nat} (f : Bank → Bank) (h : b' ≠ b) :
    (s.setBank b f).bank b' = s.bank b' := by
  simp [State.bank, State.setBank, List.getD_eq_getElem?_getD, Ne.symm h]

@[simp] theorem length_setBank (s : State) (b : Nat) (f : Bank → Bank) :
    (s.setBank b f).banks.length = s.banks.length := by simp

@[simp] theorem bank_maskUpdate_same {s : State} {b : Nat} (f : Bank → Bank) (h : b < s.banks.length) :
    (s.maskUpdate b f).bank b = f (s.bank b) := bank_setBank_same f h

@[simp] theorem bank_maskUpdate_ne {s : State} {b b' : Nat} (f : Bank → Bank) (h : b' ≠ b) :
    (s.maskUpdate b f).bank b' = s.bank b' := bank_setBank_ne f h

@[simp] theorem length_maskUpdate (s : State) (b : Nat) (f : Bank → Bank) :
    (s.maskUpdate b f).banks.length = s.banks.length := by simp

@[simp] theorem bank_draw (s : State) (b : Nat) : s.draw.2.bank b = s.bank b := rfl
@[simp] theorem bank_start (s : State) (c : Instr) (b : Nat) : (s.start c).bank b = s.bank b := rfl
@[simp] theorem bank_emit (s : State) (e : Event) (b : Nat) : (s.emit e).bank b = s.bank b := rfl
@[simp] theorem bank_finish (s : State) (c : Instr) (st : Status) (v : Bool) (b : Nat) :
    (s.finish c st v).bank b = s.bank b := rfl
@[simp] theorem bank_refuse (s : State) (r : RefuseReason) (o : Offered) (b : Nat) :
    (s.refuse r o).bank b = s.bank b := rfl

theorem bank_congr {s t : State} (h : t.banks = s.banks) (b : Nat) : t.bank b = s.bank b := by
  simp [State.bank, h]

theorem bank_eq_getElem {s : State} {b : Nat} (h : b < s.banks.length) : s.bank b = s.banks[b] := by
  simp [State.bank, List.getD_eq_getElem?_getD, h]

theorem bank_mem {s : State} {b : Nat} (h : b < s.banks.length) : s.bank b ∈ s.banks := by
  rw [bank_eq_getElem h]; exact List.getElem_mem h

theorem forall_mem_banks {s : State} {P : Bank → Prop} : (∀ k ∈ s.banks, P k) ↔ ∀ b < s.banks.length, P (s.bank b) := by
  constructor
  · intro h b hb; exact h _ (bank_mem hb)
  · intro h k hk
    obtain ⟨b, hb, rfl⟩ := List.getElem_of_mem hk
    rw [← bank_eq_getElem hb]; exact h b hb

/-! ### The pin environment (60_exceptions.md R270) -/

theorem within_trans {a b c : Word} (h1 : a &&& ~~~b = 0) (h2 : b &&& ~~~c = 0) : a &&& ~~~c = 0 := by
  rw [within_iff] at *
  exact fun i hi => h2 i (h1 i hi)

theorem within_or (a b : Word) : a &&& ~~~(a ||| b) = 0 := by
  rw [within_iff]; intro i hi; simp [hi]

theorem within_self (a : Word) : a &&& ~~~a = 0 := by rw [within_iff]; exact fun _ h => h

theorem Bank.PinsOnly.refl (k : Bank) : k.PinsOnly k := ⟨rfl, within_self _⟩

theorem Bank.PinsOnly.trans {k1 k2 k3 : Bank} (h1 : k1.PinsOnly k2) (h2 : k2.PinsOnly k3) : k1.PinsOnly k3 :=
  ⟨by rw [h2.same, h1.same], within_trans h1.kept h2.kept⟩

theorem Bank.PinsOnly.desc {k k' : Bank} (h : k.PinsOnly k') : k'.desc = k.desc := by rw [h.same]
theorem Bank.PinsOnly.out {k k' : Bank} (h : k.PinsOnly k') : k'.out = k.out := by rw [h.same]
theorem Bank.PinsOnly.intEn {k k' : Bank} (h : k.PinsOnly k') : k'.intEn = k.intEn := by rw [h.same]
theorem Bank.PinsOnly.intEdge {k k' : Bank} (h : k.PinsOnly k') : k'.intEdge = k.intEdge := by rw [h.same]
theorem Bank.PinsOnly.intPos {k k' : Bank} (h : k.PinsOnly k') : k'.intPos = k.intPos := by rw [h.same]
theorem Bank.PinsOnly.oe {k k' : Bank} (h : k.PinsOnly k') : k'.oe = k.oe := by rw [h.same]
theorem Bank.PinsOnly.owner {k k' : Bank} (h : k.PinsOnly k') : k'.owner = k.owner := by rw [h.same]
theorem Bank.PinsOnly.en0 {k k' : Bank} (h : k.PinsOnly k') : k'.en0 = k.en0 := by rw [h.same]
theorem Bank.PinsOnly.en1 {k k' : Bank} (h : k.PinsOnly k') : k'.en1 = k.en1 := by rw [h.same]
theorem Bank.PinsOnly.be {k k' : Bank} (h : k.PinsOnly k') : k'.be = k.be := by rw [h.same]
theorem Bank.PinsOnly.shadow {k k' : Bank} (h : k.PinsOnly k') : k'.shadow = k.shadow := by rw [h.same]
theorem Bank.PinsOnly.wmask {k k' : Bank} (h : k.PinsOnly k') : k'.wmask = k.wmask := by
  simp only [Bank.wmask, Bank.width, h.desc]

/-- Environment steps keep every status bit that is set (10_state.md R36). -/
theorem Bank.sense_kept (sleep : SleepState) (b : Nat) : ∀ (ps : List PinStep) (k : Bank),
    k.intStatus &&& ~~~(k.sense sleep b ps).2 = 0
  | [], k => within_self _
  | p :: ps, k => by
    unfold Bank.sense
    by_cases h : p.bank = b
    · simp only [h, if_true]
      refine within_trans ?_ (Bank.sense_kept sleep b ps _)
      exact within_or _ _
    · simp only [h, if_false]
      exact Bank.sense_kept sleep b ps k

theorem Bank.watch_pinsOnly (sleep : SleepState) (ps : List PinStep) (b : Nat) (k : Bank) :
    k.PinsOnly (k.watch sleep ps b) := ⟨rfl, Bank.sense_kept sleep b ps k⟩

@[simp] theorem length_pinSteps (sleep : SleepState) (ps : List PinStep) : ∀ (b : Nat) (ks : List Bank),
    (pinSteps sleep ps b ks).length = ks.length
  | _, [] => rfl
  | b, k :: ks => by simp [pinSteps, length_pinSteps sleep ps (b + 1) ks]

theorem getElem?_pinSteps (sleep : SleepState) (ps : List PinStep) : ∀ (ks : List Bank) (b i : Nat),
    (pinSteps sleep ps b ks)[i]? = (ks[i]?).map (Bank.watch sleep ps (b + i))
  | [], _, _ => by simp [pinSteps]
  | k :: ks, b, 0 => by simp [pinSteps]
  | k :: ks, b, i + 1 => by
    simp only [pinSteps, List.getElem?_cons_succ]
    rw [getElem?_pinSteps sleep ps ks (b + 1) i, Nat.add_right_comm, Nat.add_assoc]

@[simp] theorem length_access (s : State) : s.access.banks.length = s.banks.length := by simp

/-- The bank at an access: what the environment made of it. -/
theorem bank_access {s : State} {b : Nat} (h : b < s.banks.length) :
    s.access.bank b = (s.bank b).watch s.sleepState s.choices.nextPins.1 b := by
  simp only [State.bank, List.getD_eq_getElem?_getD, State.access_banks, getElem?_pinSteps, Nat.zero_add]
  simp [h]

theorem bank_absent {s : State} {b : Nat} (h : ¬b < s.banks.length) : s.bank b = default := by
  simp [State.bank, List.getD_eq_getElem?_getD, Nat.le_of_not_lt h]

/-- An access leaves every bank as it was but for the pin environment. -/
theorem access_pinsOnly (s : State) (b : Nat) : (s.bank b).PinsOnly (s.access.bank b) := by
  by_cases h : b < s.banks.length
  · rw [bank_access h]; exact Bank.watch_pinsOnly _ _ _ _
  · rw [bank_absent h, bank_absent (by simpa using h)]; exact .refl _

@[simp] theorem access_bank_desc (s : State) (b : Nat) : (s.access.bank b).desc = (s.bank b).desc := (access_pinsOnly s b).desc
@[simp] theorem access_bank_out (s : State) (b : Nat) : (s.access.bank b).out = (s.bank b).out := (access_pinsOnly s b).out
@[simp] theorem access_bank_intEn (s : State) (b : Nat) : (s.access.bank b).intEn = (s.bank b).intEn := (access_pinsOnly s b).intEn
@[simp] theorem access_bank_intEdge (s : State) (b : Nat) : (s.access.bank b).intEdge = (s.bank b).intEdge := (access_pinsOnly s b).intEdge
@[simp] theorem access_bank_intPos (s : State) (b : Nat) : (s.access.bank b).intPos = (s.bank b).intPos := (access_pinsOnly s b).intPos
@[simp] theorem access_bank_oe (s : State) (b : Nat) : (s.access.bank b).oe = (s.bank b).oe := (access_pinsOnly s b).oe
@[simp] theorem access_bank_owner (s : State) (b : Nat) : (s.access.bank b).owner = (s.bank b).owner := (access_pinsOnly s b).owner
@[simp] theorem access_bank_en0 (s : State) (b : Nat) : (s.access.bank b).en0 = (s.bank b).en0 := (access_pinsOnly s b).en0
@[simp] theorem access_bank_en1 (s : State) (b : Nat) : (s.access.bank b).en1 = (s.bank b).en1 := (access_pinsOnly s b).en1
@[simp] theorem access_bank_be (s : State) (b : Nat) : (s.access.bank b).be = (s.bank b).be := (access_pinsOnly s b).be
@[simp] theorem access_bank_shadow (s : State) (b : Nat) : (s.access.bank b).shadow = (s.bank b).shadow := (access_pinsOnly s b).shadow
@[simp] theorem access_bank_width (s : State) (b : Nat) : (s.access.bank b).width = (s.bank b).width := by
  simp [Bank.width]

@[simp] theorem access_bank_wmask (s : State) (b : Nat) : (s.access.bank b).wmask = (s.bank b).wmask :=
  (access_pinsOnly s b).wmask

/-! ### Register reads -/

@[simp] theorem bank_regRead (s : State) (b b' : Nat) (r : Reg) : (regRead s b r).2.bank b' = s.access.bank b' := rfl

@[simp] theorem length_regRead (s : State) (b : Nat) (r : Reg) : (regRead s b r).2.banks.length = s.banks.length := by
  simp [regRead]

/-- A read changes nothing but what passes before it, and uses up a draw (20_memory.md R79). -/
theorem regRead_rest (s : State) (b : Nat) (r : Reg) : (regRead s b r).2 = s.access.draw.2 := rfl

/-- A bit of a pin is read as the register holds it at the access. -/
theorem getLsbD_regRead (s : State) (b : Nat) (r : Reg) (i : Nat) (hi : i < 32) (hw : i < (s.bank b).width) :
    (regRead s b r).1.getLsbD i = ((s.access.bank b).content r s.access.draw.1).getLsbD i := by
  simp [regRead, hi, hw, -BitVec.getLsbD_eq_getElem]

/-- A register read within the bank's pins is the register's content at the access. -/
theorem regRead_masked (s : State) (b : Nat) (r : Reg) :
    (regRead s b r).1 &&& (s.bank b).wmask = (s.access.bank b).content r s.access.draw.1 &&& (s.bank b).wmask := by
  rw [masked_eq_iff]
  intro i hi
  simp only [Bank.getLsbD_wmask, Bool.and_eq_true, decide_eq_true_eq] at hi
  exact getLsbD_regRead s b r i hi.1 hi.2

/-! ### Register writes -/

/-- The draw a register write takes (20_memory.md R73, R75). -/
def writeDraw (s : State) (r : Reg) : Word := if r.draws then s.access.draw.1 else 0

theorem bank_regWrite_same {s : State} {b : Nat} (h : b < s.banks.length) (r : Reg) (v : Word) :
    (regWrite s b r v).bank b = (s.access.bank b).written r v (writeDraw s r) := by
  unfold regWrite writeDraw
  cases hr : r.draws <;> simp [h]

@[simp] theorem bank_regWrite_ne (s : State) {b b' : Nat} (h : b' ≠ b) (r : Reg) (v : Word) :
    (regWrite s b r v).bank b' = s.access.bank b' := by
  unfold regWrite
  cases hr : r.draws <;> simp [h]

@[simp] theorem length_regWrite (s : State) (b : Nat) (r : Reg) (v : Word) :
    (regWrite s b r v).banks.length = s.banks.length := by
  unfold regWrite
  cases hr : r.draws <;> simp

end Sys2Proof.Machine
end

