-- ==== Sys2Proof/Laws/Touches.lean ====
section
/-! SUPPORT. What the accesses of a command can do, said once: they touch one bank, the sequencer's own fields and the
free values, and leave everything else as it was but for the pin environment. -/

namespace Sys2Proof.Machine

/-- `t` is reached from `s` by accesses and mask updates on bank `b`. -/
structure Touches (b : Nat) (s t : State) : Prop where
  rest : t = { s with
    banks := t.banks, choices := t.choices, seq := t.seq, events := t.events, beRegs := t.beRegs }
  length : t.banks.length = s.banks.length
  others : ∀ b', b' ≠ b → (s.bank b').PinsOnly (t.bank b')
  desc : (t.bank b).desc = (s.bank b).desc

namespace Touches
variable {b : Nat} {s t u : State}

theorem refl (b : Nat) (s : State) : Touches b s s := ⟨rfl, rfl, fun _ _ => .refl _, rfl⟩

theorem trans (h1 : Touches b s t) (h2 : Touches b t u) : Touches b s u :=
  ⟨by rw [h2.rest, h1.rest], h2.length.trans h1.length, fun b' hb => (h1.others b' hb).trans (h2.others b' hb),
    h2.desc.trans h1.desc⟩

theorem params (h : Touches b s t) : t.params = s.params := by rw [h.rest]
theorem sleepState (h : Touches b s t) : t.sleepState = s.sleepState := by rw [h.rest]
theorem mailboxPresent (h : Touches b s t) : t.mailboxPresent = s.mailboxPresent := by rw [h.rest]
theorem booted (h : Touches b s t) : t.booted = s.booted := by rw [h.rest]
theorem pass (h : Touches b s t) : t.pass = s.pass := by rw [h.rest]
theorem mem (h : Touches b s t) : t.mem = s.mem := by rw [h.rest]
theorem agenda (h : Touches b s t) : t.agenda = s.agenda := by rw [h.rest]
theorem width (h : Touches b s t) : (t.bank b).width = (s.bank b).width := by simp only [Bank.width, h.desc]
theorem wmask (h : Touches b s t) : (t.bank b).wmask = (s.bank b).wmask := by simp only [Bank.wmask, h.width]

end Touches

theorem touches_access (b : Nat) (s : State) : Touches b s s.access :=
  ⟨rfl, by simp, fun b' _ => access_pinsOnly s b', by simp⟩

theorem touches_draw (b : Nat) (s : State) : Touches b s s.draw.2 := ⟨rfl, rfl, fun _ _ => .refl _, rfl⟩

theorem touches_emit (b : Nat) (s : State) (e : Event) : Touches b s (s.emit e) := ⟨rfl, rfl, fun _ _ => .refl _, rfl⟩

theorem touches_beRegs (b : Nat) (s : State) (r : Option BothEdgeRegs) : Touches b s { s with beRegs := r } :=
  ⟨rfl, rfl, fun _ _ => .refl _, rfl⟩

theorem touches_setBank {b : Nat} {s : State} {f : Bank → Bank} (h : ∀ k, (f k).desc = k.desc) :
    Touches b s (s.setBank b f) := by
  refine ⟨rfl, by simp, fun b' hb => by rw [bank_setBank_ne f hb]; exact .refl _, ?_⟩
  by_cases hb : b < s.banks.length
  · rw [bank_setBank_same f hb, h]
  · rw [bank_absent hb, bank_absent (by simpa using hb)]

theorem touches_maskUpdate (b : Nat) (s : State) (f : Bank → Bank) (h : ∀ k, (f k).desc = k.desc) :
    Touches b s (s.maskUpdate b f) :=
  let t := touches_setBank (b := b) (s := s) h
  ⟨rfl, t.length, t.others, t.desc⟩

theorem Bank.desc_written (k : Bank) (r : Reg) (v d : Word) : (k.written r v d).desc = k.desc := by cases r <;> rfl

theorem touches_regRead (b : Nat) (s : State) (r : Reg) : Touches b s (regRead s b r).2 :=
  (touches_access b s).trans (touches_draw b s.access)

theorem touches_regWrite (b : Nat) (s : State) (r : Reg) (v : Word) : Touches b s (regWrite s b r v) := by
  unfold regWrite
  cases r.draws
  · exact (touches_access b s).trans (touches_setBank fun k => k.desc_written r v 0)
  · exact (touches_access b s).trans ((touches_draw b _).trans (touches_setBank fun k => k.desc_written r v _))

theorem touches_modifyBit (b : Nat) (s : State) (r : Reg) (bit : Word) (val : Bool) :
    Touches b s (modifyBit s b r bit val) := (touches_regRead b s r).trans (touches_regWrite b _ r _)

theorem touches_bothEdgePass (b : Nat) (s : State) (iter : Nat) : Touches b s (bothEdgePass s b iter) :=
  (touches_regRead b s .inp).trans <| (touches_regRead b _ .intPos).trans <| (touches_regWrite b _ .intPos _).trans <|
    (touches_regRead b _ .intStatus).trans <| (touches_regRead b _ .inp).trans <| touches_beRegs b _ _

theorem touches_bothEdgeLoop (b : Nat) : ∀ (left : Nat) (s : State) (iter : Nat),
    Touches b s (bothEdgeLoop s b iter left)
  | 0, s, _ => touches_beRegs b s none
  | left + 1, s, iter => by
    unfold bothEdgeLoop
    refine (touches_bothEdgePass b s iter).trans ?_
    simp only
    split
    · exact touches_beRegs b _ none
    · split
      · exact (touches_emit b _ _).trans (touches_beRegs b _ none)
      · exact touches_bothEdgeLoop b left _ _

theorem touches_bothEdge (b : Nat) (s : State) : Touches b s (bothEdge s b) := touches_bothEdgeLoop b _ s 0

theorem touches_clearDetect (b : Nat) (s : State) (off : Nat) : Touches b s (clearDetect s b off) := by
  have h (st : Word) (u : State) : Touches b u (regWrite (u.maskUpdate b (Bank.foldShadow st (bitAt off))) b .intClear
      (bitAt off)) := (touches_maskUpdate b u (Bank.foldShadow st (bitAt off)) fun _ => rfl).trans (touches_regWrite b _ _ _)
  unfold clearDetect
  refine (touches_regRead b s .intStatus).trans ?_
  simp only
  split
  · exact (h _ _).trans (touches_bothEdge b _)
  · exact h _ _

theorem touches_maskBody (b : Nat) (s : State) (off : Nat) : Touches b s (maskBody s b off) :=
  (touches_maskUpdate b s (Bank.disable (bitAt off)) fun _ => rfl).trans <|
  (touches_maskUpdate b _ (Bank.dropShadow (bitAt off)) fun _ => rfl).trans <| touches_regWrite b _ .intEn _

theorem touches_unmaskBody (b : Nat) (s : State) (off : Nat) : Touches b s (unmaskBody s b off) := by
  have h (u : State) : Touches b u (regWrite (u.maskUpdate b (Bank.enable (bitAt off))) b .intEn
      ((u.maskUpdate b (Bank.enable (bitAt off))).bank b).en0) :=
    (touches_maskUpdate b u (Bank.enable (bitAt off)) fun _ => rfl).trans (touches_regWrite b _ _ _)
  unfold unmaskBody
  refine (touches_regRead b s .intEdge).trans ?_
  simp only
  split
  · exact h _
  · exact (touches_clearDetect b _ off).trans (h _)

theorem touches_wakeBody (b : Nat) (s : State) (off : Nat) (v : Bool) : Touches b s (wakeBody s b off v) :=
  touches_maskUpdate b s _ fun _ => rfl

theorem touches_triggerGroup (b : Nat) (s : State) (bit : Word) (t : Trigger) :
    Touches b s (triggerGroup s b bit t) := by
  unfold triggerGroup
  refine (touches_modifyBit b s .intEdge bit (triggerEdge t)).trans ?_
  cases triggerPolarity t
  · exact (touches_maskUpdate b _ (Bank.joinBothEdge bit) fun _ => rfl).trans (touches_bothEdge b _)
  · exact (touches_maskUpdate b _ (Bank.leaveBothEdge bit) fun _ => rfl).trans (touches_modifyBit b _ .intPos bit _)

theorem touches_enableGroup (b : Nat) (s : State) (off : Nat) (v : Bool) : Touches b s (enableGroup s b off v) := by
  cases v
  · exact touches_maskBody b s off
  · exact touches_unmaskBody b s off

theorem touches_whenPresent {α : Type} {b : Nat} (o : Option α) (s : State) (f : State → α → State)
    (h : ∀ v, Touches b s (f s v)) : Touches b s (whenPresent o s f) := by
  cases o
  · exact .refl b s
  · exact h _

theorem touches_configureBody (opts : Options) (b : Nat) (s : State) (off : Nat) :
    Touches b s (configureBody opts s b off) := by
  unfold configureBody
  refine (touches_whenPresent opts.out s (fun s v => outputGroup s b (bitAt off) v) fun v => ?_).trans <|
    (touches_whenPresent opts.dir _ (fun s v => directionGroup s b (bitAt off) v) fun v => ?_).trans <|
    (touches_whenPresent opts.own _ (fun s v => ownerGroup s b (bitAt off) v) fun v => ?_).trans <|
    (touches_whenPresent opts.trig _ (fun s t => triggerGroup s b (bitAt off) t) fun t => ?_).trans <|
    (touches_whenPresent opts.int _ (fun s v => enableGroup s b off v) fun v => ?_).trans <|
    touches_whenPresent opts.wake _ (fun s v => wakeBody s b off v) fun v => ?_
  · exact touches_modifyBit b _ .out _ v
  · exact touches_modifyBit b _ .oe _ v
  · exact touches_modifyBit b _ .owner _ v
  · exact touches_triggerGroup b _ _ t
  · exact touches_enableGroup b _ off v
  · exact touches_wakeBody b _ off v

end Sys2Proof.Machine
end

