-- ==== Sys2Proof/Laws/Effects.lean ====
section
/-! SUPPORT. What each command body does to its bank, said once: for every access and for every body of the facade, the pin
configuration engine and the both-edge machine, the bank after it given the bank before it, the pin environment included. -/

namespace Sys2Proof.Machine

/-! ### One access -/

/-- The registers that only a write of the sequencer changes (10_state.md R34, R38 to R42). -/
def Reg.stored : Reg → Bool
  | .out => true
  | .intEn => true
  | .intEdge => true
  | .intPos => true
  | .oe => true
  | .owner => true
  | .inp => false
  | .intStatus => false
  | .intClear => false

theorem Bank.content_of_pinsOnly {k k' : Bank} (h : k.PinsOnly k') {r : Reg} (hr : r.stored = true) (d d' : Word) :
    k'.content r d' = k.content r d := by
  rw [h.same]; cases r <;> first | rfl | cases hr

/-- A write of the same word keeps two banks apart by the pin environment only. -/
theorem Bank.written_pinsOnly {k k' : Bank} (h : k.PinsOnly k') {r : Reg} (hr : r ≠ .intClear) (v d : Word) :
    (k.written r v 0).PinsOnly (k'.written r v d) := by
  have hk := h.kept
  constructor
  · rw [h.same]
    cases r
    case intClear => exact absurd rfl hr
    all_goals rfl
  · have hs : (k.written r v 0).intStatus = k.intStatus := by
      cases r
      case intClear => exact absurd rfl hr
      all_goals first | rfl | simp [Bank.written]
    rw [hs]
    cases r
    case intClear => exact absurd rfl hr
    all_goals first | exact hk | exact within_trans hk (within_or _ _)

/-- A register write but of `int_clear`: the one register, and the pin environment. -/
theorem regWrite_pinsOnly {s : State} {b : Nat} (h : b < s.banks.length) {r : Reg} (hr : r ≠ .intClear) (v : Word) :
    ((s.bank b).written r v 0).PinsOnly ((regWrite s b r v).bank b) := by
  rw [bank_regWrite_same h]
  exact Bank.written_pinsOnly (access_pinsOnly s b) hr v _

/-- A read-modify-write of one bit: the register as read with the bit set, and the pin environment (20_memory.md R91). -/
theorem modifyBit_pinsOnly {s : State} {b : Nat} (h : b < s.banks.length) {r : Reg} (hr : r.stored = true) (off : Nat)
    (val : Bool) : ∃ d,
    ((s.bank b).written r (regrouped (s.bank b) off ((s.bank b).content r 0) d (some val)) 0).PinsOnly
      ((modifyBit s b r (bitAt off) val).bank b) := by
  refine ⟨s.access.draw.1, ?_⟩
  have hv : (regRead s b r).1 = ((s.bank b).content r 0 &&& (s.bank b).wmask) ||| (s.access.draw.1 &&& ~~~(s.bank b).wmask) := by
    simp only [regRead, bank_draw, access_bank_wmask]
    rw [Bank.content_of_pinsOnly (access_pinsOnly s b) hr 0]
  have hw : r ≠ .intClear := by rintro rfl; cases hr
  simp only [modifyBit, regrouped]
  rw [← hv, bank_regWrite_same (by simpa using h)]
  refine Bank.written_pinsOnly ?_ hw _ _
  exact (access_pinsOnly s b).trans (access_pinsOnly (regRead s b r).2 b)

theorem getLsbD_regrouped (k : Bank) (off : Nat) (v d : Word) (x : Bool) (i : Nat) (h : i < 32) (hw : i < k.width) :
    (regrouped k off v d (some x)).getLsbD i = if i = off then x else v.getLsbD i := by
  simp only [regrouped, getLsbD_withBit, h, and_true]
  split
  · rfl
  · simp [h, hw, -BitVec.getLsbD_eq_getElem]

@[simp] theorem modifyBit_events (s : State) (b : Nat) (r : Reg) (bit : Word) (val : Bool) :
    (modifyBit s b r bit val).events = s.events := by
  simp only [modifyBit, regWrite]
  split <;> rfl

@[simp] theorem regWrite_events (s : State) (b : Nat) (r : Reg) (v : Word) : (regWrite s b r v).events = s.events := by
  simp only [regWrite]
  split <;> rfl

@[simp] theorem regRead_events (s : State) (b : Nat) (r : Reg) : (regRead s b r).2.events = s.events := rfl

@[simp] theorem regWrite_seq (s : State) (b : Nat) (r : Reg) (v : Word) : (regWrite s b r v).seq = s.seq.advance := by
  simp only [regWrite]
  split <;> rfl

@[simp] theorem regRead_seq (s : State) (b : Nat) (r : Reg) : (regRead s b r).2.seq = s.seq.advance := rfl

@[simp] theorem regWrite_beRegs (s : State) (b : Nat) (r : Reg) (v : Word) : (regWrite s b r v).beRegs = s.beRegs := by
  simp only [regWrite]
  split <;> rfl

@[simp] theorem regRead_beRegs (s : State) (b : Nat) (r : Reg) : (regRead s b r).2.beRegs = s.beRegs := rfl

/-! ### The both-edge machine -/

/-- One pass on bank `b`: `int_pos` is `pol`, armed away from `v1` at the both-edge pins and as it was elsewhere; `v2` is
the pad at the end; a status read in `st` is still set. -/
structure PassEffect (b : Nat) (s t : State) (r : BothEdgeRegs) : Prop where
  regs   : t.beRegs = some r
  bank   : Bank.PinsOnly { s.bank b with intPos := r.pol } (t.bank b)
  pol    : ∀ i, i < 32 → i < (s.bank b).width →
    r.pol.getLsbD i = if (s.bank b).be.getLsbD i then !r.v1.getLsbD i else (s.bank b).intPos.getLsbD i
  level  : ∀ i, i < 32 → i < (s.bank b).width → r.v2.getLsbD i = (t.bank b).pad.getLsbD i
  status : ∀ i, i < 32 → i < (s.bank b).width → r.st.getLsbD i = true → (t.bank b).intStatus.getLsbD i = true
  events : t.events = s.events
  seq    : t.seq = s.seq.advance.advance.advance.advance.advance

theorem bothEdgePass_effect {s : State} {b : Nat} (h : b < s.banks.length) (iter : Nat) :
    ∃ r, PassEffect b s (bothEdgePass s b iter) r := by
  obtain ⟨s1, e1⟩ : ∃ x, x = (regRead s b .inp).2 := ⟨_, rfl⟩
  obtain ⟨s2, e2⟩ : ∃ x, x = (regRead s1 b .intPos).2 := ⟨_, rfl⟩
  obtain ⟨pol, ep⟩ : ∃ x, x = armedPolarity (s2.bank b).be (regRead s1 b .intPos).1 (regRead s b .inp).1 := ⟨_, rfl⟩
  obtain ⟨s3, e3⟩ : ∃ x, x = regWrite s2 b .intPos pol := ⟨_, rfl⟩
  obtain ⟨s4, e4⟩ : ∃ x, x = (regRead s3 b .intStatus).2 := ⟨_, rfl⟩
  obtain ⟨s5, e5⟩ : ∃ x, x = (regRead s4 b .inp).2 := ⟨_, rfl⟩
  have e : bothEdgePass s b iter = { s5 with beRegs := some ⟨iter, (regRead s b .inp).1, (regRead s1 b .intPos).1, pol,
      (regRead s3 b .intStatus).1, (regRead s4 b .inp).1⟩ } := by
    subst e5 e4 e3 ep e2 e1; rfl
  have h1 : (s.bank b).PinsOnly (s1.bank b) := by rw [e1]; exact access_pinsOnly s b
  have h2 : (s1.bank b).PinsOnly (s2.bank b) := by rw [e2]; exact access_pinsOnly s1 b
  have l2 : b < s2.banks.length := by rw [e2, e1]; simpa using h
  have h3 : ((s2.bank b).written .intPos pol 0).PinsOnly (s3.bank b) := by rw [e3]; exact regWrite_pinsOnly l2 (by decide) pol
  have h4 : (s3.bank b).PinsOnly (s4.bank b) := by rw [e4]; exact access_pinsOnly s3 b
  have h5' : (s4.bank b).PinsOnly (s4.access.bank b) := access_pinsOnly s4 b
  have h5 : (s4.bank b).PinsOnly (s5.bank b) := by rw [e5]; exact h5'
  have h03 : Bank.PinsOnly ((s.bank b).written .intPos pol 0) (s3.bank b) :=
    (Bank.written_pinsOnly (h1.trans h2) (by decide) pol 0).trans h3
  have w4 : (s4.bank b).width = (s.bank b).width := by
    simp only [Bank.width, (h03.trans h4).desc, Bank.desc_written]
  have w3 : (s3.bank b).width = (s.bank b).width := by simp only [Bank.width, h03.desc, Bank.desc_written]
  have w1 : (s1.bank b).width = (s.bank b).width := by simp only [Bank.width, h1.desc]
  refine ⟨_, by rw [e], ?_, ?_, ?_, ?_, ?_, ?_⟩
  · have := (h03.trans h4).trans h5
    have q : Bank.PinsOnly { s.bank b with intPos := pol } (s5.bank b) := by simpa [Bank.written] using this
    rw [e]
    exact q
  · intro i hi hw
    have hp := getLsbD_regRead s1 b .intPos i hi (by rw [w1]; exact hw)
    rw [Bank.content_of_pinsOnly (h1.trans (access_pinsOnly s1 b)) rfl 0] at hp
    simp only [ep, armedPolarity, (h1.trans h2).be, BitVec.getLsbD_or, BitVec.getLsbD_and, BitVec.getLsbD_not, hp, hi,
      decide_true, Bool.true_and]
    cases (s.bank b).be.getLsbD i <;> simp [Bank.content, -BitVec.getLsbD_eq_getElem]
  · intro i hi hw
    rw [e, e5]
    exact getLsbD_regRead s4 b .inp i hi (by rw [w4]; exact hw)
  · intro i hi hw hst
    rw [e]
    rw [getLsbD_regRead s3 b .intStatus i hi (by rw [w3]; exact hw)] at hst
    have hk := h5.kept
    rw [e4] at hk
    exact (within_iff _ _).1 hk i hst
  · rw [e]; simp [e5, e4, e3, e2, e1]
  · rw [e]; simp [e5, e4, e3, e2, e1]

/-- The BOUND exit of a run on bank `b` (41_both_edge.md R166): `max` whole passes, and the log of the last one, whose
levels differ at a both-edge pin. -/
structure BoundExit (b max : Nat) (s t : State) (v1 v2 : Word) : Prop where
  events : t.events = s.events ++ [.convergenceBound b v1 v2]
  passes : ∀ c k, s.seq = .busy c k → t.seq = .busy c (k + 5 * max)
  level  : v2 &&& (s.bank b).wmask = (t.bank b).pad &&& (s.bank b).wmask
  moved  : (v1 ^^^ v2) &&& (s.bank b).be ≠ 0
  armed  : ∀ i, i < 32 → i < (s.bank b).width → (s.bank b).be.getLsbD i = true →
    (t.bank b).intPos.getLsbD i = !v1.getLsbD i

/-- A run of at most `max` passes on bank `b`: it writes `int_pos` at both-edge pins only, and ends STABLE with every
both-edge pin armed or pending, or BOUND (41_both_edge.md R165, R166). -/
structure BothEdgeEffect (b max : Nat) (s t : State) : Prop where
  regs   : t.beRegs = none
  bank   : Bank.PinsOnly { s.bank b with intPos := (t.bank b).intPos } (t.bank b)
  others : ∀ i, i < 32 → i < (s.bank b).width → (s.bank b).be.getLsbD i = false →
    (t.bank b).intPos.getLsbD i = (s.bank b).intPos.getLsbD i
  exit   : (t.events = s.events ∧ ∀ i, i < 32 → i < (s.bank b).width → (s.bank b).be.getLsbD i = true →
      (t.bank b).intPos.getLsbD i = !(t.bank b).pad.getLsbD i ∨ (t.bank b).intStatus.getLsbD i = true) ∨
    ∃ v1 v2, BoundExit b max s t v1 v2

theorem advance_busy {s : State} {c : Instr} {k : Nat} (h : s.seq = .busy c k) :
    s.seq.advance.advance.advance.advance.advance = .busy c (k + 5) := by rw [h]; rfl

theorem bothEdgeLoop_effect {b : Nat} : ∀ (left : Nat) {s : State} (iter : Nat), b < s.banks.length →
    BothEdgeEffect b (left + 1) s (bothEdgeLoop s b iter (left + 1))
  | left, s, iter, h => by
    obtain ⟨r, p⟩ := bothEdgePass_effect h iter
    have tch := touches_bothEdgePass b s iter
    unfold bothEdgeLoop
    generalize bothEdgePass s b iter = t at *
    simp only [p.regs, Option.getD_some]
    have hbank : Bank.PinsOnly { s.bank b with intPos := (t.bank b).intPos } (t.bank b) := by
      have := p.bank.intPos
      rw [this]; exact p.bank
    have hoth : ∀ i, i < 32 → i < (s.bank b).width → (s.bank b).be.getLsbD i = false →
        (t.bank b).intPos.getLsbD i = (s.bank b).intPos.getLsbD i := by
      intro i hi hw hb
      rw [p.bank.intPos, p.pol i hi hw, hb]; rfl
    have hbe : (t.bank b).be = (s.bank b).be := p.bank.be
    split
    · rename_i hst
      refine ⟨rfl, hbank, hoth, .inl ⟨p.events, fun i hi hw hb => ?_⟩⟩
      have hz := of_decide_eq_true hst
      rw [within_iff] at hz
      by_cases hs : r.st.getLsbD i = true
      · exact .inr (p.status i hi hw hs)
      · left
        have : ((r.v1 ^^^ r.v2) &&& (t.bank b).be).getLsbD i = false := by
          cases hq : ((r.v1 ^^^ r.v2) &&& (t.bank b).be).getLsbD i
          · rfl
          · exact absurd (hz i hq) hs
        rw [BitVec.getLsbD_and, hbe, hb, Bool.and_true, BitVec.getLsbD_xor] at this
        change (t.bank b).intPos.getLsbD i = !(t.bank b).pad.getLsbD i
        rw [p.bank.intPos, p.pol i hi hw, hb, ← p.level i hi hw]
        simp only [if_true]
        revert this
        cases r.v1.getLsbD i <;> cases r.v2.getLsbD i <;> simp
    · split
      · rename_i hst hl
        subst hl
        have hst' : (r.v1 ^^^ r.v2) &&& (t.bank b).be &&& ~~~r.st ≠ 0 := fun h => hst (decide_eq_true h)
        refine ⟨rfl, hbank, hoth, .inr ⟨r.v1, r.v2, by rw [← p.events]; rfl, fun c k hk => ?_, ?_, fun hz => hst' ?_, ?_⟩⟩
        · change t.seq = _
          rw [p.seq, advance_busy hk]
        · rw [masked_eq_iff]
          intro i hi
          simp only [Bank.getLsbD_wmask, Bool.and_eq_true, decide_eq_true_eq] at hi
          exact p.level i hi.1 hi.2
        · rw [hbe, hz]; simp
        · intro i hi hw hb
          change (t.bank b).intPos.getLsbD i = _
          rw [p.bank.intPos, p.pol i hi hw, hb]; rfl
      · rename_i hl
        obtain ⟨n, rfl⟩ : ∃ n, left = n + 1 := ⟨left - 1, by omega⟩
        have q := bothEdgeLoop_effect n (iter + 1) (s := t) (by rw [tch.length]; exact h)
        generalize bothEdgeLoop t b (iter + 1) (n + 1) = u at *
        have hw' : (t.bank b).width = (s.bank b).width := tch.width
        refine ⟨q.regs, ?_, ?_, ?_⟩
        · refine Bank.PinsOnly.trans ?_ q.bank
          exact ⟨by have := hbank.same; rw [this], hbank.kept⟩
        · intro i hi hw hb
          rw [q.others i hi (by rw [hw']; exact hw) (by rw [hbe]; exact hb), hoth i hi hw hb]
        · have he := q.exit
          have hm : (t.bank b).wmask = (s.bank b).wmask := tch.wmask
          rw [hw', hbe, p.events] at he
          refine he.imp id fun ⟨v1, v2, e⟩ => ⟨v1, v2, by rw [← p.events]; exact e.events, fun c k hk => ?_, ?_, ?_, ?_⟩
          · rw [e.passes c (k + 5) (by rw [p.seq, advance_busy hk])]
            congr 1; omega
          · rw [← hm]; exact e.level
          · rw [← hbe]; exact e.moved
          · rw [← hbe, ← hw']; exact e.armed

/-! ### The command bodies -/

@[simp] theorem wmask_foldShadow (st bit : Word) (k : Bank) : (k.foldShadow st bit).wmask = k.wmask := rfl

/-- ClearDetect (42_irq_facade.md R185): the shadow, the status, and `int_pos` when the pin is both-edge. -/
structure ClearEffect (b off : Nat) (s t : State) : Prop where
  bank   : t.bank b = { s.bank b with
    shadow := (t.bank b).shadow, intPos := (t.bank b).intPos, intStatus := (t.bank b).intStatus, pad := (t.bank b).pad }
  steady : (s.bank b).be &&& bitAt off = 0 → (t.bank b).intPos = (s.bank b).intPos
  others : ∀ i, i < 32 → i < (s.bank b).width → (s.bank b).be.getLsbD i = false →
    (t.bank b).intPos.getLsbD i = (s.bank b).intPos.getLsbD i
  cleared : (t.bank b).shadow.getLsbD off = false
  saved  : ∀ i, i ≠ off → (s.bank b).shadow.getLsbD i = true ∨
    (i < (s.bank b).width ∧ (s.bank b).intStatus.getLsbD i = true) → (t.bank b).shadow.getLsbD i = true
  fits   : (s.bank b).shadow &&& ~~~(s.bank b).wmask = 0 → (t.bank b).shadow &&& ~~~(s.bank b).wmask = 0
  events : ∃ logs : List Event, t.events = s.events ++ logs ∧ ∀ e ∈ logs, ∃ v1 v2, e = .convergenceBound b v1 v2
  rearmed : (s.bank b).be.getLsbD off = true → 1 ≤ s.params.beMaxPasses → t.events = s.events →
    ∀ i, i < 32 → i < (s.bank b).width → (s.bank b).be.getLsbD i = true →
      (t.bank b).intPos.getLsbD i = !(t.bank b).pad.getLsbD i ∨ (t.bank b).intStatus.getLsbD i = true

theorem bothEdge_effect {s : State} {b : Nat} (h : b < s.banks.length) (hp : 1 ≤ s.params.beMaxPasses) :
    BothEdgeEffect b s.params.beMaxPasses s (bothEdge s b) := by
  unfold bothEdge
  obtain ⟨n, hn⟩ : ∃ n, s.params.beMaxPasses = n + 1 := ⟨s.params.beMaxPasses - 1, by omega⟩
  rw [hn]
  exact bothEdgeLoop_effect n 0 h

/-- With or without passes, a run writes `int_pos` at both-edge pins only and adds at most one log. -/
theorem bothEdge_bank {s : State} {b : Nat} (h : b < s.banks.length) :
    Bank.PinsOnly { s.bank b with intPos := ((bothEdge s b).bank b).intPos } ((bothEdge s b).bank b) ∧
    (∀ i, i < 32 → i < (s.bank b).width → (s.bank b).be.getLsbD i = false →
      ((bothEdge s b).bank b).intPos.getLsbD i = (s.bank b).intPos.getLsbD i) ∧
    ∃ logs : List Event, (bothEdge s b).events = s.events ++ logs ∧ ∀ e ∈ logs, ∃ v1 v2, e = .convergenceBound b v1 v2 := by
  by_cases hp : 1 ≤ s.params.beMaxPasses
  · have e := bothEdge_effect h hp
    refine ⟨e.bank, e.others, ?_⟩
    rcases e.exit with ⟨h1, _⟩ | ⟨v1, v2, h1⟩
    · exact ⟨[], by rw [h1]; simp, by simp⟩
    · exact ⟨_, h1.events, by simp⟩
  · have h0 : s.params.beMaxPasses = 0 := by omega
    unfold bothEdge
    rw [h0]
    exact ⟨.refl _, fun _ _ _ _ => rfl, [], by simp [bothEdgeLoop], by simp⟩

theorem clearDetect_effect {s : State} {b : Nat} (off : Nat) (h : b < s.banks.length) :
    ClearEffect b off s (clearDetect s b off) := by
  let s1 := (regRead s b .intStatus).2
  let st := (regRead s b .intStatus).1
  let s2 := s1.maskUpdate b (Bank.foldShadow st (bitAt off))
  let s3 := regWrite s2 b .intClear (bitAt off)
  have e : clearDetect s b off = if (s3.bank b).be &&& bitAt off ≠ 0 then bothEdge s3 b else s3 := rfl
  have h1 : (s.bank b).PinsOnly (s1.bank b) := access_pinsOnly s b
  have l1 : b < s1.banks.length := by simpa [s1] using h
  have h2 : s2.bank b = (s1.bank b).foldShadow st (bitAt off) := bank_maskUpdate_same _ l1
  have l2 : b < s2.banks.length := by simpa [s2] using l1
  have l3 : b < s3.banks.length := by simpa [s3] using l2
  have h3 : ∃ x p, s3.bank b = { s2.bank b with intStatus := x, pad := p } := by
    refine ⟨(s2.access.bank b).intStatus &&& ~~~(bitAt off ||| writeDraw s2 .intClear), (s2.access.bank b).pad, ?_⟩
    have hq := congrArg (fun k : Bank => k.written .intClear (bitAt off) (writeDraw s2 .intClear)) (access_pinsOnly s2 b).same
    exact (bank_regWrite_same l2 .intClear (bitAt off)).trans hq
  obtain ⟨x, p, h3⟩ := h3
  have b3 : s3.bank b = { s.bank b with shadow := (s3.bank b).shadow, intStatus := (s3.bank b).intStatus, pad := (s3.bank b).pad } := by
    rw [h3, h2, h1.same]; rfl
  have sh3 : (s3.bank b).shadow = ((s.bank b).shadow ||| (st &&& (s.bank b).wmask)) &&& ~~~bitAt off := by
    rw [h3, h2]; simp only [Bank.foldShadow, h1.shadow, h1.wmask]
  have ev3 : s3.events = s.events := by simp [s3, s2, s1]
  have key : ∀ t : State, t.banks.length = s3.banks.length → (t.bank b = { s3.bank b with intPos := (t.bank b).intPos, intStatus := (t.bank b).intStatus, pad := (t.bank b).pad }) →
      ((s.bank b).be &&& bitAt off = 0 → (t.bank b).intPos = (s.bank b).intPos) →
      (∀ i, i < 32 → i < (s.bank b).width → (s.bank b).be.getLsbD i = false →
        (t.bank b).intPos.getLsbD i = (s.bank b).intPos.getLsbD i) →
      (∃ logs : List Event, t.events = s.events ++ logs ∧ ∀ e ∈ logs, ∃ v1 v2, e = .convergenceBound b v1 v2) →
      ((s.bank b).be.getLsbD off = true → 1 ≤ s.params.beMaxPasses → t.events = s.events →
        ∀ i, i < 32 → i < (s.bank b).width → (s.bank b).be.getLsbD i = true →
          (t.bank b).intPos.getLsbD i = !(t.bank b).pad.getLsbD i ∨ (t.bank b).intStatus.getLsbD i = true) →
      ClearEffect b off s t := by
    intro t _ hb hs ho he hre
    have hsh : (t.bank b).shadow = (s3.bank b).shadow := by rw [hb]
    refine ⟨?_, hs, ho, ?_, ?_, ?_, he, hre⟩
    · rw [hb, b3]
    · rw [hsh, sh3]
      by_cases ho : off < 32
      · simp [ho]
      · exact BitVec.getLsbD_of_ge _ _ (by omega)
    · intro i hi hor
      have hi32 : i < 32 := by rcases hor with hq | ⟨_, hq⟩ <;> exact BitVec.lt_of_getLsbD hq
      rw [hsh, sh3]
      simp only [BitVec.getLsbD_and, BitVec.getLsbD_or, BitVec.getLsbD_not, getLsbD_bitAt, hi32, decide_true,
        Bool.true_and, Bank.getLsbD_wmask]
      rcases hor with hq | ⟨hw, hq⟩
      · simp [hq, Ne.symm hi, -BitVec.getLsbD_eq_getElem]
      · have : st.getLsbD i = true := by
          rw [getLsbD_regRead s b .intStatus i hi32 hw]
          exact (within_iff _ _).1 h1.kept i hq
        simp [this, hw, Ne.symm hi, -BitVec.getLsbD_eq_getElem]
    · intro hf
      rw [hsh, sh3]
      rw [within_iff] at hf ⊢
      intro i hi
      simp only [BitVec.getLsbD_and, BitVec.getLsbD_or, Bool.and_eq_true, Bool.or_eq_true] at hi
      rcases hi.1 with hq | hq
      · exact hf i hq
      · exact hq.2
  rw [e]
  split
  · have hx := bothEdge_bank l3
    refine key _ (touches_bothEdge b s3).length ?_ ?_ ?_ ?_ ?_
    · have := hx.1.same
      rw [this]
    · intro hbe
      rename_i hne
      rw [b3] at hne
      exact absurd hbe hne
    · intro i hi hw hb
      have w3 : (s3.bank b).width = (s.bank b).width := by rw [b3]; rfl
      rw [hx.2.1 i hi (by rw [w3]; exact hw) (by rw [b3]; exact hb), b3]
    · rw [← ev3]; exact hx.2.2
    · intro _ hp hev i hi hw hb
      have p3 : s3.params = s.params := by
        have := (touches_regRead b s .intStatus).trans ((touches_maskUpdate b s1 (Bank.foldShadow st (bitAt off))
          fun _ => rfl).trans (touches_regWrite b s2 .intClear (bitAt off)))
        exact this.params
      have w3 : (s3.bank b).width = (s.bank b).width := by rw [b3]; rfl
      rcases (bothEdge_effect l3 (by rw [p3]; exact hp)).exit with ⟨_, hq⟩ | ⟨v1, v2, ⟨hq, _, _, _, _⟩⟩
      · exact hq i hi (by rw [w3]; exact hw) (by rw [b3]; exact hb)
      · rw [hq, ev3] at hev
        simp at hev
  · rename_i hz
    refine key _ rfl rfl (fun _ => by rw [b3]) (fun _ _ _ _ => by rw [b3]) ⟨[], by rw [ev3]; simp, by simp⟩ ?_
    intro hb
    exfalso
    have ho : off < 32 := BitVec.lt_of_getLsbD hb
    simp only [ne_eq, not_not] at hz
    have := congrArg (fun w : Word => w.getLsbD off) hz
    rw [b3] at this
    simp [ho, -BitVec.getLsbD_eq_getElem] at this
    rw [hb] at this
    cases this

theorem maskBody_bank {s : State} {b : Nat} (off : Nat) (h : b < s.banks.length) :
    Bank.PinsOnly
      { s.bank b with
        en0 := (s.bank b).en0 &&& ~~~bitAt off
        shadow := (s.bank b).shadow &&& ~~~bitAt off
        intEn := (s.bank b).en0 &&& ~~~bitAt off } ((maskBody s b off).bank b) := by
  simp only [maskBody]
  have := regWrite_pinsOnly (s := (s.maskUpdate b (Bank.disable (bitAt off))).maskUpdate b (Bank.dropShadow (bitAt off)))
    (by simpa using h) (r := .intEn) (by decide)
    ((((s.maskUpdate b (Bank.disable (bitAt off))).maskUpdate b (Bank.dropShadow (bitAt off))).bank b).en0)
  refine Bank.PinsOnly.trans ?_ this
  rw [bank_maskUpdate_same _ (by simpa using h), bank_maskUpdate_same _ h]
  exact .refl _

theorem maskBody_events (s : State) (b off : Nat) : (maskBody s b off).events = s.events := by
  simp [maskBody]

theorem enableWrite_bank {s : State} {b : Nat} (off : Nat) (h : b < s.banks.length) :
    Bank.PinsOnly { s.bank b with en0 := (s.bank b).en0 ||| bitAt off, intEn := (s.bank b).en0 ||| bitAt off }
      ((regWrite (s.maskUpdate b (Bank.enable (bitAt off))) b .intEn
        ((s.maskUpdate b (Bank.enable (bitAt off))).bank b).en0).bank b) := by
  have := regWrite_pinsOnly (s := s.maskUpdate b (Bank.enable (bitAt off)))
    (by simpa using h) (r := .intEn) (by decide) ((s.maskUpdate b (Bank.enable (bitAt off))).bank b).en0
  refine Bank.PinsOnly.trans ?_ this
  rw [bank_maskUpdate_same _ h]
  exact .refl _

/-- UnmaskBody (42_irq_facade.md R182): an edge pin is only enabled, a level pin runs ClearDetect first. -/
theorem unmaskBody_edge {s : State} {b off : Nat} (h : b < s.banks.length) (hw : off < (s.bank b).width)
    (he : (s.bank b).intEdge.getLsbD off = true) :
    Bank.PinsOnly { s.bank b with en0 := (s.bank b).en0 ||| bitAt off, intEn := (s.bank b).en0 ||| bitAt off }
      ((unmaskBody s b off).bank b) ∧ (unmaskBody s b off).events = s.events := by
  have ho : off < 32 := BitVec.lt_of_getLsbD he
  have hr : (regRead s b .intEdge).1.getLsbD off = true := by
    rw [getLsbD_regRead s b .intEdge off ho hw, Bank.content_of_pinsOnly (access_pinsOnly s b) rfl 0]; exact he
  simp only [unmaskBody, hr, if_true]
  have h1 := access_pinsOnly s b
  refine ⟨?_, by simp⟩
  refine Bank.PinsOnly.trans ?_ (enableWrite_bank (s := (regRead s b .intEdge).2) off (by simpa using h))
  rw [bank_regRead, h1.en0]
  exact ⟨by rw [h1.same], h1.kept⟩

theorem unmaskBody_level {s : State} {b off : Nat} (h : b < s.banks.length) (hw : off < (s.bank b).width)
    (he : (s.bank b).intEdge.getLsbD off = false) :
    ∃ u, ClearEffect b off (regRead s b .intEdge).2 u ∧ u.banks.length = s.banks.length ∧
      Bank.PinsOnly { u.bank b with en0 := (s.bank b).en0 ||| bitAt off, intEn := (s.bank b).en0 ||| bitAt off }
        ((unmaskBody s b off).bank b) ∧ (unmaskBody s b off).events = u.events := by
  have hr : (regRead s b .intEdge).1.getLsbD off = false := by
    by_cases ho : off < 32
    · rw [getLsbD_regRead s b .intEdge off ho hw, Bank.content_of_pinsOnly (access_pinsOnly s b) rfl 0]; exact he
    · exact BitVec.getLsbD_of_ge _ _ (by omega)
  have l1 : b < (regRead s b .intEdge).2.banks.length := by simpa using h
  have ce := clearDetect_effect off l1
  have ht := touches_clearDetect b (regRead s b .intEdge).2 off
  refine ⟨clearDetect (regRead s b .intEdge).2 b off, ce, by rw [ht.length]; simp, ?_, ?_⟩
  · have := enableWrite_bank (s := clearDetect (regRead s b .intEdge).2 b off) off (by rw [ht.length]; exact l1)
    have hen : ((clearDetect (regRead s b .intEdge).2 b off).bank b).en0 = (s.bank b).en0 := by
      rw [ce.bank]; exact (access_pinsOnly s b).en0
    rw [hen] at this
    simpa [unmaskBody, hr] using this
  · simp [unmaskBody, hr]

/-- A change that neither reads nor writes pad and status keeps two banks apart by the pin environment only. -/
theorem Bank.PinsOnly.update {k k' : Bank} (h : k.PinsOnly k') (f : Bank → Bank)
    (hf : ∀ (k : Bank) (p st : Word), f { k with pad := p, intStatus := st } = { f k with pad := p, intStatus := st }) :
    (f k).PinsOnly (f k') := by
  have hs (k : Bank) : (f k).intStatus = k.intStatus := by
    have := congrArg Bank.intStatus (hf k k.pad k.intStatus); exact this
  have hp (k : Bank) : (f k).pad = k.pad := by
    have := congrArg Bank.pad (hf k k.pad k.intStatus); exact this
  constructor
  · rw [hs, hp]
    conv_lhs => rw [h.same]
    exact hf k _ _
  · rw [hs, hs]; exact h.kept

theorem regrouped_congr {k k' : Bank} (h : k'.wmask = k.wmask) (off : Nat) (v d : Word) (x : Option Bool) :
    regrouped k' off v d x = regrouped k off v d x := by
  cases x
  · rfl
  · simp only [regrouped, h]

theorem or_zero_and (w x : Word) : w ||| (0 &&& x) = w := by simp

/-- TriggerGroup with one polarity (40_pin_config.md R137). -/
theorem triggerGroup_one {s : State} {b off : Nat} (h : b < s.banks.length) (g : Trigger) (rising : Bool)
    (hg : triggerPolarity g = some rising) :
    ∃ d1 d2, Bank.PinsOnly
        { s.bank b with
          intEdge := regrouped (s.bank b) off (s.bank b).intEdge d1 (some (triggerEdge g))
          be := (s.bank b).be &&& ~~~bitAt off
          intPos := regrouped (s.bank b) off (s.bank b).intPos d2 (some rising) }
        ((triggerGroup s b (bitAt off) g).bank b) ∧ (triggerGroup s b (bitAt off) g).events = s.events := by
  obtain ⟨d1, h1⟩ := modifyBit_pinsOnly h (r := .intEdge) rfl off (triggerEdge g)
  simp only [triggerGroup, hg]
  have t1 := touches_modifyBit b s .intEdge (bitAt off) (triggerEdge g)
  have v1 := modifyBit_events s b .intEdge (bitAt off) (triggerEdge g)
  generalize modifyBit s b .intEdge (bitAt off) (triggerEdge g) = u at *
  have lu : b < u.banks.length := by rw [t1.length]; exact h
  obtain ⟨d2, h2⟩ := modifyBit_pinsOnly (s := u.maskUpdate b (Bank.leaveBothEdge (bitAt off))) (b := b) (by simpa using lu)
    (r := .intPos) rfl off rising
  refine ⟨d1, d2, ?_, by simp [v1]⟩
  refine Bank.PinsOnly.trans ?_ h2
  rw [bank_maskUpdate_same _ lu]
  have hw : ((u.bank b).leaveBothEdge (bitAt off)).wmask = (s.bank b).wmask := t1.wmask
  rw [regrouped_congr hw]
  have hp : (u.bank b).intPos = (s.bank b).intPos := by rw [h1.intPos]; rfl
  have := h1.update (fun k => { k with be := k.be &&& ~~~bitAt off, intPos := regrouped (s.bank b) off (s.bank b).intPos d2 (some rising) })
    (fun _ _ _ => rfl)
  simp only [Bank.written, Bank.content, Bank.leaveBothEdge, hp, or_zero_and] at this ⊢
  exact this

/-- TriggerGroup with both polarities (40_pin_config.md R137): the both-edge machine runs on the bank with the pin in its
mask. -/
theorem triggerGroup_both {s : State} {b off : Nat} (h : b < s.banks.length) (g : Trigger) (hg : triggerPolarity g = none) :
    ∃ d u, Bank.PinsOnly
        { s.bank b with
          intEdge := regrouped (s.bank b) off (s.bank b).intEdge d (some (triggerEdge g))
          be := (s.bank b).be ||| bitAt off } (u.bank b) ∧ u.banks.length = s.banks.length ∧ u.events = s.events ∧
      u.params = s.params ∧ triggerGroup s b (bitAt off) g = bothEdge u b := by
  obtain ⟨d1, h1⟩ := modifyBit_pinsOnly h (r := .intEdge) rfl off (triggerEdge g)
  have t1 := touches_modifyBit b s .intEdge (bitAt off) (triggerEdge g)
  have v1 := modifyBit_events s b .intEdge (bitAt off) (triggerEdge g)
  simp only [triggerGroup, hg]
  generalize modifyBit s b .intEdge (bitAt off) (triggerEdge g) = u at *
  have lu : b < u.banks.length := by rw [t1.length]; exact h
  refine ⟨d1, u.maskUpdate b (Bank.joinBothEdge (bitAt off)), ?_, by simpa using t1.length, by simpa using v1,
    by simpa using t1.params, rfl⟩
  rw [bank_maskUpdate_same _ lu]
  have := h1.update (Bank.joinBothEdge (bitAt off)) (fun _ _ _ => rfl)
  simp only [Bank.written, Bank.content, Bank.joinBothEdge, or_zero_and] at this ⊢
  exact this

/-! ### No both-edge machine is left running (10_state.md R53) -/

theorem bothEdge_beRegs (s : State) (b : Nat) : (bothEdge s b).beRegs = none := by
  unfold bothEdge
  generalize s.params.beMaxPasses = n
  have h : ∀ (n : Nat) (s : State) (iter : Nat), (bothEdgeLoop s b iter n).beRegs = none := by
    intro n
    induction n with
    | zero => intro s iter; rfl
    | succ n ih =>
      intro s iter
      unfold bothEdgeLoop
      simp only
      split
      · rfl
      · split
        · rfl
        · exact ih _ _
  exact h n s 0

@[simp] theorem maskUpdate_beRegs (s : State) (b : Nat) (f : Bank → Bank) : (s.maskUpdate b f).beRegs = s.beRegs := rfl

@[simp] theorem modifyBit_beRegs (s : State) (b : Nat) (r : Reg) (bit : Word) (val : Bool) :
    (modifyBit s b r bit val).beRegs = s.beRegs := by simp [modifyBit]

theorem clearDetect_beRegs {s : State} (b off : Nat) (h : s.beRegs = none) : (clearDetect s b off).beRegs = none := by
  unfold clearDetect
  simp only
  split
  · exact bothEdge_beRegs _ b
  · simpa using h

theorem maskBody_beRegs {s : State} (b off : Nat) (h : s.beRegs = none) : (maskBody s b off).beRegs = none := by
  simpa [maskBody] using h

theorem unmaskBody_beRegs {s : State} (b off : Nat) (h : s.beRegs = none) : (unmaskBody s b off).beRegs = none := by
  unfold unmaskBody
  simp only
  split
  · simpa using h
  · simpa using clearDetect_beRegs b off (s := (regRead s b .intEdge).2) (by simpa using h)

theorem triggerGroup_beRegs {s : State} (b : Nat) (bit : Word) (g : Trigger) (h : s.beRegs = none) :
    (triggerGroup s b bit g).beRegs = none := by
  unfold triggerGroup
  cases triggerPolarity g
  · exact bothEdge_beRegs _ b
  · simpa using h

theorem whenPresent_beRegs {α : Type} (o : Option α) {s : State} (f : State → α → State) (h : s.beRegs = none)
    (hf : ∀ v, (f s v).beRegs = none) : (whenPresent o s f).beRegs = none := by
  cases o
  · exact h
  · exact hf _

theorem configureBody_beRegs {s : State} (o : Options) (b off : Nat) (h : s.beRegs = none) :
    (configureBody o s b off).beRegs = none := by
  unfold configureBody
  have h1 := whenPresent_beRegs o.out (fun s v => outputGroup s b (bitAt off) v) h fun v => by simpa [outputGroup] using h
  have h2 := whenPresent_beRegs o.dir (fun s v => directionGroup s b (bitAt off) v) h1 fun v => by
    simpa [directionGroup] using h1
  have h3 := whenPresent_beRegs o.own (fun s v => ownerGroup s b (bitAt off) v) h2 fun v => by simpa [ownerGroup] using h2
  have h4 := whenPresent_beRegs o.trig (fun s t => triggerGroup s b (bitAt off) t) h3 fun t => triggerGroup_beRegs b _ t h3
  have h5 := whenPresent_beRegs o.int (fun s v => enableGroup s b off v) h4 fun v => by
    cases v
    · exact maskBody_beRegs b off h4
    · exact unmaskBody_beRegs b off h4
  exact whenPresent_beRegs o.wake (fun s v => wakeBody s b off v) h5 fun v => h5

end Sys2Proof.Machine
end

