-- ==== Sys2Proof/Laws/Words.lean ====
section
/-! SUPPORT. The fields of an encoded command word, its bits under the masks of the opcode table, and the result word of
each command. -/

namespace Sys2Proof

/-- `commandWord` bit by bit: N, RSV, V, OP from bit 0 up. -/
theorem getLsbD_commandWord (op : BitVec 4) (v : Bool) (n i : Nat) :
    (commandWord op v n).getLsbD i =
      if i < 16 then (BitVec.ofNat 16 n).getLsbD i
      else if i < 27 then false
      else if i < 28 then v && decide (i = 27)
      else op.getLsbD (i - 28) := by
  simp only [commandWord, BitVec.getLsbD_append]
  by_cases h1 : i < 16
  · simp [h1]
  · by_cases h2 : i < 27
    · simp [h1, h2, show i - 16 < 11 by omega]
    · by_cases h3 : i < 28
      · obtain rfl : i = 27 := by omega
        cases v <;> simp
      · simp [h1, h2, h3, show ¬i - 16 < 11 by omega, show i - 16 - 11 - 1 = i - 28 by omega,
          show ¬i - 16 - 11 < 1 by omega]

theorem opField_commandWord (op : BitVec 4) (v : Bool) (n : Nat) : opField (commandWord op v n) = op.toNat := by
  rw [opField]
  congr 1
  apply BitVec.eq_of_getLsbD_eq
  intro i hi
  rw [BitVec.getLsbD_extractLsb', getLsbD_commandWord]
  simp [hi, show ¬28 + i < 16 by omega, show ¬28 + i < 27 by omega]

theorem vField_commandWord (op : BitVec 4) (v : Bool) (n : Nat) : vField (commandWord op v n) = v := by
  rw [vField, getLsbD_commandWord]
  simp

theorem rsvField_commandWord (op : BitVec 4) (v : Bool) (n : Nat) : rsvField (commandWord op v n) = 0 := by
  rw [rsvField, show (commandWord op v n).extractLsb' 16 11 = 0#11 from ?_]
  · rfl
  · apply BitVec.eq_of_getLsbD_eq
    intro i hi
    rw [BitVec.getLsbD_extractLsb', getLsbD_commandWord]
    simp [show ¬16 + i < 16 by omega, show 16 + i < 27 by omega]

theorem nField_commandWord (op : BitVec 4) (v : Bool) {n : Nat} (h : n < 2 ^ 16) :
    nField (commandWord op v n) = n := by
  rw [nField, show (commandWord op v n).extractLsb' 0 16 = BitVec.ofNat 16 n from ?_]
  · simp only [BitVec.toNat_ofNat]; omega
  · apply BitVec.eq_of_getLsbD_eq
    intro i hi
    rw [BitVec.getLsbD_extractLsb', getLsbD_commandWord]
    simp [hi]

/-- Under the mask `0xFFFF0000` a command word with V = 0 is its opcode. -/
theorem commandWord_masked_v0 (op : BitVec 4) (n : Nat) :
    commandWord op false n &&& 0xFFFF0000#32 = op ++ 0#28 := by
  apply BitVec.eq_of_getLsbD_eq
  intro i hi
  rw [BitVec.getLsbD_and, getLsbD_commandWord, BitVec.getLsbD_append]
  interval_cases i <;> simp

/-- Under the mask `0xF7FF0000` a command word is its opcode, whatever V. -/
theorem commandWord_masked (op : BitVec 4) (v : Bool) (n : Nat) :
    commandWord op v n &&& 0xF7FF0000#32 = op ++ 0#28 := by
  apply BitVec.eq_of_getLsbD_eq
  intro i hi
  rw [BitVec.getLsbD_and, getLsbD_commandWord, BitVec.getLsbD_append]
  interval_cases i <;> simp

end Sys2Proof

namespace Sys2Proof.Machine

/-! ### Result words (30_encoding.md R118) -/

@[simp] theorem resultWord_configure (pin : Nat) (o : Options) : resultWord (.configure pin o) .ok false = 0x00000000#32 := by
  simp only [resultWord, opcode, statusCode, codeValue]; decide
@[simp] theorem resultWord_read (pin : Nat) : resultWord (.read pin) .ok false = 0x10000000#32 := by
  simp only [resultWord, opcode, statusCode, codeValue]; decide
@[simp] theorem resultWord_write (pin : Nat) (v : Bool) : resultWord (.write pin v) .ok false = 0x20000000#32 := by
  simp only [resultWord, opcode, statusCode, codeValue]; decide
@[simp] theorem resultWord_mask (irq : Nat) : resultWord (.mask irq) .ok false = 0x30000000#32 := by
  simp only [resultWord, opcode, statusCode, codeValue]; decide
@[simp] theorem resultWord_unmask (irq : Nat) : resultWord (.unmask irq) .ok false = 0x40000000#32 := by
  simp only [resultWord, opcode, statusCode, codeValue]; decide
@[simp] theorem resultWord_ack (irq : Nat) : resultWord (.ack irq) .ok false = 0x50000000#32 := by
  simp only [resultWord, opcode, statusCode, codeValue]; decide
@[simp] theorem resultWord_setType (irq : Nat) (t : Trigger) : resultWord (.setType irq t) .ok false = 0x60000000#32 := by
  simp only [resultWord, opcode, statusCode, codeValue]; decide
@[simp] theorem resultWord_setWake (irq : Nat) (v : Bool) : resultWord (.setWake irq v) .ok false = 0x70000000#32 := by
  simp only [resultWord, opcode, statusCode, codeValue]; decide
@[simp] theorem resultWord_lineIrq (line : Nat) : resultWord (.lineIrq line) .ok false = 0x80000000#32 := by
  simp only [resultWord, opcode, statusCode, codeValue]; decide
@[simp] theorem resultWord_enterSleep (v : Bool) : resultWord (.enterSleep v) .ok false = 0x90000000#32 := by
  simp only [resultWord, opcode, statusCode, codeValue]; decide
@[simp] theorem resultWord_exitSleep : resultWord .exitSleep .ok false = 0xA0000000#32 := by
  simp only [resultWord, opcode, statusCode, codeValue]; decide
@[simp] theorem resultWord_replay : resultWord .replay .ok false = 0xB0000000#32 := by
  simp only [resultWord, opcode, statusCode, codeValue]; decide
@[simp] theorem resultWord_read_high (pin : Nat) : resultWord (.read pin) .ok true = 0x10000001#32 := by
  simp only [resultWord, opcode, statusCode, codeValue]; decide
@[simp] theorem resultWord_configure_outOfRange (pin : Nat) (o : Options) : resultWord (.configure pin o) .outOfRange false = 0x01000000#32 := by
  simp only [resultWord, opcode, statusCode, codeValue]; decide
@[simp] theorem resultWord_read_outOfRange (pin : Nat) : resultWord (.read pin) .outOfRange false = 0x11000000#32 := by
  simp only [resultWord, opcode, statusCode, codeValue]; decide
@[simp] theorem resultWord_write_outOfRange (pin : Nat) (v : Bool) : resultWord (.write pin v) .outOfRange false = 0x21000000#32 := by
  simp only [resultWord, opcode, statusCode, codeValue]; decide
@[simp] theorem resultWord_mask_outOfRange (irq : Nat) : resultWord (.mask irq) .outOfRange false = 0x31000000#32 := by
  simp only [resultWord, opcode, statusCode, codeValue]; decide
@[simp] theorem resultWord_unmask_outOfRange (irq : Nat) : resultWord (.unmask irq) .outOfRange false = 0x41000000#32 := by
  simp only [resultWord, opcode, statusCode, codeValue]; decide
@[simp] theorem resultWord_ack_outOfRange (irq : Nat) : resultWord (.ack irq) .outOfRange false = 0x51000000#32 := by
  simp only [resultWord, opcode, statusCode, codeValue]; decide
@[simp] theorem resultWord_setType_outOfRange (irq : Nat) (t : Trigger) : resultWord (.setType irq t) .outOfRange false = 0x61000000#32 := by
  simp only [resultWord, opcode, statusCode, codeValue]; decide
@[simp] theorem resultWord_setWake_outOfRange (irq : Nat) (v : Bool) : resultWord (.setWake irq v) .outOfRange false = 0x71000000#32 := by
  simp only [resultWord, opcode, statusCode, codeValue]; decide

/-! ### The codes of what is reported (60_exceptions.md R266) -/

@[simp] theorem eventCode_dispatch (irq : Nat) (via : Via) : eventCode (.dispatch irq via) = none := rfl
@[simp] theorem eventCode_lineAck (l : Nat) : eventCode (.lineAck l) = none := rfl
@[simp] theorem eventCode_convergenceBound (b : Nat) (v1 v2 : Word) : eventCode (.convergenceBound b v1 v2) = some 0x2 := rfl
@[simp] theorem eventCode_logOutOfRange (p : Nat) : eventCode (.logOutOfRange p) = some 0x1 := rfl
@[simp] theorem eventCode_mailboxUnavailable : eventCode .mailboxUnavailable = some 0x3 := rfl

/-- A result reports the status of its word. -/
@[simp] theorem eventCode_result (c i : Instr) (st : Status) (v : Bool) :
    eventCode (.result c (resultWord i st v)) = some (statusCode st) := by
  have h : ∀ (op st4 : BitVec 4) (v1 : BitVec 1), (op ++ st4 ++ (0 : BitVec 23) ++ v1).extractLsb' 24 4 = st4 := by
    decide +kernel
  simp only [eventCode, resultWord, h]
  cases st <;> rfl

end Sys2Proof.Machine
end

