-- ==== Sys2Proof/Laws/Admit.lean ====
section
/-! SUPPORT. Resolution and admission: what `resolve` answers, and how an admitted command runs its body and ends. -/

namespace Sys2Proof.Machine

theorem resolveFrom_some : ∀ (ks : List Bank) (b0 p b off : Nat), resolveFrom b0 ks p = some (b, off) →
    ∃ i, b = b0 + i ∧ ∃ h : i < ks.length, ks[i].desc.start ≤ p ∧ p ≤ ks[i].desc.last ∧ off = p - ks[i].desc.start
  | [], _, _, _, _, h => by cases h
  | k :: ks, b0, p, b, off, h => by
    unfold resolveFrom at h
    split at h
    · rename_i ho
      cases h
      simp only [Bank.owns, Bool.and_eq_true, decide_eq_true_eq] at ho
      exact ⟨0, rfl, by simp, ho.1, ho.2, rfl⟩
    · obtain ⟨i, hb, hi, h1⟩ := resolveFrom_some ks (b0 + 1) p b off h
      exact ⟨i + 1, by omega, by simpa using hi, by simpa using h1⟩

/-- A resolved pin lies in its bank. -/
theorem resolve_some {s : State} {p b off : Nat} (h : resolve s p = some (b, off)) :
    b < s.banks.length ∧ (s.bank b).desc.start ≤ p ∧ p ≤ (s.bank b).desc.last ∧ off = p - (s.bank b).desc.start ∧
      off < (s.bank b).width := by
  obtain ⟨i, hb, hi, h1, h2, h3⟩ := resolveFrom_some _ _ _ _ _ h
  obtain rfl : b = i := by omega
  rw [bank_eq_getElem hi]
  refine ⟨hi, h1, h2, h3, ?_⟩
  simp only [Bank.width]
  omega

theorem resolveFrom_none : ∀ (ks : List Bank) (b0 p : Nat), resolveFrom b0 ks p = none ↔
    ∀ k ∈ ks, ¬(k.desc.start ≤ p ∧ p ≤ k.desc.last)
  | [], _, _ => by simp [resolveFrom]
  | k :: ks, b0, p => by
    unfold resolveFrom
    by_cases ho : k.owns p = true
    · have ho' := ho
      simp only [Bank.owns, Bool.and_eq_true, decide_eq_true_eq] at ho'
      simp [ho, ho']
    · have ho' := ho
      simp only [Bank.owns, Bool.and_eq_true, decide_eq_true_eq, not_and, not_le] at ho'
      rw [if_neg ho, resolveFrom_none ks (b0 + 1) p]
      simp only [List.mem_cons, forall_eq_or_imp]
      exact ⟨fun h => ⟨fun hc => by have := ho' hc.1; omega, h⟩, fun h => h.2⟩

/-- A resolved interrupt number is a resolved pin's. -/
theorem resolveIrq_some {s : State} {n b off : Nat} (h : resolveIrq s n = some (b, off)) :
    resolve s (n - s.params.baseIrq) = some (b, off) := by
  unfold resolveIrq at h
  split at h
  · exact h
  · cases h

/-- Resolution depends on the descriptors only. -/
theorem resolveFrom_congr : ∀ (ks ks' : List Bank) (b p : Nat), ks'.map Bank.desc = ks.map Bank.desc →
    resolveFrom b ks' p = resolveFrom b ks p
  | [], [], _, _, _ => rfl
  | [], _ :: _, _, _, h => by simp at h
  | _ :: _, [], _, _, h => by simp at h
  | k :: ks, k' :: ks', b, p, h => by
    simp only [List.map_cons, List.cons.injEq] at h
    simp only [resolveFrom, Bank.owns, h.1, resolveFrom_congr ks ks' (b + 1) p h.2]
    rfl

theorem onPin_ready {s : State} (h : s.Ready) {c : Instr} {pin b off : Nat} (hr : resolve s pin = some (b, off))
    (body : State → Nat → Nat → State) : onPin c pin s body = .next ((body (s.start c) b off).finish c .ok false) := by
  simp [onPin, admitAwake, admitBooted, h.idle, h.booted, h.awake, hr, onResolved, Seq.isIdle]

theorem onIrq_ready {s : State} (h : s.Ready) {c : Instr} {irq b off : Nat} (hr : resolveIrq s irq = some (b, off))
    (body : State → Nat → Nat → State) : onIrq c irq s body = .next ((body (s.start c) b off).finish c .ok false) := by
  simp [onIrq, admitAwake, admitBooted, h.idle, h.booted, h.awake, hr, onResolved, Seq.isIdle]

/-- The frame of a command whose body touches one bank and leaves no both-edge machine running. -/
theorem Touches.frame {s u : State} {b : Nat} {c : Instr} (h : s.Ready) (t : Touches b (s.start c) u)
    (hr : u.beRegs = none) (st : Status) (v : Bool) :
    Frame s (u.finish c st v) ∧ OthersKept b s (u.finish c st v) := by
  refine ⟨⟨?_, fun a => ?_⟩, ⟨t.length, t.others⟩⟩
  · have := t.rest
    rw [this]
    simp only [State.finish, State.emit, State.start, hr]
    rw [← h.idle, ← h.noRun]
  · rw [State.finish_mem, t.mem]; rfl

end Sys2Proof.Machine
end

