-- ==== Sys2Proof/Laws/Memory.lean ====
section
/-! SUPPORT. The laws of memory: every operation keeps the canonical form, a read after a write gives the byte written, a
write leaves every other byte as it was, and a field is read back as it was written in either byte order. -/

namespace Sys2Proof.Machine

theorem Memory.above_mono {lo lo' : Nat} (h : lo' ≤ lo) : ∀ {m : Memory}, Memory.above lo m = true →
    Memory.above lo' m = true
  | [], _ => rfl
  | (k, _) :: rest, hm => by
    simp only [Memory.above, Bool.and_eq_true, decide_eq_true_eq] at hm ⊢
    exact ⟨by omega, Memory.above_mono h hm.2⟩

theorem Memory.above_write {lo a : Nat} (v : Byte) (h : lo < a) : ∀ {m : Memory}, Memory.above lo m = true →
    Memory.above lo (Memory.write m a v) = true
  | [], _ => by unfold Memory.write; split <;> simp [Memory.above, h]
  | (k, w) :: rest, hm => by
    have hr := Memory.above_write (m := rest) v h (by simp [Memory.above] at hm; exact hm.2)
    simp only [Memory.above, Bool.and_eq_true, decide_eq_true_eq] at hm
    unfold Memory.write
    split
    · split <;> simp [Memory.above, hm, h]
    · split
      · split <;> simp [Memory.above, hm, h]
      · simp [Memory.above, hm.1, hr]

/-- A write keeps the canonical form. -/
theorem Memory.wf_write (a : Nat) (v : Byte) : ∀ {m : Memory}, Memory.wf m = true →
    Memory.wf (Memory.write m a v) = true
  | [], _ => by
    unfold Memory.write
    split
    · rfl
    · simp_all [Memory.wf, Memory.above]
  | (k, w) :: rest, hm => by
    simp only [Memory.wf, Bool.and_eq_true, decide_eq_true_eq] at hm
    obtain ⟨⟨hw, ha⟩, hr⟩ := hm
    have ih := Memory.wf_write a v hr
    unfold Memory.write
    split
    · rename_i hlt
      split
      · simp [Memory.wf, hw, ha, hr]
      · rename_i hv
        simp [Memory.wf, Memory.above, hv, hlt, hw, ha, hr, Memory.above_mono (Nat.le_of_lt hlt) ha]
    · split
      · rename_i heq
        split
        · exact hr
        · rename_i hv; subst heq; simp [Memory.wf, hv, ha, hr]
      · rename_i h1 h2
        simp [Memory.wf, hw, ih, Memory.above_write v (by omega : k < a) ha]

theorem Memory.wf_writeBytes : ∀ (bs : List Byte) (a : Nat) {m : Memory}, Memory.wf m = true →
    Memory.wf (Memory.writeBytes m a bs) = true
  | [], _, _, h => h
  | b :: bs, a, _, h => Memory.wf_writeBytes bs (a + 1) (Memory.wf_write a b h)

theorem Memory.wf_writeField (o : ByteOrder) (a n v : Nat) {m : Memory} (h : Memory.wf m = true) :
    Memory.wf (Memory.writeField o m a n v) = true := Memory.wf_writeBytes _ _ h

/-- A write leaves every other byte as it was. -/
theorem Memory.read_write_ne {a x : Nat} (v : Byte) (h : x ≠ a) : ∀ m : Memory,
    Memory.read (Memory.write m a v) x = Memory.read m x
  | [] => by unfold Memory.write; split <;> simp [Memory.read, h]
  | (k, w) :: rest => by
    have ih := Memory.read_write_ne v h rest
    unfold Memory.write
    split
    · split <;> simp [Memory.read, h]
    · split
      · rename_i heq
        subst heq
        split <;> simp [Memory.read, h]
      · simp only [Memory.read, ih]

theorem Memory.read_of_above {lo a : Nat} (h : a ≤ lo) : ∀ {m : Memory}, Memory.above lo m = true →
    Memory.read m a = Memory.unwritten
  | [], _ => rfl
  | (k, _) :: rest, hm => by
    simp only [Memory.above, Bool.and_eq_true, decide_eq_true_eq] at hm
    have : a ≠ k := by omega
    simp only [Memory.read, this, if_false]
    exact Memory.read_of_above h hm.2

/-- A read after a write gives the byte written. -/
theorem Memory.read_write_same (a : Nat) (v : Byte) : ∀ {m : Memory}, Memory.wf m = true →
    Memory.read (Memory.write m a v) a = v
  | [], _ => by unfold Memory.write; split <;> simp_all [Memory.read]
  | (k, w) :: rest, hm => by
    simp only [Memory.wf, Bool.and_eq_true, decide_eq_true_eq] at hm
    obtain ⟨⟨hw, ha⟩, hr⟩ := hm
    have ih := Memory.read_write_same a v hr
    unfold Memory.write
    split
    · rename_i hlt
      split
      · rename_i hv
        have : a ≠ k := by omega
        simp only [Memory.read, this, if_false]
        rw [hv]
        exact Memory.read_of_above (Nat.le_of_lt hlt) ha
      · simp [Memory.read]
    · split
      · rename_i heq
        split
        · rename_i hv
          rw [hv]
          exact Memory.read_of_above (Nat.le_of_eq heq) ha
        · simp [Memory.read]
      · rename_i h1 h2
        simp [Memory.read, h2, ih]

theorem Memory.read_writeBytes_outside : ∀ (bs : List Byte) {a x : Nat} (m : Memory), x < a ∨ a + bs.length ≤ x →
    Memory.read (Memory.writeBytes m a bs) x = Memory.read m x
  | [], _, _, _, _ => rfl
  | b :: bs, a, x, m, h => by
    simp only [List.length_cons] at h
    rw [Memory.writeBytes, Memory.read_writeBytes_outside bs _ (by omega), Memory.read_write_ne b (by omega)]

theorem Memory.readBytes_writeBytes : ∀ (bs : List Byte) (a : Nat) {m : Memory}, Memory.wf m = true →
    Memory.readBytes (Memory.writeBytes m a bs) a bs.length = bs
  | [], _, _, _ => rfl
  | b :: bs, a, m, h => by
    simp only [List.length_cons, Memory.readBytes, Memory.writeBytes, List.cons.injEq]
    exact ⟨by rw [Memory.read_writeBytes_outside bs _ (by omega), Memory.read_write_same a b h],
      Memory.readBytes_writeBytes bs (a + 1) (Memory.wf_write a b h)⟩

@[simp] theorem length_bytesOf : ∀ n v : Nat, (bytesOf n v).length = n
  | 0, _ => rfl
  | n + 1, v => by simp [bytesOf, length_bytesOf n]

@[simp] theorem length_orderBytes (o : ByteOrder) (bs : List Byte) : (orderBytes o bs).length = bs.length := by
  cases o <;> simp [orderBytes]

@[simp] theorem orderBytes_orderBytes (o : ByteOrder) (bs : List Byte) : orderBytes o (orderBytes o bs) = bs := by
  cases o <;> simp [orderBytes]

@[simp] theorem Memory.length_readBytes (m : Memory) : ∀ n a : Nat, (Memory.readBytes m a n).length = n
  | 0, _ => rfl
  | n + 1, a => by simp [Memory.readBytes, Memory.length_readBytes m n]

theorem valueOf_bytesOf : ∀ n v : Nat, valueOf (bytesOf n v) = v % 256 ^ n
  | 0, v => by simp [bytesOf, valueOf, Nat.mod_one]
  | n + 1, v => by
    have h : v % 256 ^ (n + 1) = v % 256 + 256 * (v / 256 % 256 ^ n) := by rw [Nat.pow_succ', Nat.mod_mul]
    simp only [bytesOf, valueOf, valueOf_bytesOf n, BitVec.toNat_ofNat, h]

/-- A field read back is the value written, cut to the field's width. -/
theorem Memory.readField_writeField (o : ByteOrder) (a n v : Nat) {m : Memory} (h : Memory.wf m = true) :
    Memory.readField o (Memory.writeField o m a n v) a n = v % 256 ^ n := by
  have := Memory.readBytes_writeBytes (orderBytes o (bytesOf n v)) a h
  simp only [length_orderBytes, length_bytesOf] at this
  simp only [Memory.readField, Memory.writeField, this, orderBytes_orderBytes, valueOf_bytesOf]

/-- A field write leaves every byte outside the field as it was. -/
theorem Memory.read_writeField_outside (o : ByteOrder) (n v : Nat) {a x : Nat} (m : Memory) (h : x < a ∨ a + n ≤ x) :
    Memory.read (Memory.writeField o m a n v) x = Memory.read m x :=
  Memory.read_writeBytes_outside _ m (by simpa using h)

theorem Memory.readBytes_congr {m m' : Memory} : ∀ {n a : Nat},
    (∀ x, a ≤ x → x < a + n → Memory.read m x = Memory.read m' x) → Memory.readBytes m a n = Memory.readBytes m' a n
  | 0, _, _ => rfl
  | n + 1, a, h => by
    simp only [Memory.readBytes, List.cons.injEq]
    exact ⟨h a (Nat.le_refl a) (by omega), Memory.readBytes_congr fun x h1 h2 => h x (by omega) (by omega)⟩

/-- A field write leaves every field that does not overlap it as it was. -/
theorem Memory.readField_writeField_disjoint (o : ByteOrder) {a n v a' n' : Nat} (m : Memory)
    (h : a' + n' ≤ a ∨ a + n ≤ a') :
    Memory.readField o (Memory.writeField o m a n v) a' n' = Memory.readField o m a' n' := by
  have : Memory.readBytes (Memory.writeField o m a n v) a' n' = Memory.readBytes m a' n' :=
    Memory.readBytes_congr fun x h1 h2 => Memory.read_writeField_outside o n v m (by omega)
  simp only [Memory.readField, this]

end Sys2Proof.Machine
end

