-- ==== Sys2Proof/Laws/Mailbox.lean ====
section
/-! SUPPORT. The mailbox: what its accesses change, and the wake-bit packer said as the bits of the three arrays. -/

namespace Sys2Proof.Machine

/-! ### What only accesses, mailbox writes and events change -/

/-- `t` is reached from `s` by accesses that leave every bank to the pin environment. -/
structure Passes (s t : State) : Prop where
  rest   : t = { s with banks := t.banks, choices := t.choices, seq := t.seq, mem := t.mem }
  length : t.banks.length = s.banks.length
  banks  : ∀ b, (s.bank b).PinsOnly (t.bank b)
  idle   : s.seq = .idle → t.seq = .idle

namespace Passes
variable {s t u : State}

theorem refl (s : State) : Passes s s := ⟨rfl, rfl, fun _ => .refl _, id⟩

theorem trans (h1 : Passes s t) (h2 : Passes t u) : Passes s u :=
  ⟨by rw [h2.rest, h1.rest], h2.length.trans h1.length, fun b => (h1.banks b).trans (h2.banks b),
    fun h => h2.idle (h1.idle h)⟩

theorem params (h : Passes s t) : t.params = s.params := by rw [h.rest]
theorem mailboxPresent (h : Passes s t) : t.mailboxPresent = s.mailboxPresent := by rw [h.rest]
theorem events (h : Passes s t) : t.events = s.events := by rw [h.rest]
theorem replayPending (h : Passes s t) : t.replayPending = s.replayPending := by rw [h.rest]

end Passes

theorem descs_eq {s t : State} (hl : t.banks.length = s.banks.length) (h : ∀ b, (t.bank b).desc = (s.bank b).desc) :
    t.banks.map Bank.desc = s.banks.map Bank.desc := by
  apply List.ext_getElem (by simpa using hl)
  intro i h1 h2
  simp only [List.getElem_map]
  have := h i
  rw [bank_eq_getElem (by simpa using h1), bank_eq_getElem (by simpa using h2)] at this
  exact this

theorem Passes.descs {s t : State} (h : Passes s t) : t.banks.map Bank.desc = s.banks.map Bank.desc :=
  descs_eq h.length fun b => (h.banks b).desc

theorem pinCount_congr : ∀ {ks ks' : List Bank}, ks'.map Bank.desc = ks.map Bank.desc → pinCount ks' = pinCount ks
  | [], [], _ => rfl
  | [], _ :: _, h => by simp at h
  | _ :: _, [], h => by simp at h
  | k :: ks, k' :: ks', h => by
    simp only [List.map_cons, List.cons.injEq] at h
    simp only [pinCount, h.1, pinCount_congr h.2]

theorem nwords_congr {s t : State} (h : t.banks.map Bank.desc = s.banks.map Bank.desc) : t.nwords = s.nwords := by
  simp only [State.nwords, pinCount_congr h]

theorem Passes.nwords {s t : State} (h : Passes s t) : t.nwords = s.nwords := nwords_congr h.descs

theorem Passes.inMailbox {s t : State} (h : Passes s t) (a n : Nat) : t.inMailbox a n = s.inMailbox a n := by
  simp only [State.inMailbox, State.mailboxSize, h.nwords, h.params, h.mailboxPresent]; rfl

theorem Passes.countAddr {s t : State} (h : Passes s t) (g : Nat) : t.countAddr g = s.countAddr g := by
  simp only [State.countAddr, h.params]

theorem Passes.firedAddr {s t : State} (h : Passes s t) (g j : Nat) : t.firedAddr g j = s.firedAddr g j := by
  simp only [State.firedAddr, h.params]

theorem Passes.arrayAddr {s t : State} (h : Passes s t) (x : BitArray) (w : Nat) :
    t.arrayAddr x w = s.arrayAddr x w := by
  simp only [State.arrayAddr, h.params, h.nwords]

theorem passes_access (s : State) : Passes s s.access :=
  ⟨rfl, by simp, access_pinsOnly s, fun h => by simp [h, Seq.advance]⟩

theorem passes_draw (s : State) : Passes s s.draw.2 := ⟨rfl, rfl, fun _ => .refl _, id⟩

theorem passes_regRead (s : State) (b : Nat) (r : Reg) : Passes s (regRead s b r).2 :=
  (passes_access s).trans (passes_draw s.access)

/-- A mailbox read changes nothing but what passes before it. -/
theorem memRead_eq {s : State} {a n : Nat} (h : s.inMailbox a n = true) : memRead s a n = .ok (s.field a n,
    s.access) := by
  simp [memRead, h, State.field]

/-- A mailbox write changes memory, and what passes before it. -/
theorem memWrite_eq {s : State} {a n : Nat} (v : Nat) (h : s.inMailbox a n = true) :
    memWrite s a n v = .ok { s.access with mem := Memory.writeField s.params.mbByteOrder s.mem a n v } := by
  simp [memWrite, h]

/-- One write to the mailbox: the field has the value, every field and byte outside it is as it was. -/
structure Stored (s t : State) (a n v : Nat) : Prop where
  passes : Passes s t
  wf     : Memory.wf t.mem = true
  value  : t.field a n = v % 256 ^ n
  fields : ∀ a' n', a' + n' ≤ a ∨ a + n ≤ a' → t.field a' n' = s.field a' n'
  bytes  : ∀ x, x < a ∨ a + n ≤ x → Memory.read t.mem x = Memory.read s.mem x

theorem memWrite_stored {s : State} {a n : Nat} (v : Nat) (h : s.inMailbox a n = true) (hw : Memory.wf s.mem = true) :
    ∃ t, memWrite s a n v = .ok t ∧ Stored s t a n v := by
  refine ⟨_, memWrite_eq v h, ⟨rfl, by simp, access_pinsOnly s, fun h => by simp [h, Seq.advance]⟩,
    Memory.wf_writeField _ _ _ _ hw, ?_, ?_, ?_⟩
  · exact Memory.readField_writeField _ _ _ _ hw
  · intro a' n' hd
    exact Memory.readField_writeField_disjoint _ _ hd
  · intro x hx
    exact Memory.read_writeField_outside _ _ _ _ hx

theorem valueOf_lt : ∀ bs : List Byte, valueOf bs < 256 ^ bs.length
  | [] => by simp [valueOf]
  | b :: bs => by
    have := valueOf_lt bs
    simp only [valueOf, List.length_cons, Nat.pow_succ]
    have := b.isLt
    omega

theorem field_lt (s : State) (a n : Nat) : s.field a n < 256 ^ n := by
  have := valueOf_lt (orderBytes s.params.mbByteOrder (Memory.readBytes s.mem a n))
  simpa [State.field, Memory.readField] using this

/-- The OR into one array word (44_sleep_wake.md R234). -/
theorem orWord_stored {s : State} {a : Nat} (m : Word) (h : s.inMailbox a 4 = true) (hw : Memory.wf s.mem = true) :
    ∃ t, orWord s a m = .ok t ∧ Passes s t ∧ Memory.wf t.mem = true ∧
      (∀ i, i < 32 → (t.field a 4).testBit i = ((s.field a 4).testBit i || m.getLsbD i)) ∧
      (∀ a' n', a' + n' ≤ a ∨ a + 4 ≤ a' → t.field a' n' = s.field a' n') ∧
      ∀ x, x < a ∨ a + 4 ≤ x → Memory.read t.mem x = Memory.read s.mem x := by
  have p := passes_access s
  obtain ⟨t, e, st⟩ := memWrite_stored (s := s.access) (a := a) (n := 4) (BitVec.ofNat 32 (s.field a 4) ||| m).toNat
    (by rw [p.inMailbox]; exact h) hw
  refine ⟨t, ?_, p.trans st.passes, st.wf, ?_, st.fields, st.bytes⟩
  · simp only [orWord, memRead_eq h]
    exact e
  · intro i hi
    rw [st.value, Nat.mod_eq_of_lt (by have := (BitVec.ofNat 32 (s.field a 4) ||| m).isLt; norm_num at this ⊢; exact this)]
    rw [BitVec.testBit_toNat, BitVec.getLsbD_or, BitVec.getLsbD_ofNat]
    simp [hi, -BitVec.getLsbD_eq_getElem]

/-! ### The bits of the three arrays -/

/-- Bit `p` of a bit array: bit `p mod 32` of its word `p div 32` (20_memory.md R83). -/
def State.arrayBit (s : State) (x : BitArray) (p : Nat) : Bool := (s.field (s.arrayAddr x (p / 32)) 4).testBit (p % 32)

/-- Two words of the arrays lie apart. -/
theorem arrayAddr_disjoint {s : State} {x x' : BitArray} {w w' : Nat} (hw : w < s.nwords) (hw' : w' < s.nwords)
    (h : x ≠ x' ∨ w ≠ w') : s.arrayAddr x' w' + 4 ≤ s.arrayAddr x w ∨ s.arrayAddr x w + 4 ≤ s.arrayAddr x' w' := by
  cases x <;> cases x' <;> simp only [State.arrayAddr] <;> simp at h <;> omega

theorem inMailbox_iff {s : State} {a n : Nat} : s.inMailbox a n = true ↔
    s.mailboxPresent = true ∧ s.params.mbBase ≤ a ∧
      a + n ≤ s.params.mbBase + (4 + 4 * s.params.firedCap + 12 * s.nwords) := by
  rw [← State.mailboxSize]
  simp [State.inMailbox, and_assoc]

theorem array_inMailbox {s : State} (hm : s.mailboxPresent = true) (x : BitArray) {w : Nat} (hw : w < s.nwords) :
    s.inMailbox (s.arrayAddr x w) 4 = true := by
  rw [inMailbox_iff]
  cases x <;> simp only [State.arrayAddr] <;> exact ⟨hm, by omega, by omega⟩

theorem count_inMailbox {s : State} (hm : s.mailboxPresent = true) {g : Nat} (hg : g < 2) :
    s.inMailbox (s.countAddr g) 2 = true := by
  rw [inMailbox_iff]
  simp only [State.countAddr]
  exact ⟨hm, by omega, by omega⟩

theorem fired_inMailbox {s : State} (hm : s.mailboxPresent = true) {g j : Nat} (hg : g < 2)
    (hj : j < s.params.firedCap) :
    s.inMailbox (s.firedAddr g j) 2 = true := by
  rw [inMailbox_iff]
  have : g = 0 ∨ g = 1 := by omega
  rcases this with rfl | rfl <;> simp only [State.firedAddr] <;> exact ⟨hm, by omega, by omega⟩

/-- What packing leaves alone: the counts, the fired lists, every byte outside the arrays. -/
structure ArraysOnly (s t : State) : Prop where
  passes : Passes s t
  wf     : Memory.wf t.mem = true
  fields : ∀ a n, (∀ x w, w < s.nwords → a + n ≤ s.arrayAddr x w ∨ s.arrayAddr x w + 4 ≤ a) → t.field a n = s.field a n
  bytes  : ∀ a, (∀ x w, w < s.nwords → a < s.arrayAddr x w ∨ s.arrayAddr x w + 4 ≤ a) →
    Memory.read t.mem a = Memory.read s.mem a

theorem ArraysOnly.refl {s : State} (h : Memory.wf s.mem = true) : ArraysOnly s s := ⟨.refl s, h, fun _ _ _ => rfl,
    fun _ _ => rfl⟩

theorem ArraysOnly.trans {s t u : State} (h1 : ArraysOnly s t) (h2 : ArraysOnly t u) : ArraysOnly s u :=
  ⟨h1.passes.trans h2.passes, h2.wf,
    fun a n h => (h2.fields a n fun x w hw => by
      rw [h1.passes.arrayAddr]; rw [h1.passes.nwords] at hw; exact h x w hw).trans (h1.fields a n h),
    fun a h => (h2.bytes a fun x w hw => by
      rw [h1.passes.arrayAddr]; rw [h1.passes.nwords] at hw; exact h x w hw).trans (h1.bytes a h)⟩

theorem ArraysOnly.ofRead {s : State} (h : Memory.wf s.mem = true) (b : Nat) (r : Reg) : ArraysOnly s
    (regRead s b r).2 :=
  ⟨passes_regRead s b r, h, fun _ _ _ => rfl, fun _ _ => rfl⟩

/-- One OR into word `w` of array `x`, as bits. -/
theorem orWord_bits {s : State} (hm : s.mailboxPresent = true) (hwf : Memory.wf s.mem = true) (x : BitArray) {w : Nat}
    (hw : w < s.nwords) (m : Word) : ∃ t, orWord s (s.arrayAddr x w) m = .ok t ∧ ArraysOnly s t ∧
      ∀ x' p, p / 32 < s.nwords → t.arrayBit x' p = (s.arrayBit x' p || (decide (x' = x ∧
        p / 32 = w) && m.getLsbD (p % 32))) := by
  obtain ⟨t, e, ps, wf, val, fl, by'⟩ := orWord_stored m (array_inMailbox hm x hw) hwf
  refine ⟨t, e, ⟨ps, wf, fun a n h => fl a n (h x w hw), fun a h => by' a (h x w hw)⟩, ?_⟩
  intro x' p hp
  simp only [State.arrayBit, ps.arrayAddr]
  by_cases hc : x' = x ∧ p / 32 = w
  · obtain ⟨rfl, rfl⟩ := hc
    rw [val _ (Nat.mod_lt _ (by omega))]
    simp
  · rw [fl _ _ (arrayAddr_disjoint hw hp (by
      by_cases hx : x' = x
      · exact .inr fun hh => hc ⟨hx, hh.symm⟩
      · exact .inl fun hh => hx hh.symm))]
    simp [hc]

/-- `PackInto` (44_sleep_wake.md R234) as bits: the bits of the bank's own pins gain those of the word. -/
theorem packInto_bits {s : State} (hm : s.mailboxPresent = true) (hwf : Memory.wf s.mem = true) (x : BitArray) (b : Nat)
    (m : Word) (hs : (s.bank b).desc.start ≤ (s.bank b).desc.last) (hw32 : (s.bank b).width ≤ 32)
    (hn : (s.bank b).desc.last / 32 < s.nwords) : ∃ t, packInto s x b m = .ok t ∧ ArraysOnly s t ∧
      ∀ x' p, p / 32 < s.nwords → t.arrayBit x' p = (s.arrayBit x' p || (decide (x' = x) &&
        decide ((s.bank b).desc.start ≤ p ∧ p ≤ (s.bank b).desc.last) && m.getLsbD (p - (s.bank b).desc.start))) := by
  simp only [Bank.width] at hw32
  obtain ⟨t1, e1, a1, v1⟩ := orWord_bits hm hwf x (w := (s.bank b).desc.start / 32)
    (lt_of_le_of_lt (Nat.div_le_div_right hs) hn) ((m &&& (s.bank b).wmask) <<< ((s.bank b).desc.start % 32))
  by_cases hc : (s.bank b).desc.start % 32 + (s.bank b).width > 32
  · simp only [Bank.width] at hc
    have hw1 : (s.bank b).desc.start / 32 + 1 < s.nwords := by omega
    obtain ⟨t2, e2, a2, v2⟩ := orWord_bits (s := t1) (by rw [a1.passes.mailboxPresent]; exact hm) a1.wf x
      (w := (s.bank b).desc.start / 32 + 1) (by rw [a1.passes.nwords]; exact hw1)
      ((m &&& (s.bank b).wmask) >>> (32 - (s.bank b).desc.start % 32))
    refine ⟨t2, ?_, a1.trans a2, ?_⟩
    · simp only [packInto, e1, bind, Except.bind, Bank.width, hc, if_true]
      rw [a1.passes.arrayAddr] at e2
      exact e2
    · intro x' p hp
      rw [v2 x' p (by rw [a1.passes.nwords]; exact hp), v1 x' p hp, Bool.or_assoc]
      congr 1
      by_cases hx : x' = x
      · simp only [hx, true_and, decide_true, Bool.true_and]
        by_cases h0 : p / 32 = (s.bank b).desc.start / 32
        · simp only [h0, BitVec.getLsbD_shiftLeft, BitVec.getLsbD_and, Bank.getLsbD_wmask, Bank.width]
          have : p % 32 < 32 := Nat.mod_lt _ (by omega)
          by_cases h1 : (s.bank b).desc.start ≤ p
          · have e : p % 32 - (s.bank b).desc.start % 32 = p - (s.bank b).desc.start := by omega
            rw [e]
            have h2 : p ≤ (s.bank b).desc.last := by omega
            simp [this, h1, h2, show ¬ p % 32 < (s.bank b).desc.start % 32 by omega,
              show p - (s.bank b).desc.start < 32 by omega, show p - (s.bank b).desc.start < (s.bank b).desc.last + 1 - (s.bank b).desc.start by omega, -BitVec.getLsbD_eq_getElem]
          · simp [h1, show p % 32 < (s.bank b).desc.start % 32 by omega, -BitVec.getLsbD_eq_getElem]
        · by_cases h3 : p / 32 = (s.bank b).desc.start / 32 + 1
          · simp only [h3, BitVec.getLsbD_ushiftRight, BitVec.getLsbD_and, Bank.getLsbD_wmask, Bank.width]
            have e : 32 - (s.bank b).desc.start % 32 + p % 32 = p - (s.bank b).desc.start := by omega
            rw [e]
            by_cases h2 : p ≤ (s.bank b).desc.last
            · simp [h2, show (s.bank b).desc.start ≤ p by omega, show p - (s.bank b).desc.start < 32 by omega,
              show p - (s.bank b).desc.start < (s.bank b).desc.last + 1 - (s.bank b).desc.start by omega, -BitVec.getLsbD_eq_getElem]
            · simp [h2, show ¬ p - (s.bank b).desc.start < (s.bank b).desc.last + 1 - (s.bank b).desc.start by omega,
              -BitVec.getLsbD_eq_getElem]
          · have : ¬((s.bank b).desc.start ≤ p ∧ p ≤ (s.bank b).desc.last) := by omega
            simp [h0, h3, this]
      · simp [hx]
  · refine ⟨t1, ?_, a1, ?_⟩
    · simp only [packInto, e1, bind, Except.bind, hc, if_false]
    · simp only [Bank.width] at hc
      intro x' p hp
      rw [v1 x' p hp]
      congr 1
      by_cases hx : x' = x
      · simp only [hx, true_and, decide_true, Bool.true_and]
        by_cases h0 : p / 32 = (s.bank b).desc.start / 32
        · simp only [h0, BitVec.getLsbD_shiftLeft, BitVec.getLsbD_and, Bank.getLsbD_wmask, Bank.width]
          have : p % 32 < 32 := Nat.mod_lt _ (by omega)
          by_cases h1 : (s.bank b).desc.start ≤ p
          · have e : p % 32 - (s.bank b).desc.start % 32 = p - (s.bank b).desc.start := by omega
            rw [e]
            by_cases h2 : p ≤ (s.bank b).desc.last
            · simp [this, h1, h2, show ¬ p % 32 < (s.bank b).desc.start % 32 by omega,
              show p - (s.bank b).desc.start < 32 by omega, show p - (s.bank b).desc.start < (s.bank b).desc.last + 1 - (s.bank b).desc.start by omega, -BitVec.getLsbD_eq_getElem]
            · simp [h2, show ¬ p - (s.bank b).desc.start < (s.bank b).desc.last + 1 - (s.bank b).desc.start by omega,
              -BitVec.getLsbD_eq_getElem]
          · simp [h1, show p % 32 < (s.bank b).desc.start % 32 by omega, -BitVec.getLsbD_eq_getElem]
        · have : ¬((s.bank b).desc.start ≤ p ∧ p ≤ (s.bank b).desc.last) := by omega
          simp [h0, this]
      · simp [hx]

end Sys2Proof.Machine
end

