-- ==== Sys2Proof/Laws/Sleep.lean ====
section
/-! SUPPORT. The sleep handoff, said once: what ENTER_SLEEP does to the mailbox and to the enables. -/

namespace Sys2Proof.Machine

/-! ### What a good bank table gives (00_scope.md R6) -/

theorem pairwise_of_allDisjoint : ∀ ks : List Bank, allDisjoint ks = true →
    ks.Pairwise fun a b => rangesDisjoint a b = true
  | [], _ => .nil
  | k :: ks, h => by
    simp only [allDisjoint, Bool.and_eq_true, List.all_eq_true] at h
    exact .cons h.1 (pairwise_of_allDisjoint ks h.2)

theorem table_bank {s : State} (ht : tableOk s.params s.banks = true) {b : Nat} (hb : b < s.banks.length) :
    (s.bank b).desc.start ≤ (s.bank b).desc.last ∧ (s.bank b).width ≤ 32 := by
  simp only [tableOk, Bool.and_eq_true, List.all_eq_true] at ht
  have := ht.1.1.1.1.1.1.1.2 _ (bank_mem hb)
  simp only [bankFits, Bool.and_eq_true, decide_eq_true_eq] at this
  exact this.1

theorem table_disjoint {s : State} (ht : tableOk s.params s.banks = true) {b b' : Nat} (hb : b < s.banks.length)
    (hb' : b' < s.banks.length) (hn : b ≠ b') :
    (s.bank b).desc.last < (s.bank b').desc.start ∨ (s.bank b').desc.last < (s.bank b).desc.start := by
  simp only [tableOk, Bool.and_eq_true] at ht
  have hd : allDisjoint s.banks = true := by tauto
  have hp := List.pairwise_iff_getElem.1 (pairwise_of_allDisjoint _ hd)
  rw [bank_eq_getElem hb, bank_eq_getElem hb']
  rcases Nat.lt_or_gt_of_ne hn with h | h
  · have := hp b b' hb hb' h
    simpa [rangesDisjoint] using this
  · have := hp b' b hb' hb h
    simp [rangesDisjoint] at this; tauto

theorem last_lt_pinCount : ∀ {ks : List Bank} {k : Bank}, k ∈ ks → k.desc.last + 1 ≤ pinCount ks
  | k :: ks, k', h => by
    simp only [List.mem_cons] at h
    simp only [pinCount]
    rcases h with rfl | h
    · omega
    · have := last_lt_pinCount h; omega

theorem last_word {s : State} {b : Nat} (hb : b < s.banks.length) : (s.bank b).desc.last / 32 < s.nwords := by
  have := last_lt_pinCount (bank_mem hb)
  simp only [State.nwords]; omega

/-! ### Every mailbox access of ENTER_SLEEP lies in the mailbox, whatever memory holds -/

theorem orWord_ok {s : State} {a : Nat} (m : Word) (h : s.inMailbox a 4 = true) : ∃ t, orWord s a m = .ok t ∧
    Passes s t := by
  refine ⟨_, by simp only [orWord, memRead_eq h]; exact memWrite_eq _ (by rw [(passes_access s).inMailbox]; exact h),
    ?_⟩
  refine (passes_access s).trans ?_
  exact ⟨rfl, by simp, access_pinsOnly _, fun h => by simp only [State.access_seq] at h ⊢; rw [h]; rfl⟩

theorem packInto_ok {s : State} (hm : s.mailboxPresent = true) (x : BitArray) (b : Nat) (m : Word)
    (hs : (s.bank b).desc.start ≤ (s.bank b).desc.last) 
    (hn : (s.bank b).desc.last / 32 < s.nwords) : ∃ t, packInto s x b m = .ok t ∧ Passes s t := by
  obtain ⟨t1, e1, p1⟩ := orWord_ok ((m &&& (s.bank b).wmask) <<< ((s.bank b).desc.start % 32))
    (array_inMailbox hm x (w := (s.bank b).desc.start / 32) (lt_of_le_of_lt (Nat.div_le_div_right hs) hn))
  by_cases hc : (s.bank b).desc.start % 32 + (s.bank b).width > 32
  · have hw1 : (s.bank b).desc.start / 32 + 1 < s.nwords := by simp only [Bank.width] at *; omega
    obtain ⟨t2, e2, p2⟩ := orWord_ok (s := t1) ((m &&& (s.bank b).wmask) >>> (32 - (s.bank b).desc.start % 32))
      (by rw [p1.inMailbox]; exact array_inMailbox hm x hw1)
    exact ⟨t2, by simp only [packInto, e1, bind, Except.bind, hc, if_true]; exact e2, p1.trans p2⟩
  · exact ⟨t1, by simp only [packInto, e1, bind, Except.bind, hc, if_false], p1⟩

theorem packBank_ok {s : State} (hm : s.mailboxPresent = true) (b : Nat) (fi : Bool)
    (hs : (s.bank b).desc.start ≤ (s.bank b).desc.last)
    (hn : (s.bank b).desc.last / 32 < s.nwords) : ∃ t, packBank s b fi = .ok t ∧ Passes s t := by
  have key : ∀ {u : State}, Passes s u → ∀ x m, ∃ t, packInto u x b m = .ok t ∧ Passes s t := by
    intro u pu x m
    have hd := (pu.banks b).desc
    obtain ⟨t, e, p⟩ := packInto_ok (s := u) (by rw [pu.mailboxPresent]; exact hm) x b m (by rw [hd]; exact hs) (by rw [hd, pu.nwords]; exact hn)
    exact ⟨t, e, pu.trans p⟩
  obtain ⟨t1, e1, p1⟩ := key (.refl s) .enabled ((s.bank b).selected fi)
  obtain ⟨t2, e2, p2⟩ := key (p1.trans (passes_regRead t1 b .intEdge)) .detection (regRead t1 b .intEdge).1
  obtain ⟨t3, e3, p3⟩ := key (p2.trans (passes_regRead t2 b .intPos)) .polarity (regRead t2 b .intPos).1
  refine ⟨t3, ?_, p3⟩
  simp only [packBank, e1, bind, Except.bind, e2]
  exact e3

theorem packBanks_ok (fi : Bool) : ∀ (bs : List Nat) {s : State}, s.mailboxPresent = true →
    (∀ b ∈ bs, (s.bank b).desc.start ≤ (s.bank b).desc.last ∧ (s.bank b).width ≤ 32 ∧
      (s.bank b).desc.last / 32 < s.nwords) →
    ∃ t, packBanks s fi bs = .ok t ∧ Passes s t
  | [], s, _, _ => ⟨s, rfl, .refl s⟩
  | b :: bs, s, hm, h => by
    obtain ⟨h1, h2, h3⟩ := h b (by simp)
    obtain ⟨t1, e1, p1⟩ := packBank_ok hm b fi h1 h3
    obtain ⟨t, e, p⟩ := packBanks_ok fi bs (s := t1) (by rw [p1.mailboxPresent]; exact hm) (by
      intro b' hb'
      obtain ⟨h1, h2, h3⟩ := h b' (by simp [hb'])
      have hd := (p1.banks b').desc
      simp only [Bank.width, hd, p1.nwords] at *; exact ⟨h1, h2, h3⟩)
    exact ⟨t, by simp only [packBanks, e1, bind, Except.bind]; exact e, p1.trans p⟩

theorem clearFields_ok : ∀ (fs : List (Nat × Nat)) {s : State}, (∀ f ∈ fs, s.inMailbox f.1 f.2 = true) →
    ∃ t, clearFields s fs = .ok t ∧ Passes s t
  | [], s, _ => ⟨s, rfl, .refl s⟩
  | (a, n) :: fs, s, h => by
    have h1 := h (a, n) (by simp)
    obtain ⟨t1, e1, p1⟩ : ∃ t, memWrite s a n 0 = .ok t ∧ Passes s t :=
      ⟨_, memWrite_eq _ h1, ⟨rfl, by simp, access_pinsOnly _, fun h => by simp [h, Seq.advance]⟩⟩
    obtain ⟨t, e, p⟩ := clearFields_ok fs (s := t1) (fun f hf => by rw [p1.inMailbox]; exact h f (by simp [hf]))
    exact ⟨t, by simp only [clearFields, e1, bind, Except.bind]; exact e, p1.trans p⟩

theorem fields_inMailbox {s : State} (hm : s.mailboxPresent = true) :
    ∀ f ∈ s.mailboxFields, s.inMailbox f.1 f.2 = true := by
  intro f hf
  simp only [State.mailboxFields, List.mem_append, List.mem_map, List.mem_flatMap, List.mem_range] at hf
  rcases hf with (⟨g, hg, rfl⟩ | ⟨g, hg, j, hj, rfl⟩) | ⟨x, hx, w, hw, rfl⟩
  · exact count_inMailbox hm hg
  · exact fired_inMailbox hm hg hj
  · exact array_inMailbox hm x hw

theorem handOff_ok {s : State} (ht : tableOk s.params s.banks = true) (fi : Bool) : ∃ t, handOff s fi = .ok t ∧
    Passes s t ∧ (s.mailboxPresent = false → t = s) := by
  unfold handOff
  cases hm : s.mailboxPresent
  · exact ⟨s, by simp, .refl s, fun _ => rfl⟩
  · obtain ⟨t1, e1, p1⟩ := clearFields_ok s.mailboxFields (fields_inMailbox hm)
    obtain ⟨t, e, p⟩ := packBanks_ok fi t1.bankIndices (s := t1) (by rw [p1.mailboxPresent]; exact hm) (by
      intro b hb
      simp only [State.bankIndices, List.mem_range, p1.length] at hb
      have := table_bank ht hb
      have h3 := last_word hb
      have hd := (p1.banks b).desc
      simp only [Bank.width, hd, p1.nwords] at *
      exact ⟨this.1, this.2, h3⟩)
    refine ⟨t, ?_, p1.trans p, by simp⟩
    simp only [if_true, mailboxClear, e1, bind, Except.bind]; exact e

/-! ### The enables -/

/-- `int_en` of the banks listed gets the selected set (44_sleep_wake.md R232, R236). -/
structure EnableEffect (fi : Bool) (bs : List Nat) (s t : State) : Prop where
  rest : t = { s with banks := t.banks, choices := t.choices, seq := t.seq }
  length : t.banks.length = s.banks.length
  banks : ∀ b < s.banks.length,
    Bank.PinsOnly { s.bank b with intEn := if b ∈ bs then (s.bank b).selected fi else (s.bank b).intEn } (t.bank b)

theorem regWrite_rest (s : State) (b : Nat) (r : Reg) (v : Word) :
    regWrite s b r v = { s with
      banks := (regWrite s b r v).banks
      choices := (regWrite s b r v).choices
      seq := (regWrite s b r v).seq } := by
  unfold regWrite
  cases r.draws <;> rfl

theorem writeEnables_effect (fi : Bool) : ∀ (bs : List Nat) (s : State), EnableEffect fi bs s (writeEnables s fi bs)
  | [], s => ⟨rfl, rfl, fun b _ => by simp; exact .refl _⟩
  | b :: bs, s => by
    have ih := writeEnables_effect fi bs (regWrite s b .intEn ((s.bank b).selected fi))
    refine ⟨?_, ?_, ?_⟩
    · rw [writeEnables, ih.rest, regWrite_rest]
    · rw [writeEnables, ih.length]; simp
    · intro b' hb'
      have h2 := ih.banks b' (by simpa using hb')
      rw [writeEnables]
      refine Bank.PinsOnly.trans ?_ h2
      by_cases e : b' = b
      · subst e
        have h1 := regWrite_pinsOnly hb' (r := .intEn) (by decide) ((s.bank b').selected fi)
        have hsel : ((regWrite s b' .intEn ((s.bank b').selected fi)).bank b').selected fi = (s.bank b').selected fi := by
          have e0 := h1.en0
          have e1 := h1.en1
          unfold Bank.selected at *
          rw [e0, e1]; rfl
        rw [hsel, h1.intEn]
        simp only [Bank.written, List.mem_cons, true_or, if_true, ite_self]
        have := h1.update (fun k => { k with intEn := (s.bank b').selected fi }) (fun _ _ _ => rfl)
        exact this
      · have h1 : (s.bank b').PinsOnly ((regWrite s b .intEn ((s.bank b).selected fi)).bank b') := by
          rw [bank_regWrite_ne _ e]; exact access_pinsOnly _ _
        generalize (regWrite s b .intEn ((s.bank b).selected fi)).bank b' = k at *
        have hsel : k.selected fi = (s.bank b').selected fi := by
          simp only [Bank.selected]; rw [h1.en0, h1.en1]
        rw [hsel, h1.intEn]
        simp only [List.mem_cons, e, false_or]
        exact h1.update (fun k => { k with intEn := if b' ∈ bs then (s.bank b').selected fi else (s.bank b').intEn }) (fun _ _ _ => rfl)

/-! ### What the arrays hold after packing (44_sleep_wake.md R233, R241) -/

/-- The word of a bank that `Pack` puts into an array (R233). -/
def Bank.source (k : Bank) (fi : Bool) : BitArray → Word
  | .enabled => k.selected fi
  | .detection => k.intEdge
  | .polarity => k.intPos

/-- Pin `p` lies in the bank's range. -/
def Bank.inRange (k : Bank) (p : Nat) : Bool := decide (k.desc.start ≤ p ∧ p ≤ k.desc.last)

theorem arrayBit_regRead (s : State) (b : Nat) (r : Reg) (x : BitArray) (p : Nat) :
    (regRead s b r).2.arrayBit x p = s.arrayBit x p := by
  simp only [State.arrayBit, (passes_regRead s b r).arrayAddr]; rfl

theorem packBank_bits {s : State} (hm : s.mailboxPresent = true) (hwf : Memory.wf s.mem = true) (b : Nat) (fi : Bool)
    (hs : (s.bank b).desc.start ≤ (s.bank b).desc.last) (hw : (s.bank b).width ≤ 32)
    (hn : (s.bank b).desc.last / 32 < s.nwords) : ∃ t, packBank s b fi = .ok t ∧ ArraysOnly s t ∧
      ∀ x p, p / 32 < s.nwords → t.arrayBit x p = (s.arrayBit x p ||
        ((s.bank b).inRange p && ((s.bank b).source fi x).getLsbD (p - (s.bank b).desc.start))) := by
  have key : ∀ {u : State}, ArraysOnly s u → ∀ x m, ∃ t, packInto u x b m = .ok t ∧ ArraysOnly s t ∧
      ∀ x' p, p / 32 < s.nwords →
        t.arrayBit x' p = (u.arrayBit x' p || (decide (x' = x) && (s.bank b).inRange p && m.getLsbD (p - (s.bank b).desc.start))) := by
    intro u au x m
    have pu := au.passes
    have hd := (pu.banks b).desc
    obtain ⟨t, e, a, v⟩ := packInto_bits (s := u) (by rw [pu.mailboxPresent]; exact hm) au.wf x b m (by rw [hd]; exact hs) (by simp only [Bank.width, hd]; exact hw) (by rw [hd, pu.nwords]; exact hn)
    rw [hd, pu.nwords] at v
    exact ⟨t, e, au.trans a, v⟩
  obtain ⟨t1, e1, a1, v1⟩ := key (.refl hwf) .enabled ((s.bank b).selected fi)
  have r1 := a1.trans (.ofRead a1.wf b .intEdge)
  obtain ⟨t2, e2, a2, v2⟩ := key r1 .detection (regRead t1 b .intEdge).1
  have r2 := a2.trans (.ofRead a2.wf b .intPos)
  obtain ⟨t3, e3, a3, v3⟩ := key r2 .polarity (regRead t2 b .intPos).1
  refine ⟨t3, ?_, a3, ?_⟩
  · simp only [packBank, e1, bind, Except.bind, e2]
    exact e3
  · intro x p hp
    rw [v3 x p hp, arrayBit_regRead, v2 x p hp,
      arrayBit_regRead, v1 x p hp]
    by_cases hin : (s.bank b).inRange p = true
    · have hi : p - (s.bank b).desc.start < (s.bank b).width := by
        simp only [Bank.inRange, decide_eq_true_eq] at hin
        simp only [Bank.width]; omega
      have g1 : (regRead t1 b .intEdge).1.getLsbD (p - (s.bank b).desc.start) = (s.bank b).intEdge.getLsbD (p - (s.bank b).desc.start) := by
        rw [getLsbD_regRead _ _ _ _ (by omega) (by simp only [Bank.width, (a1.passes.banks b).desc]; exact hi)]
        simp only [Bank.content, access_bank_intEdge, (a1.passes.banks b).intEdge]
      have g2 : (regRead t2 b .intPos).1.getLsbD (p - (s.bank b).desc.start) = (s.bank b).intPos.getLsbD (p - (s.bank b).desc.start) := by
        rw [getLsbD_regRead _ _ _ _ (by omega) (by simp only [Bank.width, (a2.passes.banks b).desc]; exact hi)]
        simp only [Bank.content, access_bank_intPos, (a2.passes.banks b).intPos]
      rw [g1, g2, hin]
      cases x <;> simp [Bank.source, -BitVec.getLsbD_eq_getElem]
    · simp [hin, -BitVec.getLsbD_eq_getElem]

theorem packBanks_bits (fi : Bool) : ∀ (bs : List Nat) {s : State}, s.mailboxPresent = true → Memory.wf s.mem = true →
    (∀ b ∈ bs, (s.bank b).desc.start ≤ (s.bank b).desc.last ∧ (s.bank b).width ≤ 32 ∧
      (s.bank b).desc.last / 32 < s.nwords) →
    ∃ t, packBanks s fi bs = .ok t ∧ ArraysOnly s t ∧ ∀ x p, p / 32 < s.nwords → t.arrayBit x p = (s.arrayBit x p ||
      bs.any fun b => (s.bank b).inRange p && ((s.bank b).source fi x).getLsbD (p - (s.bank b).desc.start))
  | [], s, _, hwf, _ => ⟨s, rfl, .refl hwf, by simp⟩
  | b :: bs, s, hm, hwf, h => by
    obtain ⟨h1, h2, h3⟩ := h b (by simp)
    obtain ⟨t1, e1, a1, v1⟩ := packBank_bits hm hwf b fi h1 h2 h3
    have p1 := a1.passes
    obtain ⟨t, e, a, v⟩ := packBanks_bits fi bs (s := t1) (by rw [p1.mailboxPresent]; exact hm) a1.wf (by
      intro b' hb'
      obtain ⟨h1, h2, h3⟩ := h b' (by simp [hb'])
      have hd := (p1.banks b').desc
      simp only [Bank.width, hd, p1.nwords] at *; exact ⟨h1, h2, h3⟩)
    refine ⟨t, by simp only [packBanks, e1, bind, Except.bind]; exact e, a1.trans a, ?_⟩
    intro x p hp
    rw [v x p (by rw [p1.nwords]; exact hp), v1 x p hp, List.any_cons, Bool.or_assoc]
    congr 2
    congr 1
    funext b'
    have := p1.banks b'
    have hsrc : (t1.bank b').source fi x = (s.bank b').source fi x := by
      cases x <;> simp only [Bank.source, Bank.selected, this.en0, this.en1, this.intEdge, this.intPos]
    simp only [Bank.inRange, this.desc, hsrc]

/-! ### MailboxClear (44_sleep_wake.md R231) -/

theorem read_writeBytes_zero : ∀ (n : Nat) (a x : Nat) {m : Memory}, Memory.wf m = true → (a ≤ x ∧
    x < a + n ∨ Memory.read m x = 0) →
    Memory.read (Memory.writeBytes m a (List.replicate n 0)) x = 0
  | 0, a, x, m, _, h => by rcases h with h | h; omega; exact h
  | n + 1, a, x, m, hwf, h => by
    simp only [List.replicate_succ, Memory.writeBytes]
    refine read_writeBytes_zero n (a + 1) x (Memory.wf_write a 0 hwf) ?_
    by_cases e : x = a
    · subst e; right; exact Memory.read_write_same _ _ hwf
    · rw [Memory.read_write_ne _ e]
      rcases h with h | h
      · left; omega
      · right; exact h

theorem bytesOf_zero : ∀ n, bytesOf n 0 = List.replicate n 0
  | 0 => rfl
  | n + 1 => by simp [bytesOf, bytesOf_zero n, List.replicate_succ]

theorem readField_zero (o : ByteOrder) {m : Memory} : ∀ {n a : Nat}, (∀ x, a ≤ x → x < a + n → Memory.read m x = 0) →
    Memory.readField o m a n = 0 := by
  intro n a h
  have : Memory.readBytes m a n = List.replicate n 0 := by
    induction n generalizing a with
    | zero => rfl
    | succ n ih =>
      simp only [Memory.readBytes, List.replicate_succ]
      rw [h a (by omega) (by omega), ih fun x h1 h2 => h x (by omega) (by omega)]
  have hv : ∀ n, valueOf (List.replicate n 0#8) = 0 := by
    intro n; induction n with
    | zero => rfl
    | succ n ih => simp [List.replicate_succ, valueOf, ih]
  simp only [Memory.readField, this]
  cases o <;> simp [orderBytes, hv]

theorem clearFields_zero : ∀ (fs : List (Nat × Nat)) {s : State}, Memory.wf s.mem = true → (∀ f ∈ fs,
    s.inMailbox f.1 f.2 = true) →
    ∃ t, clearFields s fs = .ok t ∧ Passes s t ∧ Memory.wf t.mem = true ∧
      (∀ x, (Memory.read s.mem x = 0 ∨ ∃ f ∈ fs, f.1 ≤ x ∧ x < f.1 + f.2) → Memory.read t.mem x = 0) ∧
      (∀ x, (∀ f ∈ fs, x < f.1 ∨ f.1 + f.2 ≤ x) → Memory.read t.mem x = Memory.read s.mem x)
  | [], s, hwf, _ => ⟨s, rfl, .refl s, hwf, by simp, by simp⟩
  | (a, n) :: fs, s, hwf, h => by
    have h1 := h (a, n) (by simp)
    obtain ⟨t1, e1, st⟩ := memWrite_stored (s := s) (a := a) (n := n) 0 h1 hwf
    have p1 := st.passes
    obtain ⟨t, e, p, w, z,
      k⟩ := clearFields_zero fs (s := t1) st.wf (fun f hf => by rw [p1.inMailbox]; exact h f (by simp [hf]))
    have hmem : t1.mem = Memory.writeField s.params.mbByteOrder s.mem a n 0 := by
      rw [memWrite_eq 0 h1] at e1
      cases e1; rfl
    refine ⟨t, by simp only [clearFields, e1, bind, Except.bind]; exact e, p1.trans p, w, ?_, ?_⟩
    · intro x hx
      have hz : (a ≤ x ∧ x < a + n ∨ Memory.read s.mem x = 0) → Memory.read t1.mem x = 0 := by
        intro hh
        rw [hmem, Memory.writeField, bytesOf_zero]
        have : orderBytes s.params.mbByteOrder (List.replicate n (0 : Byte)) = List.replicate n 0 := by
          cases s.params.mbByteOrder <;> simp [orderBytes]
        rw [this]
        exact read_writeBytes_zero n a x hwf hh
      rcases hx with hx | ⟨f, hf, hx⟩
      · exact z x (.inl (hz (.inr hx)))
      · simp only [List.mem_cons] at hf
        rcases hf with rfl | hf
        · exact z x (.inl (hz (.inl hx)))
        · exact z x (.inr ⟨f, hf, hx⟩)
    · intro x hx
      rw [k x fun f hf => hx f (by simp [hf]), st.bytes x (hx (a, n) (by simp))]

/-- The mailbox after the hand-off: each array bit is the bit of the one bank that holds the pin, the counts and the fired
lists are 0, and no byte outside the mailbox has changed. -/
theorem handOff_bits {s : State} (ht : tableOk s.params s.banks = true) (hm : s.mailboxPresent = true)
    (hwf : Memory.wf s.mem = true) (fi : Bool) :
    ∃ t, handOff s fi = .ok t ∧ Passes s t ∧ Memory.wf t.mem = true ∧
      (∀ x p, p / 32 < s.nwords →
        t.arrayBit x p = s.bankIndices.any fun b => (s.bank b).inRange p && ((s.bank b).source fi x).getLsbD (p - (s.bank b).desc.start)) ∧
      (∀ g < 2, t.field (s.countAddr g) 2 = 0 ∧ ∀ j < s.params.firedCap, t.field (s.firedAddr g j) 2 = 0) ∧
      (∀ a, a < s.params.mbBase ∨ s.params.mbBase + s.mailboxSize ≤ a → Memory.read t.mem a = Memory.read s.mem a) := by
  obtain ⟨t1, e1, p1, w1, z1, k1⟩ := clearFields_zero s.mailboxFields hwf (fields_inMailbox hm)
  obtain ⟨t, e, a, v⟩ := packBanks_bits fi t1.bankIndices (s := t1) (by rw [p1.mailboxPresent]; exact hm) w1 (by
    intro b hb
    simp only [State.bankIndices, List.mem_range, p1.length] at hb
    have := table_bank ht hb
    have h3 := last_word hb
    have hd := (p1.banks b).desc
    simp only [Bank.width, hd, p1.nwords] at *
    exact ⟨this.1, this.2, h3⟩)
  have zf : ∀ f ∈ s.mailboxFields, t1.field f.1 f.2 = 0 := by
    intro f hf
    exact readField_zero _ fun x h1 h2 => z1 x (.inr ⟨f, hf, h1, h2⟩)
  have mm : ∀ f, f ∈ s.mailboxFields ↔ (∃ g < 2, f = (s.countAddr g, 2)) ∨ (∃ g < 2, ∃ j < s.params.firedCap,
    f = (s.firedAddr g j, 2)) ∨ ∃ x, ∃ w < s.nwords, f = (s.arrayAddr x w, 4) := by
    intro f
    simp only [State.mailboxFields, List.mem_append, List.mem_map, List.mem_flatMap, List.mem_range, or_assoc]
    refine or_congr ⟨?_, ?_⟩ (or_congr ⟨?_, ?_⟩ ⟨?_, ?_⟩)
    · rintro ⟨g, h, rfl⟩; exact ⟨g, h, rfl⟩
    · rintro ⟨g, h, rfl⟩; exact ⟨g, h, rfl⟩
    · rintro ⟨g, h, j, h', rfl⟩; exact ⟨g, h, j, h', rfl⟩
    · rintro ⟨g, h, j, h', rfl⟩; exact ⟨g, h, j, h', rfl⟩
    · rintro ⟨x, h, j, h', rfl⟩; exact ⟨x, j, h', rfl⟩
    · rintro ⟨x, j, h', rfl⟩; exact ⟨x, by cases x <;> simp, j, h', rfl⟩
  refine ⟨t, ?_, p1.trans a.passes, a.wf, ?_, ?_, ?_⟩
  · simp only [handOff, hm, if_true, mailboxClear, e1, bind, Except.bind]; exact e
  · intro x p hp
    rw [v x p (by rw [p1.nwords]; exact hp)]
    have h0 : t1.arrayBit x p = false := by
      simp only [State.arrayBit, p1.arrayAddr]
      rw [zf (s.arrayAddr x (p / 32), 4) ((mm _).2 (.inr (.inr ⟨x, _, hp, rfl⟩)))]
      simp
    rw [h0, Bool.false_or]
    have hbi : t1.bankIndices = s.bankIndices := by simp only [State.bankIndices, p1.length]
    rw [hbi]
    congr 1
    funext b'
    clear h0
    have := p1.banks b'
    have hsrc : (t1.bank b').source fi x = (s.bank b').source fi x := by
      cases x <;> simp only [Bank.source, Bank.selected, this.en0, this.en1, this.intEdge, this.intPos]
    simp only [Bank.inRange, this.desc, hsrc]
  · intro g hg
    constructor
    · rw [a.fields _ _ fun x w hw => ?_]
      · exact zf (s.countAddr g, 2) ((mm _).2 (.inl ⟨g, hg, rfl⟩))
      · rw [p1.arrayAddr]
        left
        cases x <;> simp only [State.countAddr, State.arrayAddr] <;> omega
    · intro j hj
      rw [a.fields _ _ fun x w hw => ?_]
      · exact zf (s.firedAddr g j, 2) ((mm _).2 (.inr (.inl ⟨g, hg, j, hj, rfl⟩)))
      · rw [p1.arrayAddr]
        left
        have : g = 0 ∨ g = 1 := by omega
        rcases this with rfl | rfl <;> cases x <;> simp only [State.firedAddr, State.arrayAddr] <;> omega
  · intro y hy
    rw [a.bytes _ fun x w hw => ?_, k1 _ fun f hf => ?_]
    · have := inMailbox_iff.1 (fields_inMailbox hm f hf)
      simp only [State.mailboxSize] at hy
      omega
    · rw [p1.arrayAddr]
      have := inMailbox_iff.1 (array_inMailbox hm x (w := w) (by rw [← p1.nwords]; exact hw))
      simp only [State.mailboxSize] at hy
      omega

/-- The gather reads the array bits of the bank's own pins, also across a word boundary (R235). -/
theorem getLsbD_unpack {s : State} (x : BitArray) (b : Nat) (i : Nat) (hi : i < 32) (hw : i < (s.bank b).width) :
    (unpack s x b).getLsbD i = s.arrayBit x ((s.bank b).desc.start + i) := by
  have fl : ∀ w j, j < 32 →
    (BitVec.ofNat 32 (s.field (s.arrayAddr x w) 4)).getLsbD j = (s.field (s.arrayAddr x w) 4).testBit j := by
    intro w j hj; simp [BitVec.getLsbD_ofNat, hj, -BitVec.getLsbD_eq_getElem]
  simp only [unpack, State.arrayBit]
  simp only [BitVec.getLsbD_and, BitVec.getLsbD_or, Bank.getLsbD_wmask, hi, hw, decide_true, Bool.and_true,
    BitVec.getLsbD_ushiftRight]
  simp only [State.field] at fl
  by_cases h : (s.bank b).desc.start % 32 + i < 32
  · rw [fl _ _ h]
    have e1 : ((s.bank b).desc.start + i) / 32 = (s.bank b).desc.start / 32 := by omega
    have e2 : ((s.bank b).desc.start + i) % 32 = (s.bank b).desc.start % 32 + i := by omega
    rw [e1, e2]
    split
    · simp only [BitVec.getLsbD_shiftLeft]
      simp [show i < 32 - (s.bank b).desc.start % 32 by omega, State.field]
    · simp [State.field]
  · have e1 : ((s.bank b).desc.start + i) / 32 = (s.bank b).desc.start / 32 + 1 := by omega
    have e2 : ((s.bank b).desc.start + i) % 32 = i - (32 - (s.bank b).desc.start % 32) := by omega
    rw [e1, e2, if_pos (by omega), BitVec.getLsbD_of_ge _ _ (by omega)]
    simp only [BitVec.getLsbD_shiftLeft]
    rw [fl _ _ (by omega)]
    simp [hi, show ¬ i < 32 - (s.bank b).desc.start % 32 by omega, State.field]
theorem mem_we (fi : Bool) (bs : List Nat) (s : State) :
    (writeEnables s fi bs).mem = s.mem := by rw [(writeEnables_effect fi bs s).rest]

theorem params_we (fi : Bool) (bs : List Nat) (s : State) :
    (writeEnables s fi bs).params = s.params := by rw [(writeEnables_effect fi bs s).rest]

theorem desc_we {fi : Bool} {bs : List Nat} {s : State} :
    (writeEnables s fi bs).banks.map Bank.desc = s.banks.map Bank.desc := by
  have w := writeEnables_effect fi bs s
  refine descs_eq w.length fun b => ?_
  by_cases h : b < s.banks.length
  · exact (w.banks b h).desc
  · rw [bank_absent h, bank_absent (by rw [w.length]; exact h)]

end Sys2Proof.Machine
end

