-- ==== Sys2Proof/Laws/Groups.lean ====
section
/-! SUPPORT. What each option group of a CONFIGURE does to its bank, what a command body logs, and that the sleep handoff
emits nothing. -/

namespace Sys2Proof.Machine

/-! ### The option groups -/

/-- A group that rewrites one bit of a register, present or absent (40_pin_config.md R130, R131, R135, R136). -/
theorem whenPresent_modifyBit (s : State) (b off : Nat) (hb : b < s.banks.length) (r : Reg) (hr : r.stored = true) (o : Option Bool) :
    ∃ d, ((s.bank b).written r (regrouped (s.bank b) off ((s.bank b).content r 0) d o) 0).PinsOnly
      ((whenPresent o s fun s v => modifyBit s b r (bitAt off) v).bank b) := by
  cases o with
  | none =>
    refine ⟨0, ?_⟩
    have : (s.bank b).written r ((s.bank b).content r 0) 0 = s.bank b := by
      cases r <;> first | rfl | (simp only [Bank.written, Bank.content]; rw [or_zero_and]) | cases hr
    simp only [regrouped, this, whenPresent]; exact .refl _
  | some v => obtain ⟨d, h⟩ := modifyBit_pinsOnly hb hr off v; exact ⟨d, h⟩

/-- Word `v'` is `v` after an optional group on bit `off`. -/
structure Sets (o : Option Bool) (off : Nat) (v v' : Word) : Prop where
  some : ∀ x, o = some x → v'.getLsbD off = x
  none : o = none → v' = v

theorem sets_regrouped (k : Bank) (off : Nat) (v d : Word) (o : Option Bool) (h : off < 32) (hw : off < k.width) :
    Sets o off v (regrouped k off v d o) := by
  constructor
  · rintro x rfl; rw [getLsbD_regrouped k off v d x off h hw]; simp
  · rintro rfl; rfl

/-- The output-level, direction and ownership groups: three registers of the bank, each as its group says. -/
structure OutputsEffect (o : Options) (off : Nat) (k k' : Bank) : Prop where
  same : k' = { k with out := k'.out, oe := k'.oe, owner := k'.owner, pad := k'.pad, intStatus := k'.intStatus }
  out : Sets o.out off k.out k'.out
  oe : Sets o.dir off k.oe k'.oe
  owner : Sets o.own off k.owner k'.owner

theorem outputs_effect (s : State) (b off : Nat) (o : Options) (hb : b < s.banks.length) (h32 : off < 32) (hw : off < (s.bank b).width) :
    let s1 := whenPresent o.out s fun s v => modifyBit s b .out (bitAt off) v
    let s2 := whenPresent o.dir s1 fun s v => modifyBit s b .oe (bitAt off) v
    let s3 := whenPresent o.own s2 fun s v => modifyBit s b .owner (bitAt off) v
    OutputsEffect o off (s.bank b) (s3.bank b) ∧ s3.events = s.events ∧ Touches b s s3 := by
  intro s1 s2 s3
  obtain ⟨d1, e1⟩ := whenPresent_modifyBit s b off hb .out rfl o.out
  have t1 : Touches b s s1 := touches_whenPresent (b := b) o.out s (fun s v => modifyBit s b .out (bitAt off) v) (fun v => touches_modifyBit b _ _ _ _)
  have v1 : s1.events = s.events := by simp only [s1]; cases o.out <;> simp [whenPresent]
  obtain ⟨d2, e2⟩ := whenPresent_modifyBit s1 b off (by rw [t1.length]; exact hb) .oe rfl o.dir
  have t2 : Touches b s1 s2 := touches_whenPresent (b := b) o.dir s1 (fun s v => modifyBit s b .oe (bitAt off) v) (fun v => touches_modifyBit b _ _ _ _)
  have v2 : s2.events = s1.events := by simp only [s2]; cases o.dir <;> simp [whenPresent]
  obtain ⟨d3, e3⟩ := whenPresent_modifyBit s2 b off (by rw [t2.length, t1.length]; exact hb) .owner rfl o.own
  have t3 : Touches b s2 s3 := touches_whenPresent (b := b) o.own s2 (fun s v => modifyBit s b .owner (bitAt off) v) (fun v => touches_modifyBit b _ _ _ _)
  have v3 : s3.events = s2.events := by simp only [s3]; cases o.own <;> simp [whenPresent]
  change Bank.PinsOnly _ (s1.bank b) at e1
  change Bank.PinsOnly _ (s2.bank b) at e2
  change Bank.PinsOnly _ (s3.bank b) at e3
  have g1 := sets_regrouped (s.bank b) off (s.bank b).out d1 o.out h32 hw
  have g2 := sets_regrouped (s1.bank b) off (s1.bank b).oe d2 o.dir h32 (by rw [t1.width]; exact hw)
  have g3 := sets_regrouped (s2.bank b) off (s2.bank b).owner d3 o.own h32 (by rw [t2.width, t1.width]; exact hw)
  have q1 := e1.same
  have q2 := e2.same
  have q3 := e3.same
  simp only [Bank.written, Bank.content] at q1 q2 q3
  refine ⟨?_, v3.trans (v2.trans v1), t1.trans (t2.trans t3)⟩
  generalize s3.bank b = k3 at *
  generalize s2.bank b = k2 at *
  generalize s1.bank b = k1 at *
  rw [q1] at q2 g2
  rw [q2] at q3 g3
  constructor
  · rw [q3]
  · rw [q3]; exact g1
  · rw [q3]; exact g2
  · rw [q3]; exact g3

/-- The trigger group, present or absent (40_pin_config.md R137). -/
structure TriggerEffect (o : Option Trigger) (off : Nat) (k k' : Bank) : Prop where
  same : k' = { k with intEdge := k'.intEdge, intPos := k'.intPos, be := k'.be, pad := k'.pad, intStatus := k'.intStatus }
  some : ∀ g, o = some g → k'.intEdge.getLsbD off = triggerEdge g ∧ k'.be.getLsbD off = (g == .edgeBoth) ∧
    ∀ rising, triggerPolarity g = Option.some rising → k'.intPos.getLsbD off = rising
  none : o = none → k'.intEdge = k.intEdge ∧ k'.be = k.be ∧ k'.intPos = k.intPos

/-- `t` has the events of `s` and logs of the both-edge machine of bank `b` after them. -/
def Logs (b : Nat) (s t : State) : Prop :=
  ∃ logs : List Event, t.events = s.events ++ logs ∧ ∀ e ∈ logs, ∃ v1 v2, e = .convergenceBound b v1 v2

theorem Logs.refl {b s} {t : State} (h : t.events = s.events) : Logs b s t := ⟨[], by simp [h], by simp⟩
theorem Logs.trans {b s t u} (h1 : Logs b s t) (h2 : Logs b t u) : Logs b s u := by
  obtain ⟨l1, e1, f1⟩ := h1
  obtain ⟨l2, e2, f2⟩ := h2
  refine ⟨l1 ++ l2, by rw [e2, e1]; simp, ?_⟩
  intro e he
  rcases List.mem_append.1 he with h | h
  · exact f1 e h
  · exact f2 e h

theorem triggerGroup_effect (s : State) (b off : Nat) (o : Option Trigger) (hb : b < s.banks.length) (h32 : off < 32) (hw : off < (s.bank b).width) :
    let t := whenPresent o s fun s t => triggerGroup s b (bitAt off) t
    TriggerEffect o off (s.bank b) (t.bank b) ∧ Logs b s t := by
  cases o with
  | none => exact ⟨⟨rfl, nofun, fun _ => ⟨rfl, rfl, rfl⟩⟩, Logs.refl rfl⟩
  | some g =>
    simp only [whenPresent]
    cases hg : triggerPolarity g with
    | none =>
      obtain ⟨d, u, e1, e2, e3, e4, e5⟩ := triggerGroup_both (s := s) (b := b) (off := off) hb g hg
      have be := bothEdge_bank (s := u) (b := b) (by rw [e2]; exact hb)
      rw [e5]
      have q1 := e1.same
      have q2 := be.1.same
      refine ⟨?_, (Logs.refl e3).trans be.2.2⟩
      generalize (bothEdge u b).bank b = k2 at *
      generalize u.bank b = k1 at *
      rw [q1] at q2
      constructor
      · rw [q2]
      · rintro g' h; cases h
        have ge : g = .edgeBoth := by cases g <;> first | rfl | cases hg
        subst ge
        rw [q2]
        refine ⟨?_, ?_, ?_⟩
        · change BitVec.getLsbD (regrouped _ _ _ _ _) _ = _
          rw [getLsbD_regrouped _ _ _ _ _ _ h32 hw]; simp
        · simp [h32, -BitVec.getLsbD_eq_getElem]
        · nofun
      · nofun
    | some r =>
      obtain ⟨d1, d2, e, ev⟩ := triggerGroup_one (s := s) (b := b) (off := off) hb g r hg
      refine ⟨?_, Logs.refl ev⟩
      have q := e.same
      generalize (triggerGroup s b (bitAt off) g).bank b = k1 at *
      constructor
      · rw [q]
      · rintro g' h; cases h
        rw [q]
        refine ⟨?_, ?_, ?_⟩
        · change BitVec.getLsbD (regrouped _ _ _ _ _) _ = _
          rw [getLsbD_regrouped _ _ _ _ _ _ h32 hw]; simp
        · cases g <;> first | cases hg; done | simp [h32, -BitVec.getLsbD_eq_getElem]
        · intro r' hr'
          change BitVec.getLsbD (regrouped _ _ _ _ _) _ = _
          rw [getLsbD_regrouped _ _ _ _ _ _ h32 hw]
          rw [hg] at hr'; cases hr'; simp
      · nofun

/-- The interrupt-enable group, present or absent (40_pin_config.md R138). -/
structure EnableGroupEffect (o : Option Bool) (off : Nat) (k k' : Bank) : Prop where
  same : k' = { k with intEn := k'.intEn, intPos := k'.intPos, en0 := k'.en0, shadow := k'.shadow, pad := k'.pad, intStatus := k'.intStatus }
  some : ∀ v, o = some v → k'.en0.getLsbD off = v ∧ k'.intEn = k'.en0
  drop : o = Option.some false → k'.shadow = k.shadow &&& ~~~bitAt off
  on : o = Option.some true → (k.intEdge.getLsbD off = true → k'.shadow = k.shadow) ∧ (k.intEdge.getLsbD off = false → k'.shadow.getLsbD off = false)
  none : o = Option.none → k'.en0 = k.en0 ∧ k'.intEn = k.intEn ∧ k'.shadow = k.shadow
  pos : (o ≠ Option.some true ∨ k.intEdge.getLsbD off = true) → k'.intPos = k.intPos
  others : ∀ i, i < k.width → i < 32 → k.be.getLsbD i = false → k'.intPos.getLsbD i = k.intPos.getLsbD i

theorem enableGroup_effect (s : State) (b off : Nat) (o : Option Bool) (hb : b < s.banks.length) (h32 : off < 32) (hw : off < (s.bank b).width) :
    let t := whenPresent o s fun s v => enableGroup s b off v
    EnableGroupEffect o off (s.bank b) (t.bank b) ∧ Logs b s t := by
  cases o with
  | none => exact ⟨⟨rfl, nofun, nofun, nofun, fun _ => ⟨rfl, rfl, rfl⟩, fun _ => rfl, fun _ _ _ _ => rfl⟩, Logs.refl rfl⟩
  | some v =>
    cases v with
    | false =>
      have q := (maskBody_bank (s := s) off hb).same
      refine ⟨?_, Logs.refl (maskBody_events s b off)⟩
      simp only [whenPresent, enableGroup, Bool.false_eq_true, if_false]
      generalize (maskBody s b off).bank b = k1 at *
      constructor
      · rw [q]
      · rintro v h; cases h; rw [q]; simp [h32, -BitVec.getLsbD_eq_getElem]
      · intro _; rw [q]
      · nofun
      · nofun
      · intro _; rw [q]
      · intro i _ _ _; rw [q]
    | true =>
      simp only [whenPresent, enableGroup, if_true]
      cases he : (s.bank b).intEdge.getLsbD off with
      | true =>
        obtain ⟨e, ev⟩ := unmaskBody_edge hb hw he
        refine ⟨?_, Logs.refl ev⟩
        have q := e.same
        generalize (unmaskBody s b off).bank b = k1 at *
        constructor
        · rw [q]
        · rintro v h; cases h; rw [q]; simp [h32, -BitVec.getLsbD_eq_getElem]
        · nofun
        · intro _; rw [q]; exact ⟨fun _ => rfl, fun h => by rw [he] at h; cases h⟩
        · nofun
        · intro _; rw [q]
        · intro i _ _ _; rw [q]
      | false =>
        obtain ⟨u, cu, lu, pu, ev⟩ := unmaskBody_level hb hw he
        refine ⟨?_, (Logs.refl rfl : Logs b s (regRead s b .intEdge).2).trans (Logs.trans cu.events (Logs.refl ev))⟩
        have h0 : (s.bank b).PinsOnly ((regRead s b .intEdge).2.bank b) := access_pinsOnly s b
        have qc := cu.bank
        have oc := cu.others
        have cl := cu.cleared
        have q0 := h0.same
        have q := pu.same
        generalize (unmaskBody s b off).bank b = k1 at *
        generalize u.bank b = k2 at *
        generalize (regRead s b .intEdge).2.bank b = k3 at *
        rw [q0] at qc oc
        rw [qc] at q
        constructor
        · rw [q]
        · rintro v h; cases h; rw [q]; simp [h32, -BitVec.getLsbD_eq_getElem]
        · nofun
        · intro _; rw [q]; exact ⟨fun h => (by rw [he] at h; cases h), fun _ => cl⟩
        · nofun
        · rintro (h | h)
          · exact absurd rfl h
          · rw [he] at h; exact absurd h (by decide)
        · intro i hi h hb; rw [q]; exact oc i h hi hb

/-! ### The logs of a body -/

theorem logs_trigger (s : State) (b off : Nat) (g : Trigger) (hb : b < s.banks.length) : Logs b s (triggerGroup s b (bitAt off) g) := by
  cases hg : triggerPolarity g with
  | none =>
    obtain ⟨d, u, e1, e2, e3, e4, e5⟩ := triggerGroup_both (s := s) (b := b) (off := off) hb g hg
    rw [e5]
    exact (Logs.refl e3).trans (bothEdge_bank (s := u) (b := b) (by rw [e2]; exact hb)).2.2
  | some r =>
    obtain ⟨d1, d2, e, ev⟩ := triggerGroup_one (s := s) (b := b) (off := off) hb g r hg
    exact Logs.refl ev

theorem logs_unmask (s : State) (b off : Nat) (hb : b < s.banks.length) (hw : off < (s.bank b).width) : Logs b s (unmaskBody s b off) := by
  cases he : (s.bank b).intEdge.getLsbD off with
  | true => exact Logs.refl (unmaskBody_edge hb hw he).2
  | false =>
    obtain ⟨u, cu, lu, pu, ev⟩ := unmaskBody_level hb hw he
    exact (Logs.refl rfl : Logs b s (regRead s b .intEdge).2).trans (Logs.trans cu.events (Logs.refl ev))

theorem logs_configure (o : Options) (s : State) (b off : Nat) (hb : b < s.banks.length) (hw : off < (s.bank b).width) :
    Logs b s (configureBody o s b off) ∧ ((configureBody o s b off).events ≠ s.events → o.trig.isSome = true ∨ o.int = some true) := by
  unfold configureBody
  simp only
  have v1 : (whenPresent o.out s (fun s v => outputGroup s b (bitAt off) v)).events = s.events := by cases o.out <;> simp [whenPresent, outputGroup]
  have t1 := touches_whenPresent (b := b) o.out s (fun s v => outputGroup s b (bitAt off) v) (fun v => touches_modifyBit b _ _ _ _)
  generalize whenPresent o.out s (fun s v => outputGroup s b (bitAt off) v) = s1 at *
  have v2 : (whenPresent o.dir s1 (fun s v => directionGroup s b (bitAt off) v)).events = s1.events := by cases o.dir <;> simp [whenPresent, directionGroup]
  have t2 := touches_whenPresent (b := b) o.dir s1 (fun s v => directionGroup s b (bitAt off) v) (fun v => touches_modifyBit b _ _ _ _)
  generalize whenPresent o.dir s1 (fun s v => directionGroup s b (bitAt off) v) = s2 at *
  have v3 : (whenPresent o.own s2 (fun s v => ownerGroup s b (bitAt off) v)).events = s2.events := by cases o.own <;> simp [whenPresent, ownerGroup]
  have t3 := touches_whenPresent (b := b) o.own s2 (fun s v => ownerGroup s b (bitAt off) v) (fun v => touches_modifyBit b _ _ _ _)
  generalize whenPresent o.own s2 (fun s v => ownerGroup s b (bitAt off) v) = s3 at *
  have tt := t1.trans (t2.trans t3)
  have e3 : s3.events = s.events := v3.trans (v2.trans v1)
  have l4 : Logs b s (whenPresent o.trig s3 fun s t => triggerGroup s b (bitAt off) t) := by
    cases o.trig with
    | none => exact Logs.refl e3
    | some g => exact (Logs.refl e3).trans (logs_trigger s3 b off g (by rw [tt.length]; exact hb))
  have n4 : o.trig = none → (whenPresent o.trig s3 fun s t => triggerGroup s b (bitAt off) t).events = s.events := by intro h; rw [h]; exact e3
  have t4 := touches_whenPresent (b := b) o.trig s3 (fun s t => triggerGroup s b (bitAt off) t) fun v => touches_triggerGroup _ _ _ _
  generalize (whenPresent o.trig s3 fun s t => triggerGroup s b (bitAt off) t) = s4 at *
  have tt := tt.trans t4
  have l5 : Logs b s (whenPresent o.int s4 fun s v => enableGroup s b off v) := by
    cases o.int with
    | none => exact l4
    | some v =>
      cases v
      · exact l4.trans (Logs.refl (maskBody_events s4 b off))
      · exact l4.trans (logs_unmask s4 b off (by rw [tt.length]; exact hb) (by rw [tt.width]; exact hw))
  have n5 : o.trig = none → o.int ≠ some true → (whenPresent o.int s4 fun s v => enableGroup s b off v).events = s.events := by
    intro h h'
    cases hi : o.int with
    | none => exact n4 h
    | some v =>
      cases v
      · exact (maskBody_events s4 b off).trans (n4 h)
      · exact absurd hi h'
  generalize (whenPresent o.int s4 fun s v => enableGroup s b off v) = s5 at *
  have v6 : (whenPresent o.wake s5 fun s v => wakeBody s b off v).events = s5.events := by cases o.wake <;> rfl
  refine ⟨l5.trans (Logs.refl v6), fun h => ?_⟩
  rw [v6] at h
  by_contra hh
  push Not at hh
  refine h (n5 ?_ hh.2)
  cases ht : o.trig
  · rfl
  · rw [ht] at hh; simp at hh

/-- An access-only computation leaves events and the fault mark. -/
def Quiet (s : State) (r : Except Fault State) : Prop := ∀ t, r = .ok t → t.events = s.events ∧ t.fault = s.fault

theorem quiet_bind {s : State} {r : Except Fault State} {f : State → Except Fault State} (h : Quiet s r) (hf : ∀ t, Quiet t (f t)) : Quiet s (r >>= f) := by
  intro t e
  cases r with
  | error _ => cases e
  | ok u =>
    have h1 := h u rfl
    have h2 := hf u t e
    exact ⟨h2.1.trans h1.1, h2.2.trans h1.2⟩

theorem quiet_write (s : State) (a n v : Nat) : Quiet s (memWrite s a n v) := by
  intro t e; unfold memWrite at e; split at e
  · cases e; exact ⟨rfl, rfl⟩
  · cases e

theorem memRead_next {s : State} {a n v : Nat} {t : State} (e : memRead s a n = .ok (v, t)) : t.events = s.events ∧ t.fault = s.fault ∧ t.params = s.params := by
  unfold memRead at e; split at e
  · cases e; exact ⟨rfl, rfl, rfl⟩
  · cases e

theorem quiet_orWord (s : State) (a : Nat) (m : Word) : Quiet s (orWord s a m) := by
  intro t e
  unfold orWord at e
  cases h : memRead s a 4 with
  | error _ => rw [h] at e; cases e
  | ok p =>
    rw [h] at e
    obtain ⟨v, u⟩ := p
    have h1 := memRead_next h
    have h2 := quiet_write _ _ _ _ t e
    exact ⟨h2.1.trans h1.1, h2.2.trans h1.2.1⟩

theorem quiet_packInto (s : State) (x : BitArray) (b : Nat) (m : Word) : Quiet s (packInto s x b m) := by
  unfold packInto
  refine quiet_bind (quiet_orWord _ _ _) fun t => ?_
  split
  · exact quiet_orWord _ _ _
  · intro u e; cases e; exact ⟨rfl, rfl⟩

theorem quiet_packBank (s : State) (b : Nat) (fi : Bool) : Quiet s (packBank s b fi) := by
  unfold packBank
  refine quiet_bind (quiet_packInto _ _ _ _) fun t => ?_
  refine quiet_bind (s := t) (fun u e => quiet_packInto (regRead t b .intEdge).2 _ _ _ u e) fun t => ?_
  exact fun u e => quiet_packInto (regRead t b .intPos).2 _ _ _ u e

theorem quiet_packBanks (fi : Bool) : ∀ (bs : List Nat) (s : State), Quiet s (packBanks s fi bs)
  | [], s => fun t e => by cases e; exact ⟨rfl, rfl⟩
  | b :: bs, s => by unfold packBanks; exact quiet_bind (quiet_packBank _ _ _) fun t => quiet_packBanks fi bs t

theorem quiet_clearFields : ∀ (fs : List (Nat × Nat)) (s : State), Quiet s (clearFields s fs)
  | [], s => fun t e => by cases e; exact ⟨rfl, rfl⟩
  | (a, n) :: fs, s => by unfold clearFields; exact quiet_bind (quiet_write _ _ _ _) fun t => quiet_clearFields fs t

theorem quiet_handOff (s : State) (fi : Bool) : Quiet s (handOff s fi) := by
  unfold handOff
  split
  · exact quiet_bind (quiet_clearFields _ _) fun t => quiet_packBanks fi _ t
  · intro u e; cases e; exact ⟨rfl, rfl⟩

theorem quiet_takeReport (s : State) : Quiet s (takeReport s) := by
  intro t e
  unfold takeReport at e
  split at e
  · cases h : memRead s (s.countAddr 0) 2 with
    | error _ => rw [h] at e; cases e
    | ok p =>
      obtain ⟨v, u⟩ := p
      rw [h] at e
      simp only [bind, Except.bind] at e
      cases h2 : memRead u (s.countAddr 1) 2 with
      | error _ => rw [h2] at e; cases e
      | ok p =>
        obtain ⟨v', u'⟩ := p
        rw [h2] at e
        cases e
        have := memRead_next h
        have h3 := memRead_next h2
        exact ⟨h3.1.trans this.1, h3.2.1.trans this.2.1⟩
  · cases e; exact ⟨rfl, rfl⟩

theorem enables_quiet (fi : Bool) (bs : List Nat) (s : State) : (writeEnables s fi bs).events = s.events ∧ (writeEnables s fi bs).fault = s.fault := by
  have := (writeEnables_effect fi bs s).rest
  rw [this]; exact ⟨rfl, rfl⟩

end Sys2Proof.Machine
end

