-- ==== Sys2Proof/Laws/Keeps.lean ====
section
/-! SUPPORT. What each command body keeps of the invariant of its bank. -/

namespace Sys2Proof.Machine

/-- Masks fit, and `int_en` agrees with the active set (10_state.md R43 to R46, R48). -/
structure Bank.Good (k : Bank) : Prop where
  fit : k.MasksFit
  en  : k.intEn &&& k.wmask = k.en0

theorem Bank.MasksFit.pins {k k' : Bank} (h : k.PinsOnly k') (g : k.MasksFit) : k'.MasksFit := by
  constructor
  · rw [h.en0, h.wmask]; exact g.en0
  · rw [h.en1, h.wmask]; exact g.en1
  · rw [h.be, h.wmask]; exact g.be
  · rw [h.shadow, h.wmask]; exact g.shadow

theorem Bank.Good.pins {k k' : Bank} (h : k.PinsOnly k') (g : k.Good) : k'.Good :=
  ⟨g.fit.pins h, by rw [h.intEn, h.wmask, h.en0]; exact g.en⟩

theorem within_andNot {a m : Word} (x : Word) (h : a &&& ~~~m = 0) : (a &&& x) &&& ~~~m = 0 := by
  rw [within_iff] at *
  intro i hi
  exact h i (by simp only [BitVec.getLsbD_and, Bool.and_eq_true] at hi; exact hi.1)

theorem within_orBit {a m : Word} {off : Nat} (h : a &&& ~~~m = 0) (hm : off < 32 → m.getLsbD off = true) :
    (a ||| bitAt off) &&& ~~~m = 0 := by
  rw [within_iff] at *
  intro i hi
  simp only [BitVec.getLsbD_or, Bool.or_eq_true, getLsbD_bitAt, Bool.and_eq_true, decide_eq_true_eq] at hi
  rcases hi with hi | ⟨h1, rfl⟩
  · exact h i hi
  · exact hm h1

theorem bit_in {k : Bank} {off : Nat} (h : off < k.width) : off < 32 → k.wmask.getLsbD off = true := by
  intro h32; simp [h, h32, -BitVec.getLsbD_eq_getElem]

/-- A command body keeps what the invariant says of its bank. -/
structure BodyKeeps (b off : Nat) (s u : State) : Prop where
  touch : Touches b s u
  run   : s.beRegs = none → u.beRegs = none
  good  : b < s.banks.length → off < (s.bank b).width → (s.bank b).Good → (u.bank b).Good

theorem BodyKeeps.refl (b off : Nat) (s : State) : BodyKeeps b off s s := ⟨.refl _ _, id, fun _ _ => id⟩

theorem BodyKeeps.trans {b off : Nat} {s u v : State} (h1 : BodyKeeps b off s u) (h2 : BodyKeeps b off u v) :
    BodyKeeps b off s v :=
  ⟨h1.touch.trans h2.touch, fun h => h2.run (h1.run h),
    fun hb ho hg => h2.good (by rw [h1.touch.length]; exact hb) (by rw [h1.touch.width]; exact ho) (h1.good hb ho hg)⟩

theorem keeps_modifyBit (b off : Nat) (s : State) {r : Reg} (hr : r.stored = true) (hn : r ≠ .intEn) (v : Bool) :
    BodyKeeps b off s (modifyBit s b r (bitAt off) v) := by
  refine ⟨touches_modifyBit _ _ _ _ _, fun h => by simpa using h, fun hb _ g => ?_⟩
  obtain ⟨d, h⟩ := modifyBit_pinsOnly hb hr off v
  refine Bank.Good.pins h ?_
  cases r <;> first | exact absurd rfl hn | cases hr; done | exact ⟨⟨g.fit.en0, g.fit.en1, g.fit.be, g.fit.shadow⟩,
    g.en⟩

theorem keeps_bothEdge (b off : Nat) (s : State) : BodyKeeps b off s (bothEdge s b) :=
  ⟨touches_bothEdge b s, fun _ => bothEdge_beRegs s b, fun hb _ g =>
    Bank.Good.pins (bothEdge_bank hb).1 ⟨⟨g.fit.en0, g.fit.en1, g.fit.be, g.fit.shadow⟩, g.en⟩⟩

theorem keeps_trigger (b off : Nat) (s : State) (t : Trigger) : BodyKeeps b off s (triggerGroup s b (bitAt off) t) := by
  refine ⟨touches_triggerGroup _ _ _ _, triggerGroup_beRegs _ _ _, fun hb ho g => ?_⟩
  cases ht : triggerPolarity t
  · obtain ⟨d, u, h1, hl, _, _, e⟩ := triggerGroup_both (off := off) hb t ht
    rw [e]
    have gu : (u.bank b).Good := Bank.Good.pins h1 ⟨⟨g.fit.en0, g.fit.en1, within_orBit g.fit.be (bit_in ho),
      g.fit.shadow⟩, g.en⟩
    exact Bank.Good.pins (bothEdge_bank (by rw [hl]; exact hb)).1 ⟨⟨gu.fit.en0, gu.fit.en1, gu.fit.be, gu.fit.shadow⟩,
      gu.en⟩
  · obtain ⟨d1, d2, h, _⟩ := triggerGroup_one (off := off) hb t _ ht
    exact Bank.Good.pins h ⟨⟨g.fit.en0, g.fit.en1, within_andNot _ g.fit.be, g.fit.shadow⟩, g.en⟩

theorem keeps_mask (b off : Nat) (s : State) : BodyKeeps b off s (maskBody s b off) := by
  refine ⟨touches_maskBody _ _ _, maskBody_beRegs _ _, fun hb ho g => ?_⟩
  exact Bank.Good.pins (maskBody_bank off hb) ⟨⟨within_andNot _ g.fit.en0, g.fit.en1, g.fit.be,
    within_andNot _ g.fit.shadow⟩, and_eq_self_of_within (within_andNot _ g.fit.en0)⟩

theorem ClearEffect.fit {b off : Nat} {s t : State} (h : ClearEffect b off s t) (g : (s.bank b).MasksFit) :
    (t.bank b).MasksFit := by
  have e := h.bank
  have f := h.fits g.shadow
  constructor
  · rw [e]; exact g.en0
  · rw [e]; exact g.en1
  · rw [e]; exact g.be
  · have : (t.bank b).wmask = (s.bank b).wmask := by rw [e]; rfl
    rw [this]; exact f

theorem keeps_clear (b off : Nat) (s : State) : BodyKeeps b off s (clearDetect s b off) := by
  refine ⟨touches_clearDetect _ _ _, clearDetect_beRegs _ _, fun hb ho g => ?_⟩
  have h := clearDetect_effect off hb
  refine ⟨h.fit g.fit, ?_⟩
  rw [h.bank]; exact g.en

theorem keeps_unmask (b off : Nat) (s : State) : BodyKeeps b off s (unmaskBody s b off) := by
  refine ⟨touches_unmaskBody _ _ _, unmaskBody_beRegs _ _, fun hb ho g => ?_⟩
  have key : ∀ k : Bank, k.MasksFit → k.wmask = (s.bank b).wmask →
    ({ k with en0 := (s.bank b).en0 ||| bitAt off, intEn := (s.bank b).en0 ||| bitAt off } : Bank).Good := by
    intro k gk hw
    have h0 : ((s.bank b).en0 ||| bitAt off) &&& ~~~k.wmask = 0 := by rw [hw]; exact within_orBit g.fit.en0 (bit_in ho)
    exact ⟨⟨h0, gk.en1, gk.be, gk.shadow⟩, and_eq_self_of_within h0⟩
  cases he : (s.bank b).intEdge.getLsbD off
  · obtain ⟨u, ce, hl, h, _⟩ := unmaskBody_level hb ho he
    have g' : ((regRead s b .intEdge).2.bank b).Good := Bank.Good.pins (access_pinsOnly s b) g
    refine Bank.Good.pins h (key _ (ce.fit g'.fit) ?_)
    rw [ce.bank]; exact (access_pinsOnly s b).wmask
  · exact Bank.Good.pins (unmaskBody_edge hb ho he).1 (key _ g.fit rfl)

theorem keeps_wake (b off : Nat) (s : State) (v : Bool) : BodyKeeps b off s (wakeBody s b off v) := by
  refine ⟨touches_wakeBody _ _ _ _, id, fun hb ho g => ?_⟩
  rw [wakeBody, bank_maskUpdate_same _ hb]
  refine ⟨⟨g.fit.en0, ?_, g.fit.be, g.fit.shadow⟩, g.en⟩
  cases v
  · exact within_andNot _ g.fit.en1
  · exact within_orBit g.fit.en1 (bit_in ho)

theorem keeps_when {α : Type} {b off : Nat} {s u : State} (h : BodyKeeps b off s u) (o : Option α) (f : State → α →
    State) (hf : ∀ v, BodyKeeps b off u (f u v)) : BodyKeeps b off s (whenPresent o u f) := by
  cases o
  · exact h
  · exact h.trans (hf _)

theorem keeps_configure (o : Options) (b off : Nat) (s : State) : BodyKeeps b off s (configureBody o s b off) := by
  unfold configureBody
  refine keeps_when ?_ _ _ fun v => keeps_wake _ _ _ _
  refine keeps_when ?_ _ _ fun v => ?_
  · refine keeps_when ?_ _ _ fun v => keeps_trigger _ _ _ _
    refine keeps_when ?_ _ _ fun v => keeps_modifyBit _ _ _ rfl (by decide) _
    refine keeps_when ?_ _ _ fun v => keeps_modifyBit _ _ _ rfl (by decide) _
    refine keeps_when (.refl _ _ _) _ _ fun v => keeps_modifyBit _ _ _ rfl (by decide) _
  · cases v
    · exact keeps_mask _ _ _
    · exact keeps_unmask _ _ _

theorem tableOk_congr {p : Params} {ks ks' : List Bank} (h : ks'.map Bank.desc = ks.map Bank.desc) :
    tableOk p ks' = tableOk p ks := by
  have hp := pinCount_congr h
  have hf : (ks'.flatMap fun k => RegAddrsList k.desc.addrs) = ks.flatMap fun k => RegAddrsList k.desc.addrs := by
    have : ∀ l : List Bank, (l.flatMap fun k => RegAddrsList k.desc.addrs) = (l.map Bank.desc).flatMap fun d => RegAddrsList d.addrs := by
      intro l; rw [List.flatMap_map]
    rw [this, this, h]
  have ha : ks'.all (bankFits p) = ks.all (bankFits p) := by
    have : ∀ l : List Bank, l.all (bankFits p) = (l.map Bank.desc).all fun d => decide (d.start ≤ d.last) && decide (d.last + 1 - d.start ≤ 32) && decide (d.line < p.numLines) := by
      intro l; rw [List.all_map]; rfl
    rw [this, this, h]
  have hd : ∀ {l l' : List Bank}, l'.map Bank.desc = l.map Bank.desc → allDisjoint l' = allDisjoint l := by
    intro l
    induction l with
    | nil => intro l' h; simp at h; subst h; rfl
    | cons k l ih =>
      intro l' h
      cases l' with
      | nil => simp at h
      | cons k' l' =>
        simp only [List.map_cons, List.cons.injEq] at h
        simp only [allDisjoint, ih h.2]
        congr 1
        have : ∀ (k : Bank) (l : List Bank), l.all (rangesDisjoint k) = (l.map Bank.desc).all fun d => decide (k.desc.last < d.start) || decide (d.last < k.desc.start) := by
          intro k l; rw [List.all_map]; rfl
        rw [this, this, h.1, h.2]
  have hn : (ks' = []) ↔ (ks = []) := by
    constructor
    · rintro rfl; simpa using h.symm
    · rintro rfl; simpa using h
  simp only [tableOk, hp, hf, ha, hd h, ne_eq, hn]

end Sys2Proof.Machine
end

