-- ==== Sys2Proof/Laws/PerInstr.lean ====
section
/-! SUPPORT. Per instruction: the words an instruction encodes to match its row of the opcode table, in mask, match and
number of words (30_encoding.md R104, R112). -/

namespace Sys2Proof.Laws.RowMatch

/-- A row of the opcode table: its mask and match over the first word, and the number of its words. -/
structure Row where
  mask  : Word
  bits  : Word
  words : Nat
  deriving DecidableEq, Repr

/-- The row of each instruction, as spec/opcode_table.json has it. -/
def row : Instr → Row
  | .configure _ _ => ⟨0xFFFF0000, 0x00000000, 2⟩
  | .read _ => ⟨0xFFFF0000, 0x10000000, 1⟩
  | .write _ _ => ⟨0xF7FF0000, 0x20000000, 1⟩
  | .mask _ => ⟨0xFFFF0000, 0x30000000, 1⟩
  | .unmask _ => ⟨0xFFFF0000, 0x40000000, 1⟩
  | .ack _ => ⟨0xFFFF0000, 0x50000000, 1⟩
  | .setType _ _ => ⟨0xFFFF0000, 0x60000000, 2⟩
  | .setWake _ _ => ⟨0xF7FF0000, 0x70000000, 1⟩
  | .lineIrq _ => ⟨0xFFFF0000, 0x80000000, 1⟩
  | .enterSleep _ => ⟨0xF7FFFFFF, 0x90000000, 1⟩
  | .exitSleep => ⟨0xFFFFFFFF, 0xA0000000, 1⟩
  | .replay => ⟨0xFFFFFFFF, 0xB0000000, 1⟩

/-- The first word of the encoding meets the row's mask and match, holds the instruction's opcode, and fixes the number of
words the encoding has. -/
def Statement (i : Instr) : Prop :=
  ∃ c ws, encode i = c :: ws ∧ c &&& (row i).mask = (row i).bits ∧ opField c = Machine.opcode i ∧
    commandLength c = (row i).words ∧ (encode i).length = (row i).words

theorem configure (pin : Nat) (opts : Options) : Statement (.configure pin opts) :=
  ⟨_, _, rfl, (commandWord_masked_v0 _ _).trans rfl, opField_commandWord _ _ _,
    by rw [commandLength, opField_commandWord]; rfl, rfl⟩

theorem read (pin : Nat) : Statement (.read pin) :=
  ⟨_, _, rfl, (commandWord_masked_v0 _ _).trans rfl, opField_commandWord _ _ _,
    by rw [commandLength, opField_commandWord]; rfl, rfl⟩

theorem write (pin : Nat) (level : Bool) : Statement (.write pin level) :=
  ⟨_, _, rfl, (commandWord_masked _ _ _).trans rfl, opField_commandWord _ _ _,
    by rw [commandLength, opField_commandWord]; rfl, rfl⟩

theorem mask (irq : Nat) : Statement (.mask irq) :=
  ⟨_, _, rfl, (commandWord_masked_v0 _ _).trans rfl, opField_commandWord _ _ _,
    by rw [commandLength, opField_commandWord]; rfl, rfl⟩

theorem unmask (irq : Nat) : Statement (.unmask irq) :=
  ⟨_, _, rfl, (commandWord_masked_v0 _ _).trans rfl, opField_commandWord _ _ _,
    by rw [commandLength, opField_commandWord]; rfl, rfl⟩

theorem ack (irq : Nat) : Statement (.ack irq) :=
  ⟨_, _, rfl, (commandWord_masked_v0 _ _).trans rfl, opField_commandWord _ _ _,
    by rw [commandLength, opField_commandWord]; rfl, rfl⟩

theorem setType (irq : Nat) (trig : Trigger) : Statement (.setType irq trig) :=
  ⟨_, _, rfl, (commandWord_masked_v0 _ _).trans rfl, opField_commandWord _ _ _,
    by rw [commandLength, opField_commandWord]; rfl, rfl⟩

theorem setWake (irq : Nat) (enable : Bool) : Statement (.setWake irq enable) :=
  ⟨_, _, rfl, (commandWord_masked _ _ _).trans rfl, opField_commandWord _ _ _,
    by rw [commandLength, opField_commandWord]; rfl, rfl⟩

theorem lineIrq (line : Nat) : Statement (.lineIrq line) :=
  ⟨_, _, rfl, (commandWord_masked_v0 _ _).trans rfl, opField_commandWord _ _ _,
    by rw [commandLength, opField_commandWord]; rfl, rfl⟩

theorem enterSleep (fromIdle : Bool) : Statement (.enterSleep fromIdle) :=
  ⟨_, _, rfl, by cases fromIdle <;> rfl, opField_commandWord _ _ _,
    by rw [commandLength, opField_commandWord]; rfl, rfl⟩

theorem exitSleep : Statement .exitSleep :=
  ⟨_, _, rfl, rfl, opField_commandWord _ _ _, by rw [commandLength, opField_commandWord]; rfl, rfl⟩

theorem replay : Statement .replay :=
  ⟨_, _, rfl, rfl, opField_commandWord _ _ _, by rw [commandLength, opField_commandWord]; rfl, rfl⟩

end Sys2Proof.Laws.RowMatch
end

