-- ==== Sys2Proof/Laws/Runs.lean ====
section
/-! SUPPORT. Steps of a pass and of a replay, and runs of several steps. -/

namespace Sys2Proof.Machine

/-! ### Steps of an active pass or a running replay -/

/-- A step that goes on is the next atomic step of the pass, else of the replay. -/
theorem step_goesOn {s : State} {rest : List Input} (h : s.GoesOn rest) :
    step s = advance { s with agenda := rest } := by
  rcases h with h | ⟨h, rfl⟩
  · simp only [step, fetch, h]
  · have e : ({ s with agenda := [] } : State) = s := by rw [← h]
    rw [e]
    simp only [step, fetch, h]

/-- With a pass active the next atomic step is the pass's, whether or not a replay runs. -/
theorem advance_pass {s : State} {p : Pass} (hs : s.seq = .idle) (hp : s.pass = some p) : advance s = .next (passStep s p) := by
  simp only [advance, hs, Seq.isIdle, if_true, hp]

/-- With no pass active it is the running replay's. -/
theorem advance_replay {s : State} {c : ReplayCursor} (hs : s.seq = .idle) (hp : s.pass = none)
    (hr : s.replayRun = some c) : advance s = answer (replayStep s c) := by
  simp only [advance, hs, Seq.isIdle, if_true, hp, hr]

/-- With neither it changes nothing. -/
theorem advance_none {s : State} (hs : s.seq = .idle) (hp : s.pass = none) (hr : s.replayRun = none) :
    advance s = .next s := by
  simp only [advance, hs, Seq.isIdle, if_true, hp, hr]

/-- A faulted replay makes no step (60_exceptions.md R263). -/
theorem replayStep_faulted {s : State} {c : ReplayCursor} (h : s.fault ≠ none) : replayStep s c = .ok s := by
  unfold replayStep
  cases hf : s.fault
  · exact absurd hf h
  · rfl

/-- Nor does the block around it: the step changes nothing but the agenda. -/
theorem step_faulted {s : State} {rest : List Input} {c : ReplayCursor} (h : s.GoesOn rest) (hs : s.seq = .idle)
    (hp : s.pass = none) (hr : s.replayRun = some c) (hf : s.fault ≠ none) : step s = .next { s with agenda := rest } := by
  rw [step_goesOn h, advance_replay (s := { s with agenda := rest }) hs hp hr,
    replayStep_faulted (s := { s with agenda := rest }) hf]
  rfl

/-- The event of a fired entry as the statements name it. -/
theorem firedEvent_eq {s t : State} (hb : t.banks.map Bank.desc = s.banks.map Bank.desc) (hp : t.params = s.params)
    (p : Nat) : replayEvent t p = firedEvent s p := by
  unfold replayEvent firedEvent
  have : resolve t p = resolve s p := resolveFrom_congr _ _ _ _ hb
  rw [this, hp]
  cases h : resolve s p
  · have := (resolveFrom_none _ _ _).1 h
    rw [if_neg]
    rintro ⟨k, hk, hh⟩; exact this k hk hh
  · rename_i x
    obtain ⟨b, off⟩ := x
    have := resolve_some h
    rw [if_pos]
    exact ⟨_, bank_mem this.1, this.2.1, this.2.2.1⟩

theorem firedEvent_congr {s t : State} (hb : t.banks.map Bank.desc = s.banks.map Bank.desc) (hp : t.params = s.params)
    (p : Nat) : firedEvent t p = firedEvent s p := by
  rw [← firedEvent_eq (s := t) rfl rfl, firedEvent_eq hb hp]

/-- One entry of a running replay is handed over (44_sleep_wake.md R238). -/
theorem replayStep_entry {s : State} {g n j : Nat} (hf : s.fault = none) (hm : s.mailboxPresent = true) (hg : g < 2)
    (hj : j < n) (hn : n ≤ s.params.firedCap) : replayStep s ⟨g, n, j⟩ = .ok { s.access with
      events := s.events ++ [firedEvent s (s.field (s.firedAddr g j) 2)], replayRun := some ⟨g, n, j + 1⟩ } := by
  have q := fired_inMailbox hm hg (j := j) (by omega)
  simp only [replayStep, hf, hj, if_true, memRead_eq q, bind, Except.bind, State.emit]
  rw [firedEvent_eq (s := s) (passes_access s).descs rfl]
  rfl

/-- The start of a group: its count is read, and compared with K (60_exceptions.md R263). -/
theorem replayGroup_eq {s : State} {g : Nat} (hm : s.mailboxPresent = true) (hg : g < 2) :
    replayGroup s g = .ok { s.access with
      replayRun := some ⟨g, s.field (s.countAddr g) 2, 0⟩
      fault := if s.field (s.countAddr g) 2 > s.params.firedCap then some (.mailboxCountOverflow g (s.field (s.countAddr g) 2))
        else s.fault } := by
  have q := count_inMailbox hm hg
  simp only [replayGroup, memRead_eq q, bind, Except.bind]
  split <;> rfl

theorem run_succ (k : Nat) {s t : State} (h : step s = .next t) : Host.Core.run Sys2Proof.core
    (k + 1) s = Host.Core.run Sys2Proof.core k t := by
  have : Sys2Proof.core.step s = .next t := h
  simp only [Host.Core.run, this]

theorem run_zero (s : State) : Host.Core.run Sys2Proof.core 0 s = .next s := rfl

theorem run_append (c : Host.Core) : ∀ (n m : Nat) (s t : c.State), Host.Core.run c n s = .next t → Host.Core.run c
    (n + m) s = Host.Core.run c m t
  | 0, m, s, t, h => by simp only [Host.Core.run] at h; cases h; simp
  | n + 1, m, s, t, h => by
    rw [Nat.add_right_comm]
    simp only [Host.Core.run] at h ⊢
    split at h
    · rename_i x hx
      exact run_append c n m _ t h
    · cases h
    · cases h

theorem run_one {s t : State} (h : step s = .next t) : Host.Core.run Sys2Proof.core 1 s = .next t := run_succ 0 h


/-! ### The demultiplexer -/

theorem nextBankFrom_some : ∀ (ks : List Bank) (b0 l low b : Nat) (hb0 : b0 ≤ b) (hb : b < b0 + ks.length),
    (ks[b - b0]'(by omega)).desc.line = l → low ≤ b →
    (∀ b' (h : b' < b) (h0 : b0 ≤ b'), low ≤ b' → (ks[b' - b0]'(by omega)).desc.line ≠ l) →
      nextBankFrom b0 ks l low = some b
  | [], _, _, _, _, h0, h, _, _, _ => by simp at h; omega
  | k :: ks, b0, l, low, b, hb0, hb, hl, hlow, hno => by
    unfold nextBankFrom
    by_cases e : b = b0
    · subst e
      simp at hl
      simp [hl, hlow]
    · rw [if_neg]
      · refine nextBankFrom_some ks (b0 + 1) l low b (by omega) (by simp at hb; omega) ?_ hlow ?_
        · have : b - b0 = (b - (b0 + 1)) + 1 := by omega
          simp only [this, List.getElem_cons_succ] at hl; exact hl
        · intro b' h h0 hl'
          have := hno b' h (by omega) hl'
          have e : b' - b0 = (b' - (b0 + 1)) + 1 := by omega
          simp only [e, List.getElem_cons_succ] at this; exact this
      · rintro ⟨h1, h2⟩
        have := hno b0 (by omega) (le_refl _) h1
        simp at this; exact this h2

theorem nextBankFrom_none : ∀ (ks : List Bank) (b0 l low : Nat), (∀ i (h : i < ks.length), low ≤ b0 + i →
    ks[i].desc.line ≠ l) → nextBankFrom b0 ks l low = none
  | [], _, _, _, _ => rfl
  | k :: ks, b0, l, low, h => by
    unfold nextBankFrom
    rw [if_neg]
    · refine nextBankFrom_none ks (b0 + 1) l low fun i hi hl => ?_
      have := h (i + 1) (by simpa using hi) (by omega)
      simpa using this
    · rintro ⟨h1, h2⟩
      have := h 0 (by simp) (by omega)
      simp at this; exact this h2

theorem nextBank_some {s : State} {l low b : Nat} (hb : b < s.banks.length) (hl : (s.bank b).desc.line = l)
    (h : low ≤ b)
    (hno : ∀ b', low ≤ b' → b' < b → (s.bank b').desc.line ≠ l) : nextBank s l low = some b := by
  refine nextBankFrom_some s.banks 0 l low b (by omega) (by omega) ?_ h ?_
  · rw [bank_eq_getElem hb] at hl; exact hl
  · intro b' h' _ hl'
    have := hno b' hl' h'
    rw [bank_eq_getElem (by omega)] at this; exact this

theorem nextBank_none {s : State} {l low : Nat} (hno : ∀ b, low ≤ b → b < s.banks.length → (s.bank b).desc.line ≠ l) :
    nextBank s l low = none := by
  refine nextBankFrom_none s.banks 0 l low fun i hi hl => ?_
  have := hno i (by omega) hi
  rw [bank_eq_getElem hi] at this; exact this

theorem snapshot_eq {s : State} (l b : Nat) (hw : (s.bank b).en0 &&& ~~~(s.bank b).wmask = 0) :
    snapshot s l b = { s.access.draw.2 with pass := some ⟨l, b, ((s.access.bank b).intStatus ||| (s.bank b).shadow) &&& (s.bank b).en0⟩ } := by
  simp only [snapshot, bank_regRead, access_bank_shadow, access_bank_en0]
  have : ((regRead s b Reg.intStatus).1 ||| (s.bank b).shadow) &&& (s.bank b).en0 = ((s.access.bank b).intStatus ||| (s.bank b).shadow) &&& (s.bank b).en0 := by
    have h1 := regRead_masked s b .intStatus
    simp only [Bank.content] at h1
    rw [← and_eq_self_of_within hw]
    rw [masked_eq_iff] at h1
    apply BitVec.eq_of_getLsbD_eq
    intro i hi
    cases e : (s.bank b).wmask.getLsbD i
    · simp only [BitVec.getLsbD_and, e, Bool.and_false]
    · simp only [BitVec.getLsbD_and, BitVec.getLsbD_or, h1 i e]
  rw [this]; rfl
theorem lsb_setBits {w : Word} (h : w ≠ 0) : setBits w = lsb w :: setBits (w &&& ~~~bitAt (lsb w)) := by
  have key : ∀ (L : List Nat), L.Pairwise (· < ·) → (∀ i ∈ L, i < 32) → (∃ i ∈ L, w.getLsbD i = true) →
      L.filter (fun i => w.getLsbD i) = ((L.find? fun i => w.getLsbD i).getD 0) ::
        L.filter (fun i => (w &&& ~~~bitAt ((L.find? fun i => w.getLsbD i).getD 0)).getLsbD i) := by
    intro L
    induction L with
    | nil => intro _ _ h; simp at h
    | cons a L ih =>
      intro hp hb hx
      obtain ⟨hp1, hp2⟩ := List.pairwise_cons.1 hp
      by_cases ha : w.getLsbD a = true
      · simp only [List.find?_cons_of_pos (p := fun i => w.getLsbD i) ha,
        List.filter_cons_of_pos (p := fun i => w.getLsbD i) ha, Option.getD_some]
        congr 1
        rw [List.filter_cons_of_neg (by simp [hb a (by simp), -BitVec.getLsbD_eq_getElem])]
        apply List.filter_congr
        intro i hi
        have h1 := hp1 i hi
        have h2 := hb i (by simp [hi])
        simp [h2, show ¬ a = i by omega, -BitVec.getLsbD_eq_getElem]
      · have hx' : ∃ i ∈ L, w.getLsbD i = true := by
          obtain ⟨i, hi, h⟩ := hx
          simp only [List.mem_cons] at hi
          rcases hi with rfl | hi
          · exact absurd h ha
          · exact ⟨i, hi, h⟩
        have := ih hp2 (fun i hi => hb i (by simp [hi])) hx'
        rw [List.filter_cons_of_neg (p := fun i => w.getLsbD i) ha,
          List.find?_cons_of_neg (p := fun i => w.getLsbD i) ha, this]
        congr 1
        rw [List.filter_cons_of_neg]
        simp [ha, -BitVec.getLsbD_eq_getElem]
  have hne : ∃ i ∈ List.range 32, w.getLsbD i = true := by
    by_contra hh
    push Not at hh
    apply h
    apply BitVec.eq_of_getLsbD_eq
    intro i hi
    have := hh i (by simpa using hi)
    simpa using this
  exact key (List.range 32) List.pairwise_lt_range (by simp) hne

theorem setBits_nil {w : Word} (h : setBits w = []) : w = 0 := by
  by_contra hw
  rw [lsb_setBits hw] at h; cases h

theorem nextBankFrom_spec : ∀ (ks : List Bank) (b0 l low b : Nat), nextBankFrom b0 ks l low = some b → b0 ≤ b ∧ ∃ h :
    b - b0 < ks.length, ks[b - b0].desc.line = l
  | [], _, _, _, _, h => by cases h
  | k :: ks, b0, l, low, b, h => by
    unfold nextBankFrom at h
    split at h
    · rename_i hc
      cases h
      exact ⟨le_refl _, by simp, by simpa using hc.2⟩
    · obtain ⟨h1, h2, h3⟩ := nextBankFrom_spec ks (b0 + 1) l low b h
      have e : b - b0 = (b - (b0 + 1)) + 1 := by omega
      refine ⟨by omega, by simp; omega, ?_⟩
      simp only [e, List.getElem_cons_succ]; exact h3

theorem nextBank_spec {s : State} {l low b : Nat} (h : nextBank s l low = some b) : b < s.banks.length ∧
    (s.bank b).desc.line = l := by
  obtain ⟨_, h2, h3⟩ := nextBankFrom_spec _ _ _ _ _ h
  simp only [Nat.sub_zero] at h2 h3
  exact ⟨h2, by rw [bank_eq_getElem h2]; exact h3⟩

end Sys2Proof.Machine
end

