-- ==== Sys2Proof/Laws/Steady.lean ====
section
/-! SUPPORT. What the machine does on steady pins: accesses then leave every bank as it was, so pads never change, and status
bits change only as the register writes say. -/

namespace Sys2Proof.Machine

/-! ### One access with listed free values -/

theorem pinSteps_nil (sleep : SleepState) : ∀ (b : Nat) (ks : List Bank), pinSteps sleep [] b ks = ks
  | _, [] => rfl
  | b, k :: ks => by
    simp only [pinSteps, pinSteps_nil sleep (b + 1) ks]
    rfl

/-- An access before which the environment does nothing. -/
theorem access_quiet {s : State} {ps : List (List PinStep)} (h : s.choices.pins = [] :: ps) :
    s.access = { s with choices := { s.choices with pins := ps }, seq := s.seq.advance } := by
  simp [State.access, Choices.nextPins, h, pinSteps_nil]

theorem draw_listed {s : State} {w : Word} {ws : List Word} (h : s.choices.words = w :: ws) :
    s.draw = (w, { s with choices := { s.choices with words := ws } }) := by
  simp [State.draw, Choices.nextWord, h]

theorem regRead_quiet {s : State} {ps : List (List PinStep)} {w : Word} {ws : List Word} (b : Nat) (r : Reg)
    (h : s.choices.pins = [] :: ps) (hw : s.choices.words = w :: ws) :
    regRead s b r = (((s.bank b).content r w &&& (s.bank b).wmask) ||| (w &&& ~~~(s.bank b).wmask),
      { s with choices := { s.choices with pins := ps, words := ws }, seq := s.seq.advance }) := by
  simp only [regRead, access_quiet h]
  rw [draw_listed (w := w) (ws := ws) (by simpa using hw)]
  rfl

/-- A register write that draws, with its draw listed. -/
theorem regWrite_quiet {s : State} {ps : List (List PinStep)} {w : Word} {ws : List Word} (b : Nat) {r : Reg}
    (hr : r.draws = true) (v : Word) (h : s.choices.pins = [] :: ps) (hw : s.choices.words = w :: ws) :
    regWrite s b r v = { s with choices := { s.choices with pins := ps, words := ws }, seq := s.seq.advance }.setBank b
      fun k => k.written r v w := by
  simp only [regWrite, access_quiet h, hr, if_true]
  rw [draw_listed (w := w) (ws := ws) (by simpa using hw)]

theorem fold_read (st m w : Word) : ((st &&& m) ||| (w &&& ~~~m)) &&& m = st &&& m := by
  rw [masked_eq_iff]
  intro i hi
  have h32 := BitVec.lt_of_getLsbD hi
  simp [hi, h32, -BitVec.getLsbD_eq_getElem]

/-- Two changes of one bank are one. -/
theorem modify_modify {l : List Bank} {b : Nat} (hb : b < l.length) (f g h : Bank → Bank) (e : g (f l[b]) = h l[b]) :
    (l.modify b f).modify b g = l.modify b h := by
  apply List.ext_getElem?
  intro i
  simp only [List.getElem?_modify]
  by_cases hi : b = i
  · subst hi; simp [hb, e]
  · simp [hi]

/-! ### Relations between banks that hold on steady pins -/

/-- From `s` to `t` the environment's list is only used up from its front, and on steady pins every bank is related to
what it was. -/
structure Under (P : Bank → Bank → Prop) (s t : State) : Prop where
  uses  : t.choices.pins <:+ s.choices.pins
  banks : SteadyPins s t → ∀ b, P (s.bank b) (t.bank b)

theorem SteadyPins.split {s u t : State} (h1 : u.choices.pins <:+ s.choices.pins)
    (h2 : t.choices.pins <:+ u.choices.pins) (h : SteadyPins s t) : SteadyPins s u ∧ SteadyPins u t := by
  obtain ⟨a, ha⟩ := h1
  obtain ⟨c, hc⟩ := h2
  obtain ⟨used, e, f, ne⟩ := h
  have hu : used = a ++ c := by
    have : used ++ t.choices.pins = (a ++ c) ++ t.choices.pins := by rw [← e, ← ha, ← hc, List.append_assoc]
    exact List.append_cancel_right this
  subst hu
  refine ⟨⟨a, ha.symm, fun p hp => f p (by simp [hp]), ?_⟩, ⟨c, hc.symm, fun p hp => f p (by simp [hp]), ne⟩⟩
  rw [← hc]
  simp [ne]

theorem Under.trans {P Q R : Bank → Bank → Prop} {s u t : State} (h1 : Under P s u) (h2 : Under Q u t)
    (h : ∀ k1 k2 k3, P k1 k2 → Q k2 k3 → R k1 k3) : Under R s t :=
  ⟨h2.uses.trans h1.uses, fun hs b =>
    have ⟨a, c⟩ := hs.split h1.uses h2.uses
    h _ _ _ (h1.banks a b) (h2.banks c b)⟩

theorem Under.mono {P Q : Bank → Bank → Prop} {s t : State} (h1 : Under P s t) (h : ∀ k1 k2, P k1 k2 → Q k1 k2) :
    Under Q s t := ⟨h1.uses, fun hs b => h _ _ (h1.banks hs b)⟩

/-- A change that makes no access. -/
theorem Under.ofPins {P : Bank → Bank → Prop} {s t : State} (h : t.choices.pins = s.choices.pins)
    (hb : ∀ b, P (s.bank b) (t.bank b)) : Under P s t := ⟨by rw [h], fun _ => hb⟩

@[simp] theorem nextPins_pins (c : Choices) : c.nextPins.2.pins = c.pins.tail := by
  unfold Choices.nextPins
  cases c.pins <;> rfl

@[simp] theorem nextWord_pins (c : Choices) : c.nextWord.2.pins = c.pins := by
  unfold Choices.nextWord
  cases c.words <;> rfl

/-- An access on steady pins changes no bank. -/
theorem under_access (s : State) : Under (fun k k' => k' = k) s s.access := by
  have e : s.access.choices.pins = s.choices.pins.tail := nextPins_pins _
  refine ⟨by rw [e]; exact List.tail_suffix _, fun ⟨used, h, f, ne⟩ b => ?_⟩
  rw [e] at h ne
  cases hp : s.choices.pins with
  | nil => rw [hp] at ne; exact absurd rfl ne
  | cons p ps =>
    rw [hp] at h
    have hu : used = [p] := by
      have : used ++ ps = [p] ++ ps := by simpa using h.symm
      exact List.append_cancel_right this
    have : p = [] := f p (by simp [hu])
    subst this
    rw [access_quiet hp]
    rfl

theorem under_regRead (s : State) (b : Nat) (r : Reg) : Under (fun k k' => k' = k) s (regRead s b r).2 :=
  (under_access s).trans (Under.ofPins (t := (regRead s b r).2) (P := fun k k' => k' = k) (nextWord_pins _) fun _ => rfl)
    fun _ _ _ h1 h2 => h2.trans h1

@[simp] theorem regWrite_pins (s : State) (b : Nat) (r : Reg) (v : Word) :
    (regWrite s b r v).choices.pins = s.choices.pins.tail := by
  have h : s.access.choices.pins = s.choices.pins.tail := nextPins_pins _
  unfold regWrite
  simp only
  split
  · exact (nextWord_pins _).trans h
  · exact h

/-- Pins steady during a register write are steady before it. -/
theorem SteadyPins.regWrite {s : State} {b : Nat} {r : Reg} {v : Word}
    (h : SteadyPins s (Sys2Proof.Machine.regWrite s b r v)) : SteadyPins s s.access := by
  have e : s.access.choices.pins = (Sys2Proof.Machine.regWrite s b r v).choices.pins := by
    rw [regWrite_pins]; exact nextPins_pins _
  obtain ⟨used, h1, h2, h3⟩ := h
  exact ⟨used, by rw [e]; exact h1, h2, by rw [e]; exact h3⟩

/-- A change of one bank that makes no access. -/
theorem bank_setBank (s : State) (b b' : Nat) (f : Bank → Bank) :
    (s.setBank b f).bank b' = f (s.bank b') ∨ (s.setBank b f).bank b' = s.bank b' := by
  by_cases h : b' = b
  · by_cases hb : b < s.banks.length
    · subst h; exact .inl (bank_setBank_same f hb)
    · subst h; right; rw [bank_absent hb, bank_absent (by simpa using hb)]
  · exact .inr (bank_setBank_ne f h)

theorem under_setBank {P : Bank → Bank → Prop} (s : State) (b : Nat) (f : Bank → Bank) (hr : ∀ k, P k k)
    (hf : ∀ k, P k (f k)) : Under P s (s.setBank b f) :=
  Under.ofPins rfl fun b' => by
    rcases bank_setBank s b b' f with h | h
    · rw [h]; exact hf _
    · rw [h]; exact hr _

theorem under_maskUpdate {P : Bank → Bank → Prop} (s : State) (b : Nat) (f : Bank → Bank) (hr : ∀ k, P k k)
    (hf : ∀ k, P k (f k)) : Under P s (s.maskUpdate b f) :=
  Under.trans (under_setBank (P := P) s b f hr hf) (Under.ofPins (P := fun k k' => k' = k) rfl fun _ => rfl)
    fun _ _ _ h1 h2 => by rw [h2]; exact h1

theorem under_regWrite {P : Bank → Bank → Prop} (s : State) (b : Nat) (r : Reg) (v : Word) (hr : ∀ k, P k k)
    (hw : ∀ k d, P k (k.written r v d)) : Under P s (regWrite s b r v) := by
  unfold regWrite
  simp only
  split
  · refine (under_access s).trans (Q := P) (u := s.access) ?_ fun _ _ _ h1 h2 => by rw [← h1]; exact h2
    refine Under.trans (P := fun k k' => k' = k) (Q := P) (u := s.access.draw.2) (Under.ofPins (nextWord_pins _) fun _ => rfl) ?_
      fun _ _ _ h1 h2 => by rw [← h1]; exact h2
    exact under_setBank _ _ _ hr fun k => hw k _
  · refine (under_access s).trans (Q := P) (u := s.access) ?_ fun _ _ _ h1 h2 => by rw [← h1]; exact h2
    exact under_setBank _ _ _ hr fun k => hw k _

/-- Neither pad nor status changed, nor a trigger bit. -/
structure Bank.Still (k k' : Bank) : Prop where
  desc : k'.desc = k.desc
  pad : k'.pad = k.pad
  status : k'.intStatus = k.intStatus
  edge : k'.intEdge = k.intEdge
  pos : k'.intPos = k.intPos

theorem Bank.Still.refl (k : Bank) : k.Still k := ⟨rfl, rfl, rfl, rfl, rfl⟩
theorem Bank.Still.trans (k1 k2 k3 : Bank) (h1 : k1.Still k2) (h2 : k2.Still k3) : k1.Still k3 :=
  ⟨h2.desc.trans h1.desc, h2.pad.trans h1.pad, h2.status.trans h1.status, h2.edge.trans h1.edge, h2.pos.trans h1.pos⟩

/-- No status bit was raised and no trigger bit of a pin of the bank changed. -/
structure Bank.Calm (k k' : Bank) : Prop where
  desc : k'.desc = k.desc
  pad : k'.pad = k.pad
  status : ∀ i, k'.intStatus.getLsbD i = true → k.intStatus.getLsbD i = true
  edge : ∀ i, i < 32 → i < k.width → k'.intEdge.getLsbD i = k.intEdge.getLsbD i
  pos : ∀ i, i < 32 → i < k.width → k'.intPos.getLsbD i = k.intPos.getLsbD i

theorem Bank.Calm.refl (k : Bank) : k.Calm k := ⟨rfl, rfl, fun _ h => h, fun _ _ _ => rfl, fun _ _ _ => rfl⟩
theorem Bank.Calm.trans (k1 k2 k3 : Bank) (h1 : k1.Calm k2) (h2 : k2.Calm k3) : k1.Calm k3 := by
  have hw : k2.width = k1.width := by simp only [Bank.width, h1.desc]
  exact ⟨h2.desc.trans h1.desc, h2.pad.trans h1.pad, fun i h => h1.status i (h2.status i h),
    fun i h hi => (h2.edge i h (by rw [hw]; exact hi)).trans (h1.edge i h hi),
    fun i h hi => (h2.pos i h (by rw [hw]; exact hi)).trans (h1.pos i h hi)⟩

/-- Status bits were raised only at pins of the bank whose detection type changed; the polarity did not change. -/
structure Bank.ByEdge (k k' : Bank) : Prop where
  desc : k'.desc = k.desc
  pad : k'.pad = k.pad
  pos : ∀ i, i < 32 → i < k.width → k'.intPos.getLsbD i = k.intPos.getLsbD i
  status : ∀ i, k'.intStatus.getLsbD i = true → k.intStatus.getLsbD i = true ∨
    (i < k.width ∧ k'.intEdge.getLsbD i ≠ k.intEdge.getLsbD i)

/-- Status bits were raised only at pins of the bank whose polarity changed; the detection type did not change. -/
structure Bank.ByPos (k k' : Bank) : Prop where
  desc : k'.desc = k.desc
  pad : k'.pad = k.pad
  edge : ∀ i, i < 32 → i < k.width → k'.intEdge.getLsbD i = k.intEdge.getLsbD i
  status : ∀ i, k'.intStatus.getLsbD i = true → k.intStatus.getLsbD i = true ∨
    (i < k.width ∧ k'.intPos.getLsbD i ≠ k.intPos.getLsbD i)

/-- Status bits were raised only at pins of the bank whose trigger bits changed (60_exceptions.md R273). -/
structure Bank.ByTrigger (k k' : Bank) : Prop where
  desc : k'.desc = k.desc
  pad : k'.pad = k.pad
  status : ∀ i, k'.intStatus.getLsbD i = true → k.intStatus.getLsbD i = true ∨
    (i < k.width ∧ (k'.intEdge.getLsbD i ≠ k.intEdge.getLsbD i ∨ k'.intPos.getLsbD i ≠ k.intPos.getLsbD i))

theorem Bank.Still.calm (k k' : Bank) (h : k.Still k') : k.Calm k' :=
  ⟨h.desc, h.pad, fun i hi => by rw [← h.status]; exact hi, fun _ _ _ => by rw [h.edge], fun _ _ _ => by rw [h.pos]⟩

theorem Bank.Still.byTrigger (k k' : Bank) (h : k.Still k') : k.ByTrigger k' :=
  ⟨h.desc, h.pad, fun i hi => .inl (by rw [← h.status]; exact hi)⟩

theorem Bank.Calm.byPos (k k' : Bank) (h : k.Calm k') : k.ByPos k' :=
  ⟨h.desc, h.pad, h.edge, fun i hi => .inl (h.status i hi)⟩

theorem Bank.ByPos.byTrigger (k k' : Bank) (h : k.ByPos k') : k.ByTrigger k' :=
  ⟨h.desc, h.pad, fun i hi => (h.status i hi).imp id fun ⟨a, c⟩ => ⟨a, .inr c⟩⟩

/-- A detection type write and then a polarity write. -/
theorem Bank.ByEdge.thenPos (k1 k2 k3 : Bank) (h1 : k1.ByEdge k2) (h2 : k2.ByPos k3) : k1.ByTrigger k3 := by
  have hw : k2.width = k1.width := by simp only [Bank.width, h1.desc]
  refine ⟨h2.desc.trans h1.desc, h2.pad.trans h1.pad, fun i hi => ?_⟩
  have h32 := BitVec.lt_of_getLsbD hi
  rcases h2.status i hi with h | ⟨a, c⟩
  · rcases h1.status i h with h | ⟨a, c⟩
    · exact .inl h
    · exact .inr ⟨a, .inl (by rw [h2.edge i h32 (by rw [hw]; exact a)]; exact c)⟩
  · rw [hw] at a
    exact .inr ⟨a, .inr (by rw [← h1.pos i h32 a]; exact c)⟩

theorem Bank.Calm.thenPos (k1 k2 k3 : Bank) (h1 : k1.Calm k2) (h2 : k2.ByPos k3) : k1.ByPos k3 := by
  have hw : k2.width = k1.width := by simp only [Bank.width, h1.desc]
  refine ⟨h2.desc.trans h1.desc, h2.pad.trans h1.pad,
    fun i h hi => (h2.edge i h (by rw [hw]; exact hi)).trans (h1.edge i h hi), fun i hi => ?_⟩
  have h32 := BitVec.lt_of_getLsbD hi
  rcases h2.status i hi with h | ⟨a, c⟩
  · exact .inl (h1.status i h)
  · rw [hw] at a
    exact .inr ⟨a, by rw [← h1.pos i h32 a]; exact c⟩

theorem Bank.ByPos.thenCalm (k1 k2 k3 : Bank) (h1 : k1.ByPos k2) (h2 : k2.Calm k3) : k1.ByPos k3 := by
  have hw : k2.width = k1.width := by simp only [Bank.width, h1.desc]
  refine ⟨h2.desc.trans h1.desc, h2.pad.trans h1.pad,
    fun i h hi => (h2.edge i h (by rw [hw]; exact hi)).trans (h1.edge i h hi), fun i hi => ?_⟩
  have h32 := BitVec.lt_of_getLsbD hi
  rcases h1.status i (h2.status i hi) with h | ⟨a, c⟩
  · exact .inl h
  · exact .inr ⟨a, by rw [h2.pos i h32 (by rw [hw]; exact a)]; exact c⟩

theorem Bank.Calm.thenTrigger (k1 k2 k3 : Bank) (h1 : k1.Calm k2) (h2 : k2.ByTrigger k3) : k1.ByTrigger k3 := by
  have hw : k2.width = k1.width := by simp only [Bank.width, h1.desc]
  refine ⟨h2.desc.trans h1.desc, h2.pad.trans h1.pad, fun i hi => ?_⟩
  have h32 := BitVec.lt_of_getLsbD hi
  rcases h2.status i hi with h | ⟨a, c⟩
  · exact .inl (h1.status i h)
  · rw [hw] at a
    exact .inr ⟨a, by rw [← h1.pos i h32 a, ← h1.edge i h32 a]; exact c⟩

theorem Bank.ByTrigger.thenCalm (k1 k2 k3 : Bank) (h1 : k1.ByTrigger k2) (h2 : k2.Calm k3) : k1.ByTrigger k3 := by
  have hw : k2.width = k1.width := by simp only [Bank.width, h1.desc]
  refine ⟨h2.desc.trans h1.desc, h2.pad.trans h1.pad, fun i hi => ?_⟩
  have h32 := BitVec.lt_of_getLsbD hi
  rcases h1.status i (h2.status i hi) with h | ⟨a, c⟩
  · exact .inl h
  · exact .inr ⟨a, by rw [h2.pos i h32 (by rw [hw]; exact a), h2.edge i h32 (by rw [hw]; exact a)]; exact c⟩

/-! ### The bodies on steady pins -/

theorem still_regRead (s : State) (b : Nat) (r : Reg) : Under Bank.Still s (regRead s b r).2 :=
  (under_regRead s b r).mono fun k k' h => by rw [h]; exact .refl k

theorem calm_regRead (s : State) (b : Nat) (r : Reg) : Under Bank.Calm s (regRead s b r).2 :=
  (under_regRead s b r).mono fun k k' h => by rw [h]; exact .refl k

theorem still_regWrite (s : State) (b : Nat) {r : Reg} (hr : r.draws = false) (v : Word) :
    Under Bank.Still s (regWrite s b r v) :=
  under_regWrite s b r v .refl fun k d => by cases r <;> first | exact ⟨rfl, rfl, rfl, rfl, rfl⟩ | cases hr

theorem calm_regWrite (s : State) (b : Nat) {r : Reg} (hr : r ≠ .intEdge ∧ r ≠ .intPos) (v : Word) :
    Under Bank.Calm s (regWrite s b r v) :=
  under_regWrite s b r v .refl fun k d => by
    cases r
    case intEdge => exact absurd rfl hr.1
    case intPos => exact absurd rfl hr.2
    case intClear =>
      refine ⟨rfl, rfl, fun i h => ?_, fun _ _ _ => rfl, fun _ _ _ => rfl⟩
      simp only [Bank.written, BitVec.getLsbD_and, Bool.and_eq_true] at h
      exact h.1
    all_goals exact ⟨rfl, rfl, fun _ h => h, fun _ _ _ => rfl, fun _ _ _ => rfl⟩

theorem getLsbD_raised {k : Bank} {x y d : Word} {i : Nat}
    (h : (k.intStatus ||| (d &&& ((x ^^^ y) &&& k.wmask))).getLsbD i = true) :
    k.intStatus.getLsbD i = true ∨ (i < k.width ∧ y.getLsbD i ≠ x.getLsbD i) := by
  simp only [BitVec.getLsbD_or, BitVec.getLsbD_and, BitVec.getLsbD_xor, Bank.getLsbD_wmask, Bool.or_eq_true,
    Bool.and_eq_true, decide_eq_true_eq] at h
  rcases h with h | ⟨_, h1, _, h2⟩
  · exact .inl h
  · refine .inr ⟨h2, fun e => ?_⟩
    rw [e] at h1
    simp at h1

theorem byEdge_regWrite (s : State) (b : Nat) (v : Word) : Under Bank.ByEdge s (regWrite s b .intEdge v) :=
  under_regWrite s b _ v (fun _ => ⟨rfl, rfl, fun _ _ _ => rfl, fun _ h => .inl h⟩) fun _ _ =>
    ⟨rfl, rfl, fun _ _ _ => rfl, fun _ h => getLsbD_raised h⟩

theorem byPos_regWrite (s : State) (b : Nat) (v : Word) : Under Bank.ByPos s (regWrite s b .intPos v) :=
  under_regWrite s b _ v (fun _ => ⟨rfl, rfl, fun _ _ _ => rfl, fun _ h => .inl h⟩) fun _ _ =>
    ⟨rfl, rfl, fun _ _ _ => rfl, fun _ h => getLsbD_raised h⟩

theorem still_maskUpdate (s : State) (b : Nat) (f : Bank → Bank) (hf : ∀ k : Bank, k.Still (f k)) :
    Under Bank.Still s (s.maskUpdate b f) := under_maskUpdate s b f .refl hf

theorem calm_maskUpdate (s : State) (b : Nat) (f : Bank → Bank) (hf : ∀ k : Bank, k.Calm (f k)) :
    Under Bank.Calm s (s.maskUpdate b f) := under_maskUpdate s b f .refl hf

theorem still_modifyBit (s : State) (b : Nat) {r : Reg} (hr : r.draws = false) (bit : Word) (v : Bool) :
    Under Bank.Still s (modifyBit s b r bit v) :=
  (still_regRead s b r).trans (still_regWrite _ b hr _) Bank.Still.trans

theorem calm_modifyBit (s : State) (b : Nat) {r : Reg} (hr : r ≠ .intEdge ∧ r ≠ .intPos) (bit : Word) (v : Bool) :
    Under Bank.Calm s (modifyBit s b r bit v) :=
  (calm_regRead s b r).trans (calm_regWrite _ b hr _) Bank.Calm.trans

theorem byEdge_modifyBit (s : State) (b : Nat) (bit : Word) (v : Bool) :
    Under Bank.ByEdge s (modifyBit s b .intEdge bit v) :=
  (under_regRead s b .intEdge).trans (byEdge_regWrite _ b _) fun _ _ _ h1 h2 => by rw [← h1]; exact h2

theorem byPos_modifyBit (s : State) (b : Nat) (bit : Word) (v : Bool) :
    Under Bank.ByPos s (modifyBit s b .intPos bit v) :=
  (under_regRead s b .intPos).trans (byPos_regWrite _ b _) fun _ _ _ h1 h2 => by rw [← h1]; exact h2

theorem still_maskBody (s : State) (b off : Nat) : Under Bank.Still s (maskBody s b off) := by
  have h1 := still_maskUpdate s b (Bank.disable (bitAt off)) fun _ => ⟨rfl, rfl, rfl, rfl, rfl⟩
  have h2 := still_maskUpdate (s.maskUpdate b (Bank.disable (bitAt off))) b (Bank.dropShadow (bitAt off))
    fun _ => ⟨rfl, rfl, rfl, rfl, rfl⟩
  exact h1.trans (h2.trans (still_regWrite _ b (r := .intEn) rfl _) Bank.Still.trans) Bank.Still.trans

/-- `en[b][0]` gains the pin and is written to `int_en` (42_irq_facade.md R182, last lines). -/
theorem still_enableWrite (s : State) (b off : Nat) :
    Under Bank.Still s (regWrite (s.maskUpdate b (Bank.enable (bitAt off))) b .intEn
      ((s.maskUpdate b (Bank.enable (bitAt off))).bank b).en0) :=
  (still_maskUpdate s b (Bank.enable (bitAt off)) fun _ => ⟨rfl, rfl, rfl, rfl, rfl⟩).trans
    (still_regWrite _ b (r := .intEn) rfl _) Bank.Still.trans

/-! ### The both-edge machine on steady pins -/

/-- Every both-edge pin of the bank is armed away from its level. -/
def Bank.Settled (k : Bank) : Prop :=
  ∀ i, i < 32 → i < k.width → k.be.getLsbD i = true → k.intPos.getLsbD i = !k.pad.getLsbD i

/-- One pass: status is raised only where the polarity changed, the bank ends settled, and from a settled bank no polarity
of a pin changes. -/
theorem bothEdgePass_steady {s : State} {b : Nat} (hb : b < s.banks.length) (iter : Nat) :
    Under Bank.ByPos s (bothEdgePass s b iter) ∧
    (SteadyPins s (bothEdgePass s b iter) → ((bothEdgePass s b iter).bank b).Settled ∧
      ((s.bank b).Settled → ∀ b', (s.bank b').Calm ((bothEdgePass s b iter).bank b'))) := by
  let s1 := (regRead s b .inp).2
  let s2 := (regRead s1 b .intPos).2
  let pol := armedPolarity (s2.bank b).be (regRead s1 b .intPos).1 (regRead s b .inp).1
  let s3 := regWrite s2 b .intPos pol
  let s5 := (regRead (regRead s3 b .intStatus).2 b .inp).2
  have e : ∃ r, bothEdgePass s b iter = { s5 with beRegs := some r } := ⟨_, rfl⟩
  obtain ⟨r, e⟩ := e
  have u12 : Under (fun k k' => k' = k) s s2 :=
    (under_regRead s b .inp).trans (under_regRead s1 b .intPos) fun _ _ _ h1 h2 => h2.trans h1
  have u3 : Under Bank.ByPos s2 s3 := byPos_regWrite s2 b pol
  have u35 : Under (fun k k' => k' = k) s3 (bothEdgePass s b iter) := by
    rw [e]
    refine (under_regRead s3 b .intStatus).trans (Q := fun k k' => k' = k) (u := (regRead s3 b .intStatus).2) ?_
      fun _ _ _ h1 h2 => h2.trans h1
    exact (under_regRead _ b .inp).trans (Q := fun k k' => k' = k) (Under.ofPins rfl fun _ => rfl)
      fun _ _ _ h1 h2 => h2.trans h1
  refine ⟨u12.trans (u3.trans u35 (R := Bank.ByPos) fun _ _ _ h1 h2 => by rw [h2]; exact h1)
    fun _ _ _ h1 h2 => by rw [← h1]; exact h2, fun hs => ?_⟩
  obtain ⟨a1, a2⟩ := hs.split u12.uses (u35.uses.trans u3.uses)
  obtain ⟨a3, a4⟩ := a2.split u3.uses u35.uses
  obtain ⟨c1, c2⟩ := a1.split (under_regRead s b .inp).uses (under_regRead s1 b .intPos).uses
  have k2 := u12.banks a1
  have k5 := u35.banks a4
  have l2 : b < s2.banks.length := by simpa [s2, s1] using hb
  have k1 : ∀ b', s1.bank b' = s.bank b' := (under_regRead s b .inp).banks c1
  have hpol : ∀ i, i < 32 → i < (s.bank b).width → pol.getLsbD i =
      if (s.bank b).be.getLsbD i then !(s.bank b).pad.getLsbD i else (s.bank b).intPos.getLsbD i := by
    intro i hi hw
    have v1 := getLsbD_regRead s b .inp i hi hw
    have v2 := getLsbD_regRead s1 b .intPos i hi (by rw [k1]; exact hw)
    rw [show s.access.bank b = s.bank b from k1 b] at v1
    rw [show s1.access.bank b = s.bank b from k2 b] at v2
    simp only [pol, armedPolarity, k2 b, BitVec.getLsbD_or, BitVec.getLsbD_and, BitVec.getLsbD_not, v1, v2, hi,
      decide_true, Bool.true_and, Bank.content]
    cases (s.bank b).be.getLsbD i <;> simp [-BitVec.getLsbD_eq_getElem]
  obtain ⟨d, k3⟩ : ∃ d, s3.bank b = (s.bank b).written .intPos pol d := by
    refine ⟨writeDraw s2 .intPos, ?_⟩
    have := bank_regWrite_same l2 .intPos pol
    have ua : Under (fun k k' => k' = k) s2 s2.access := under_access s2
    have hd : s3.choices.pins = s2.choices.pins.tail := by
      simp only [s3, regWrite, Reg.draws, if_true, State.setBank, State.draw, nextWord_pins]
      exact nextPins_pins _
    have hx : SteadyPins s2 s2.access := a3.regWrite
    have q := ua.banks hx b
    rw [q, k2 b] at this
    exact this
  constructor
  · intro i hi hw hbe
    rw [k5 b, k3] at *
    rw [show ((s.bank b).written .intPos pol d).intPos = pol from rfl, hpol i hi hw]
    rw [show (s.bank b).be.getLsbD i = true from hbe]
    rfl
  · intro hset b'
    rw [k5 b']
    by_cases hne : b' = b
    · subst hne
      rw [k3]
      have hsame : ∀ i, i < 32 → i < (s.bank b').width → pol.getLsbD i = (s.bank b').intPos.getLsbD i := by
        intro i hi hw
        rw [hpol i hi hw]
        split
        · rename_i h; exact (hset i hi hw h).symm
        · rfl
      refine ⟨rfl, rfl, fun i h => ?_, fun _ _ _ => rfl, hsame⟩
      rcases getLsbD_raised h with h | ⟨hw, hne⟩
      · exact h
      · exact absurd (hsame i (BitVec.lt_of_getLsbD h) hw) hne
    · have ua : s3.bank b' = s2.access.bank b' := bank_regWrite_ne s2 hne .intPos pol
      have hx : SteadyPins s2 s2.access := a3.regWrite
      rw [ua, (under_access s2).banks hx b', k2 b']
      exact .refl _

/-- A change of the machine's own registers and events only. -/
theorem Under.cleared {P : Bank → Bank → Prop} {s u t : State} (h : Under P s u) (hp : t.choices.pins = u.choices.pins)
    (hb : ∀ b, t.bank b = u.bank b) : Under P s t :=
  ⟨by rw [hp]; exact h.uses, fun hs b => by
    rw [hb b]
    obtain ⟨used, h1, h2, h3⟩ := hs
    exact h.banks ⟨used, by rw [← hp]; exact h1, h2, by rw [← hp]; exact h3⟩ b⟩

theorem bothEdgeLoop_steady {b : Nat} : ∀ (left : Nat) {s : State} (iter : Nat), b < s.banks.length →
    Under Bank.ByPos s (bothEdgeLoop s b iter left) ∧
    ((s.bank b).Settled → Under Bank.Calm s (bothEdgeLoop s b iter left))
  | 0, s, iter, _ => ⟨Under.ofPins rfl fun _ => ⟨rfl, rfl, fun _ _ _ => rfl, fun _ h => .inl h⟩,
      fun _ => Under.ofPins rfl fun _ => .refl _⟩
  | left + 1, s, iter, hb => by
    obtain ⟨p1, p2⟩ := bothEdgePass_steady hb iter
    have tch := touches_bothEdgePass b s iter
    unfold bothEdgeLoop
    simp only
    generalize bothEdgePass s b iter = t at *
    have pc : (s.bank b).Settled → Under Bank.Calm s t := fun h => ⟨p1.uses, fun hs => (p2 hs).2 h⟩
    split
    · exact ⟨p1.cleared rfl fun _ => rfl, fun h => (pc h).cleared rfl fun _ => rfl⟩
    · split
      · exact ⟨p1.cleared rfl fun _ => rfl, fun h => (pc h).cleared rfl fun _ => rfl⟩
      · obtain ⟨q1, q2⟩ := bothEdgeLoop_steady left (s := t) (iter + 1) (by rw [tch.length]; exact hb)
        generalize bothEdgeLoop t b (iter + 1) left = v at *
        constructor
        · refine ⟨q1.uses.trans p1.uses, fun hs b' => ?_⟩
          obtain ⟨x, y⟩ := hs.split p1.uses q1.uses
          exact (p1.banks x b').thenCalm _ _ _ ((q2 (p2 x).1).banks y b')
        · intro h
          refine ⟨q1.uses.trans p1.uses, fun hs b' => ?_⟩
          obtain ⟨x, y⟩ := hs.split p1.uses q1.uses
          exact Bank.Calm.trans _ _ _ ((p2 x).2 h b') ((q2 (p2 x).1).banks y b')

theorem byPos_bothEdge {s : State} {b : Nat} (hb : b < s.banks.length) : Under Bank.ByPos s (bothEdge s b) :=
  (bothEdgeLoop_steady _ 0 hb).1

/-! ### ClearDetect and the bodies over it -/

theorem calm_foldShadow (st bit : Word) (k : Bank) : k.Calm (k.foldShadow st bit) :=
  ⟨rfl, rfl, fun _ h => h, fun _ _ _ => rfl, fun _ _ _ => rfl⟩

/-- ClearDetect, raising status only where the both-edge machine changed a polarity; none when the pin is not
both-edge. -/
theorem clearDetect_steady {s : State} {b : Nat} (off : Nat) (hb : b < s.banks.length) :
    Under Bank.ByPos s (clearDetect s b off) ∧
    ((s.bank b).be &&& bitAt off = 0 → Under Bank.Calm s (clearDetect s b off)) ∧
    (SteadyPins s (clearDetect s b off) → ∃ lost,
      ((s.bank b).be &&& bitAt off = 0 → (clearDetect s b off).bank b = { s.bank b with
        shadow := ((s.bank b).shadow ||| ((s.bank b).intStatus &&& (s.bank b).wmask)) &&& ~~~bitAt off
        intStatus := (s.bank b).intStatus &&& ~~~(bitAt off ||| lost) }) ∧
      (off < 32 → ((clearDetect s b off).bank b).intStatus.getLsbD off = true →
        (s.bank b).be.getLsbD off = true ∧
        ((clearDetect s b off).bank b).intPos.getLsbD off ≠ (s.bank b).intPos.getLsbD off)) := by
  let s1 := (regRead s b .intStatus).2
  let st := (regRead s b .intStatus).1
  let s2 := s1.maskUpdate b (Bank.foldShadow st (bitAt off))
  let s3 := regWrite s2 b .intClear (bitAt off)
  have e : clearDetect s b off = if (s3.bank b).be &&& bitAt off ≠ 0 then bothEdge s3 b else s3 := rfl
  have l2 : b < s2.banks.length := by simpa [s2, s1] using hb
  have l3 : b < s3.banks.length := by simpa [s3] using l2
  have u1 : Under (fun k k' => k' = k) s s1 := under_regRead s b .intStatus
  have u2 : Under Bank.Calm s1 s2 := calm_maskUpdate s1 b _ (calm_foldShadow _ _)
  have u3 : Under Bank.Calm s2 s3 := calm_regWrite s2 b (by decide) _
  have u13 : Under Bank.Calm s s3 :=
    u1.trans (u2.trans u3 Bank.Calm.trans) fun _ _ _ h1 h2 => by rw [← h1]; exact h2
  have hbe : (s3.bank b).be = (s.bank b).be := by
    rw [bank_regWrite_same l2]
    change (s2.access.bank b).be = _
    rw [access_bank_be, bank_maskUpdate_same _ (by simpa [s1] using hb)]
    change (s1.bank b).be = _
    exact access_bank_be s b
  have ub : Under Bank.ByPos s3 (bothEdge s3 b) := byPos_bothEdge l3
  have core : SteadyPins s s3 → ∃ lost, s3.bank b = { s.bank b with
        shadow := ((s.bank b).shadow ||| ((s.bank b).intStatus &&& (s.bank b).wmask)) &&& ~~~bitAt off
        intStatus := (s.bank b).intStatus &&& ~~~(bitAt off ||| lost) } := by
    intro hs
    obtain ⟨a1, a2⟩ := hs.split u1.uses (u3.uses.trans u2.uses)
    obtain ⟨_, a3⟩ := a2.split u2.uses u3.uses
    have k1 : s1.bank b = s.bank b := u1.banks a1 b
    refine ⟨writeDraw s2 .intClear, ?_⟩
    have hx : SteadyPins s2 s2.access := a3.regWrite
    rw [bank_regWrite_same l2, (under_access s2).banks hx b, bank_maskUpdate_same _ (by simpa [s1] using hb), k1]
    have hst : st &&& (s.bank b).wmask = (s.bank b).intStatus &&& (s.bank b).wmask := by
      have := regRead_masked s b .intStatus
      rw [show s.access.bank b = s.bank b from k1] at this
      exact this
    simp only [Bank.written, Bank.foldShadow, hst]
  rw [e]
  by_cases hz : (s3.bank b).be &&& bitAt off ≠ 0
  · rw [if_pos hz]
    refine ⟨u13.trans ub Bank.Calm.thenPos, fun h => absurd (by rw [hbe]; exact h) hz, fun hs => ?_⟩
    obtain ⟨x, y⟩ := hs.split u13.uses ub.uses
    obtain ⟨lost, k3⟩ := core x
    refine ⟨lost, fun h => absurd (by rw [hbe]; exact h) hz, fun h32 h => ?_⟩
    have hby := ub.banks y b
    constructor
    · by_contra hc
      apply hz
      rw [hbe]
      apply BitVec.eq_of_getLsbD_eq
      intro i hi
      simp only [BitVec.getLsbD_and, getLsbD_bitAt, hi, decide_true, Bool.true_and]
      by_cases hio : off = i
      · subst hio; simp only [Bool.not_eq_true] at hc; simp [hc, -BitVec.getLsbD_eq_getElem]
      · simp [hio]
    · rcases hby.status off h with h | ⟨_, h⟩
      · rw [k3] at h
        simp [h32, -BitVec.getLsbD_eq_getElem] at h
      · rw [k3] at h; exact h
  · rw [if_neg hz]
    refine ⟨u13.mono Bank.Calm.byPos, fun _ => u13, fun hs => ?_⟩
    obtain ⟨lost, k3⟩ := core hs
    refine ⟨lost, fun _ => k3, fun h32 h => ?_⟩
    rw [k3] at h
    simp [h32, -BitVec.getLsbD_eq_getElem] at h

/-- UnmaskBody: an edge pin loses nothing; a level pin runs ClearDetect; the enable write then changes no status. -/
theorem unmaskBody_steady {s : State} {b off : Nat} (hb : b < s.banks.length) (h32 : off < 32)
    (hw : off < (s.bank b).width) :
    Under Bank.ByPos s (unmaskBody s b off) ∧
    ((s.bank b).intEdge.getLsbD off = true → Under Bank.Still s (unmaskBody s b off)) ∧
    ((s.bank b).be &&& bitAt off = 0 → Under Bank.Calm s (unmaskBody s b off)) ∧
    ((s.bank b).intEdge.getLsbD off = false → SteadyPins s (unmaskBody s b off) →
      (((unmaskBody s b off).bank b).intStatus.getLsbD off = true → (s.bank b).be.getLsbD off = true ∧
        ((unmaskBody s b off).bank b).intPos.getLsbD off ≠ (s.bank b).intPos.getLsbD off) ∧
      ((s.bank b).be &&& bitAt off = 0 → ∃ lost,
        ((unmaskBody s b off).bank b).intStatus = (s.bank b).intStatus &&& ~~~(bitAt off ||| lost) ∧
        ((unmaskBody s b off).bank b).shadow =
          ((s.bank b).shadow ||| ((s.bank b).intStatus &&& (s.bank b).wmask)) &&& ~~~bitAt off)) := by
  let s1 := (regRead s b .intEdge).2
  have u1 : Under (fun k k' => k' = k) s s1 := under_regRead s b .intEdge
  have hr : (regRead s b .intEdge).1.getLsbD off = (s.bank b).intEdge.getLsbD off := by
    rw [getLsbD_regRead s b .intEdge off h32 hw]
    exact congrArg (fun w : Word => w.getLsbD off) (access_bank_intEdge s b)
  have l1 : b < s1.banks.length := by simpa [s1] using hb
  have b1 : (s1.bank b).be = (s.bank b).be := access_bank_be s b
  cases he : (s.bank b).intEdge.getLsbD off with
  | true =>
    have e : unmaskBody s b off = regWrite (s1.maskUpdate b (Bank.enable (bitAt off))) b .intEn
        ((s1.maskUpdate b (Bank.enable (bitAt off))).bank b).en0 := by
      simp only [unmaskBody, hr, he, if_true]
      rfl
    have u : Under Bank.Still s (unmaskBody s b off) := by
      rw [e]
      exact u1.trans (still_enableWrite s1 b off) fun _ _ _ h1 h2 => by rw [← h1]; exact h2
    exact ⟨u.mono fun k k' h => Bank.Calm.byPos _ _ (Bank.Still.calm _ _ h), fun _ => u, fun _ => u.mono Bank.Still.calm, nofun⟩
  | false =>
    let s2 := clearDetect s1 b off
    have e : unmaskBody s b off = regWrite (s2.maskUpdate b (Bank.enable (bitAt off))) b .intEn
        ((s2.maskUpdate b (Bank.enable (bitAt off))).bank b).en0 := by
      simp only [unmaskBody, hr, he, Bool.false_eq_true, if_false]
      rfl
    obtain ⟨c1, c2, c3⟩ := clearDetect_steady off l1
    have l2 : b < s2.banks.length := by rw [(touches_clearDetect b s1 off).length]; exact l1
    have u3 := still_enableWrite s2 b off
    rw [← e] at u3
    have sh : ((unmaskBody s b off).bank b).shadow = (s2.bank b).shadow := by
      rw [e]; exact (enableWrite_bank off l2).shadow
    refine ⟨?_, nofun, fun h => ?_, fun _ hs => ?_⟩
    · exact u1.trans (Q := Bank.ByPos) (u := s1) (c1.trans u3 fun _ _ _ h1 h2 => Bank.ByPos.thenCalm _ _ _ h1 (Bank.Still.calm _ _ h2))
        fun _ _ _ h1 h2 => by rw [← h1]; exact h2
    · exact u1.trans (Q := Bank.Calm) (u := s1) ((c2 (by rw [b1]; exact h)).trans u3
        fun _ _ _ h1 h2 => Bank.Calm.trans _ _ _ h1 (Bank.Still.calm _ _ h2)) fun _ _ _ h1 h2 => by rw [← h1]; exact h2
    · obtain ⟨x, y⟩ := hs.split u1.uses (u3.uses.trans c1.uses)
      obtain ⟨z, w⟩ := y.split c1.uses u3.uses
      have k1 : s1.bank b = s.bank b := u1.banks x b
      have k3 := u3.banks w b
      obtain ⟨lost, d1, d2⟩ := c3 z
      rw [k1] at d1 d2
      change _ → s2.bank b = _ at d1
      refine ⟨fun h => ?_, fun h => ⟨lost, ?_, ?_⟩⟩
      · rw [k3.status] at h
        rw [k3.pos]
        exact d2 h32 h
      · rw [k3.status, d1 h]
      · rw [sh, d1 h]

/-- TriggerGroup on steady pins: it raises status only where it changed a trigger bit. -/
theorem triggerGroup_steady {s : State} {b off : Nat} (hb : b < s.banks.length) (g : Trigger) :
    Under Bank.ByTrigger s (triggerGroup s b (bitAt off) g) := by
  have u1 := byEdge_modifyBit s b (bitAt off) (triggerEdge g)
  have l1 : b < (modifyBit s b .intEdge (bitAt off) (triggerEdge g)).banks.length := by
    rw [(touches_modifyBit b s .intEdge (bitAt off) (triggerEdge g)).length]; exact hb
  unfold triggerGroup
  simp only
  generalize modifyBit s b .intEdge (bitAt off) (triggerEdge g) = u at *
  refine u1.trans (Q := Bank.ByPos) ?_ Bank.ByEdge.thenPos
  cases triggerPolarity g with
  | none =>
    have m := still_maskUpdate u b (Bank.joinBothEdge (bitAt off)) fun _ => ⟨rfl, rfl, rfl, rfl, rfl⟩
    exact m.trans (byPos_bothEdge (by simpa using l1)) fun _ _ _ h1 h2 => Bank.Calm.thenPos _ _ _ (Bank.Still.calm _ _ h1) h2
  | some rising =>
    have m := still_maskUpdate u b (Bank.leaveBothEdge (bitAt off)) fun _ => ⟨rfl, rfl, rfl, rfl, rfl⟩
    exact m.trans (byPos_modifyBit _ b _ _) fun _ _ _ h1 h2 => Bank.Calm.thenPos _ _ _ (Bank.Still.calm _ _ h1) h2

/-- The output-level, direction and ownership groups change no pad and no status. -/
theorem still_whenPresent {s : State} {b : Nat} {r : Reg} (hr : r.draws = false) (o : Option Bool) (bit : Word) :
    Under Bank.Still s (whenPresent o s fun s v => modifyBit s b r bit v) := by
  cases o with
  | none => exact Under.ofPins rfl fun _ => .refl _
  | some v => exact still_modifyBit s b hr bit v

/-! ### One run of the both-edge machine with its free values listed -/

/-- What a register read gives with the draw `d` (10_state.md R32). -/
def Bank.readAs (k : Bank) (v d : Word) : Word := (v &&& k.wmask) ||| (d &&& ~~~k.wmask)

theorem getLsbD_readAs (k : Bank) (v d : Word) (i : Nat) (h : k.wmask.getLsbD i = true) :
    (k.readAs v d).getLsbD i = v.getLsbD i := by
  have h32 := BitVec.lt_of_getLsbD h
  simp only [Bank.readAs, BitVec.getLsbD_or, BitVec.getLsbD_and, BitVec.getLsbD_not, h, h32]
  simp

/-- A pass is its five accesses. -/
theorem bothEdgePass_of {s s1 s2 s3 s4 s5 : State} {b iter : Nat} {v1 p pol st v2 : Word}
    (e1 : regRead s b .inp = (v1, s1)) (e2 : regRead s1 b .intPos = (p, s2))
    (hpol : armedPolarity (s2.bank b).be p v1 = pol) (e3 : regWrite s2 b .intPos pol = s3)
    (e4 : regRead s3 b .intStatus = (st, s4)) (e5 : regRead s4 b .inp = (v2, s5)) :
    bothEdgePass s b iter = { s5 with beRegs := some ⟨iter, v1, p, pol, st, v2⟩ } := by
  simp only [bothEdgePass, e1, e2, hpol, e3, e4, e5]

/-- The state after accesses, with what is left of the free values. -/
def State.seen (s : State) (pins : List (List PinStep)) (words : List Word) (seq : Seq) : State :=
  { s with choices := { s.choices with pins := pins, words := words }, seq := seq }

/-- One pass on steady pins, its free values listed. -/
theorem bothEdgePass_quiet {s : State} {b : Nat} (hb : b < s.banks.length) (iter : Nat) {later : List (List PinStep)}
    {d1 d2 spurious d3 d4 : Word} {words : List Word} (hpins : s.choices.pins = [] :: [] :: [] :: [] :: [] :: later)
    (hwords : s.choices.words = d1 :: d2 :: spurious :: d3 :: d4 :: words) (pol : Word)
    (hpol : armedPolarity (s.bank b).be ((s.bank b).readAs (s.bank b).intPos d2)
      ((s.bank b).readAs (s.bank b).pad d1) = pol) :
    ∃ st, bothEdgePass s b iter =
      { (s.setBank b fun k => k.written .intPos pol spurious).seen later words
          s.seq.advance.advance.advance.advance.advance with
        beRegs := some ⟨iter, (s.bank b).readAs (s.bank b).pad d1, (s.bank b).readAs (s.bank b).intPos d2, pol, st,
          (s.bank b).readAs (s.bank b).pad d4⟩ } := by
  obtain ⟨u, hu⟩ : ∃ u, u = s.setBank b fun k => k.written .intPos pol spurious := ⟨_, rfl⟩
  have bu : u.bank b = (s.bank b).written .intPos pol spurious := by rw [hu]; exact bank_setBank_same _ hb
  have e1 : regRead s b .inp = ((s.bank b).readAs (s.bank b).pad d1,
      s.seen ([] :: [] :: [] :: [] :: later) (d2 :: spurious :: d3 :: d4 :: words) s.seq.advance) :=
    regRead_quiet b .inp hpins hwords
  have e2 : regRead (s.seen ([] :: [] :: [] :: [] :: later) (d2 :: spurious :: d3 :: d4 :: words) s.seq.advance) b
      .intPos = ((s.bank b).readAs (s.bank b).intPos d2,
        s.seen ([] :: [] :: [] :: later) (spurious :: d3 :: d4 :: words) s.seq.advance.advance) :=
    regRead_quiet b .intPos rfl rfl
  have e3 : regWrite (s.seen ([] :: [] :: [] :: later) (spurious :: d3 :: d4 :: words) s.seq.advance.advance) b .intPos
      pol = u.seen ([] :: [] :: later) (d3 :: d4 :: words) s.seq.advance.advance.advance := by
    rw [hu]; exact regWrite_quiet b (r := .intPos) rfl pol rfl rfl
  have e4 : regRead (u.seen ([] :: [] :: later) (d3 :: d4 :: words) s.seq.advance.advance.advance) b .intStatus =
      ((u.bank b).readAs (u.bank b).intStatus d3,
        u.seen ([] :: later) (d4 :: words) s.seq.advance.advance.advance.advance) := regRead_quiet b .intStatus rfl rfl
  have e5 : regRead (u.seen ([] :: later) (d4 :: words) s.seq.advance.advance.advance.advance) b .inp =
      ((u.bank b).readAs (u.bank b).pad d4, u.seen later words s.seq.advance.advance.advance.advance.advance) :=
    regRead_quiet b .inp rfl rfl
  have v5 : (u.bank b).readAs (u.bank b).pad d4 = (s.bank b).readAs (s.bank b).pad d4 := by rw [bu]; rfl
  rw [v5] at e5
  rw [← hu]
  exact ⟨_, bothEdgePass_of e1 e2 hpol e3 e4 e5⟩

theorem bothEdgeStable_of {be : Word} {r : BothEdgeRegs}
    (h : ∀ i, be.getLsbD i = true → r.v1.getLsbD i = r.v2.getLsbD i) : bothEdgeStable be r = true := by
  unfold bothEdgeStable
  rw [decide_eq_true_eq]
  apply BitVec.eq_of_getLsbD_eq
  intro i hi
  simp only [BitVec.getLsbD_and, BitVec.getLsbD_xor]
  cases hq : be.getLsbD i
  · simp
  · rw [h i hq]; simp

/-- On steady pins one pass is made, which rewrites `int_pos` and may raise status at the bits it changes. -/
theorem bothEdge_quiet {s : State} {b : Nat} (hb : b < s.banks.length) (hr : s.beRegs = none)
    (hp : 1 ≤ s.params.beMaxPasses) (hf : (s.bank b).be &&& ~~~(s.bank b).wmask = 0) {later : List (List PinStep)}
    {d1 d2 spurious d3 d4 : Word} {words : List Word} (hpins : s.choices.pins = [] :: [] :: [] :: [] :: [] :: later)
    (hwords : s.choices.words = d1 :: d2 :: spurious :: d3 :: d4 :: words) (pol : Word)
    (hpol : armedPolarity (s.bank b).be ((s.bank b).readAs (s.bank b).intPos d2)
      ((s.bank b).readAs (s.bank b).pad d1) = pol) :
    bothEdge s b = (s.setBank b fun k => k.written .intPos pol spurious).seen later words
      s.seq.advance.advance.advance.advance.advance := by
  obtain ⟨st, e⟩ := bothEdgePass_quiet hb 0 hpins hwords pol hpol
  obtain ⟨n, hn⟩ : ∃ n, s.params.beMaxPasses = n + 1 := ⟨s.params.beMaxPasses - 1, by omega⟩
  have hbe : ((bothEdgePass s b 0).bank b).be = (s.bank b).be := by
    rw [e]
    change ((s.setBank b fun k => k.written .intPos pol spurious).bank b).be = _
    rw [bank_setBank_same _ hb]
    rfl
  have hst : bothEdgeStable ((bothEdgePass s b 0).bank b).be ((bothEdgePass s b 0).beRegs.getD default) = true := by
    rw [hbe, e]
    refine bothEdgeStable_of fun i hi => ?_
    have hm := (within_iff _ _).1 hf i hi
    exact (getLsbD_readAs _ _ _ i hm).trans (getLsbD_readAs _ _ _ i hm).symm
  unfold bothEdge
  rw [hn]
  unfold bothEdgeLoop
  simp only
  rw [if_pos hst, e]
  simp only [State.seen, State.setBank, hr]

end Sys2Proof.Machine
end

