-- ==== Sys2Proof/Laws/SteadyCommands.lean ====
section
/-! SUPPORT. What each command body, each step of a pass or a replay and each agent does on steady pins. -/

namespace Sys2Proof.Machine

/-- A change that neither makes an access nor touches a bank. -/
theorem still_pins {s t : State} (h : t.choices.pins = s.choices.pins) (hb : t.banks = s.banks) :
    Under Bank.Still s t :=
  Under.ofPins h fun b => by rw [bank_congr hb]; exact .refl _

theorem and_bitAt_of_not {w : Word} {off : Nat} (h : w.getLsbD off = false) : w &&& bitAt off = 0 := by
  apply BitVec.eq_of_getLsbD_eq
  intro i hi
  simp only [BitVec.getLsbD_and, getLsbD_bitAt, hi, decide_true, Bool.true_and]
  by_cases hio : off = i
  · subst hio; simp [h, -BitVec.getLsbD_eq_getElem]
  · simp [hio]

theorem bitAt_high {off : Nat} (h : ¬ off < 32) : bitAt off = 0 := by
  apply BitVec.eq_of_getLsbD_eq
  intro i hi
  rw [getLsbD_bitAt]
  simp; omega

/-! ### Composition with a change of neither pad nor status -/

theorem Under.byPos_still {s t u : State} (h1 : Under Bank.ByPos s t) (h2 : Under Bank.Still t u) :
    Under Bank.ByPos s u := h1.trans h2 fun _ _ _ a c => Bank.ByPos.thenCalm _ _ _ a (Bank.Still.calm _ _ c)

theorem Under.calm_still {s t u : State} (h1 : Under Bank.Calm s t) (h2 : Under Bank.Still t u) :
    Under Bank.Calm s u := h1.trans h2 fun _ _ _ a c => Bank.Calm.trans _ _ _ a (Bank.Still.calm _ _ c)

theorem Under.byTrigger_still {s t u : State} (h1 : Under Bank.ByTrigger s t) (h2 : Under Bank.Still t u) :
    Under Bank.ByTrigger s u := h1.trans h2 fun _ _ _ a c => Bank.ByTrigger.thenCalm _ _ _ a (Bank.Still.calm _ _ c)

theorem Under.still_byTrigger {s t u : State} (h1 : Under Bank.Still s t) (h2 : Under Bank.ByTrigger t u) :
    Under Bank.ByTrigger s u := h1.trans h2 fun _ _ _ a c => Bank.Calm.thenTrigger _ _ _ (Bank.Still.calm _ _ a) c

theorem Under.still {s t u : State} (h1 : Under Bank.Still s t) (h2 : Under Bank.Still t u) : Under Bank.Still s u :=
  h1.trans h2 Bank.Still.trans

theorem Under.stillTrigger {s t : State} (h : Under Bank.Still s t) : Under Bank.ByTrigger s t :=
  h.mono Bank.Still.byTrigger

theorem Under.stillCalm {s t : State} (h : Under Bank.Still s t) : Under Bank.Calm s t := h.mono Bank.Still.calm

/-! ### The option groups of a CONFIGURE -/

/-- The output-level, direction and ownership groups of a CONFIGURE (40_pin_config.md R135, R136). -/
abbrev outputsApplied (o : Options) (s : State) (b off : Nat) : State :=
  whenPresent o.own
    (whenPresent o.dir (whenPresent o.out s fun s v => modifyBit s b .out (bitAt off) v)
      fun s v => modifyBit s b .oe (bitAt off) v)
    fun s v => modifyBit s b .owner (bitAt off) v

abbrev triggerApplied (o : Options) (s : State) (b off : Nat) : State :=
  whenPresent o.trig s fun s t => triggerGroup s b (bitAt off) t

abbrev enableApplied (o : Options) (s : State) (b off : Nat) : State :=
  whenPresent o.int s fun s v => enableGroup s b off v

abbrev wakeApplied (o : Options) (s : State) (b off : Nat) : State := whenPresent o.wake s fun s v => wakeBody s b off v

theorem configureBody_groups (o : Options) (s : State) (b off : Nat) :
    configureBody o s b off =
      wakeApplied o (enableApplied o (triggerApplied o (outputsApplied o s b off) b off) b off) b off := rfl

theorem still_outputs (o : Options) (s : State) (b off : Nat) : Under Bank.Still s (outputsApplied o s b off) :=
  ((still_whenPresent rfl o.out (bitAt off)).still (still_whenPresent rfl o.dir (bitAt off))).still
    (still_whenPresent rfl o.own (bitAt off))

theorem byTrigger_triggerGroup (o : Options) {s : State} {b : Nat} (off : Nat) (hb : b < s.banks.length) :
    Under Bank.ByTrigger s (triggerApplied o s b off) := by
  unfold triggerApplied
  cases o.trig with
  | none => exact (still_pins rfl rfl).stillTrigger
  | some g => exact triggerGroup_steady hb g

theorem still_wakeGroup (o : Options) (s : State) (b off : Nat) : Under Bank.Still s (wakeApplied o s b off) := by
  unfold wakeApplied
  cases o.wake with
  | none => exact still_pins rfl rfl
  | some v => exact still_maskUpdate s b _ fun _ => ⟨rfl, rfl, rfl, rfl, rfl⟩

/-- The enable group changes no status unless it enables a level pin. -/
theorem still_enableGroup {o : Options} {s : State} {b off : Nat} (hb : b < s.banks.length) (h32 : off < 32)
    (hw : off < (s.bank b).width) (h : o.int ≠ some true ∨ (s.bank b).intEdge.getLsbD off = true) :
    Under Bank.Still s (enableApplied o s b off) := by
  unfold enableApplied
  cases hi : o.int with
  | none => exact still_pins rfl rfl
  | some v =>
    cases v with
    | false => exact still_maskBody s b off
    | true => exact (unmaskBody_steady hb h32 hw).2.1 (h.resolve_left (by simp [hi]))

theorem byPos_enableGroup (o : Options) {s : State} {b off : Nat} (hb : b < s.banks.length) (h32 : off < 32)
    (hw : off < (s.bank b).width) : Under Bank.ByPos s (enableApplied o s b off) := by
  unfold enableApplied
  cases o.int with
  | none => exact (still_pins rfl rfl).stillCalm.mono Bank.Calm.byPos
  | some v =>
    cases v with
    | false => exact (still_maskBody s b off).stillCalm.mono Bank.Calm.byPos
    | true => exact (unmaskBody_steady hb h32 hw).1

/-- At a pin that is no both-edge level pin the enable group raises no status. -/
theorem calm_enableGroup (o : Options) {s : State} {b off : Nat} (hb : b < s.banks.length) (h32 : off < 32)
    (hw : off < (s.bank b).width) (h : (s.bank b).intEdge.getLsbD off = true ∨ (s.bank b).be &&& bitAt off = 0) :
    Under Bank.Calm s (enableApplied o s b off) := by
  unfold enableApplied
  cases o.int with
  | none => exact (still_pins rfl rfl).stillCalm
  | some v =>
    cases v with
    | false => exact (still_maskBody s b off).stillCalm
    | true =>
      obtain ⟨_, x2, x3, _⟩ := unmaskBody_steady hb h32 hw
      exact h.elim (fun h => (x2 h).stillCalm) x3

theorem calm_unmaskBody_high {s : State} {b off : Nat} (hb : b < s.banks.length) (h : ¬ off < 32) :
    Under Bank.Calm s (unmaskBody s b off) := by
  let s1 := (regRead s b .intEdge).2
  have u1 : Under (fun k k' => k' = k) s s1 := under_regRead s b .intEdge
  have l1 : b < s1.banks.length := by simpa [s1] using hb
  have hr : (regRead s b .intEdge).1.getLsbD off = false := BitVec.getLsbD_of_ge _ _ (by omega)
  let s2 := clearDetect s1 b off
  have e : unmaskBody s b off = regWrite (s2.maskUpdate b (Bank.enable (bitAt off))) b .intEn
      ((s2.maskUpdate b (Bank.enable (bitAt off))).bank b).en0 := by
    simp only [unmaskBody, hr, Bool.false_eq_true, if_false]
    rfl
  have c : Under Bank.Calm s1 s2 := (clearDetect_steady off l1).2.1 (by rw [bitAt_high h]; simp)
  rw [e]
  exact u1.trans (Q := Bank.Calm) (u := s1) (c.calm_still (still_enableWrite _ b off)) fun _ _ _ h1 h2 => by
    rw [← h1]; exact h2

/-- UnmaskBody raises status only where it changes a polarity. -/
theorem byTrigger_unmaskBody {s : State} {b off : Nat} (hb : b < s.banks.length) (hw : off < (s.bank b).width) :
    Under Bank.ByTrigger s (unmaskBody s b off) := by
  by_cases h32 : off < 32
  · exact (unmaskBody_steady hb h32 hw).1.mono Bank.ByPos.byTrigger
  · exact ((calm_unmaskBody_high hb h32).mono Bank.Calm.byPos).mono Bank.ByPos.byTrigger

/-- The enable group after the trigger group raises no status beyond the trigger group's draw. -/
theorem byTrigger_groups (o : Options) {s : State} {b off : Nat} (hb : b < s.banks.length)
    (hw : off < (s.bank b).width) :
    Under Bank.ByTrigger s (enableApplied o (triggerApplied o s b off) b off) := by
  have tt : Touches b s (triggerApplied o s b off) := touches_whenPresent (b := b) o.trig s
    (fun s t => triggerGroup s b (bitAt off) t) fun v => touches_triggerGroup _ _ _ _
  have ut := byTrigger_triggerGroup o off hb
  have hb4 : b < (triggerApplied o s b off).banks.length := by rw [tt.length]; exact hb
  by_cases h32 : off < 32
  · cases ht : o.trig with
    | none =>
      have e : triggerApplied o s b off = s := by unfold triggerApplied; rw [ht]; rfl
      rw [e]
      exact (byPos_enableGroup o hb h32 hw).mono Bank.ByPos.byTrigger
    | some g =>
      have hs := (triggerGroup_effect s b off o.trig hb h32 hw).1.some g ht
      refine ut.trans (calm_enableGroup o hb4 h32 (by rw [tt.width]; exact hw) ?_) Bank.ByTrigger.thenCalm
      by_cases hg : g = .edgeBoth
      · subst hg; exact .inl hs.1
      · exact .inr (and_bitAt_of_not (hs.2.1.trans (by simpa using hg)))
  · refine ut.trans (Q := Bank.Calm) ?_ Bank.ByTrigger.thenCalm
    unfold enableApplied
    cases o.int with
    | none => exact (still_pins rfl rfl).stillCalm
    | some v =>
      cases v with
      | false => exact (still_maskBody _ b off).stillCalm
      | true => exact calm_unmaskBody_high hb4 h32

theorem touches_outputs (o : Options) (s : State) (b off : Nat) : Touches b s (outputsApplied o s b off) :=
  ((touches_whenPresent (b := b) o.out s (fun s v => modifyBit s b .out (bitAt off) v)
    fun v => touches_modifyBit _ _ _ _ _).trans
    (touches_whenPresent (b := b) o.dir _ (fun s v => modifyBit s b .oe (bitAt off) v)
      fun v => touches_modifyBit _ _ _ _ _)).trans
    (touches_whenPresent (b := b) o.own _ (fun s v => modifyBit s b .owner (bitAt off) v)
      fun v => touches_modifyBit _ _ _ _ _)

/-- A CONFIGURE raises status only where it changes a trigger bit. -/
theorem byTrigger_configureBody (o : Options) {s : State} {b off : Nat} (hb : b < s.banks.length)
    (hw : off < (s.bank b).width) : Under Bank.ByTrigger s (configureBody o s b off) := by
  have t3 := touches_outputs o s b off
  rw [configureBody_groups]
  exact (still_outputs o s b off).still_byTrigger ((byTrigger_groups o (by rw [t3.length]; exact hb)
    (by rw [t3.width]; exact hw)).byTrigger_still (still_wakeGroup o _ b off))

/-- A CONFIGURE with no trigger group that enables no level pin changes no status. -/
theorem still_configureBody {o : Options} {s : State} {b off : Nat} (ht : o.trig = none)
    (he : Under Bank.Still (outputsApplied o s b off) (enableApplied o (outputsApplied o s b off) b off)) :
    Under Bank.Still s (configureBody o s b off) := by
  have e : triggerApplied o (outputsApplied o s b off) b off = outputsApplied o s b off := by
    unfold triggerApplied; rw [ht]; rfl
  rw [configureBody_groups, e]
  exact (still_outputs o s b off).still (he.still (still_wakeGroup o _ b off))

/-- A CONFIGURE with neither trigger group nor ClearDetect. -/
theorem still_configureBody_of {o : Options} {s : State} {b off : Nat} (ht : o.trig = none) (hi : o.int ≠ some true) :
    Under Bank.Still s (configureBody o s b off) := by
  refine still_configureBody ht ?_
  unfold enableApplied
  cases h : o.int with
  | none => exact still_pins rfl rfl
  | some v =>
    cases v with
    | false => exact still_maskBody _ b off
    | true => exact absurd h hi

/-- A CONFIGURE with no trigger group that enables an edge pin or enables nothing. -/
theorem still_configureBody_edge {o : Options} {s : State} {b off : Nat} (hb : b < s.banks.length) (h32 : off < 32)
    (hw : off < (s.bank b).width) (ht : o.trig = none)
    (h : o.int ≠ some true ∨ (s.bank b).intEdge.getLsbD off = true) : Under Bank.Still s (configureBody o s b off) := by
  have t3 := touches_outputs o s b off
  have e : ((outputsApplied o s b off).bank b).intEdge = (s.bank b).intEdge := by
    rw [(outputs_effect s b off o hb h32 hw).1.same]
  exact still_configureBody ht (still_enableGroup (by rw [t3.length]; exact hb) h32 (by rw [t3.width]; exact hw)
    (by rw [e]; exact h))

/-- CONFIGURE with int=on of a pin that is left a level pin: its stale status is cleared (40_pin_config.md R138,
42_irq_facade.md R182, R185), and only the both-edge machine's write can raise it again (60_exceptions.md R273). -/
theorem configureBody_enables {o : Options} {s : State} {b off : Nat} (hb : b < s.banks.length) (h32 : off < 32)
    (hw : off < (s.bank b).width) (hi : o.int = some true) {t : State} (e : configureBody o s b off = t)
    (hs : SteadyPins s t) (ht : (t.bank b).intEdge.getLsbD off = false) :
    ((t.bank b).intStatus.getLsbD off = true →
      (t.bank b).be.getLsbD off = true ∧ (t.bank b).intPos.getLsbD off ≠ (s.bank b).intPos.getLsbD off) ∧
    (o.trig = none → (s.bank b).be.getLsbD off = false → ∃ lost,
      (t.bank b).intStatus = (s.bank b).intStatus &&& ~~~(bitAt off ||| lost) ∧
      (t.bank b).shadow =
        ((s.bank b).shadow ||| ((s.bank b).intStatus &&& (s.bank b).wmask)) &&& ~~~bitAt off) := by
  obtain ⟨a1, _, _⟩ := outputs_effect s b off o hb h32 hw
  have a3 := touches_outputs o s b off
  have u3 := still_outputs o s b off
  rw [configureBody_groups] at e
  change OutputsEffect o off (s.bank b) ((outputsApplied o s b off).bank b) at a1
  generalize outputsApplied o s b off = s3 at *
  have hb3 : b < s3.banks.length := by rw [a3.length]; exact hb
  have w3 : off < (s3.bank b).width := by rw [a3.width]; exact hw
  have t1 : TriggerEffect o.trig off (s3.bank b) ((triggerApplied o s3 b off).bank b) :=
    (triggerGroup_effect s3 b off o.trig hb3 h32 w3).1
  have tt : Touches b s3 (triggerApplied o s3 b off) := touches_whenPresent (b := b) o.trig s3
    (fun s t => triggerGroup s b (bitAt off) t) fun v => touches_triggerGroup _ _ _ _
  have u4 := byTrigger_triggerGroup o off hb3
  have e4 : o.trig = none → triggerApplied o s3 b off = s3 := fun h => by unfold triggerApplied; rw [h]; rfl
  generalize triggerApplied o s3 b off = s4 at *
  have hb4 : b < s4.banks.length := by rw [tt.length]; exact hb3
  have w4 : off < (s4.bank b).width := by rw [tt.width]; exact w3
  have e5 : enableApplied o s4 b off = unmaskBody s4 b off := by unfold enableApplied; rw [hi]; rfl
  have be5 : ((unmaskBody s4 b off).bank b).be = (s4.bank b).be := by
    have h := (enableGroup_effect s4 b off (some true) hb4 h32 w4).1.same
    change (unmaskBody s4 b off).bank b = _ at h
    rw [h]
  obtain ⟨x1, _, _, x4⟩ := unmaskBody_steady hb4 h32 w4
  have hb5 : b < (unmaskBody s4 b off).banks.length := by rw [(touches_unmaskBody b s4 off).length]; exact hb4
  rw [e5] at e
  generalize unmaskBody s4 b off = s5 at *
  have u6 := still_wakeGroup o s5 b off
  have w6 : (t.bank b).be = (s5.bank b).be ∧ (t.bank b).shadow = (s5.bank b).shadow := by
    rw [← e]
    unfold wakeApplied
    cases o.wake with
    | none => exact ⟨rfl, rfl⟩
    | some v => simp only [whenPresent, wakeBody, bank_maskUpdate_same _ hb5]; exact ⟨rfl, rfl⟩
  rw [e] at u6
  obtain ⟨n1, n2⟩ := hs.split u3.uses ((u6.uses.trans x1.uses).trans u4.uses)
  obtain ⟨_, n4⟩ := n2.split u4.uses (u6.uses.trans x1.uses)
  obtain ⟨n5, n6⟩ := n4.split x1.uses u6.uses
  have k3 := u3.banks n1 b
  have k6 := u6.banks n6 b
  have ht4 : (s4.bank b).intEdge.getLsbD off = false := by
    rw [← (x1.banks n5 b).edge off h32 w4, ← k6.edge]; exact ht
  obtain ⟨z1, z2⟩ := x4 ht4 n5
  rw [k6.status, k6.pos, w6.1, w6.2, be5]
  cases hg : o.trig with
  | some g =>
    refine ⟨fun h => ?_, nofun⟩
    exfalso
    have hh := t1.some g hg
    have v1 := (z1 h).1
    rw [hh.1] at ht4
    rw [hh.2.1] at v1
    cases g <;> first | exact absurd ht4 (by decide) | exact absurd v1 (by decide)
  | none =>
    have := e4 hg
    subst this
    have hbe : (s4.bank b).be = (s.bank b).be := by rw [a1.same]
    have hsh : (s4.bank b).shadow = (s.bank b).shadow := by rw [a1.same]
    have hwm : (s4.bank b).wmask = (s.bank b).wmask := by rw [a1.same]; rfl
    refine ⟨fun h => ?_, fun _ h => ?_⟩
    · rw [hbe, ← k3.pos]
      exact hbe ▸ z1 h
    · rw [← hbe] at h
      obtain ⟨lost, c1, c2⟩ := z2 (and_bitAt_of_not h)
      rw [k3.status] at c1
      rw [k3.status, hsh, hwm] at c2
      exact ⟨lost, c1, c2⟩

/-! ### Memory accesses, the sleep commands, the replay, a pass and boot -/

/-- Whatever the computation answers, no pad and no status changed. -/
def StillM (s : State) (r : Except Fault State) : Prop := ∀ t, r = .ok t → Under Bank.Still s t

theorem stillM_pre {s u : State} {r : Except Fault State} (h : Under Bank.Still s u) (hr : StillM u r) : StillM s r :=
  fun t e => h.still (hr t e)

theorem stillM_bind {s : State} {r : Except Fault State} {f : State → Except Fault State} (h : StillM s r)
    (hf : ∀ t, StillM t (f t)) : StillM s (r >>= f) := by
  intro t e
  cases r with
  | error _ => cases e
  | ok u => exact (h u rfl).still (hf u t e)

theorem still_access (s : State) : Under Bank.Still s s.access :=
  (under_access s).mono fun k k' h => by rw [h]; exact .refl k

theorem stillM_write (s : State) (a n v : Nat) : StillM s (memWrite s a n v) := by
  intro t e; unfold memWrite at e; split at e
  · cases e
    exact (still_access s).still (still_pins rfl rfl)
  · cases e

theorem memRead_still {s : State} {a n v : Nat} {t : State} (e : memRead s a n = .ok (v, t)) :
    Under Bank.Still s t := by
  unfold memRead at e; split at e
  · cases e; exact still_access s
  · cases e

theorem stillM_orWord (s : State) (a : Nat) (m : Word) : StillM s (orWord s a m) := by
  intro t e
  unfold orWord at e
  cases h : memRead s a 4 with
  | error _ => rw [h] at e; cases e
  | ok p =>
    rw [h] at e
    obtain ⟨v, u⟩ := p
    exact (memRead_still h).still (stillM_write _ _ _ _ t e)

theorem stillM_ok (s : State) : StillM s (.ok s) := by intro u e; cases e; exact still_pins rfl rfl

theorem stillM_packInto (s : State) (x : BitArray) (b : Nat) (m : Word) : StillM s (packInto s x b m) := by
  unfold packInto
  refine stillM_bind (stillM_orWord _ _ _) fun t => ?_
  split
  · exact stillM_orWord _ _ _
  · exact stillM_ok t

theorem stillM_packBank (s : State) (b : Nat) (fi : Bool) : StillM s (packBank s b fi) := by
  unfold packBank
  refine stillM_bind (stillM_packInto _ _ _ _) fun t => ?_
  refine stillM_bind (stillM_pre (still_regRead t b .intEdge) (stillM_packInto _ _ _ _)) fun u => ?_
  exact stillM_pre (still_regRead u b .intPos) (stillM_packInto _ _ _ _)

theorem stillM_packBanks (fi : Bool) : ∀ (bs : List Nat) (s : State), StillM s (packBanks s fi bs)
  | [], s => stillM_ok s
  | b :: bs, s => by unfold packBanks; exact stillM_bind (stillM_packBank _ _ _) fun t => stillM_packBanks fi bs t

theorem stillM_clearFields : ∀ (fs : List (Nat × Nat)) (s : State), StillM s (clearFields s fs)
  | [], s => stillM_ok s
  | (a, n) :: fs, s => by unfold clearFields; exact stillM_bind (stillM_write _ _ _ _) fun t => stillM_clearFields fs t

theorem stillM_handOff (s : State) (fi : Bool) : StillM s (handOff s fi) := by
  unfold handOff
  split
  · exact stillM_bind (stillM_clearFields _ _) fun t => stillM_packBanks fi _ t
  · exact stillM_ok s

theorem stillM_takeReport (s : State) : StillM s (takeReport s) := by
  intro t e
  unfold takeReport at e
  split at e
  · cases h : memRead s (s.countAddr 0) 2 with
    | error _ => rw [h] at e; cases e
    | ok p =>
      obtain ⟨v, u⟩ := p
      rw [h] at e
      simp only [bind, Except.bind] at e
      cases h2 : memRead u (s.countAddr 1) 2 with
      | error _ => rw [h2] at e; cases e
      | ok p =>
        obtain ⟨v', u'⟩ := p
        rw [h2] at e
        cases e
        exact ((memRead_still h).still (memRead_still h2)).still (still_pins rfl rfl)
  · cases e; exact still_pins rfl rfl

theorem still_enables (fi : Bool) : ∀ (bs : List Nat) (s : State), Under Bank.Still s (writeEnables s fi bs)
  | [], s => still_pins rfl rfl
  | b :: bs, s => by
    unfold writeEnables
    exact (still_regWrite s b (r := .intEn) rfl _).still (still_enables fi bs _)

theorem still_boot : ∀ (bs : List Nat) (s : State), Under Bank.Still s (bootBanks s bs)
  | [], s => still_pins rfl rfl
  | b :: bs, s => by
    unfold bootBanks
    refine Under.still (under_setBank s b _ .refl ?_)
      ((still_regWrite _ b (r := .intEn) rfl _).still (still_boot bs _))
    exact fun _ => ⟨rfl, rfl, rfl, rfl, rfl⟩

theorem stillM_group (s : State) (g : Nat) : StillM s (replayGroup s g) := by
  intro t e
  unfold replayGroup at e
  cases h : memRead s (s.countAddr g) 2 with
  | error _ => rw [h] at e; cases e
  | ok p =>
    obtain ⟨v, u⟩ := p
    rw [h] at e
    simp only [bind, Except.bind] at e
    split at e <;> cases e <;> exact (memRead_still h).still (still_pins rfl rfl)

theorem stillM_replay (s : State) (c : ReplayCursor) : StillM s (replayStep s c) := by
  unfold replayStep
  split
  · exact stillM_ok s
  · split
    · intro t e
      cases h : memRead s (s.firedAddr c.group c.index) 2 with
      | error _ => rw [h] at e; cases e
      | ok p =>
        obtain ⟨v, u⟩ := p
        rw [h] at e
        cases e
        exact (memRead_still h).still (still_pins rfl rfl)
    · split
      · exact stillM_group s 1
      · intro t e; cases e; exact still_pins rfl rfl

theorem still_visit (s : State) (l low : Nat) : Under Bank.Still s (passVisit s l low) := by
  unfold passVisit
  split
  · rename_i b _
    exact (still_regRead s b .intStatus).still (t := (regRead s b .intStatus).2) (still_pins rfl rfl)
  · exact still_pins rfl rfl

theorem still_pass (s : State) (p : Pass) : Under Bank.Still s (passStep s p) := by
  unfold passStep
  split
  · exact still_pins rfl rfl
  · exact still_visit _ _ _

/-! ### Whole commands -/

/-- A next state that is answered is so related to `s`. -/
def Ans (P : Bank → Bank → Prop) (s : State) (a : Answer) : Prop := ∀ t, a = .next t → Under P s t

theorem ans_start {P : Bank → Bank → Prop} {s t : State} {c : Instr} (h : Under P (s.start c) t) : Under P s t :=
  (Under.ofPins (P := fun k k' => k' = k) rfl fun _ => rfl : Under _ s (s.start c)).trans h fun _ _ _ h1 h2 => by
    rw [← h1]; exact h2

theorem ans_finish {P : Bank → Bank → Prop} {s t : State} {c : Instr} {st : Status} {v : Bool} (h : Under P s t) :
    Under P s (t.finish c st v) :=
  h.cleared rfl fun _ => rfl

theorem ans_awake {P : Bank → Bank → Prop} (hr : ∀ k, P k k) {c : Instr} {s : State} {body : State → Answer}
    (h : Ans P s (body s)) : Ans P s (admitAwake c s body) := by
  intro t e
  unfold admitAwake admitBooted at e
  split at e
  · split at e
    · beta_reduce at e
      split at e
      · cases e; exact Under.ofPins rfl fun _ => hr _
      · exact h t e
    · cases e; exact Under.ofPins rfl fun _ => hr _
  · cases e

theorem ans_resolved {P : Bank → Bank → Prop} (hr : ∀ k, P k k) {c : Instr} {s : State} {target : Option (Nat × Nat)}
    {body : State → Nat → Nat → State}
    (hin : ∀ b off, target = some (b, off) → b < s.banks.length ∧ off < (s.bank b).width)
    (h : ∀ b off, b < s.banks.length → off < (s.bank b).width → Under P (s.start c) (body (s.start c) b off)) :
    Ans P s (onResolved c s target body) := by
  intro t e
  unfold onResolved at e
  split at e
  · cases e; exact Under.ofPins rfl fun _ => hr _
  · rename_i ho b off
    cases e
    obtain ⟨x, y⟩ := hin _ _ rfl
    exact ans_start (ans_finish (h b off x y))

theorem ans_pin {P : Bank → Bank → Prop} (hr : ∀ k, P k k) {c : Instr} {s : State} {pin : Nat}
    {body : State → Nat → Nat → State}
    (h : ∀ b off, b < s.banks.length → off < (s.bank b).width → Under P (s.start c) (body (s.start c) b off)) :
    Ans P s (onPin c pin s body) :=
  ans_awake hr (ans_resolved hr (fun b off h => by have := resolve_some h; exact ⟨this.1, this.2.2.2.2⟩) h)

theorem ans_irq {P : Bank → Bank → Prop} (hr : ∀ k, P k k) {c : Instr} {s : State} {pin : Nat}
    {body : State → Nat → Nat → State}
    (h : ∀ b off, b < s.banks.length → off < (s.bank b).width → Under P (s.start c) (body (s.start c) b off)) :
    Ans P s (onIrq c pin s body) :=
  ans_awake hr (ans_resolved hr
    (fun b off h => by have := resolve_some (resolveIrq_some h); exact ⟨this.1, this.2.2.2.2⟩) h)

theorem ans_still_read (pin : Nat) (s : State) : Ans Bank.Still s (execRead pin s) := by
  refine ans_awake Bank.Still.refl (body := fun s => match resolve s pin with
    | none => .next ((s.start (.read pin)).raise (.read pin))
    | some (b, off) =>
      let (v, s1) := regRead (s.start (.read pin)) b .inp
      .next (s1.finish (.read pin) .ok (v.getLsbD off))) ?_
  intro t e
  split at e
  · cases e; exact still_pins rfl rfl
  · rename_i b off _
    cases e
    exact ans_start (ans_finish (still_regRead (s.start (.read pin)) b .inp))

theorem ans_booted {P : Bank → Bank → Prop} (hr : ∀ k, P k k) {c : Instr} {s : State} {body : State → Answer}
    (h : Ans P s (body s)) : Ans P s (admitBooted c s body) := by
  intro t e
  unfold admitBooted at e
  by_cases hb : s.booted = true
  · simp only [if_pos hb] at e
    split at e
    · exact h t e
    · cases e
  · simp only [if_neg hb] at e
    split at e
    · cases e; exact Under.ofPins rfl fun _ => hr _
    · cases e

theorem ans_still_line (l : Nat) (s : State) : Ans Bank.Still s (execLineIrq l s) := by
  intro t e
  unfold execLineIrq at e
  split at e
  · split at e
    · refine ans_booted Bank.Still.refl (c := .lineIrq l) (s := s) (body := fun s => match s.sleepState, s.pass with
        | .awake, none => .next { passVisit (s.start (.lineIrq l)) l 0 with seq := .idle }
        | _, _ => .refused .lineAgentDuty) ?_ t e
      intro t e
      split at e
      · cases e
        exact ans_start ((still_visit (s.start (.lineIrq l)) l 0).still (still_pins rfl rfl))
      · cases e
    · cases e; exact still_pins rfl rfl
  · cases e

theorem ans_answer {s : State} {r : Except Fault State} (h : StillM s r) : Ans Bank.Still s (answer r) := by
  intro t e
  cases r with
  | error _ => cases e
  | ok u => cases e; exact h _ rfl

theorem ans_still_enter (v : Bool) (s : State) : Ans Bank.Still s (execEnterSleep v s) := by
  refine ans_awake Bank.Still.refl (body := fun s => match s.pass, s.replayRun with
    | none, none => answer (enterSleepBody (s.start (.enterSleep v)) v)
    | _, _ => .next (s.refuse .busy (.command (.enterSleep v)))) ?_
  intro t e
  split at e
  · refine ans_answer ?_ t e
    refine stillM_pre (still_pins (t := s.start (.enterSleep v)) rfl rfl) ?_
    unfold enterSleepBody
    refine stillM_bind (stillM_handOff _ _) fun u => ?_
    intro t e; cases e
    exact (still_enables v _ u).still (still_pins rfl rfl)
  · cases e; exact still_pins rfl rfl

theorem ans_still_exit (s : State) : Ans Bank.Still s (execExitSleep s) := by
  refine ans_booted Bank.Still.refl (body := fun s => match s.sleepState with
    | .awake => .next (s.refuse .notAsleep (.command .exitSleep))
    | .asleep => answer (exitSleepBody (s.start .exitSleep))) ?_
  intro t e
  split at e
  · cases e; exact still_pins rfl rfl
  · refine ans_answer ?_ t e
    refine stillM_pre (still_pins (t := s.start .exitSleep) rfl rfl) ?_
    unfold exitSleepBody
    generalize s.start .exitSleep = u
    refine stillM_pre (s := u) (Under.still (still_pins (t := { u with sleepState := .awake }) rfl rfl)
      (still_enables true u.bankIndices { u with sleepState := .awake })) ?_
    refine stillM_bind (stillM_takeReport _) fun u => ?_
    intro t e; cases e
    exact still_pins rfl rfl

theorem ans_still_replay (s : State) : Ans Bank.Still s (execReplay s) := by
  refine ans_booted Bank.Still.refl (body := fun s => match s.replayPending, s.sleepState, s.pass, s.replayRun with
    | true, .awake, none, none =>
      match replayGroup (s.start .replay) 0 with
      | .ok t => .next { t with seq := .idle }
      | .error f => .fault f
    | _, _, _, _ => .refused .bottomHalfDuty) ?_
  intro t e
  split at e
  · split at e
    · rename_i u hu
      cases e
      exact ans_start ((stillM_group _ 0 u hu).still (still_pins rfl rfl))
    · cases e
  · cases e

/-- A step of the active pass or the running replay changes no pad and no status. -/
theorem ans_still_advance (s : State) : Ans Bank.Still s (advance s) := by
  intro t e
  unfold advance at e
  split at e
  · split at e
    · cases e; exact still_pass s _
    · split at e
      · exact ans_answer (stillM_replay s _) t e
      · cases e; exact still_pins rfl rfl
  · cases e

theorem ans_still_mailbox (s : State) (o : Nat) (v : Byte) : Ans Bank.Still s (coprocessorWrite s o v) := by
  intro t e
  simp only [coprocessorWrite] at e
  split at e
  · split at e <;> cases e
    exact still_pins rfl rfl
  · cases e

theorem ans_still_boot (s : State) : Ans Bank.Still s (bootRegistration s) := by
  intro t e
  unfold bootRegistration at e
  split at e
  · cases e
  · split at e
    · cases e
      refine (still_boot s.bankIndices s).still ?_
      unfold mailboxAllocation
      simp only
      split <;> exact still_pins rfl rfl
    · cases e; exact still_pins rfl rfl

end Sys2Proof.Machine
end

