-- ==== Sys2Proof/Tests/Slice0.lean ====
section
/-! SUPPORT. Tests. Part 1: well-formedness and decoding, the words written out from the spec's examples. Part 2: single
steps, each expected result from a vector of 95_test_vectors.md. Part 3: for every statement of
Sys2Proof/Certificates/Slice0/Obligations.lean that has hypotheses, a named theorem with states and operands that meet
them, at boundary values of its clauses. -/

namespace Sys2Proof.Tests

open Sys2Proof.Machine

/-! ### Part 1: well-formedness and decoding -/

theorem test_wf_largest_number : (Instr.read 65535).wf = true := by decide
theorem test_wf_refuses_configure : (Instr.configure 65536 {}).wf = false := by decide
theorem test_wf_refuses_read : (Instr.read 65536).wf = false := by decide
theorem test_wf_refuses_write : (Instr.write 65536 true).wf = false := by decide
theorem test_wf_refuses_mask : (Instr.mask 65536).wf = false := by decide
theorem test_wf_refuses_unmask : (Instr.unmask 65536).wf = false := by decide
theorem test_wf_refuses_ack : (Instr.ack 65536).wf = false := by decide
theorem test_wf_refuses_set_type : (Instr.setType 65536 .edgeBoth).wf = false := by decide
theorem test_wf_refuses_set_wake : (Instr.setWake 65536 true).wf = false := by decide
theorem test_wf_refuses_line_irq : (Instr.lineIrq 65536).wf = false := by decide

-- Vectors E-1 to E-14: OP in bits 31:28, V in bit 27, N in bits 15:0.
theorem test_decode_read : decode [0x1000001D] = .ok (.read 29) := by decide
theorem test_decode_write_high : decode [0x2800001D] = .ok (.write 29 true) := by decide
theorem test_decode_write_low : decode [0x2000001D] = .ok (.write 29 false) := by decide
theorem test_decode_mask : decode [0x3000003D] = .ok (.mask 61) := by decide
theorem test_decode_unmask : decode [0x4000003D] = .ok (.unmask 61) := by decide
theorem test_decode_ack : decode [0x5000003D] = .ok (.ack 61) := by decide
theorem test_decode_set_wake : decode [0x7800003D] = .ok (.setWake 61 true) := by decide
theorem test_decode_line_irq : decode [0x80000000] = .ok (.lineIrq 0) := by decide
theorem test_decode_enter_sleep_deep : decode [0x90000000] = .ok (.enterSleep false) := by decide
theorem test_decode_enter_sleep_idle : decode [0x98000000] = .ok (.enterSleep true) := by decide
theorem test_decode_exit_sleep : decode [0xA0000000] = .ok .exitSleep := by decide
theorem test_decode_replay : decode [0xB0000000] = .ok .replay := by decide
theorem test_decode_configure :
    decode [0x0000001D, 0x000032C0] = .ok (.configure 29 { trig := some .edgeFall, wake := some true }) := by decide
theorem test_decode_configure_all_groups :
    decode [0x0000001D, 0x00001571] =
      .ok (.configure 29
        { out := some false, own := some true, trig := some .levelHigh, int := some false, wake := some false }) := by
  decide
theorem test_decode_configure_empty : decode [0x0000001D, 0x00000000] = .ok (.configure 29 {}) := by decide
theorem test_decode_set_type : decode [0x6000003D, 0x000003C0] = .ok (.setType 61 .edgeBoth) := by decide

-- Vectors E-15 to E-25: each clause of R113 and R114, by name.
theorem test_reject_opcode_c : decode [0xC0000000] = .error .reservedOpcode := by decide
theorem test_reject_opcode_f : decode [0xF0000000] = .error .reservedOpcode := by decide
theorem test_reject_rsv : decode [0x1001001D] = .error .reservedBits := by decide
theorem test_reject_v : decode [0x1800001D] = .error .fixedV := by decide
theorem test_reject_n : decode [0xA0000001] = .error .nonzeroN := by decide
theorem test_reject_flags_bit14 : decode [0x0000001D, 0x00004000] = .error .flagsReserved := by decide
theorem test_reject_value_only : decode [0x0000001D, 0x00000002] = .error .valueWithoutPresent := by decide
theorem test_reject_no_polarity : decode [0x0000001D, 0x00000040] = .error .noPolarity := by decide
theorem test_reject_level_both : decode [0x0000001D, 0x00000340] = .error .levelBoth := by decide
theorem test_reject_set_type_dir : decode [0x6000003D, 0x000003CC] = .error .setTypeGroups := by decide
theorem test_reject_set_type_empty : decode [0x6000003D, 0x00000000] = .error .setTypeGroups := by decide
theorem test_reject_missing_flags : decode [0x0000001D] = .error .wordCount := by decide

/-! ### The states of part 2 and part 3 -/

/-- Free values for small runs: no pin activity, drawn words of zeros. -/
def quiet : Choices := { pins := List.replicate 64 [], words := List.replicate 64 0 }

/-- Bank 0 of configurations A and T, pins 16 to 42, every register and mask 0. -/
def bank0 : Bank := { desc := Config.bankA }

/-- Bank 1 of configuration T, pins 48 to 79. -/
def bank1 : Bank where
  desc :=
    { start := 48, last := 79, line := 0
      addrs :=
        { out := 0x40, inp := 0x44, intStatus := 0x48, intClear := 0x4C, intEn := 0x50, intEdge := 0x54, intPos := 0x58,
          oe := 0x5C, owner := 0x60 } }

/-- Configuration A, booted and AWAKE. -/
def confA (k : Bank) : State where
  params := Config.paramsA
  banks := [k]
  mailboxPresent := true
  booted := true
  choices := quiet

/-- Configuration T, booted and AWAKE. -/
def confT (k0 k1 : Bank) : State where
  params := { Config.paramsA with numLines := 2 }
  banks := [k0, k1]
  mailboxPresent := true
  booted := true
  choices := quiet

/-- What holds of an answer's next state. -/
def nextIs (o : Answer) (p : State → Bool) : Bool :=
  match o with
  | .next t => p t
  | .fault _ => false
  | .refused _ => false

/-- The last event of a state is the result word `w`. -/
def endsWith (t : State) (w : Word) : Bool :=
  match t.events.getLast? with
  | some (.result _ v) => v == w
  | _ => false

/-! ### Part 2: single steps -/

/-- Vector P-1. -/
theorem test_configure_output :
    nextIs (exec (.configure 29 { out := some true, dir := some true }) (confT bank0 bank1)) (fun t =>
      (t.bank 0).out == 0x2000 && (t.bank 0).oe == 0x2000 && endsWith t 0x00000000) = true := by
  decide

/-- Vector P-10: another both-edge pin's polarity is rewritten. -/
theorem test_configure_both_edges :
    nextIs (exec (.configure 29 { trig := some .edgeBoth }) (confT { bank0 with be := 0x4, intEdge := 0x4 } bank1)) (fun t =>
      (t.bank 0).be == 0x2004 && (t.bank 0).intEdge == 0x2004 && (t.bank 0).intPos == 0x2004) = true := by
  decide

/-- Vector P-12: the pad is returned, not the output latch. -/
theorem test_read_pad :
    nextIs (exec (.read 29) (confT { bank0 with out := 0x2000, oe := 0x2000 } bank1)) (fun t =>
      endsWith t 0x10000000) = true := by
  decide

/-- Vector P-11. -/
theorem test_read_high :
    nextIs (exec (.read 29) (confT { bank0 with pad := 0x2000 } bank1)) (fun t => endsWith t 0x10000001) = true := by
  decide

/-- Vector P-13. -/
theorem test_write_low :
    nextIs (exec (.write 29 false) (confT { bank0 with out := 0x2001 } bank1)) (fun t =>
      (t.bank 0).out == 0x0001 && endsWith t 0x20000000) = true := by
  decide

/-- Vector P-14. -/
theorem test_write_out_of_range :
    nextIs (exec (.write 15 true) (confT bank0 bank1)) (fun t =>
      t.banks == [bank0, bank1] && endsWith t 0x21000000) = true := by
  decide

/-- Vector P-8: a both-edge pin becomes a level pin. -/
theorem test_set_type_level :
    nextIs (exec (.setType 61 .levelHigh) (confT { bank0 with intEdge := 0x2000, be := 0x2000 } bank1)) (fun t =>
      (t.bank 0).intEdge == 0 && (t.bank 0).intPos == 0x2000 && (t.bank 0).be == 0 &&
        endsWith t 0x60000000) = true := by
  decide

/-- Vector B-5: the level rises between S2 and S3, so the machine retries and arms for a falling edge. -/
theorem test_both_edge_retries :
    ((bothEdge { confA { bank0 with be := 0x2000 } with
      choices := { quiet with pins := [[], [], [⟨0, 0x2000, 0⟩]] ++ List.replicate 8 [] } } 0).bank 0).intPos = 0 := by
  decide

/-- Vector B-6 with its three passes: the level toggles in every pass, and the bound is logged. -/
theorem test_both_edge_bound :
    (bothEdge { confA { bank0 with be := 0x2000, intEdge := 0x2000 } with
      params := { Config.paramsA with beMaxPasses := 3 }
      choices := { quiet with
        pins := [[], [], [⟨0, 0x2000, 0⟩], [], [], [], [], [⟨0, 0, 0⟩], [], [], [], [], [⟨0, 0x2000, 0⟩], [], []] } } 0).events =
      [.convergenceBound 0 0x00000000 0x00002000] := by
  decide

/-- Vector F-1. -/
theorem test_mask :
    nextIs (exec (.mask 61) (confA { bank0 with en0 := 0x2001, shadow := 0x2000, intEn := 0x2001 })) (fun t =>
      (t.bank 0).en0 == 0x1 && (t.bank 0).shadow == 0 && (t.bank 0).intEn == 0x1 && endsWith t 0x30000000) = true := by
  decide

/-- Vector F-2: an edge pin keeps its pending status. -/
theorem test_unmask_edge :
    nextIs (exec (.unmask 61) (confA { bank0 with intEdge := 0x2000, intStatus := 0x2000 })) (fun t =>
      (t.bank 0).en0 == 0x2000 && (t.bank 0).intEn == 0x2000 && (t.bank 0).intStatus == 0x2000) = true := by
  decide

/-- Vector F-3: a level pin loses its stale pending state. -/
theorem test_unmask_level :
    nextIs (exec (.unmask 61) (confA { bank0 with intStatus := 0x2000, shadow := 0x2000, pad := 0x2000 })) (fun t =>
      (t.bank 0).en0 == 0x2000 && (t.bank 0).shadow == 0 && (t.bank 0).intStatus == 0) = true := by
  decide

/-- Vector F-4: the erratum loses pin 18's status, the shadow keeps it. -/
theorem test_ack_erratum :
    nextIs (exec (.ack 61) { confA { bank0 with intStatus := 0x2004 } with
      choices := { quiet with words := [0, 0xFFFFFFFF] } }) (fun t =>
      (t.bank 0).shadow == 0x4 && (t.bank 0).intStatus == 0 && endsWith t 0x50000000) = true := by
  decide

/-- Vector F-7: a both-edge pin is armed again, for the falling edge. -/
theorem test_ack_rearms :
    nextIs (exec (.ack 61)
      (confA { bank0 with be := 0x2000, intEdge := 0x2000, intPos := 0x2000, pad := 0x2000, intStatus := 0x2000 }))
      (fun t => (t.bank 0).intPos == 0 && (t.bank 0).intStatus == 0 && (t.bank 0).shadow == 0) = true := by
  decide

/-- Vector F-8. -/
theorem test_set_wake :
    nextIs (exec (.setWake 61 true) (confA bank0)) (fun t =>
      (t.bank 0).en1 == 0x2000 && endsWith t 0x70000000) = true := by
  decide

/-- Vector M-1, the snapshot: W = (0x2004 | 0x100) & 0x2100. -/
theorem test_line_irq_snapshot :
    nextIs (exec (.lineIrq 0) (confA { bank0 with intStatus := 0x2004, shadow := 0x100, en0 := 0x2100 })) (fun t =>
      t.pass == some ⟨0, 0, 0x2100⟩ && t.events == []) = true := by
  decide

/-- Vector M-1, the first dispatch. -/
theorem test_pass_dispatch :
    nextIs (step { confA bank0 with pass := some ⟨0, 0, 0x2100⟩ }) (fun t =>
      t.pass == some ⟨0, 0, 0x2000⟩ && t.events == [.dispatch 56 .demux]) = true := by
  decide

/-- Vector M-4: a line with no bank. -/
theorem test_line_irq_no_bank :
    nextIs (exec (.lineIrq 1) (confT bank0 bank1)) (fun t =>
      t.pass == none && t.events == [.lineAck 1, .result (.lineIrq 1) 0x80000000]) = true := by
  decide

/-- The pad of both straddling banks in the state of vector S-2. -/
def stateS2 : State :=
  confT { bank0 with en1 := 0x07FFFFFF, intEdge := 0x00002004, intPos := 0x00000004 }
    { bank1 with en1 := 0x00010001, intEdge := 0xFFFFFFFF, intPos := 0x80000000 }

/-- Vector S-2: two banks that straddle word boundaries, with the gap between them 0. -/
theorem test_enter_sleep_packs :
    nextIs (exec (.enterSleep false) stateS2) (fun t =>
      (List.range 3).map (fun w => t.field (t.arrayAddr .enabled w) 4) == [0xFFFF0000, 0x000107FF, 0x00000001] &&
      (List.range 3).map (fun w => t.field (t.arrayAddr .detection w) 4) == [0x20040000, 0xFFFF0000, 0x0000FFFF] &&
      (List.range 3).map (fun w => t.field (t.arrayAddr .polarity w) 4) == [0x00040000, 0x00000000, 0x00008000] &&
      t.sleepState == .asleep && (t.bank 0).intEn == 0x07FFFFFF && (t.bank 1).intEn == 0x00010001) = true := by
  decide +kernel

/-- Vector S-3: from idle the active set is packed. -/
theorem test_enter_sleep_idle :
    nextIs (exec (.enterSleep true) (confT { bank0 with en0 := 0x2000, en1 := 0x4 } bank1)) (fun t =>
      t.field (t.arrayAddr .enabled 0) 4 == 0x20000000 && (t.bank 0).intEn == 0x2000) = true := by
  decide +kernel

/-- Vector S-6: `num_fired` is 0 and 2. -/
theorem test_exit_sleep :
    nextIs (exec .exitSleep { confA { bank0 with en0 := 0x2000 } with
      sleepState := .asleep, mem := [(0x1002, 2)] }) (fun t =>
      t.sleepState == .awake && (t.bank 0).intEn == 0x2000 && t.replayPending && endsWith t 0xA0000000) = true := by
  decide

/-- Vector S-5. -/
theorem test_exit_sleep_awake :
    nextIs (exec .exitSleep (confA bank0)) (fun t =>
      t.refused && t.refusals == [⟨.notAsleep, .command .exitSleep⟩] && t.events == []) = true := by
  decide

/-- The mailbox of vector S-8: `num_fired` is 1 and 2, `fired[0][0]` 29, `fired[1]` 79 and 44. -/
def stateS8 : State :=
  { confT bank0 bank1 with
    replayPending := true
    mem := [(0x1000, 1), (0x1002, 2), (0x1004, 29), (0x1014, 79), (0x1016, 44)] }

/-- Vector S-8, the start of the replay. -/
theorem test_replay_starts :
    nextIs (exec .replay stateS8) (fun t => t.replayRun == some ⟨0, 1, 0⟩ && t.fault == none) = true := by
  decide

/-- Vector S-8, its last entry: pin 44 is in no bank. -/
theorem test_replay_logs_gap :
    nextIs (step { stateS8 with replayRun := some ⟨1, 2, 1⟩ }) (fun t =>
      t.replayRun == some ⟨1, 2, 2⟩ && t.events == [.logOutOfRange 44]) = true := by
  decide

/-- Vector S-9: a count above K. -/
theorem test_replay_overflow :
    nextIs (exec .replay { stateS8 with mem := [(0x1000, 9)] }) (fun t =>
      t.fault == some (.mailboxCountOverflow 0 9) && t.replayPending && t.events == []) = true := by
  decide

/-- Vector R-2: boot without a mailbox. -/
theorem test_boot_no_mailbox :
    nextIs (step { confT { bank0 with en0 := 1, intEn := 1 } bank1 with
      params := { Config.paramsA with numLines := 2, mailboxPresent := false }
      booted := false, mailboxPresent := false, agenda := [.boot] }) (fun t =>
      t.booted && !t.mailboxPresent && t.events == [.mailboxUnavailable] && t.banks == [bank0, bank1]) = true := by
  decide +kernel

/-- Vector R-3: the banks overlap. -/
theorem test_boot_bad_table :
    nextIs (step { confT bank0 { bank1 with desc := { bank1.desc with start := 40, last := 71 } } with
      booted := false, agenda := [.boot] }) (fun t => t.refusals == [⟨.badBankTable, .boot⟩] && !t.booted) = true := by
  decide +kernel

-- The code table of R266, its log events and its fault mark.
theorem test_code_convergence_bound : eventCode (.convergenceBound 0 0x00000000 0x00002000) = some 0x2 := by decide
theorem test_code_mailbox_unavailable : eventCode .mailboxUnavailable = some 0x3 := by decide
theorem test_code_log_out_of_range : eventCode (.logOutOfRange 44) = some 0x1 := by decide
theorem test_code_count_overflow : faultCode (.mailboxCountOverflow 0 9) = 0x4 := by decide
theorem test_code_of_result : eventCode (.result (.write 15 true) 0x21000000) = some 0x1 := by decide

/-- The big-endian mailbox of scenario A: bytes 20 00 00 00. -/
theorem test_big_endian_field : Memory.writeField .bigEndian [] 0x1024 4 0x20000000 = [(0x1024, 0x20)] := by decide

/-! ### Part 3: witnesses of the statements' hypotheses -/

/-- Configuration T with every register and mask 0: the state most witnesses use. -/
def stateT : State := confT bank0 bank1

/-- Configuration T with both-edge, level and edge pins, some pending, some in the shadow: pin 16 is a both-edge pin, pin
18 an edge pin, pin 29 a level pin, pins 48 and 79 edge pins. -/
def stateM : State :=
  confT
    { bank0 with
      intStatus := 0x2005, intEn := 0x2005, en0 := 0x2005, intEdge := 0x5, intPos := 0x2004, be := 0x1, shadow := 0x4
      en1 := 0x04000000 }
    { bank1 with
      intStatus := 0x80000001, intEn := 0x80000001, en0 := 0x80000001, intEdge := 0xFFFFFFFF, shadow := 0x80000000 }

theorem ready_T : stateT.Ready := ⟨rfl, rfl, rfl, rfl⟩
theorem ready_M : stateM.Ready := ⟨rfl, rfl, rfl, rfl⟩
theorem table_T : tableOk stateT.params stateT.banks = true := by decide +kernel
theorem table_M : tableOk stateM.params stateM.banks = true := by decide +kernel

/-- The first and the last pin of both banks of configuration T, and the pins on each side of them that no bank has. -/
theorem resolve_edges_T :
    resolve stateT 15 = none ∧ resolve stateT 16 = some (0, 0) ∧ resolve stateT 42 = some (0, 26) ∧
    resolve stateT 43 = none ∧ resolve stateT 47 = none ∧ resolve stateT 48 = some (1, 0) ∧
    resolve stateT 79 = some (1, 31) ∧ resolve stateT 80 = none := by decide

/-- The same for interrupt numbers, with the last number below `BASE_IRQ`. -/
theorem resolve_irq_edges_M :
    resolveIrq stateM 31 = none ∧ resolveIrq stateM 47 = none ∧ resolveIrq stateM 48 = some (0, 0) ∧
    resolveIrq stateM 50 = some (0, 2) ∧ resolveIrq stateM 61 = some (0, 13) ∧ resolveIrq stateM 74 = some (0, 26) ∧
    resolveIrq stateM 75 = none ∧ resolveIrq stateM 80 = some (1, 0) ∧ resolveIrq stateM 111 = some (1, 31) ∧
    resolveIrq stateM 112 = none := by decide

/-- The state of vector B-6 with its three passes, within a command: a run from it ends BOUND. -/
def stateB : State :=
  { confA { bank0 with be := 0x2000, intEdge := 0x2000 } with
    params := { Config.paramsA with beMaxPasses := 3 }
    seq := .busy (.ack 61) 3
    choices := { quiet with
      pins := [[], [], [⟨0, 0x2000, 0⟩], [], [], [], [], [⟨0, 0, 0⟩], [], [], [], [], [⟨0, 0x2000, 0⟩], [], []] } }

/-- A state in the middle of a pass that meets the invariant. -/
def stateP : State := { stateM with pass := some ⟨0, 0, 0x2004⟩ }

/-- An ASLEEP state with a fired pin reported that meets the invariant. -/
def stateZ : State :=
  { stateM with sleepState := .asleep, mem := [(0x1000, 1), (0x1004, 29)] }

theorem masks_M : ∀ k ∈ stateM.banks, k.MasksFit := by
  intro k hk
  simp only [stateM, confT, List.mem_cons, List.not_mem_nil, or_false] at hk
  rcases hk with rfl | rfl <;> exact ⟨by decide, by decide, by decide, by decide⟩

theorem enables_M : ∀ k ∈ stateM.banks, k.intEn &&& k.wmask = k.en0 := by
  intro k hk
  simp only [stateM, confT, List.mem_cons, List.not_mem_nil, or_false] at hk
  rcases hk with rfl | rfl <;> decide

theorem inv_P : Inv stateP where
  idle := rfl
  noRun := rfl
  memory := rfl
  table := fun _ => table_M
  mailbox := fun _ => rfl
  masks := masks_M
  enables := fun _ _ => enables_M
  asleep := fun h => by cases h
  pass := fun p h => by cases h; decide
  replay := fun c h => by cases h
  pending := fun h => by cases h
  marks := by decide

theorem inv_Z : Inv stateZ where
  idle := rfl
  noRun := rfl
  memory := by decide
  table := fun _ => table_M
  mailbox := fun _ => rfl
  masks := masks_M
  enables := fun _ h => by cases h
  asleep := fun _ => ⟨rfl, rfl, rfl⟩
  pass := fun p h => by cases h
  replay := fun c h => by cases h
  pending := fun h => by cases h
  marks := by decide

/-- A replay that runs beside a pending mark, group 1, at its last entry. -/
def stateR : State :=
  { stateM with
    replayPending := true, replayRun := some ⟨1, 2, 1⟩
    mem := [(0x1000, 1), (0x1002, 2), (0x1004, 29), (0x1014, 79), (0x1016, 44)] }

theorem inv_R : Inv stateR where
  idle := rfl
  noRun := rfl
  memory := by decide
  table := fun _ => table_M
  mailbox := fun _ => rfl
  masks := masks_M
  enables := fun _ _ => enables_M
  asleep := fun h => by cases h
  pass := fun p h => by cases h
  replay := fun c h => by cases h; decide
  pending := fun _ => ⟨rfl, rfl⟩
  marks := by decide

/-- Boot states: a good table, a bad one (a bank of 41 pins), a block that is booted. -/
theorem witness_BootRegistrationRunsOnce :
    let good : State := { stateT with booted := false, agenda := [.boot] }
    let bad : State := { good with banks := [{ bank0 with desc := { bank0.desc with start := 0, last := 40 } }] }
    (good.agenda = [.boot] ∧ good.booted = false ∧ tableOk good.params good.banks = true) ∧
    (bad.agenda = [.boot] ∧ bad.booted = false ∧ tableOk bad.params bad.banks = false) ∧
    ({ stateT with agenda := [.boot] }.booted = true) := by decide +kernel

theorem witness_StepKeepsInvariant : Inv stateP ∧ ∃ t, step stateP = .next t := ⟨inv_P, _, rfl⟩

theorem witness_NoFaultUnderInvariant :
    Inv stateP ∧ Inv { stateZ with agenda := [.command [0xA0000000]] } ∧ Inv stateR :=
  ⟨inv_P, { inv_Z with }, inv_R⟩

theorem witness_BankTableImmutable : ∃ t, step stateP = .next t := ⟨_, rfl⟩

theorem witness_HistoryAndMarksOnlyGrow :
    ∃ t, step { stateP with fault := some (.mailboxCountOverflow 0 9), refused := true,
                            refusals := [⟨.asleep, .command .exitSleep⟩] } = .next t := ⟨_, rfl⟩

theorem witness_DecodeOfEncode :
    (Instr.configure 65535 { trig := some .edgeFall }).wf = true ∧ (Instr.read 0).wf = true ∧
    (Instr.setType 65535 .levelLow).wf = true ∧ Instr.replay.wf = true := by decide

theorem witness_EncodeOfDecode :
    decode [0x0000FFFF, 0x00000000] = .ok (.configure 65535 {}) ∧
    decode [0x98000000] = .ok (.enterSleep true) := by decide

theorem witness_CommandWordLegality :
    opField 0x0000001D = 0x0 ∧ opField 0x6000003D = 0x6 ∧ (opField 0x1000001D ≠ 0x0 ∧ opField 0x1000001D ≠ 0x6) ∧
    (opField 0xBFFFFFFF = 0xB ∧ opField 0xC0000000 = 0xC) := by decide

theorem witness_StepRunsDecodedCommand :
    let ws : List Word := [0x6000003D, 0x000003C0]
    let one : State := { stateM with agenda := [.command (ws ++ [])] }
    let two : State := { stateM with agenda := [.command (ws ++ [0x1000001D]), .proceed] }
    one.seq = .idle ∧ two.seq = .idle ∧ decode ws = .ok (.setType 61 .edgeBoth) ∧
    one.agenda = .command (ws ++ []) :: [] ∧ two.agenda = .command (ws ++ [0x1000001D]) :: [.proceed] := by decide

theorem witness_IllegalCommandIsRefused :
    (stateT.seq = .idle ∧ { stateT with agenda := [.command [0xC0000000]] }.agenda = .command [0xC0000000] :: [] ∧
      [(0xC0000000 : Word)].length = commandLength 0xC0000000 ∧ decode [0xC0000000] = .error .reservedOpcode) ∧
    ([(0x6000003D : Word), 0x00000000].length = commandLength 0x6000003D ∧
      decode [0x6000003D, 0x00000000] = .error .setTypeGroups) ∧
    (stateT.params.numLines ≤ 2 ∧ ¬stateT.params.numLines ≤ 1) := by decide

theorem witness_StateRefusals :
    (stateT.seq = .idle ∧ 1 < stateT.params.numLines) ∧ State.reset.booted = false ∧
    (stateZ.booted = true ∧ stateZ.sleepState = .asleep) ∧ (stateT.booted = true ∧ stateT.sleepState = .awake) ∧
    stateP.pass ≠ none ∧ stateR.replayRun ≠ none ∧ (∃ t, exec (.lineIrq 1) stateT = .next t) ∧
    (∃ t, exec .replay stateS8 = .next t) := by
  refine ⟨by decide, rfl, ⟨rfl, rfl⟩, ⟨rfl, rfl⟩, by decide, by decide, ⟨_, rfl⟩, ⟨_, rfl⟩⟩

/-- A result OK, a result OutOfRange, a ConvergenceBound beside a result OK, a fault mark. -/
theorem witness_CommandsReportTheirCodes :
    nextIs (exec (.read 42) stateM) (fun t => t.events.map eventCode == [some 0x0]) = true ∧
    nextIs (exec (.read 43) stateM) (fun t => t.events.map eventCode == [some 0x1]) = true ∧
    nextIs (exec (.setType 61 .edgeBoth) { stateB with
        seq := .idle, choices := { stateB.choices with pins := [[], []] ++ stateB.choices.pins } })
      (fun t => t.events.map eventCode == [some 0x2, some 0x0]) = true ∧
    nextIs (exec .replay { stateS8 with mem := [(0x1000, 9)] }) (fun t => t.fault.map faultCode == some 0x4) = true := by
  refine ⟨by decide, by decide, by decide, by decide⟩

theorem witness_AgentDutiesHaveNoStep :
    (stateZ.seq = .idle ∧ stateZ.booted = true ∧ 1 < stateZ.params.numLines ∧ stateZ.sleepState = .asleep) ∧
    (stateP.seq = .idle ∧ stateP.pass ≠ none) ∧ stateT.replayPending = false ∧ stateR.replayRun ≠ none := by decide

theorem witness_OutOfRangeChangesNothing :
    stateT.Ready ∧ (∀ k ∈ stateT.banks, ¬(k.desc.start ≤ 15 ∧ 15 ≤ k.desc.last)) ∧
    (∀ k ∈ stateT.banks, ¬(k.desc.start ≤ 43 ∧ 43 ≤ k.desc.last)) ∧ 31 < stateT.params.baseIrq ∧
    (∀ k ∈ stateT.banks, ¬(k.desc.start ≤ 112 - stateT.params.baseIrq ∧ 112 - stateT.params.baseIrq ≤ k.desc.last)) :=
  ⟨ready_T, by decide, by decide, by decide, by decide⟩

theorem witness_PinResolution : tableOk stateT.params stateT.banks = true ∧ 31 < stateT.params.baseIrq :=
  ⟨table_T, by decide⟩

theorem witness_ReadGivesPadLevel : stateT.Ready ∧ resolve stateT 42 = some (0, 26) ∧ resolve stateT 79 = some (1, 31) :=
  ⟨ready_T, by decide, by decide⟩

theorem witness_WriteSetsOutputLevel :
    stateT.Ready ∧ resolve stateT 16 = some (0, 0) ∧ resolve stateT 79 = some (1, 31) := ⟨ready_T, by decide, by decide⟩

theorem witness_ConfigureOutputDirectionOwner :
    stateM.Ready ∧ resolve stateM 16 = some (0, 0) ∧ resolve stateM 79 = some (1, 31) := ⟨ready_M, by decide, by decide⟩

theorem witness_EmptyConfigureTouchesNothing : stateM.Ready ∧ resolve stateM 48 = some (1, 0) := ⟨ready_M, by decide⟩

/-- Pins 42 and 79 are the last of their banks; pin 29 is a level pin, pin 18 an edge pin with a shadow bit, pin 16 a
both-edge pin. -/
theorem witness_ConfigureReflectsGroups :
    stateM.Ready ∧ resolve stateM 79 = some (1, 31) ∧ (stateM.bank 1).width = 32 ∧ resolve stateM 42 = some (0, 26) ∧
    (stateM.bank 0).width ≤ 32 ∧ resolve stateM 29 = some (0, 13) ∧ (stateM.bank 0).intEdge.getLsbD 13 = false ∧
    resolve stateM 18 = some (0, 2) ∧ (stateM.bank 0).shadow.getLsbD 2 = true ∧
    (stateM.bank 0).intEdge.getLsbD 2 = true ∧ (stateM.bank 0).be.getLsbD 26 = false ∧ 26 < (stateM.bank 0).width ∧
    nextIs (exec (.configure 18 { int := some false }) stateM) (fun t => (t.bank 0).shadow == 0) = true ∧
    nextIs (exec (.configure 18 { trig := some .levelHigh, int := some true }) stateM) (fun t =>
      (t.bank 0).shadow.getLsbD 2 == false && (t.bank 0).en0 == 0x2005) = true := by
  refine ⟨ready_M, by decide, by decide, by decide, by decide, by decide, by decide, by decide, by decide, by decide,
    by decide, by decide, by decide, by decide⟩

/-- CONFIGURE with int=on on steady pins: pin 29 is a level pin with a stale status, which is cleared, pin 18 an edge pin,
which keeps its own; pin 16, a both-edge pin made a level pin, loses its own too. -/
theorem witness_ConfigureReflectsGroups_steady :
    (∃ t, exec (.configure 29 { int := some true }) stateM = .next t ∧ SteadyPins stateM t ∧
      (t.bank 0).intEdge.getLsbD 13 = false ∧ (stateM.bank 0).be.getLsbD 13 = false ∧
      (stateM.bank 0).intStatus.getLsbD 13 = true ∧ (t.bank 0).intStatus.getLsbD 13 = false) ∧
    (∃ t, exec (.configure 18 { int := some true }) stateM = .next t ∧ SteadyPins stateM t ∧
      (stateM.bank 0).intEdge.getLsbD 2 = true ∧ (t.bank 0).intStatus = 0x2005) ∧
    ∃ t, exec (.configure 16 { trig := some .levelHigh, int := some true }) stateM = .next t ∧ SteadyPins stateM t ∧
      (t.bank 0).intEdge.getLsbD 0 = false ∧ (t.bank 0).intStatus.getLsbD 0 = false := by
  refine ⟨⟨_, rfl, ⟨List.replicate 4 [], ?_⟩, ?_⟩, ⟨_, rfl, ⟨List.replicate 2 [], ?_⟩, ?_⟩,
    ⟨_, rfl, ⟨List.replicate 8 [], ?_⟩, ?_⟩⟩ <;> decide

/-- Pin 16 is a both-edge pin beside the configured one; pin 18 is not. -/
theorem witness_ConfigureLeavesOtherPins :
    stateM.Ready ∧ resolve stateM 42 = some (0, 26) ∧
    (stateM.bank 0).intEn &&& (stateM.bank 0).wmask = (stateM.bank 0).en0 ∧
    (∃ t, exec (.configure 42 { out := some true }) stateM = .next t) ∧ 0 < (stateM.bank 0).width ∧
    (stateM.bank 0).be.getLsbD 0 = true ∧ (stateM.bank 0).be.getLsbD 2 = false ∧
    (stateM.bank 0).intStatus.getLsbD 2 = true := by
  refine ⟨ready_M, by decide, by decide, ⟨_, rfl⟩, by decide, by decide, by decide, by decide⟩

theorem witness_SetTypeOnePolarity :
    stateM.Ready ∧ resolveIrq stateM 48 = some (0, 0) ∧ resolveIrq stateM 111 = some (1, 31) ∧
    triggerPolarity .levelLow = some false ∧ triggerPolarity .edgeRise = some true := by
  refine ⟨ready_M, by decide, by decide, by decide, by decide⟩

/-- SET_TYPE to a rising edge changes both trigger bits of pin 42, and the drawn spurious status appears. -/
theorem witness_SpuriousStatusOnChangedBits :
    stateM.Ready ∧ resolveIrq stateM 74 = some (0, 26) ∧ triggerPolarity .edgeRise = some true ∧
    stateM.choices.pins = [[], [], [], []] ++ List.replicate 60 [] ∧
    nextIs (exec (.setType 74 .edgeRise) { stateM with
      choices := { quiet with words := [0, 0xFFFFFFFF, 0, 0xFFFFFFFF] } })
      (fun t => (t.bank 0).intStatus == 0x04002005) = true := by
  refine ⟨ready_M, by decide, by decide, by decide, by decide⟩

/-- The machine logs nothing here, and pins 16 and 29 end in the both-edge mask, pin 18 outside it. -/
theorem witness_SetTypeBothEdges :
    stateM.Ready ∧ resolveIrq stateM 61 = some (0, 13) ∧ 1 ≤ stateM.params.beMaxPasses ∧
    nextIs (exec (.setType 61 .edgeBoth) stateM) (fun t =>
      t.events == [.result (.setType 61 .edgeBoth) 0x60000000] && (t.bank 0).be == 0x2001) = true := by
  refine ⟨ready_M, by decide, by decide, by decide⟩

/-- From `stateM` a run ends STABLE; from `stateB` it ends BOUND, after 15 accesses, with the levels 0 and 0x2000. -/
theorem witness_BothEdgeExit :
    (1 < stateM.banks.length ∧ 1 ≤ stateM.params.beMaxPasses ∧ 0 < (stateM.bank 0).width ∧
      (stateM.bank 0).be.getLsbD 0 = true ∧ (bothEdge stateM 0).events = stateM.events) ∧
    (0 < stateB.banks.length ∧ 1 ≤ stateB.params.beMaxPasses ∧ stateB.seq = .busy (.ack 61) 3 ∧
      (bothEdge stateB 0).seq = .busy (.ack 61) 18 ∧
      (bothEdge stateB 0).events = [.convergenceBound 0 0x00000000 0x00002000] ∧
      ((bothEdge stateB 0).bank 0).intPos.getLsbD 13 = true ∧ 13 < (stateB.bank 0).width ∧
      (stateB.bank 0).be.getLsbD 13 = true) := by decide

theorem witness_BothEdgeBounded : (stateM.start (.ack 48)).seq = .busy (.ack 48) 0 := rfl

theorem witness_BothEdgeSettlesOnSteadyPins :
    0 < stateM.banks.length ∧ 1 ≤ stateM.params.beMaxPasses ∧
    stateM.choices.pins = [[], [], [], [], []] ++ List.replicate 59 [] ∧
    (stateM.bank 0).be &&& ~~~(stateM.bank 0).wmask = 0 := by decide

theorem witness_MaskDisablesAndDropsShadow :
    stateM.Ready ∧ resolveIrq stateM 50 = some (0, 2) ∧ resolveIrq stateM 111 = some (1, 31) :=
  ⟨ready_M, by decide, by decide⟩

theorem witness_UnmaskEdgePin :
    stateM.Ready ∧ resolveIrq stateM 111 = some (1, 31) ∧ (stateM.bank 1).intEdge.getLsbD 31 = true :=
  ⟨ready_M, by decide, by decide⟩

/-- Pin 29 is level-triggered; pin 18 is in the shadow, pin 16 pending beside it. -/
theorem witness_UnmaskLevelPin :
    stateM.Ready ∧ resolveIrq stateM 61 = some (0, 13) ∧ (stateM.bank 0).intEdge.getLsbD 13 = false ∧
    (stateM.bank 0).be &&& bitAt 13 = 0 ∧ (stateM.bank 0).shadow.getLsbD 2 = true ∧ 0 < (stateM.bank 0).width ∧
    (stateM.bank 0).intStatus.getLsbD 0 = true ∧ 26 < (stateM.bank 0).width ∧
    (stateM.bank 0).be.getLsbD 26 = false := by
  refine ⟨ready_M, by decide, by decide, by decide, by decide, by decide, by decide, by decide, by decide⟩

theorem witness_UnmaskClearsStaleStatus :
    stateM.Ready ∧ resolveIrq stateM 61 = some (0, 13) ∧ (stateM.bank 0).intEdge.getLsbD 13 = false ∧
    (stateM.bank 0).be &&& bitAt 13 = 0 ∧ stateM.choices.pins = [[], [], [], []] ++ List.replicate 60 [] ∧
    stateM.choices.words = 0 :: 0 :: 0 :: List.replicate 61 0 := by
  refine ⟨ready_M, by decide, by decide, by decide, by decide, by decide⟩

/-- Pin 29 is not a both-edge pin, pin 16 is; pins 18 and 42, the last one, are not. -/
theorem witness_AckSavesOtherPending :
    stateM.Ready ∧ resolveIrq stateM 61 = some (0, 13) ∧ (stateM.bank 0).be &&& bitAt 13 = 0 ∧
    (stateM.bank 0).shadow.getLsbD 2 = true ∧ 0 < (stateM.bank 0).width ∧
    (stateM.bank 0).intStatus.getLsbD 0 = true ∧ resolveIrq stateM 48 = some (0, 0) ∧
    (stateM.bank 0).be.getLsbD 0 = true ∧ (stateM.bank 0).be.getLsbD 2 = false ∧ 26 < (stateM.bank 0).width ∧
    (stateM.bank 0).be.getLsbD 26 = false := by
  refine ⟨ready_M, by decide, by decide, by decide, by decide, by decide, by decide, by decide, by decide, by decide,
    by decide⟩

theorem witness_AckExactWithErratum :
    stateM.Ready ∧ resolveIrq stateM 111 = some (1, 31) ∧ (stateM.bank 1).be &&& bitAt 31 = 0 ∧
    stateM.choices.pins = [[], []] ++ List.replicate 62 [] ∧
    stateM.choices.words = 0 :: 0 :: List.replicate 62 0 := by
  refine ⟨ready_M, by decide, by decide, by decide, by decide⟩

/-- The both-edge pin 16, pending, whose status the ACK clears. -/
theorem witness_AckExactWithErratum_bothEdge :
    resolveIrq stateM 48 = some (0, 0) ∧ (stateM.bank 0).be &&& bitAt 0 ≠ 0 ∧
    (stateM.bank 0).be &&& ~~~(stateM.bank 0).wmask = 0 ∧ 1 ≤ stateM.params.beMaxPasses ∧
    stateM.choices.pins = [[], [], [], [], [], [], []] ++ List.replicate 57 [] ∧
    stateM.choices.words = 0 :: 0 :: 0 :: 0 :: 0 :: 0 :: 0 :: List.replicate 57 0 ∧
    (stateM.bank 0).intStatus.getLsbD 0 = true ∧
    nextIs (exec (.ack 48) stateM) (fun t => (t.bank 0).intStatus == 0x2004) = true := by
  refine ⟨by decide, by decide, by decide, by decide, by decide, by decide, by decide, by decide⟩

theorem witness_AckRearmsBothEdgePins :
    stateM.Ready ∧ resolveIrq stateM 48 = some (0, 0) ∧ (stateM.bank 0).be.getLsbD 0 = true ∧
    1 ≤ stateM.params.beMaxPasses ∧ 0 < (stateM.bank 0).width ∧
    nextIs (exec (.ack 48) stateM) (fun t => t.events == [.result (.ack 48) 0x50000000]) = true := by
  refine ⟨ready_M, by decide, by decide, by decide, by decide, by decide⟩

theorem witness_SetWakeWritesWakeSetOnly :
    (stateM.seq = .idle ∧ stateM.booted = true ∧ stateM.sleepState = .awake) ∧
    (stateZ.seq = .idle ∧ stateZ.booted = true ∧ stateZ.sleepState = .asleep) ∧ resolveIrq stateM 75 = none ∧
    resolveIrq stateM 74 = some (0, 26) ∧ resolveIrq stateM 80 = some (1, 0) := by decide

/-- Line 0 has bank 0 first; line 1 has no bank. -/
theorem witness_LineIrqTakesSnapshot :
    stateM.Ready ∧ stateM.pass = none ∧ 0 < stateM.params.numLines ∧ (stateM.bank 0).desc.line = 0 ∧
    (stateM.bank 0).en0 &&& ~~~(stateM.bank 0).wmask = 0 ∧ 1 < stateM.params.numLines ∧
    (∀ b < stateM.banks.length, (stateM.bank b).desc.line ≠ 1) :=
  ⟨ready_M, rfl, by decide, rfl, by decide, by decide, by decide⟩

/-- The lowest bit of the working word 0x2004 is 2; bits 0 and 31 are met too; the agenda is empty, or says to go on. -/
theorem witness_PassDispatchesLowestBit :
    (stateP.seq = .idle ∧ stateP.GoesOn [] ∧ stateP.pass = some ⟨0, 0, 0x2004⟩ ∧
      (0x2004 : Word).getLsbD 2 = true ∧ ∀ j < 2, (0x2004 : Word).getLsbD j = false) ∧
    { stateP with agenda := [.proceed, .boot] }.GoesOn [.boot] ∧ (0x80000001 : Word).getLsbD 0 = true ∧
    (0x80000000 : Word).getLsbD 31 = true ∧ ∀ j < 31, (0x80000000 : Word).getLsbD j = false :=
  ⟨⟨rfl, .inr ⟨rfl, rfl⟩, rfl, by decide, by decide⟩, .inl rfl, by decide, by decide, by decide⟩

theorem witness_PassDispatchesExactlySetBits :
    stateP.seq = .idle ∧ stateP.agenda = [] ∧ stateP.pass = some ⟨0, 0, 0x2004⟩ ∧ setBits 0x2004 = [2, 13] ∧
    (setBits 0xFFFFFFFF).length = 32 ∧ setBits 0 = [] := by decide

/-- After bank 0 comes bank 1; after bank 1 the pass ends. -/
theorem witness_PassVisitsNextBankOrEnds :
    let p0 : State := { stateM with pass := some ⟨0, 0, 0⟩ }
    let p1 : State := { stateM with pass := some ⟨0, 1, 0⟩ }
    (p0.seq = .idle ∧ p0.GoesOn [] ∧ { p0 with agenda := [.proceed, .boot] }.GoesOn [.boot] ∧ p0.pass = some ⟨0, 0, 0⟩ ∧ 1 < p0.banks.length ∧ (p0.bank 1).desc.line = 0 ∧
      (p0.bank 1).en0 &&& ~~~(p0.bank 1).wmask = 0) ∧
    (p1.pass = some ⟨0, 1, 0⟩ ∧ ∀ b', 1 < b' → b' < p1.banks.length → (p1.bank b').desc.line ≠ 0) := by
  refine ⟨⟨rfl, .inr ⟨rfl, rfl⟩, .inl rfl, rfl, by decide, rfl, by decide⟩, rfl, fun b' h1 h2 => ?_⟩
  have h3 : b' < 2 := h2
  omega

/-- The line is asserted in one state and not in the other. -/
theorem witness_LineLevel : lineAsserted stateM 0 = true ∧ lineAsserted stateT 0 = false := by decide

theorem witness_EnterSleepWritesSelectedSet :
    stateM.Ready ∧ stateM.pass = none ∧ stateM.replayRun = none ∧ tableOk stateM.params stateM.banks = true ∧
    { stateM with mailboxPresent := false }.mailboxPresent = false := ⟨ready_M, rfl, rfl, table_M, rfl⟩

/-- Pin 43, bit 11 of array word 1, belongs to no bank. -/
theorem witness_EnterSleepPacksEveryBank :
    stateM.Ready ∧ stateM.pass = none ∧ stateM.replayRun = none ∧ tableOk stateM.params stateM.banks = true ∧
    stateM.mailboxPresent = true ∧ Memory.wf stateM.mem = true ∧ 1 < stateM.banks.length ∧ 2 < stateM.nwords ∧
    (∀ k ∈ stateM.banks, ¬(k.desc.start ≤ 32 * 1 + 11 ∧ 32 * 1 + 11 ≤ k.desc.last)) :=
  ⟨ready_M, rfl, rfl, table_M, rfl, rfl, by decide, by decide, by decide⟩

theorem witness_EnterSleepClearsTheRest :
    stateM.Ready ∧ stateM.pass = none ∧ stateM.replayRun = none ∧ tableOk stateM.params stateM.banks = true ∧
    stateM.mailboxPresent = true ∧ Memory.wf stateM.mem = true ∧
    nextIs (exec (.enterSleep true) stateM) (fun t => t.sleepState == .asleep) = true ∧
    7 < stateM.params.firedCap ∧
    0xFFF < stateM.params.mbBase ∧ stateM.params.mbBase + stateM.mailboxSize ≤ 0x1048 := by
  refine ⟨ready_M, rfl, rfl, table_M, rfl, rfl, by decide +kernel, by decide, by decide, by decide⟩

theorem witness_ExitSleepRestoresActiveSet :
    stateZ.seq = .idle ∧ stateZ.booted = true ∧ stateZ.sleepState = .asleep ∧ 0 < stateZ.field (stateZ.countAddr 0) 2 ∧
    ¬0 < stateZ.field (stateZ.countAddr 1) 2 := by decide

/-- A count at the bound K = 8, and one above it. -/
theorem witness_ReplayStartsOrFaults :
    let atBound : State := { stateS8 with mem := [(0x1000, 8)] }
    let above : State := { stateS8 with mem := [(0x1000, 9)] }
    (atBound.Ready ∧ atBound.replayPending = true ∧ atBound.pass = none ∧ atBound.replayRun = none ∧
      atBound.mailboxPresent = true ∧ atBound.field (atBound.countAddr 0) 2 ≤ atBound.params.firedCap) ∧
    (above.Ready ∧ above.params.firedCap < above.field (above.countAddr 0) 2 ∧ above.GoesOn [] ∧
      nextIs (exec .replay above) (fun t => t.agenda == []) = true) :=
  ⟨⟨⟨rfl, rfl, rfl, rfl⟩, rfl, rfl, rfl, rfl, by decide⟩, ⟨rfl, rfl, rfl, rfl⟩, by decide, .inr ⟨rfl, rfl⟩, by decide⟩

/-- The last entry of group 1; `fired[1][1]` is pin 44, in no bank. -/
theorem witness_ReplayStepHandsOverOneEntry :
    stateR.seq = .idle ∧ stateR.GoesOn [] ∧ { stateR with agenda := [.proceed, .boot] }.GoesOn [.boot] ∧
    stateR.pass = none ∧ stateR.fault = none ∧ stateR.mailboxPresent = true ∧
    stateR.replayRun = some ⟨1, 2, 1⟩ ∧ 2 ≤ stateR.params.firedCap ∧ stateR.field (stateR.firedAddr 1 1) 2 = 44 ∧
    firedEvent stateR 44 = .logOutOfRange 44 ∧ firedEvent stateR 79 = .dispatch 111 .replay := by
  refine ⟨rfl, .inr ⟨rfl, rfl⟩, .inl rfl, rfl, rfl, rfl, rfl, by decide, by decide, by decide, by decide⟩

/-- Group 0 is done and the count of group 1 is at the bound K = 8, or above it; group 1 is done, or has no entry. -/
theorem witness_ReplayEndsEachGroup :
    let atBound : State := { stateS8 with replayRun := some ⟨0, 1, 1⟩, mem := [(0x1000, 1), (0x1002, 8)] }
    let above : State :=
      { stateS8 with replayRun := some ⟨0, 1, 1⟩, mem := [(0x1000, 1), (0x1002, 9)], agenda := [.proceed, .proceed] }
    let last : State := { stateR with replayRun := some ⟨1, 2, 2⟩ }
    let empty : State := { stateR with replayRun := some ⟨1, 0, 0⟩, agenda := [.proceed, .boot] }
    (atBound.seq = .idle ∧ atBound.GoesOn [] ∧ atBound.pass = none ∧ atBound.fault = none ∧
      atBound.mailboxPresent = true ∧ atBound.replayRun = some ⟨0, 1, 1⟩ ∧
      atBound.field (atBound.countAddr 1) 2 ≤ atBound.params.firedCap) ∧
    (above.GoesOn [.proceed] ∧ above.params.firedCap < above.field (above.countAddr 1) 2 ∧
      nextIs (step above) (fun t => t.agenda == [.proceed] && t.fault == some (.mailboxCountOverflow 1 9)) = true) ∧
    (last.seq = .idle ∧ last.GoesOn [] ∧ last.pass = none ∧ last.fault = none ∧ last.replayRun = some ⟨1, 2, 2⟩) ∧
    (empty.GoesOn [.boot] ∧ empty.replayRun = some ⟨1, 0, 0⟩) :=
  ⟨⟨rfl, .inr ⟨rfl, rfl⟩, rfl, rfl, rfl, rfl, by decide⟩, ⟨.inl rfl, by decide, by decide⟩,
    ⟨rfl, .inr ⟨rfl, rfl⟩, rfl, rfl, rfl⟩, .inl rfl, rfl⟩

theorem witness_ReplayRunsToItsEnd :
    let s : State := { stateR with replayRun := some ⟨0, 1, 0⟩ }
    s.seq = .idle ∧ s.agenda = [] ∧ s.pass = none ∧ s.fault = none ∧ s.mailboxPresent = true ∧
    s.replayRun = some ⟨0, 1, 0⟩ ∧ 1 ≤ s.params.firedCap ∧ s.field (s.countAddr 1) 2 = 2 ∧
    2 ≤ s.params.firedCap := by decide

theorem witness_DetectorLatchesStatus :
    { stateM with agenda := [.pins ⟨1, 0x80000000, 0⟩] }.agenda = .pins ⟨1, 0x80000000, 0⟩ :: [] ∧
    1 < stateM.banks.length ∧ stateM.sleepState = .awake ∧ stateZ.sleepState = .asleep := by decide

/-- The last byte of the mailbox, and the first byte after it. -/
theorem witness_CoprocessorWritesMailboxOnlyAsleep :
    { stateZ with agenda := [.mailboxByte 71 7] }.agenda = .mailboxByte 71 7 :: [] ∧ stateZ.sleepState = .asleep ∧
    stateZ.mailboxPresent = true ∧ 71 < stateZ.mailboxSize ∧ Memory.wf stateZ.mem = true ∧ stateZ.mailboxSize ≤ 72 ∧
    stateM.sleepState = .awake := by decide

theorem witness_StatusClearedOnlyByClearDetect :
    (∃ t, exec (.mask 61) stateM = .next t) ∧ (Instr.mask 61).hasClear = false ∧ 1 < stateM.banks.length :=
  ⟨⟨_, rfl⟩, rfl, by decide⟩

/-- On steady pins: MASK, which has neither trigger group nor ClearDetect; a SET_TYPE whose draw raises a status bit; and
a step of a pass, a step of a replay, boot and a coprocessor write. -/
theorem witness_StatusClearedOnlyByClearDetect_steady :
    (∃ t, exec (.mask 61) stateM = .next t ∧ SteadyPins stateM t ∧ (Instr.mask 61).hasTrigger = false) ∧
    (let s : State := { stateM with choices := { stateM.choices with words := List.replicate 64 0xFFFFFFFF } }
      ∃ t, exec (.setType 74 .edgeRise) s = .next t ∧ SteadyPins s t ∧ (s.bank 0).intStatus.getLsbD 26 = false ∧
        (t.bank 0).intStatus.getLsbD 26 = true) ∧
    (∃ t, step stateP = .next t ∧ SteadyPins stateP t) ∧ (∃ t, step stateR = .next t ∧ SteadyPins stateR t) ∧
    (let s : State := { stateT with booted := false, agenda := [.boot] }
      ∃ t, step s = .next t ∧ SteadyPins s t) ∧
    (let s : State := { stateZ with agenda := [.mailboxByte 71 1] }
      ∃ t, step s = .next t ∧ SteadyPins s t) := by
  refine ⟨⟨_, rfl, ⟨List.replicate 1 [], ?_⟩, ?_⟩, ⟨_, rfl, ⟨List.replicate 4 [], ?_⟩, ?_⟩, ⟨_, rfl, [], ?_⟩,
    ⟨_, rfl, List.replicate 1 [], ?_⟩, ⟨_, rfl, List.replicate 2 [], ?_⟩, ⟨_, rfl, [], ?_⟩⟩ <;> decide

/-- A command for which each clause applies. -/
theorem witness_OnlyNamedWriters :
    (∃ t, exec (.read 42) stateM = .next t) ∧ (∃ t, exec (.write 42 true) stateM = .next t) ∧
    (let i := Instr.read 42;
      i.hasOutput = false ∧ i.hasDirection = false ∧ i.hasOwner = false ∧ i.hasTrigger = false ∧ i.hasEnable = false ∧
      i.hasClear = false ∧ i.hasWake = false ∧ i.isSleep = false) ∧ 1 < stateM.banks.length :=
  ⟨⟨_, rfl⟩, ⟨_, rfl⟩, by decide, by decide⟩

theorem witness_MailboxWrittenOnlyByEnterSleep :
    (∃ t, exec .exitSleep stateZ = .next t) ∧ (∃ t, step stateR = .next t) ∧ stateR.GoesOn [] ∧
    (∃ t, step { stateR with agenda := [.proceed, .boot] } = .next t) ∧
    { stateR with agenda := [.proceed, .boot] }.GoesOn [.boot] :=
  ⟨⟨_, rfl⟩, ⟨_, rfl⟩, .inr ⟨rfl, rfl⟩, ⟨_, rfl⟩, .inl rfl⟩

/-- Two states that differ in an `owner` register only. -/
theorem witness_OwnershipHasNoEffect :
    let other : State := { stateM with banks := stateM.banks.map fun k => { k with owner := 0x2001 } }
    stateM.ownerless = other.ownerless ∧ stateM ≠ other := by decide

theorem witness_FieldByteOrder :
    (∃ t, memWrite stateR 0x1044 4 0xFFFFFFFF = .ok t) ∧ (∃ v t, memRead stateR 0x1000 2 = .ok (v, t)) ∧
    Memory.wf stateR.mem = true ∧ 0xFFFF < 2 ^ 16 ∧ 0xFFFFFFFF < 2 ^ 32 := ⟨⟨_, rfl⟩, ⟨_, _, rfl⟩, by decide⟩

end Sys2Proof.Tests
end

section
/-! Settling the scope statements (00_scope.md R7, R8): a pin resolves to the one bank of a checked table that holds it. -/

namespace Sys2Proof.Machine

theorem resolve_none_iff {s : State} {p : Nat} :
    resolve s p = none ↔ ∀ k ∈ s.banks, ¬(k.desc.start ≤ p ∧ p ≤ k.desc.last) := resolveFrom_none s.banks 0 p

/-- At most one bank of a checked table holds a pin (00_scope.md R6, R7). -/
theorem table_owner_unique {s : State} (ht : tableOk s.params s.banks = true) {p b b' : Nat}
    (hb : b < s.banks.length) (hb' : b' < s.banks.length)
    (ho : (s.bank b).desc.start ≤ p ∧ p ≤ (s.bank b).desc.last)
    (ho' : (s.bank b').desc.start ≤ p ∧ p ≤ (s.bank b').desc.last) : b = b' := by
  by_contra hn
  have hd := table_disjoint ht hb hb' hn
  omega

/-- A pin inside a bank of a checked table resolves to that bank: the search finds some owner, and there is only one. -/
theorem resolve_of_owns {s : State} (ht : tableOk s.params s.banks = true) {p b : Nat} (hb : b < s.banks.length)
    (ho : (s.bank b).desc.start ≤ p ∧ p ≤ (s.bank b).desc.last) :
    resolve s p = some (b, p - (s.bank b).desc.start) := by
  cases hr : resolve s p with
  | none => exact absurd ho (resolve_none_iff.1 hr _ (bank_mem hb))
  | some r =>
    obtain ⟨b', off⟩ := r
    obtain ⟨hb', hstart, hlast, rfl, -⟩ := resolve_some hr
    obtain rfl := table_owner_unique ht hb hb' ho ⟨hstart, hlast⟩
    rfl

theorem resolve_eq_some_iff {s : State} (ht : tableOk s.params s.banks = true) {p b off : Nat} :
    resolve s p = some (b, off) ↔
      b < s.banks.length ∧ (s.bank b).desc.start ≤ p ∧ p ≤ (s.bank b).desc.last ∧ off = p - (s.bank b).desc.start := by
  constructor
  · intro h
    obtain ⟨hb, hstart, hlast, hoff, -⟩ := resolve_some h
    exact ⟨hb, hstart, hlast, hoff⟩
  · rintro ⟨hb, hstart, hlast, rfl⟩
    exact resolve_of_owns ht hb ⟨hstart, hlast⟩

theorem resolve_offset_lt_width {s : State} {p b off : Nat} (h : resolve s p = some (b, off)) :
    off < (s.bank b).width := by
  obtain ⟨-, -, -, -, hoff⟩ := resolve_some h
  exact hoff

@[simp] theorem resolveIrq_base_add (s : State) (p : Nat) : resolveIrq s (s.params.baseIrq + p) = resolve s p := by
  simp [resolveIrq]

theorem resolveIrq_below_base {s : State} {n : Nat} (h : n < s.params.baseIrq) : resolveIrq s n = none :=
  if_neg (Nat.not_le.2 h)

/-- Settles O19: the search finds an owner when there is one, and the table's disjoint ranges leave only one. -/
theorem pinResolution : Obligations.PinResolution := by
  intro s ht p
  exact ⟨fun _ _ => resolve_eq_some_iff ht, fun _ _ => resolve_offset_lt_width, resolve_none_iff,
    resolveIrq_base_add s p, resolveIrq_below_base⟩

end Sys2Proof.Machine
end

section
/-! What a step and a command can do, said once: the inversions of `step` and `exec` that the statements about every
step of the block start from. -/

namespace Sys2Proof.Machine

/-! ### One step -/

/-- What `step` answers once the next input is taken: `u` is the state with the agenda the step leaves. -/
inductive Moves (u : State) (a : Answer) : Prop
  | command (i : Instr) (e : exec i u = a)
  | illegal (ws : List Word) (e : .next (u.refuse .illegalCommand (.words ws)) = a)
  | stuck (r : Refusal) (e : .refused r = a)
  | boot (e : bootRegistration u = a)
  | pins (p : PinStep) (e : .next (pinEnvironment u p) = a)
  | mailboxByte (offset : Nat) (v : Byte) (e : coprocessorWrite u offset v = a)
  | goesOn (e : advance u = a)

/-- The answer of `step`, given what `fetch` found. -/
def Fetched.answer : Fetched → Answer
  | .run i t => exec i t
  | .done o => o

theorem step_eq_answer_fetch (s : State) : step s = (fetch s).answer := rfl

theorem fetchCommand_moves (u : State) (ws : List Word) :
    ∃ agenda, Moves { u with agenda := agenda } (fetchCommand u ws).answer := by
  unfold fetchCommand
  cases ws with
  | nil => exact ⟨u.agenda, .stuck .commandPort rfl⟩
  | cons c rest =>
    by_cases hidle : u.seq.isIdle = true
    · by_cases hlen : (c :: rest).length < commandLength c
      · exact ⟨u.agenda, .stuck .commandPort (by simp only [hidle, hlen, if_true]; rfl)⟩
      · simp only [hidle, hlen, if_true, if_false]
        generalize rest.drop (commandLength c - 1) = later
        refine ⟨if later = [] then u.agenda else .command later :: u.agenda, ?_⟩
        rw [show { u with agenda := if later = [] then u.agenda else .command later :: u.agenda } =
          if later = [] then u else { u with agenda := .command later :: u.agenda } from by split <;> rfl]
        cases decode ((c :: rest).take (commandLength c)) with
        | ok i => exact .command i rfl
        | error _ => exact .illegal _ rfl
    · exact ⟨u.agenda, .stuck .sequencerBusy (by simp only [hidle]; rfl)⟩

/-- A step takes an input, or goes on; all it does to the state before is to change the agenda. -/
theorem step_moves (s : State) : ∃ agenda, Moves { s with agenda := agenda } (step s) := by
  rw [step_eq_answer_fetch]
  unfold fetch
  cases ha : s.agenda with
  | nil => exact ⟨s.agenda, .goesOn rfl⟩
  | cons input rest =>
    cases input with
    | boot => exact ⟨rest, .boot rfl⟩
    | command ws => exact fetchCommand_moves { s with agenda := rest } ws
    | pins p => exact ⟨rest, .pins p rfl⟩
    | mailboxByte offset v => exact ⟨rest, .mailboxByte offset v rfl⟩
    | proceed => exact ⟨rest, .goesOn rfl⟩

theorem moves_of_step {s : State} {a : Answer} (e : step s = a) : ∃ agenda, Moves { s with agenda := agenda } a :=
  e ▸ step_moves s

/-! ### One command -/

/-- What a pin or interrupt command does to the bank and the bit its number resolved to; nothing for the others. -/
def bodyOf : Instr → State → Nat → Nat → State
  | .configure _ o => configureBody o
  | .read _ => fun s b _ => (regRead s b .inp).2
  | .write _ level => fun s b off => outputGroup s b (bitAt off) level
  | .mask _ => maskBody
  | .unmask _ => unmaskBody
  | .ack _ => clearDetect
  | .setType _ t => fun s b off => triggerGroup s b (bitAt off) t
  | .setWake _ v => fun s b off => wakeBody s b off v
  | .lineIrq _ => fun s _ _ => s
  | .enterSleep _ => fun s _ _ => s
  | .exitSleep => fun s _ _ => s
  | .replay => fun s _ _ => s

/-- What `exec` answers for command `i`. -/
inductive Ends (s : State) (a : Answer) : Instr → Prop
  | stuck {i : Instr} (r : Refusal) (e : .refused r = a) : Ends s a i
  | refuse {i : Instr} (r : RefuseReason) (e : .next (s.refuse r (.command i)) = a) : Ends s a i
  | outOfRange {i : Instr} (e : .next ((s.start i).raise i) = a) : Ends s a i
  | onBank {i : Instr} (b off : Nat) (v : Bool) (booted : s.booted = true) (awake : s.sleepState = .awake)
      (hb : b < s.banks.length) (ho : off < (s.bank b).width)
      (e : .next ((bodyOf i (s.start i) b off).finish i .ok v) = a) : Ends s a i
  | passStarts (l : Nat) (awake : s.sleepState = .awake)
      (e : .next { passVisit (s.start (.lineIrq l)) l 0 with seq := .idle } = a) : Ends s a (.lineIrq l)
  | enterSleep (fi : Bool) (booted : s.booted = true) (pass : s.pass = none) (run : s.replayRun = none)
      (e : answer (enterSleepBody (s.start (.enterSleep fi)) fi) = a) : Ends s a (.enterSleep fi)
  | exitSleep (booted : s.booted = true) (asleep : s.sleepState = .asleep)
      (e : answer (exitSleepBody (s.start .exitSleep)) = a) : Ends s a .exitSleep
  | replayStarts (pending : s.replayPending = true) (awake : s.sleepState = .awake)
      (e : answer ((replayGroup (s.start .replay) 0).map fun t => { t with seq := .idle }) = a) : Ends s a .replay

theorem ends_admitBooted {i : Instr} {s : State} {body : State → Answer}
    (h : s.booted = true → Ends s (body s) i) : Ends s (admitBooted i s body) i := by
  unfold admitBooted
  cases s.seq.isIdle with
  | false => exact .stuck .sequencerBusy rfl
  | true =>
    cases hboot : s.booted with
    | false => exact .refuse .notBooted rfl
    | true => exact h hboot

theorem ends_admitAwake {i : Instr} {s : State} {body : State → Answer}
    (h : s.booted = true → s.sleepState = .awake → Ends s (body s) i) : Ends s (admitAwake i s body) i := by
  refine ends_admitBooted fun hboot => ?_
  cases hsleep : s.sleepState with
  | asleep => exact .refuse .asleep rfl
  | awake => exact h hboot hsleep

theorem ends_onPin (i : Instr) (pin : Nat) (s : State) : Ends s (onPin i pin s (bodyOf i)) i := by
  refine ends_admitAwake fun hboot hawake => ?_
  cases hr : resolve s pin with
  | none => exact .outOfRange rfl
  | some r =>
    obtain ⟨hb, _, _, _, ho⟩ := resolve_some hr
    exact .onBank r.1 r.2 false hboot hawake hb ho rfl

theorem ends_onIrq (i : Instr) (irq : Nat) (s : State) : Ends s (onIrq i irq s (bodyOf i)) i := by
  refine ends_admitAwake fun hboot hawake => ?_
  cases hr : resolveIrq s irq with
  | none => exact .outOfRange rfl
  | some r =>
    obtain ⟨hb, _, _, _, ho⟩ := resolve_some (resolveIrq_some hr)
    exact .onBank r.1 r.2 false hboot hawake hb ho rfl

theorem ends_read (pin : Nat) (s : State) : Ends s (execRead pin s) (.read pin) := by
  refine ends_admitAwake fun hboot hawake => ?_
  cases hr : resolve s pin with
  | none => exact .outOfRange rfl
  | some r =>
    obtain ⟨hb, _, _, _, ho⟩ := resolve_some hr
    exact .onBank r.1 r.2 _ hboot hawake hb ho rfl

theorem ends_lineIrq (l : Nat) (s : State) : Ends s (execLineIrq l s) (.lineIrq l) := by
  unfold execLineIrq
  cases s.seq.isIdle with
  | false => exact .stuck .sequencerBusy rfl
  | true =>
    by_cases hl : l < s.params.numLines
    · simp only [hl, if_true]
      refine ends_admitBooted fun _ => ?_
      cases hsleep : s.sleepState with
      | asleep => exact .stuck .lineAgentDuty rfl
      | awake =>
        cases s.pass with
        | some p => exact .stuck .lineAgentDuty rfl
        | none => exact .passStarts l hsleep rfl
    · simp only [hl, if_false]
      exact .refuse .illegalCommand rfl

theorem ends_enterSleep (fi : Bool) (s : State) : Ends s (execEnterSleep fi s) (.enterSleep fi) := by
  refine ends_admitAwake fun hboot _ => ?_
  cases hp : s.pass with
  | some p => exact .refuse .busy rfl
  | none =>
    cases hr : s.replayRun with
    | some c => exact .refuse .busy rfl
    | none => exact .enterSleep fi hboot hp hr rfl

theorem ends_exitSleep (s : State) : Ends s (execExitSleep s) .exitSleep := by
  refine ends_admitBooted fun hboot => ?_
  cases hsleep : s.sleepState with
  | awake => exact .refuse .notAsleep rfl
  | asleep => exact .exitSleep hboot hsleep rfl

theorem ends_replay (s : State) : Ends s (execReplay s) .replay := by
  refine ends_admitBooted fun _ => ?_
  cases hpend : s.replayPending with
  | false => exact .stuck .bottomHalfDuty rfl
  | true =>
    cases hsleep : s.sleepState with
    | asleep => exact .stuck .bottomHalfDuty rfl
    | awake =>
      cases s.pass with
      | some p => exact .stuck .bottomHalfDuty rfl
      | none =>
        cases s.replayRun with
        | some c => exact .stuck .bottomHalfDuty rfl
        | none =>
          refine .replayStarts hpend hsleep ?_
          cases replayGroup (s.start .replay) 0 <;> rfl

/-- Every command ends in one of the ways of `Ends`. -/
theorem exec_ends (i : Instr) (s : State) : Ends s (exec i s) i := by
  cases i with
  | configure pin o => exact ends_onPin (.configure pin o) pin s
  | read pin => exact ends_read pin s
  | write pin v => exact ends_onPin (.write pin v) pin s
  | mask irq => exact ends_onIrq (.mask irq) irq s
  | unmask irq => exact ends_onIrq (.unmask irq) irq s
  | ack irq => exact ends_onIrq (.ack irq) irq s
  | setType irq t => exact ends_onIrq (.setType irq t) irq s
  | setWake irq v => exact ends_onIrq (.setWake irq v) irq s
  | lineIrq l => exact ends_lineIrq l s
  | enterSleep fi => exact ends_enterSleep fi s
  | exitSleep => exact ends_exitSleep s
  | replay => exact ends_replay s

theorem ends_of_exec {i : Instr} {s : State} {a : Answer} (e : exec i s = a) : Ends s a i := e ▸ exec_ends i s

/-! ### Answers of an activity that accesses the mailbox -/

@[simp] theorem answer_eq_next {r : Except Fault State} {t : State} : answer r = .next t ↔ r = .ok t := by
  cases r <;> simp [answer]

end Sys2Proof.Machine
end

section
/-! What the activities of the block that make many accesses do to the state, whatever it is: the sleep handoff, the
replay, boot registration, the pin environment. -/

namespace Sys2Proof.Machine

/-! ### Accesses to registers and to the mailbox -/

theorem bind_eq_ok {α β : Type} {x : Except Fault α} {f : α → Except Fault β} {r : β} :
    (x >>= f) = .ok r ↔ ∃ a, x = .ok a ∧ f a = .ok r := by
  cases x with
  | error e => exact ⟨nofun, by rintro ⟨a, ha, -⟩; cases ha⟩
  | ok a => exact ⟨fun h => ⟨a, rfl, h⟩, by rintro ⟨a', ha, h⟩; cases ha; exact h⟩

theorem map_eq_ok {α β : Type} {x : Except Fault α} {f : α → β} {r : β} :
    x.map f = .ok r ↔ ∃ a, x = .ok a ∧ f a = r := by
  cases x <;> simp [Except.map]

/-- Accesses that keep memory canonical: what the sleep handoff does before it writes the enables. -/
structure Accesses (s t : State) : Prop where
  passes : Passes s t
  wf     : Memory.wf s.mem = true → Memory.wf t.mem = true

theorem Accesses.refl (s : State) : Accesses s s := ⟨.refl s, id⟩

theorem Accesses.trans {s t u : State} (h1 : Accesses s t) (h2 : Accesses t u) : Accesses s u :=
  ⟨h1.passes.trans h2.passes, fun h => h2.wf (h1.wf h)⟩

theorem accesses_access (s : State) : Accesses s s.access := ⟨passes_access s, id⟩

theorem accesses_regRead (s : State) (b : Nat) (r : Reg) : Accesses s (regRead s b r).2 :=
  ⟨passes_regRead s b r, id⟩

theorem memRead_eq_ok {s t : State} {a n v : Nat} (e : memRead s a n = .ok (v, t)) : t = s.access := by
  unfold memRead at e
  split at e
  · cases e; rfl
  · cases e

theorem accesses_memWrite {s t : State} {a n v : Nat} (e : memWrite s a n v = .ok t) : Accesses s t := by
  unfold memWrite at e
  split at e
  · cases e
    exact ⟨⟨rfl, (passes_access s).length, (passes_access s).banks, (passes_access s).idle⟩,
      Memory.wf_writeField _ _ _ _⟩
  · cases e

theorem accesses_orWord {s t : State} {a : Nat} {m : Word} (e : orWord s a m = .ok t) : Accesses s t := by
  obtain ⟨⟨x, s1⟩, e1, e2⟩ := bind_eq_ok.1 e
  rw [memRead_eq_ok e1] at e2
  exact (accesses_access s).trans (accesses_memWrite e2)

theorem accesses_packInto {s t : State} {x : BitArray} {b : Nat} {m : Word} (e : packInto s x b m = .ok t) :
    Accesses s t := by
  obtain ⟨s1, e1, e2⟩ := bind_eq_ok.1 e
  split at e2
  · exact (accesses_orWord e1).trans (accesses_orWord e2)
  · cases e2; exact accesses_orWord e1

theorem accesses_packBank {s t : State} {b : Nat} {fi : Bool} (e : packBank s b fi = .ok t) : Accesses s t := by
  obtain ⟨s1, e1, e⟩ := bind_eq_ok.1 e
  obtain ⟨s2, e2, e3⟩ := bind_eq_ok.1 e
  exact (accesses_packInto e1).trans <| (accesses_regRead s1 b .intEdge).trans <| (accesses_packInto e2).trans <|
    (accesses_regRead s2 b .intPos).trans (accesses_packInto e3)

theorem accesses_packBanks (fi : Bool) : ∀ (bs : List Nat) {s t : State}, packBanks s fi bs = .ok t → Accesses s t
  | [], s, _, e => by cases e; exact .refl s
  | _ :: bs, _, _, e => by
    obtain ⟨s1, e1, e2⟩ := bind_eq_ok.1 e
    exact (accesses_packBank e1).trans (accesses_packBanks fi bs e2)

theorem accesses_clearFields : ∀ (fs : List (Nat × Nat)) {s t : State}, clearFields s fs = .ok t → Accesses s t
  | [], s, _, e => by cases e; exact .refl s
  | _ :: fs, _, _, e => by
    obtain ⟨s1, e1, e2⟩ := bind_eq_ok.1 e
    exact (accesses_memWrite e1).trans (accesses_clearFields fs e2)

theorem accesses_handOff {s t : State} {fi : Bool} (e : handOff s fi = .ok t) : Accesses s t := by
  unfold handOff at e
  split at e
  · obtain ⟨s1, e1, e2⟩ := bind_eq_ok.1 e
    exact (accesses_clearFields _ e1).trans (accesses_packBanks fi _ e2)
  · cases e; exact .refl s

/-! ### The sleep commands -/

/-- ENTER_SLEEP: the hand-off, then the enables, then the result (44_sleep_wake.md R230, R240). -/
theorem enterSleepBody_eq_ok {s t : State} {fi : Bool} (e : enterSleepBody s fi = .ok t) :
    ∃ u, Accesses s u ∧
      t = { (writeEnables u fi u.bankIndices).finish (.enterSleep fi) .ok false with sleepState := .asleep } := by
  obtain ⟨u, e1, e2⟩ := bind_eq_ok.1 e
  cases e2
  exact ⟨u, accesses_handOff e1, rfl⟩

/-- The counts are read, and a replay becomes pending only with a mailbox (44_sleep_wake.md R236, R240). -/
theorem takeReport_eq_ok {s t : State} (e : takeReport s = .ok t) :
    ∃ u p, Accesses s u ∧ t = { u with replayPending := p } ∧
      (s.replayPending = true → p = true) ∧ (p = true → s.replayPending = true ∨ s.mailboxPresent = true) := by
  unfold takeReport at e
  split at e
  · rename_i hm
    obtain ⟨⟨n0, s1⟩, e1, e⟩ := bind_eq_ok.1 e
    obtain ⟨⟨n1, s2⟩, e2, e⟩ := bind_eq_ok.1 e
    cases e
    rw [memRead_eq_ok e1] at e2
    rw [memRead_eq_ok e2]
    exact ⟨s.access.access, _, (accesses_access s).trans (accesses_access _), rfl, fun h => by simp [h],
      fun _ => .inr hm⟩
  · cases e
    exact ⟨s, s.replayPending, .refl s, rfl, id, .inl⟩

/-- EXIT_SLEEP: AWAKE, the active set, the report, the result (44_sleep_wake.md R236). -/
theorem exitSleepBody_eq_ok {s t : State} (e : exitSleepBody s = .ok t) :
    ∃ u p, Accesses (writeEnables { s with sleepState := .awake } true s.bankIndices) u ∧
      t = { u with replayPending := p }.finish .exitSleep .ok false ∧
      (s.replayPending = true → p = true) ∧ (p = true → s.replayPending = true ∨ s.mailboxPresent = true) := by
  obtain ⟨u, e1, e2⟩ := bind_eq_ok.1 e
  cases e2
  obtain ⟨u, p, hu, rfl, hp⟩ := takeReport_eq_ok e1
  rw [(writeEnables_effect true s.bankIndices { s with sleepState := .awake }).rest] at hp
  exact ⟨u, p, hu, rfl, hp⟩

/-! ### The replay -/

/-- A group of the replay begins: its count is read, and compared with K (44_sleep_wake.md R238, 60_exceptions.md
R263). -/
theorem replayGroup_eq_ok {s t : State} {g : Nat} (e : replayGroup s g = .ok t) :
    ∃ n f, t = { s.access with replayRun := some ⟨g, n, 0⟩, fault := f } ∧ (s.fault ≠ none → f ≠ none) ∧
      (f = none → n ≤ s.params.firedCap) := by
  obtain ⟨⟨n, s1⟩, e1, e2⟩ := bind_eq_ok.1 e
  obtain rfl := memRead_eq_ok e1
  simp only at e2
  split at e2
  · cases e2
    exact ⟨n, _, rfl, nofun, nofun⟩
  · rename_i hn
    cases e2
    exact ⟨n, s.fault, rfl, id, fun _ => Nat.le_of_not_lt hn⟩

/-- What a step of a running replay does. -/
inductive ReplayMoves (s : State) (c : ReplayCursor) (t : State) : Prop
  | faulted (e : t = s)
  | entry (ev : Event) (lt : c.index < c.count)
      (e : t = { s.access with events := s.events ++ [ev], replayRun := some { c with index := c.index + 1 } })
  | nextGroup (e : replayGroup s 1 = .ok t)
  | ends (e : t = replayEnd s)

theorem replayStep_eq_ok {s t : State} {c : ReplayCursor} (e : replayStep s c = .ok t) : ReplayMoves s c t := by
  unfold replayStep at e
  split at e
  · cases e; exact .faulted rfl
  · split at e
    · rename_i hlt
      obtain ⟨⟨p, s1⟩, e1, e2⟩ := bind_eq_ok.1 e
      obtain rfl := memRead_eq_ok e1
      cases e2
      exact .entry _ hlt rfl
    · split at e
      · exact .nextGroup e
      · cases e; exact .ends rfl

/-! ### Boot registration and the pin environment -/

/-- A bank as boot registration leaves it: masks and enables 0 (70_reset_and_hazards.md R302). -/
def Bank.booted (k : Bank) : Bank := { k with en0 := 0, en1 := 0, be := 0, shadow := 0, intEn := 0 }

/-- The banks listed are booted, the others as they were, but for the pin environment. -/
structure BootEffect (bs : List Nat) (s t : State) : Prop where
  rest   : t = { s with banks := t.banks, choices := t.choices, seq := t.seq }
  length : t.banks.length = s.banks.length
  idle   : s.seq = .idle → t.seq = .idle
  banks  : ∀ b < s.banks.length, (if b ∈ bs then (s.bank b).booted else s.bank b).PinsOnly (t.bank b)

@[simp] theorem Bank.booted_booted (k : Bank) : k.booted.booted = k.booted := rfl

theorem Bank.PinsOnly.booted {k k' : Bank} (h : k.PinsOnly k') : k.booted.PinsOnly k'.booted :=
  h.update Bank.booted fun _ _ _ => rfl

/-- Boot of one bank: its masks to 0, then `int_en` to 0 (70_reset_and_hazards.md R302). -/
theorem bootBank_effect (s : State) (b : Nat) : BootEffect [b] s
    (regWrite (s.setBank b fun k => { k with en0 := 0, en1 := 0, be := 0, shadow := 0 }) b .intEn 0) := by
  refine ⟨by rw [regWrite_rest]; rfl, by simp, fun h => by simp [h, Seq.advance], fun b' hb' => ?_⟩
  by_cases hne : b' = b
  · subst hne
    have h := regWrite_pinsOnly (s := s.setBank b' fun k => { k with en0 := 0, en1 := 0, be := 0, shadow := 0 })
      (by simpa using hb') (r := .intEn) (by decide) 0
    rw [bank_setBank_same _ hb'] at h
    simpa [Bank.written, Bank.booted] using h
  · rw [if_neg (by simpa using hne), bank_regWrite_ne _ hne]
    have h := access_pinsOnly (s.setBank b fun k => { k with en0 := 0, en1 := 0, be := 0, shadow := 0 }) b'
    rwa [bank_setBank_ne _ hne] at h

theorem bootBanks_effect : ∀ (bs : List Nat) (s : State), BootEffect bs s (bootBanks s bs)
  | [], s => ⟨rfl, rfl, id, fun _ _ => by rw [if_neg List.not_mem_nil]; exact .refl _⟩
  | b :: bs, s => by
    have h1 := bootBank_effect s b
    have h2 := bootBanks_effect bs
      (regWrite (s.setBank b fun k => { k with en0 := 0, en1 := 0, be := 0, shadow := 0 }) b .intEn 0)
    unfold bootBanks
    simp only
    generalize regWrite (s.setBank b fun k => { k with en0 := 0, en1 := 0, be := 0, shadow := 0 }) b .intEn 0 = u at *
    generalize bootBanks u bs = t at *
    refine ⟨by rw [h2.rest, h1.rest], h2.length.trans h1.length, fun h => h2.idle (h1.idle h), fun b' hb' => ?_⟩
    have p1 := h1.banks b' hb'
    refine Bank.PinsOnly.trans ?_ (h2.banks b' (by rw [h1.length]; exact hb'))
    by_cases hmem : b' ∈ bs
    · rw [if_pos (List.mem_cons_of_mem b hmem), if_pos hmem]
      have := p1.booted
      by_cases hne : b' = b <;> simpa [hne] using this
    · rw [if_neg hmem]
      by_cases hne : b' = b
      · rw [if_pos (by simp [hne])] at p1 ⊢; exact p1
      · rw [if_neg (by simpa using hne)] at p1
        rwa [if_neg (by simpa [hne] using hmem)]

theorem mem_bankIndices {s : State} {b : Nat} : b ∈ s.bankIndices ↔ b < s.banks.length := List.mem_range

/-- What boot registration does: it refuses, or boots every bank, allocates the mailbox and may log that there is none
(70_reset_and_hazards.md R302, R303). -/
inductive Boots (s t : State) : Prop
  | refuses (e : t = s.refuse .badBankTable .boot)
  | registers (u : State) (logs : List Event) (booted : s.booted = false) (table : tableOk s.params s.banks = true)
      (banks : BootEffect s.bankIndices s u)
      (e : t = { u with
        events := u.events ++ logs, mailboxPresent := u.params.mailboxPresent, booted := true })

theorem mailboxAllocation_eq (s : State) : ∃ logs, mailboxAllocation s =
    { s with events := s.events ++ logs, mailboxPresent := s.params.mailboxPresent } := by
  unfold mailboxAllocation
  cases s.params.mailboxPresent with
  | true => exact ⟨[], by simp⟩
  | false => exact ⟨[.mailboxUnavailable], rfl⟩

theorem bootRegistration_eq_next {s t : State} (e : bootRegistration s = .next t) : Boots s t := by
  unfold bootRegistration at e
  cases hboot : s.booted with
  | true => rw [hboot] at e; cases e
  | false =>
    rw [hboot] at e
    cases htable : tableOk s.params s.banks with
    | false => rw [htable] at e; cases e; exact .refuses rfl
    | true =>
      rw [htable] at e
      cases e
      obtain ⟨logs, h⟩ := mailboxAllocation_eq (bootBanks s s.bankIndices)
      exact .registers _ logs hboot htable (bootBanks_effect s.bankIndices s) (by rw [h])

/-- The steps of the pin environment between two commands change what they may and nothing else (60_exceptions.md
R270). -/
theorem passes_pinEnvironment (s : State) (p : PinStep) : Passes s (pinEnvironment s p) := by
  refine ⟨rfl, by simp [pinEnvironment], fun b => ?_, id⟩
  by_cases hb : b < s.banks.length
  · have h : (pinEnvironment s p).bank b = (s.bank b).watch s.sleepState [p] b := by
      simp only [State.bank, List.getD_eq_getElem?_getD, pinEnvironment, getElem?_pinSteps, Nat.zero_add]
      simp [hb]
    rw [h]
    exact Bank.watch_pinsOnly _ _ _ _
  · rw [bank_absent hb, bank_absent (by simpa [pinEnvironment] using hb)]
    exact .refl _

end Sys2Proof.Machine
end

section
/-! Settling O4: every step keeps the invariant. `SameControl` says what most steps leave alone; `Inv.of_sameControl` is
the invariant carried over such a step, and one lemma per kind of step supplies the rest. -/

namespace Sys2Proof.Machine

/-! ### What accesses, mask updates, events and memory writes leave alone -/

/-- `t` has the control state, the marks, the parameters and the bank table of `s`; it may differ in the registers and
masks of the banks, in memory, in the sleep state, and in the sequencer's own fields. -/
structure SameControl (s t : State) : Prop where
  rest  : t = { s with
    banks := t.banks, sleepState := t.sleepState, choices := t.choices, seq := t.seq, beRegs := t.beRegs,
    events := t.events, mem := t.mem, agenda := t.agenda }
  descs : t.banks.map Bank.desc = s.banks.map Bank.desc

namespace SameControl
variable {s t u : State}

theorem refl (s : State) : SameControl s s := ⟨rfl, rfl⟩

theorem trans (h1 : SameControl s t) (h2 : SameControl t u) : SameControl s u :=
  ⟨by rw [h2.rest, h1.rest], h2.descs.trans h1.descs⟩

theorem params (h : SameControl s t) : t.params = s.params := by rw [h.rest]
theorem replayPending (h : SameControl s t) : t.replayPending = s.replayPending := by rw [h.rest]
theorem replayRun (h : SameControl s t) : t.replayRun = s.replayRun := by rw [h.rest]
theorem mailboxPresent (h : SameControl s t) : t.mailboxPresent = s.mailboxPresent := by rw [h.rest]
theorem booted (h : SameControl s t) : t.booted = s.booted := by rw [h.rest]
theorem pass (h : SameControl s t) : t.pass = s.pass := by rw [h.rest]
theorem fault (h : SameControl s t) : t.fault = s.fault := by rw [h.rest]
theorem refused (h : SameControl s t) : t.refused = s.refused := by rw [h.rest]
theorem refusals (h : SameControl s t) : t.refusals = s.refusals := by rw [h.rest]

theorem length (h : SameControl s t) : t.banks.length = s.banks.length := by
  simpa using congrArg List.length h.descs

theorem desc (h : SameControl s t) (b : Nat) : (t.bank b).desc = (s.bank b).desc := by
  by_cases hb : b < s.banks.length
  · have ht : b < t.banks.length := by rw [h.length]; exact hb
    rw [bank_eq_getElem ht, bank_eq_getElem hb]
    have hd := congrArg (fun l : List BankDesc => l[b]?) h.descs
    simpa [ht, hb] using hd
  · rw [bank_absent hb, bank_absent (by rw [h.length]; exact hb)]

theorem wmask (h : SameControl s t) (b : Nat) : (t.bank b).wmask = (s.bank b).wmask := by
  simp only [Bank.wmask, Bank.width, h.desc]

end SameControl

theorem Passes.sameControl {s t : State} (h : Passes s t) : SameControl s t := ⟨by rw [h.rest], h.descs⟩

theorem Touches.descs {b : Nat} {s t : State} (h : Touches b s t) : t.banks.map Bank.desc = s.banks.map Bank.desc := by
  refine descs_eq h.length fun b' => ?_
  by_cases hb : b' = b
  · rw [hb]; exact h.desc
  · exact (h.others b' hb).desc

theorem Touches.sameControl {b : Nat} {s t : State} (h : Touches b s t) : SameControl s t :=
  ⟨by rw [h.rest], h.descs⟩

theorem sameControl_writeEnables (fi : Bool) (bs : List Nat) (s : State) : SameControl s (writeEnables s fi bs) :=
  ⟨by rw [(writeEnables_effect fi bs s).rest], desc_we⟩

theorem BootEffect.sameControl {bs : List Nat} {s t : State} (h : BootEffect bs s t) : SameControl s t := by
  refine ⟨by rw [h.rest], descs_eq h.length fun b => ?_⟩
  by_cases hb : b < s.banks.length
  · rw [(h.banks b hb).desc]; split <;> rfl
  · rw [bank_absent hb, bank_absent (by rw [h.length]; exact hb)]

theorem sameControl_finish (s : State) (c : Instr) (st : Status) (v : Bool) : SameControl s (s.finish c st v) :=
  ⟨rfl, rfl⟩

theorem sameControl_start (s : State) (c : Instr) : SameControl s (s.start c) := ⟨rfl, rfl⟩

/-! ### The body of a command -/

theorem bodyOf_keeps (i : Instr) (b off : Nat) (s : State) : BodyKeeps b off s (bodyOf i s b off) := by
  cases i with
  | configure pin o => exact keeps_configure o b off s
  | read pin => exact ⟨touches_regRead b s .inp, id, fun _ _ => Bank.Good.pins (access_pinsOnly s b)⟩
  | write pin v => exact keeps_modifyBit b off s (r := .out) rfl (by decide) v
  | mask irq => exact keeps_mask b off s
  | unmask irq => exact keeps_unmask b off s
  | ack irq => exact keeps_clear b off s
  | setType irq t => exact keeps_trigger b off s t
  | setWake irq v => exact keeps_wake b off s v
  | lineIrq l => exact .refl b off s
  | enterSleep fi => exact .refl b off s
  | exitSleep => exact .refl b off s
  | replay => exact .refl b off s

/-- A body adds at most logs of the both-edge machine to the history (41_both_edge.md R166). -/
theorem bodyOf_logs (i : Instr) {s : State} {b off : Nat} (hb : b < s.banks.length) (ho : off < (s.bank b).width) :
    Logs b s (bodyOf i s b off) := by
  cases i with
  | configure pin o => exact (logs_configure o s b off hb ho).1
  | read pin => exact .refl rfl
  | write pin v => exact .refl (modifyBit_events s b .out (bitAt off) v)
  | mask irq => exact .refl (maskBody_events s b off)
  | unmask irq => exact logs_unmask s b off hb ho
  | ack irq => exact (clearDetect_effect off hb).events
  | setType irq t => exact logs_trigger s b off t hb
  | setWake irq v => exact .refl rfl
  | lineIrq l => exact .refl rfl
  | enterSleep fi => exact .refl rfl
  | exitSleep => exact .refl rfl
  | replay => exact .refl rfl

/-! ### The pass: what a visit does (43_demux.md R210, R211) -/

/-- A visit takes a snapshot of a bank of the line, or ends the pass. -/
inductive Visits (s : State) (l : Nat) (t : State) : Prop
  | snapshot (b : Nat) (w : Word) (hb : b < s.banks.length) (line : (s.bank b).desc.line = l)
      (work : w &&& ~~~(s.bank b).en0 = 0) (e : t = { (regRead s b .intStatus).2 with pass := some ⟨l, b, w⟩ })
  | ends (e : t = passEnd s l)

theorem passVisit_visits (s : State) (l low : Nat) : Visits s l (passVisit s l low) := by
  unfold passVisit
  cases hn : nextBank s l low with
  | none => exact .ends rfl
  | some b =>
    obtain ⟨hb, hl⟩ := nextBank_spec hn
    refine .snapshot b (((regRead s b .intStatus).1 ||| ((regRead s b .intStatus).2.bank b).shadow) &&&
      ((regRead s b .intStatus).2.bank b).en0) hb hl ?_ rfl
    rw [bank_regRead, access_bank_en0, within_iff]
    intro j hj
    rw [BitVec.getLsbD_and, Bool.and_eq_true] at hj
    exact hj.2

/-! ### The invariant from one state to another -/

/-- With the control state unchanged the invariant is kept when the sequencer is idle again, memory is canonical, the
masks fit, `int_en` agrees while AWAKE, and nothing runs in a block that sleeps. -/
theorem Inv.of_sameControl {s t : State} (h : Inv s) (c : SameControl s t) (idle : t.seq = .idle)
    (noRun : t.beRegs = none) (memory : Memory.wf t.mem = true)
    (asleep : t.sleepState = .asleep → s.booted = true ∧ s.pass = none ∧ s.replayRun = none)
    (masks : ∀ b < s.banks.length, (t.bank b).MasksFit)
    (enables : s.booted = true → t.sleepState = .awake → ∀ b < s.banks.length,
      (t.bank b).intEn &&& (t.bank b).wmask = (t.bank b).en0) : Inv t where
  idle := idle
  noRun := noRun
  memory := memory
  table hb := by rw [c.params, tableOk_congr c.descs]; exact h.table (c.booted ▸ hb)
  mailbox hb := by rw [c.params, c.mailboxPresent]; exact h.mailbox (c.booted ▸ hb)
  masks := forall_mem_banks.2 (by rw [c.length]; exact masks)
  enables hb ha := forall_mem_banks.2 (by rw [c.length]; exact enables (c.booted ▸ hb) ha)
  asleep ha := by rw [c.booted, c.pass, c.replayRun]; exact asleep ha
  pass p hp := by rw [c.length, c.desc, c.wmask]; exact h.pass p (c.pass ▸ hp)
  replay r hr := by rw [c.replayPending, c.fault, c.params]; exact h.replay r (c.replayRun ▸ hr)
  pending hp := by rw [c.mailboxPresent, c.booted]; exact h.pending (c.replayPending ▸ hp)
  marks := by rw [c.refused, c.refusals]; exact h.marks

section
variable {s t : State}

theorem Inv.masksFit (h : Inv s) {b : Nat} (hb : b < s.banks.length) : (s.bank b).MasksFit := h.masks _ (bank_mem hb)

/-- While the block is booted and AWAKE, every bank is as the invariant has it. -/
theorem Inv.good (h : Inv s) (hboot : s.booted = true) (hawake : s.sleepState = .awake) {b : Nat}
    (hb : b < s.banks.length) : (s.bank b).Good := ⟨h.masksFit hb, h.enables hboot hawake _ (bank_mem hb)⟩

theorem Inv.withAgenda (h : Inv s) (agenda : List Input) : Inv { s with agenda := agenda } := { h with }

/-- The invariant, from banks that keep their masks and enables but for the pin environment. -/
theorem Inv.of_pinsOnly (h : Inv s) (c : SameControl s t) (sleep : t.sleepState = s.sleepState) (idle : t.seq = .idle)
    (noRun : t.beRegs = none) (memory : Memory.wf t.mem = true)
    (banks : ∀ b, (s.bank b).PinsOnly (t.bank b)) : Inv t := by
  refine h.of_sameControl c idle noRun memory (fun ha => h.asleep (sleep ▸ ha))
    (fun b hb => (h.masksFit hb).pins (banks b)) fun hboot ha b hb => ?_
  exact ((h.good hboot (sleep ▸ ha) hb).pins (banks b)).en

/-- The invariant asks for an idle sequencer: it may be said of the state with one. -/
theorem Inv.of_idle (h : Inv { t with seq := .idle }) (hq : t.seq = .idle) : Inv t := by
  have e : { t with seq := .idle } = t := by rw [← hq]
  rwa [e] at h

/-- Accesses made inside a command, whose end makes the sequencer idle again. -/
theorem Inv.accessesBusy (h : Inv s) (q : Seq) (a : Accesses { s with seq := q } t) : Inv { t with seq := .idle } := by
  have hr := a.passes.rest
  have c : SameControl s { t with seq := .idle } :=
    SameControl.trans (t := { s with seq := q }) ⟨rfl, rfl⟩ (a.passes.sameControl.trans ⟨rfl, rfl⟩)
  refine h.of_pinsOnly c ?_ rfl ?_ (a.wf h.memory) a.passes.banks
  · change t.sleepState = s.sleepState
    rw [hr]
  · change t.beRegs = none
    rw [hr]; exact h.noRun

theorem Inv.accesses (h : Inv s) (a : Accesses s t) : Inv t :=
  (h.accessesBusy s.seq a).of_idle (a.passes.idle h.idle)

theorem Inv.refuse (h : Inv s) (r : RefuseReason) (o : Offered) : Inv (s.refuse r o) :=
  { h with marks := by simp }

theorem Inv.raise (h : Inv s) (i : Instr) : Inv ((s.start i).raise i) :=
  h.of_pinsOnly ((sameControl_start s i).trans (sameControl_finish _ i .outOfRange false)) rfl rfl h.noRun h.memory
    fun _ => .refl _

/-! ### The commands -/

/-- A command's body on its bank. -/
theorem Inv.body (h : Inv s) (i : Instr) {b off : Nat} (hboot : s.booted = true) (hawake : s.sleepState = .awake)
    (hb : b < s.banks.length) (ho : off < (s.bank b).width) (v : Bool) :
    Inv ((bodyOf i (s.start i) b off).finish i .ok v) := by
  have k := bodyOf_keeps i b off (s.start i)
  generalize bodyOf i (s.start i) b off = u at k
  have good : ∀ b' < s.banks.length, (u.bank b').Good := by
    intro b' hb'
    by_cases hne : b' = b
    · subst hne; exact k.good hb' ho (h.good hboot hawake hb')
    · exact (h.good hboot hawake hb').pins (k.touch.others b' hne)
  refine h.of_sameControl ((sameControl_start s i).trans (k.touch.sameControl.trans (sameControl_finish u i .ok v))) rfl
    (k.run h.noRun) ?_ (fun ha => ?_) (fun b' hb' => (good b' hb').fit) fun _ _ b' hb' => (good b' hb').en
  · rw [State.finish_mem, k.touch.mem]; exact h.memory
  · rw [State.finish_sleepState, k.touch.sleepState, State.start_sleepState, hawake] at ha; cases ha

/-- The enables of every bank written from a selected set: masks stay as they are. -/
theorem EnableEffect.masksFit {fi : Bool} {bs : List Nat} (w : EnableEffect fi bs s t) {b : Nat}
    (hb : b < s.banks.length) (h : (s.bank b).MasksFit) : (t.bank b).MasksFit :=
  Bank.MasksFit.pins (w.banks b hb) ⟨h.en0, h.en1, h.be, h.shadow⟩

theorem Inv.enterSleep (h : Inv s) {fi : Bool} (hboot : s.booted = true) (hp : s.pass = none) (hr : s.replayRun = none)
    (e : enterSleepBody (s.start (.enterSleep fi)) fi = .ok t) : Inv t := by
  obtain ⟨u, hu, rfl⟩ := enterSleepBody_eq_ok e
  have w := writeEnables_effect fi u.bankIndices u
  have cw := sameControl_writeEnables fi u.bankIndices u
  generalize writeEnables u fi u.bankIndices = v at w cw
  have c := (sameControl_start s (.enterSleep fi)).trans (hu.passes.sameControl.trans cw)
  have hlen : u.banks.length = s.banks.length := hu.passes.length
  refine h.of_sameControl (c.trans ⟨rfl, rfl⟩) rfl ?_ ?_ (fun _ => ⟨hboot, hp, hr⟩) (fun b hb => ?_)
    fun _ ha => by cases ha
  · change v.beRegs = none
    rw [w.rest, hu.passes.rest]; exact h.noRun
  · change Memory.wf v.mem = true
    rw [w.rest]; exact hu.wf h.memory
  · exact w.masksFit (by rw [hlen]; exact hb) ((h.masksFit hb).pins (hu.passes.banks b))

/-- A replay is made pending, on a booted block with a mailbox. -/
theorem Inv.report (h : Inv s) {p : Bool} (hkeep : s.replayPending = true → p = true)
    (hp : p = true → s.mailboxPresent = true ∧ s.booted = true) : Inv { s with replayPending := p } :=
  { h with
    replay := fun c hc => by
      obtain ⟨hpend, hrest⟩ := h.replay c hc
      exact ⟨hkeep hpend, hrest⟩
    pending := hp }

/-- The active set written to a bank's `int_en` (10_state.md R48). -/
theorem EnableEffect.active {bs : List Nat} (w : EnableEffect true bs s t) {b : Nat} (hb : b < s.banks.length)
    (hmem : b ∈ bs) : Bank.PinsOnly { s.bank b with intEn := (s.bank b).en0 } (t.bank b) := by
  simpa [hmem, Bank.selected] using w.banks b hb

theorem Inv.exitSleep (h : Inv s) (hboot : s.booted = true) (e : exitSleepBody (s.start .exitSleep) = .ok t) :
    Inv t := by
  obtain ⟨u, p, hu, rfl, hkeep, hp⟩ := exitSleepBody_eq_ok e
  have w := writeEnables_effect true (s.start .exitSleep).bankIndices { s.start .exitSleep with sleepState := .awake }
  have cw := sameControl_writeEnables true (s.start .exitSleep).bankIndices
    { s.start .exitSleep with sleepState := .awake }
  generalize writeEnables { s.start .exitSleep with sleepState := .awake } true (s.start .exitSleep).bankIndices = v
    at w cw hu
  have c : SameControl s u := SameControl.trans (t := { s.start .exitSleep with sleepState := .awake }) ⟨rfl, rfl⟩
    (cw.trans hu.passes.sameControl)
  have hbanks : ∀ b < s.banks.length, Bank.PinsOnly { s.bank b with intEn := (s.bank b).en0 } (u.bank b) :=
    fun b hb => (w.active hb (List.mem_range.2 hb)).trans (hu.passes.banks b)
  have inv : Inv (u.finish .exitSleep .ok false) := by
    refine h.of_sameControl (c.trans (sameControl_finish _ _ _ _)) rfl ?_ ?_ (fun ha => ?_) (fun b hb => ?_)
      fun _ _ b hb => ?_
    · rw [State.finish_beRegs, hu.passes.rest, w.rest]; exact h.noRun
    · rw [State.finish_mem]
      refine hu.wf ?_
      rw [w.rest]; exact h.memory
    · rw [State.finish_sleepState, hu.passes.rest, w.rest] at ha; cases ha
    · have k := h.masksFit hb
      exact Bank.MasksFit.pins (hbanks b hb) ⟨k.en0, k.en1, k.be, k.shadow⟩
    · have k := hbanks b hb
      rw [bank_finish, k.intEn, k.en0, k.wmask]
      exact and_eq_self_of_within (h.masksFit hb).en0
  refine inv.report (fun hpend => hkeep ?_) fun hp' => ?_
  · exact c.replayPending ▸ hpend
  · rw [State.finish_mailboxPresent, State.finish_booted, c.mailboxPresent, c.booted]
    exact ⟨(hp hp').elim (fun hq => (h.pending hq).1) id, hboot⟩

/-! ### The pass -/

/-- A pass on a bank of its line, whose working word lies in the bank (43_demux.md R211). -/
theorem Inv.withPass (h : Inv s) (hawake : s.sleepState ≠ .asleep) {p : Pass} (hb : p.bank < s.banks.length)
    (line : (s.bank p.bank).desc.line = p.line) (work : p.work &&& ~~~(s.bank p.bank).wmask = 0) :
    Inv { s with pass := some p } :=
  { h with
    asleep := fun ha => absurd ha hawake
    pass := by rintro _ ⟨⟩; exact ⟨hb, line, work⟩ }

theorem Inv.emit (h : Inv s) (e : Event) : Inv (s.emit e) := { h with }

/-- A visit, from a state that meets the invariant but for the command that starts the pass. -/
theorem Inv.visit (h : Inv s) (hawake : s.sleepState ≠ .asleep) (q : Seq) (l low : Nat) :
    Inv { passVisit { s with seq := q } l low with seq := .idle } := by
  cases passVisit_visits { s with seq := q } l low with
  | snapshot b w hb line work e =>
    rw [e]
    have a := accesses_regRead { s with seq := q } b .intStatus
    refine (h.accessesBusy q a).withPass (p := ⟨l, b, w⟩) hawake (by rw [← a.passes.length] at hb; exact hb) ?_ ?_
    · exact (congrArg BankDesc.line (a.passes.banks b).desc).trans line
    · change w &&& ~~~((regRead { s with seq := q } b .intStatus).2.bank b).wmask = 0
      rw [(a.passes.banks b).wmask]
      exact within_trans work (h.masksFit hb).en0
  | ends e =>
    rw [e]
    exact { h with idle := rfl, asleep := fun ha => absurd ha hawake, pass := nofun }

theorem passVisit_idle {s : State} (h : s.seq = .idle) (l low : Nat) : (passVisit s l low).seq = .idle := by
  cases passVisit_visits s l low with
  | snapshot b w hb line work e => rw [e]; simp [h, Seq.advance]
  | ends e => rw [e]; exact h

theorem Inv.passMoves (h : Inv s) {p : Pass} (hp : s.pass = some p) : Inv (passStep s p) := by
  have hawake : s.sleepState ≠ .asleep := fun hs => by rw [(h.asleep hs).2.1] at hp; cases hp
  obtain ⟨hb, line, work⟩ := h.pass p hp
  unfold passStep
  split
  · exact (h.emit _).withPass hawake hb line (within_andNot _ work)
  · exact (h.visit hawake s.seq p.line (p.bank + 1)).of_idle (passVisit_idle h.idle _ _)

/-! ### The replay -/

/-- A group begins, of a replay that is pending while AWAKE. -/
theorem Inv.groupBegins (h : Inv s) (hawake : s.sleepState ≠ .asleep) (hpend : s.replayPending = true) {g : Nat}
    (hg : g < 2) (q : Seq) (e : replayGroup { s with seq := q } g = .ok t) : Inv { t with seq := .idle } := by
  obtain ⟨n, f, rfl, -, hn⟩ := replayGroup_eq_ok e
  exact { h.accessesBusy q (accesses_access { s with seq := q }) with
    asleep := fun ha => absurd ha hawake
    replay := by rintro _ ⟨⟩; exact ⟨hpend, hg, Nat.zero_le n, hn⟩ }

theorem Inv.replayMoves (h : Inv s) {c : ReplayCursor} (hrun : s.replayRun = some c) (e : replayStep s c = .ok t) :
    Inv t := by
  obtain ⟨hpend, hg, hidx, hcount⟩ := h.replay c hrun
  have hawake : s.sleepState ≠ .asleep := fun hs => by rw [(h.asleep hs).2.2] at hrun; cases hrun
  cases replayStep_eq_ok e with
  | faulted e => rw [e]; exact h
  | entry ev hlt e =>
    rw [e]
    exact { h.accesses (accesses_access s) with
      asleep := fun ha => absurd ha hawake
      replay := by rintro _ ⟨⟩; exact ⟨hpend, hg, hlt, hcount⟩ }
  | nextGroup e =>
    refine (h.groupBegins hawake hpend (by decide : 1 < 2) s.seq e).of_idle ?_
    obtain ⟨n, f, rfl, -⟩ := replayGroup_eq_ok e
    exact (accesses_access s).passes.idle h.idle
  | ends e =>
    rw [e]
    exact { h with asleep := fun ha => absurd ha hawake, replay := nofun, pending := nofun }

/-! ### Boot registration -/

theorem Inv.boot (h : Inv s) (b : Boots s t) : Inv t := by
  cases b with
  | refuses e => rw [e]; exact h.refuse _ _
  | registers u logs hboot htable w e =>
    have c := w.sameControl
    have hpend : s.replayPending ≠ true := fun hp => by rw [(h.pending hp).2] at hboot; cases hboot
    have hbanks : ∀ b < s.banks.length, (s.bank b).booted.PinsOnly (u.bank b) := fun b hb => by
      have k := w.banks b hb
      rwa [if_pos (mem_bankIndices.2 hb)] at k
    have inv : Inv u := by
      refine h.of_sameControl c (w.idle h.idle) (by rw [w.rest]; exact h.noRun) (by rw [w.rest]; exact h.memory)
        (fun ha => h.asleep (by rw [w.rest] at ha; exact ha)) (fun b hb => ?_) fun hb => by rw [hboot] at hb; cases hb
      refine Bank.MasksFit.pins (hbanks b hb) ⟨?_, ?_, ?_, ?_⟩ <;> exact BitVec.zero_and
    rw [e]
    exact { inv with
      table := fun _ => by
        change tableOk u.params u.banks = true
        rw [c.params, tableOk_congr c.descs]; exact htable
      mailbox := fun _ => rfl
      enables := fun _ _ => forall_mem_banks.2 fun b hb => by
        have k := hbanks b (by rw [← c.length]; exact hb)
        change (u.bank b).intEn &&& (u.bank b).wmask = (u.bank b).en0
        rw [k.intEn, k.en0]; exact BitVec.zero_and
      asleep := fun ha => ⟨rfl, (inv.asleep ha).2⟩
      pending := fun hp => absurd (c.replayPending ▸ hp) hpend }

/-! ### Every step -/

theorem Inv.mailboxByte (h : Inv s) {offset : Nat} {v : Byte} (e : coprocessorWrite s offset v = .next t) :
    Inv t := by
  simp only [coprocessorWrite] at e
  split at e
  · split at e <;> cases e
    exact { h with memory := Memory.wf_write _ _ h.memory }
  · cases e

theorem Inv.goesOn (h : Inv s) (e : advance s = .next t) : Inv t := by
  cases hp : s.pass with
  | some p =>
    rw [advance_pass h.idle hp] at e
    cases e
    exact h.passMoves hp
  | none =>
    cases hr : s.replayRun with
    | some c =>
      rw [advance_replay h.idle hp hr, answer_eq_next] at e
      exact h.replayMoves hr e
    | none =>
      rw [advance_none h.idle hp hr] at e
      cases e
      exact h

theorem Inv.command (h : Inv s) {i : Instr} (ends : Ends s (.next t) i) : Inv t := by
  cases ends with
  | stuck r e => cases e
  | refuse r e => cases e; exact h.refuse _ _
  | outOfRange e => cases e; exact h.raise i
  | onBank b off v hboot hawake hb ho e => cases e; exact h.body i hboot hawake hb ho v
  | passStarts l hawake e =>
    cases e
    exact h.visit (by rw [hawake]; decide) (.busy (.lineIrq l) 0) l 0
  | enterSleep fi hboot hp hr e => exact h.enterSleep hboot hp hr (answer_eq_next.1 e)
  | exitSleep hboot _ e => exact h.exitSleep hboot (answer_eq_next.1 e)
  | replayStarts hpend hawake e =>
    obtain ⟨u, hg, rfl⟩ := map_eq_ok.1 (answer_eq_next.1 e)
    exact h.groupBegins (by rw [hawake]; decide) hpend (by decide) (.busy .replay 0) hg

end

/-- Settles O4: what the step answers is one of the `Moves`, and each keeps the invariant. -/
theorem stepKeepsInvariant : Obligations.StepKeepsInvariant := by
  intro s t h e
  obtain ⟨agenda, moves⟩ := moves_of_step e
  have hu := h.withAgenda agenda
  generalize { s with agenda := agenda } = u at hu moves
  cases moves with
  | command i e => exact hu.command (ends_of_exec e)
  | illegal ws e => cases e; exact hu.refuse _ _
  | stuck r e => cases e
  | boot e => exact hu.boot (bootRegistration_eq_next e)
  | pins p e => cases e; exact hu.accesses ⟨passes_pinEnvironment u p, id⟩
  | mailboxByte offset v e => exact hu.mailboxByte e
  | goesOn e => exact hu.goesOn e

end Sys2Proof.Machine
end

section
/-! Settling O5: under the invariant every mailbox access of the block lies in the mailbox. -/

namespace Sys2Proof.Machine

/-- ENTER_SLEEP packs the banks of a checked table, whose pins all have a bit in the arrays (44_sleep_wake.md R234). -/
theorem enterSleepBody_ok {s : State} (ht : tableOk s.params s.banks = true) (fi : Bool) :
    ∃ t, enterSleepBody s fi = .ok t := by
  obtain ⟨u, e, -⟩ := handOff_ok ht fi
  exact ⟨_, bind_eq_ok.2 ⟨u, e, rfl⟩⟩

/-- EXIT_SLEEP reads the counts only of a mailbox that is there (44_sleep_wake.md R240). -/
theorem takeReport_ok (s : State) : ∃ t, takeReport s = .ok t := by
  unfold takeReport
  cases hm : s.mailboxPresent with
  | false => exact ⟨s, rfl⟩
  | true =>
    have h0 : s.inMailbox (s.countAddr 0) 2 = true := count_inMailbox hm (by decide)
    have h1 : s.access.inMailbox (s.countAddr 1) 2 = true := by
      rw [(passes_access s).inMailbox]; exact count_inMailbox hm (by decide)
    exact ⟨_, bind_eq_ok.2 ⟨_, memRead_eq h0, bind_eq_ok.2 ⟨_, memRead_eq h1, rfl⟩⟩⟩

theorem exitSleepBody_ok (s : State) : ∃ t, exitSleepBody s = .ok t := by
  obtain ⟨u, e⟩ := takeReport_ok (writeEnables { s with sleepState := .awake } true s.bankIndices)
  exact ⟨_, bind_eq_ok.2 ⟨u, e, rfl⟩⟩

/-- A running replay reads entries of its own list, within K, and the counts (44_sleep_wake.md R238). -/
theorem Inv.replayStep_ok {s : State} (h : Inv s) {c : ReplayCursor} (hr : s.replayRun = some c) :
    ∃ t, replayStep s c = .ok t := by
  obtain ⟨hpend, hg, _, hcount⟩ := h.replay c hr
  obtain ⟨hm, _⟩ := h.pending hpend
  cases hf : s.fault with
  | some f => exact ⟨s, replayStep_faulted (by rw [hf]; nofun)⟩
  | none =>
    by_cases hlt : c.index < c.count
    · exact ⟨_, replayStep_entry hf hm hg hlt (hcount hf)⟩
    · simp only [replayStep, hf, if_neg hlt]
      split
      · exact ⟨_, replayGroup_eq hm (by decide)⟩
      · exact ⟨_, rfl⟩

section
variable {s : State} {f : Fault}

theorem bootRegistration_ne_fault (s : State) (f : Fault) : bootRegistration s ≠ .fault f := by
  unfold bootRegistration
  cases s.booted <;> cases tableOk s.params s.banks <;> exact nofun

theorem coprocessorWrite_ne_fault (s : State) (offset : Nat) (v : Byte) (f : Fault) :
    coprocessorWrite s offset v ≠ .fault f := by
  simp only [coprocessorWrite]
  cases s.sleepState with
  | awake => exact nofun
  | asleep => cases s.inMailbox (s.params.mbBase + offset) 1 <;> exact nofun

theorem Inv.advance_ne_fault (h : Inv s) : advance s ≠ .fault f := by
  intro e
  cases hp : s.pass with
  | some p => rw [advance_pass h.idle hp] at e; cases e
  | none =>
    cases hr : s.replayRun with
    | some c =>
      obtain ⟨t, ht⟩ := h.replayStep_ok hr
      rw [advance_replay h.idle hp hr, ht] at e
      cases e
    | none => rw [advance_none h.idle hp hr] at e; cases e

/-- The three commands that access the mailbox do so inside it; the others cannot fault. -/
theorem Inv.command_ne_fault (h : Inv s) {i : Instr} (ends : Ends s (.fault f) i) : False := by
  cases ends with
  | stuck r e => cases e
  | refuse r e => cases e
  | outOfRange e => cases e
  | onBank b off v hboot hawake hb ho e => cases e
  | passStarts l hawake e => cases e
  | enterSleep fi hboot hp hr e =>
    obtain ⟨t, ht⟩ := enterSleepBody_ok (s := s.start (.enterSleep fi)) (h.table hboot) fi
    rw [ht] at e; cases e
  | exitSleep hboot hasleep e =>
    obtain ⟨t, ht⟩ := exitSleepBody_ok (s.start .exitSleep)
    rw [ht] at e; cases e
  | replayStarts hpend hawake e =>
    rw [replayGroup_eq (s := s.start .replay) (h.pending hpend).1 (by decide)] at e
    cases e

end

/-- Settles O5: none of the `Moves` of a step faults under the invariant. -/
theorem noFaultUnderInvariant : Obligations.NoFaultUnderInvariant := by
  intro s f h e
  obtain ⟨agenda, moves⟩ := moves_of_step e
  have hu := h.withAgenda agenda
  generalize { s with agenda := agenda } = u at hu moves
  cases moves with
  | command i e => exact hu.command_ne_fault (ends_of_exec e)
  | illegal ws e => cases e
  | stuck r e => cases e
  | boot e => exact bootRegistration_ne_fault u f e
  | pins p e => cases e
  | mailboxByte offset v e => exact coprocessorWrite_ne_fault u offset v f e
  | goesOn e => exact hu.advance_ne_fault e

end Sys2Proof.Machine
end

section
/-! Settling O6 and O7: the bank table and the parameters never change, the histories grow, the marks are sticky. -/

namespace Sys2Proof.Machine

/-- What every step keeps of the platform and of the histories, in every state. -/
structure Progress (s t : State) : Prop where
  params   : t.params = s.params
  descs    : t.banks.map Bank.desc = s.banks.map Bank.desc
  events   : ∃ more, t.events = s.events ++ more
  refused  : s.refused = true → t.refused = true
  refusals : ∃ more, t.refusals = s.refusals ++ more
  fault    : s.fault ≠ none → t.fault ≠ none

/-- The histories grow when the control state, the marks among it, is the same and the event history grows. -/
theorem SameControl.progress {s t : State} (c : SameControl s t) (h : ∃ more, t.events = s.events ++ more) :
    Progress s t :=
  ⟨c.params, c.descs, h, fun hr => c.refused ▸ hr, ⟨[], by rw [c.refusals, List.append_nil]⟩,
    fun hf => c.fault ▸ hf⟩

theorem SameControl.progress_of_events {s t : State} (c : SameControl s t) (h : t.events = s.events) : Progress s t :=
  c.progress ⟨[], by rw [h, List.append_nil]⟩

theorem Progress.refl (s : State) : Progress s s := (SameControl.refl s).progress_of_events rfl

theorem Progress.trans {s t u : State} (h1 : Progress s t) (h2 : Progress t u) : Progress s u := by
  obtain ⟨l1, e1⟩ := h1.events
  obtain ⟨l2, e2⟩ := h2.events
  obtain ⟨r1, f1⟩ := h1.refusals
  obtain ⟨r2, f2⟩ := h2.refusals
  exact ⟨h2.params.trans h1.params, h2.descs.trans h1.descs, ⟨l1 ++ l2, by rw [e2, e1, List.append_assoc]⟩,
    fun h => h2.refused (h1.refused h), ⟨r1 ++ r2, by rw [f2, f1, List.append_assoc]⟩,
    fun h => h2.fault (h1.fault h)⟩

/-- A change of the pass, the replay, the sleep state, `booted` or `mailbox_present` is no loss. -/
theorem Progress.of_eq {s u t : State} (h : Progress s u) (params : t.params = u.params) (banks : t.banks = u.banks)
    (events : ∃ more, t.events = u.events ++ more) (refused : t.refused = u.refused)
    (refusals : t.refusals = u.refusals) (fault : u.fault ≠ none → t.fault ≠ none) : Progress s t :=
  h.trans ⟨params, by rw [banks], events, fun hr => refused ▸ hr, ⟨[], by rw [refusals, List.append_nil]⟩,
    fault⟩

section
variable {s t : State}

theorem progress_refuse (s : State) (r : RefuseReason) (o : Offered) : Progress s (s.refuse r o) :=
  ⟨rfl, rfl, ⟨[], by simp⟩, fun _ => rfl, ⟨_, rfl⟩, id⟩

theorem Passes.progress (h : Passes s t) : Progress s t := h.sameControl.progress_of_events h.events

theorem progress_finish (s : State) (i : Instr) (st : Status) (v : Bool) : Progress s (s.finish i st v) :=
  (sameControl_finish s i st v).progress ⟨_, rfl⟩

theorem progress_start (s : State) (i : Instr) : Progress s (s.start i) :=
  (sameControl_start s i).progress_of_events rfl

theorem progress_writeEnables (fi : Bool) (bs : List Nat) (s : State) : Progress s (writeEnables s fi bs) :=
  (sameControl_writeEnables fi bs s).progress_of_events (enables_quiet fi bs s).1

theorem progress_bodyOf (i : Instr) {b off : Nat} (hb : b < s.banks.length) (ho : off < (s.bank b).width) :
    Progress s (bodyOf i s b off) := by
  obtain ⟨logs, e, -⟩ := bodyOf_logs i hb ho
  exact (bodyOf_keeps i b off s).touch.sameControl.progress ⟨logs, e⟩

theorem progress_passVisit (s : State) (l low : Nat) : Progress s (passVisit s l low) := by
  cases passVisit_visits s l low with
  | snapshot b w hb line work e =>
    rw [e]
    exact (passes_regRead s b .intStatus).progress.of_eq rfl rfl ⟨[], by simp⟩ rfl rfl id
  | ends e =>
    rw [e]
    exact (Progress.refl s).of_eq rfl rfl ⟨[_, _], List.append_assoc _ _ _⟩ rfl rfl id

theorem progress_passStep (s : State) (p : Pass) : Progress s (passStep s p) := by
  unfold passStep
  split
  · exact (Progress.refl s).of_eq rfl rfl ⟨[_], rfl⟩ rfl rfl id
  · exact progress_passVisit s _ _

theorem progress_replayGroup {g : Nat} (e : replayGroup s g = .ok t) : Progress s t := by
  obtain ⟨n, f, rfl, hf, -⟩ := replayGroup_eq_ok e
  exact (passes_access s).progress.of_eq rfl rfl ⟨[], by simp⟩ rfl rfl hf

theorem progress_replayStep {c : ReplayCursor} (e : replayStep s c = .ok t) : Progress s t := by
  cases replayStep_eq_ok e with
  | faulted e => rw [e]; exact .refl s
  | entry ev hlt e => rw [e]; exact (passes_access s).progress.of_eq rfl rfl ⟨[ev], rfl⟩ rfl rfl id
  | nextGroup e => exact progress_replayGroup e
  | ends e => rw [e]; exact (Progress.refl s).of_eq rfl rfl ⟨[_], rfl⟩ rfl rfl id

theorem progress_advance (e : advance s = .next t) : Progress s t := by
  unfold advance at e
  split at e
  · split at e
    · cases e; exact progress_passStep s _
    · split at e
      · exact progress_replayStep (answer_eq_next.1 e)
      · cases e; exact .refl s
  · cases e

theorem progress_enterSleep {fi : Bool} (e : enterSleepBody s fi = .ok t) : Progress s t := by
  obtain ⟨u, hu, rfl⟩ := enterSleepBody_eq_ok e
  exact (hu.passes.progress.trans (progress_writeEnables fi u.bankIndices u)).of_eq rfl rfl ⟨[_], rfl⟩ rfl rfl id

theorem progress_exitSleep (e : exitSleepBody s = .ok t) : Progress s t := by
  obtain ⟨u, p, hu, rfl, -⟩ := exitSleepBody_eq_ok e
  have hw : Progress s (writeEnables { s with sleepState := .awake } true s.bankIndices) :=
    ((Progress.refl s).of_eq (t := { s with sleepState := .awake }) rfl rfl ⟨[], by simp⟩ rfl rfl id).trans
      (progress_writeEnables true _ _)
  exact (hw.trans hu.passes.progress).of_eq rfl rfl ⟨[_], rfl⟩ rfl rfl id

theorem progress_boot (h : Boots s t) : Progress s t := by
  cases h with
  | refuses e => rw [e]; exact progress_refuse _ _ _
  | registers u logs _ _ w e =>
    rw [e]
    exact (w.sameControl.progress_of_events (by rw [w.rest])).of_eq rfl rfl ⟨logs, rfl⟩ rfl rfl id

theorem progress_mailboxByte {offset : Nat} {v : Byte} (e : coprocessorWrite s offset v = .next t) : Progress s t := by
  simp only [coprocessorWrite] at e
  split at e
  · split at e <;> cases e
    exact SameControl.progress_of_events ⟨rfl, rfl⟩ rfl
  · cases e

theorem progress_command {i : Instr} (ends : Ends s (.next t) i) : Progress s t := by
  cases ends with
  | stuck r e => cases e
  | refuse r e => cases e; exact progress_refuse _ _ _
  | outOfRange e => cases e; exact (progress_start s i).trans (progress_finish _ _ _ _)
  | onBank b off v _ _ hb ho e =>
    cases e
    exact (progress_start s i).trans ((progress_bodyOf i (s := s.start i) hb ho).trans (progress_finish _ _ _ _))
  | passStarts l _ e =>
    cases e
    exact ((progress_start s (.lineIrq l)).trans (progress_passVisit _ l 0)).of_eq rfl rfl ⟨[], by simp⟩ rfl rfl id
  | enterSleep fi _ _ _ e => exact (progress_start s _).trans (progress_enterSleep (answer_eq_next.1 e))
  | exitSleep _ _ e => exact (progress_start s _).trans (progress_exitSleep (answer_eq_next.1 e))
  | replayStarts _ _ e =>
    obtain ⟨u, hg, rfl⟩ := map_eq_ok.1 (answer_eq_next.1 e)
    exact ((progress_start s .replay).trans (progress_replayGroup hg)).of_eq rfl rfl ⟨[], by simp⟩ rfl rfl id

end

/-- Every step makes progress, in a state that meets the invariant or not. -/
theorem step_progress {s t : State} (e : step s = .next t) : Progress s t := by
  obtain ⟨agenda, moves⟩ := moves_of_step e
  have hu : Progress s { s with agenda := agenda } := SameControl.progress_of_events ⟨rfl, rfl⟩ rfl
  refine hu.trans ?_
  cases moves with
  | command i e => exact progress_command (ends_of_exec e)
  | illegal ws e => cases e; exact progress_refuse _ _ _
  | stuck r e => cases e
  | boot e => exact progress_boot (bootRegistration_eq_next e)
  | pins p e => cases e; exact (passes_pinEnvironment _ p).progress
  | mailboxByte offset v e => exact progress_mailboxByte e
  | goesOn e => exact progress_advance e

/-- Settles O6. -/
theorem bankTableImmutable : Obligations.BankTableImmutable := fun _ _ e =>
  ⟨(step_progress e).params, (step_progress e).descs⟩

/-- Settles O7. -/
theorem historyAndMarksOnlyGrow : Obligations.HistoryAndMarksOnlyGrow := fun _ _ e =>
  ⟨(step_progress e).events, (step_progress e).refused, (step_progress e).refusals, (step_progress e).fault⟩

end Sys2Proof.Machine
end

section
/-! Settling O54 and O53: which commands write which registers and masks of a bank, and which change a status bit. -/

namespace Sys2Proof.Machine

/-! ### The named writers (10_state.md R34 to R46) -/

/-- The registers that command `i` may write: R71 to R75 of 20_memory.md say what a write of each does. -/
def mayWrite (i : Instr) : Reg → Bool
  | .out => i.hasOutput
  | .inp => true
  | .intStatus => true
  | .intClear => i.hasClear
  | .intEn => i.hasEnable || i.isSleep
  | .intEdge => i.hasTrigger
  | .intPos => i.hasTrigger || i.hasClear
  | .oe => i.hasDirection
  | .owner => i.hasOwner

/-- From `k` to `k'` no register or mask changed but those whose rules name `i` as a writer, and no status bit was
cleared unless `i` may clear one. -/
structure Bank.NamedWriters (i : Instr) (k k' : Bank) : Prop where
  out    : i.hasOutput = false → k'.out = k.out
  oe     : i.hasDirection = false → k'.oe = k.oe
  owner  : i.hasOwner = false → k'.owner = k.owner
  edge   : i.hasTrigger = false → k'.intEdge = k.intEdge
  be     : i.hasTrigger = false → k'.be = k.be
  pos    : i.hasTrigger = false → i.hasClear = false → k'.intPos = k.intPos
  en0    : i.hasEnable = false → k'.en0 = k.en0
  intEn  : i.hasEnable = false → i.isSleep = false → k'.intEn = k.intEn
  en1    : i.hasWake = false → k'.en1 = k.en1
  shadow : i.hasEnable = false → i.hasClear = false → k'.shadow = k.shadow
  status : i.hasClear = false → k.intStatus &&& ~~~k'.intStatus = 0

section
variable {i : Instr}

theorem Bank.PinsOnly.namedWriters {k k' : Bank} (h : k.PinsOnly k') : k.NamedWriters i k' :=
  ⟨fun _ => h.out, fun _ => h.oe, fun _ => h.owner, fun _ => h.intEdge, fun _ => h.be, fun _ _ => h.intPos,
    fun _ => h.en0, fun _ _ => h.intEn, fun _ => h.en1, fun _ _ => h.shadow, fun _ => h.kept⟩

theorem Bank.NamedWriters.refl (k : Bank) : k.NamedWriters i k := (Bank.PinsOnly.refl k).namedWriters

theorem Bank.NamedWriters.trans {k1 k2 k3 : Bank} (h1 : k1.NamedWriters i k2) (h2 : k2.NamedWriters i k3) :
    k1.NamedWriters i k3 where
  out h := (h2.out h).trans (h1.out h)
  oe h := (h2.oe h).trans (h1.oe h)
  owner h := (h2.owner h).trans (h1.owner h)
  edge h := (h2.edge h).trans (h1.edge h)
  be h := (h2.be h).trans (h1.be h)
  pos h h' := (h2.pos h h').trans (h1.pos h h')
  en0 h := (h2.en0 h).trans (h1.en0 h)
  intEn h h' := (h2.intEn h h').trans (h1.intEn h h')
  en1 h := (h2.en1 h).trans (h1.en1 h)
  shadow h h' := (h2.shadow h h').trans (h1.shadow h h')
  status h := within_trans (h1.status h) (h2.status h)

/-- A register write by a command that may write the register. -/
theorem Bank.namedWriters_written {r : Reg} (hr : mayWrite i r = true) (k : Bank) (v d : Word) :
    k.NamedWriters i (k.written r v d) := by
  have same := Bank.NamedWriters.refl (i := i) k
  cases r with
  | out => exact { same with out := fun h => by rw [mayWrite, h] at hr; cases hr }
  | inp => exact same
  | intStatus => exact same
  | intClear => exact { same with status := fun h => by rw [mayWrite, h] at hr; cases hr }
  | intEn => exact { same with intEn := fun h h' => by rw [mayWrite, h, h'] at hr; cases hr }
  | intEdge =>
    exact { same with
      edge := fun h => by rw [mayWrite, h] at hr; cases hr
      status := fun _ => within_or _ _ }
  | intPos =>
    exact { same with
      pos := fun h h' => by rw [mayWrite, h, h'] at hr; cases hr
      status := fun _ => within_or _ _ }
  | oe => exact { same with oe := fun h => by rw [mayWrite, h] at hr; cases hr }
  | owner => exact { same with owner := fun h => by rw [mayWrite, h] at hr; cases hr }

/-- Every bank was changed only by what the rules of command `i` name. -/
def NamedOnly (i : Instr) (s t : State) : Prop := ∀ b, (s.bank b).NamedWriters i (t.bank b)

theorem NamedOnly.refl (s : State) : NamedOnly i s s := fun _ => .refl _

theorem NamedOnly.trans {s t u : State} (h1 : NamedOnly i s t) (h2 : NamedOnly i t u) : NamedOnly i s u :=
  fun b => (h1 b).trans (h2 b)

theorem Passes.namedOnly {s t : State} (h : Passes s t) : NamedOnly i s t := fun b => (h.banks b).namedWriters

theorem namedOnly_regRead (s : State) (b : Nat) (r : Reg) : NamedOnly i s (regRead s b r).2 :=
  (passes_regRead s b r).namedOnly

theorem namedOnly_maskUpdate (s : State) (b : Nat) {f : Bank → Bank} (hf : ∀ k : Bank, k.NamedWriters i (f k)) :
    NamedOnly i s (s.maskUpdate b f) := fun b' => by
  rcases bank_setBank s b b' f with h | h
  · exact h ▸ hf _
  · exact h ▸ .refl _

theorem namedOnly_regWrite {r : Reg} (hr : mayWrite i r = true) (s : State) (b : Nat) (v : Word) :
    NamedOnly i s (regWrite s b r v) := fun b' => by
  have ha : (s.bank b').NamedWriters i (s.access.bank b') := (access_pinsOnly s b').namedWriters
  by_cases hne : b' = b
  · subst hne
    by_cases hb : b' < s.banks.length
    · rw [bank_regWrite_same hb]
      exact ha.trans (Bank.namedWriters_written hr _ v _)
    · rw [bank_absent hb, bank_absent (by simpa using hb)]
      exact .refl _
  · rw [bank_regWrite_ne s hne]; exact ha

theorem namedOnly_modifyBit {r : Reg} (hr : mayWrite i r = true) (s : State) (b : Nat) (bit : Word) (v : Bool) :
    NamedOnly i s (modifyBit s b r bit v) := (namedOnly_regRead s b r).trans (namedOnly_regWrite hr _ b _)

/-! ### The command bodies -/

theorem namedOnly_bothEdgeLoop (hpos : mayWrite i .intPos = true) (b : Nat) : ∀ (left : Nat) (s : State) (iter : Nat),
    NamedOnly i s (bothEdgeLoop s b iter left)
  | 0, s, _ => .refl s
  | left + 1, s, iter => by
    have hpass : NamedOnly i s (bothEdgePass s b iter) :=
      (namedOnly_regRead s b .inp).trans <| (namedOnly_regRead _ b .intPos).trans <|
      (namedOnly_regWrite hpos _ b _).trans <| (namedOnly_regRead _ b .intStatus).trans <|
      namedOnly_regRead _ b .inp
    unfold bothEdgeLoop
    refine hpass.trans ?_
    simp only
    split
    · exact .refl _
    · split
      · exact .refl _
      · exact namedOnly_bothEdgeLoop hpos b left _ _

theorem namedOnly_bothEdge (hpos : mayWrite i .intPos = true) (s : State) (b : Nat) : NamedOnly i s (bothEdge s b) :=
  namedOnly_bothEdgeLoop hpos b _ s 0

theorem namedOnly_clearDetect (hclear : i.hasClear = true) (s : State) (b off : Nat) :
    NamedOnly i s (clearDetect s b off) := by
  have hfold (st : Word) (k : Bank) : k.NamedWriters i (k.foldShadow st (bitAt off)) :=
    { Bank.NamedWriters.refl (i := i) k with shadow := fun _ h => by rw [hclear] at h; cases h }
  have hwrite : NamedOnly i s (regWrite ((regRead s b .intStatus).2.maskUpdate b
      (Bank.foldShadow (regRead s b .intStatus).1 (bitAt off))) b .intClear (bitAt off)) :=
    (namedOnly_regRead s b .intStatus).trans <| (namedOnly_maskUpdate _ b (hfold _)).trans <|
      namedOnly_regWrite (r := .intClear) hclear _ b _
  unfold clearDetect
  simp only
  split
  · exact hwrite.trans (namedOnly_bothEdge (by rw [mayWrite, hclear, Bool.or_true]) _ b)
  · exact hwrite

/-- A body that may write `int_en` because its command has an enable group. -/
theorem mayWrite_intEn (hen : i.hasEnable = true) : mayWrite i .intEn = true := by rw [mayWrite, hen, Bool.true_or]

theorem namedOnly_maskBody (hen : i.hasEnable = true) (s : State) (b off : Nat) : NamedOnly i s (maskBody s b off) := by
  refine (namedOnly_maskUpdate s b fun k => ?_).trans <| (namedOnly_maskUpdate _ b fun k => ?_).trans <|
    namedOnly_regWrite (mayWrite_intEn hen) _ b _
  · exact { Bank.NamedWriters.refl (i := i) k with en0 := fun h => by rw [hen] at h; cases h }
  · exact { Bank.NamedWriters.refl (i := i) k with shadow := fun h => by rw [hen] at h; cases h }

theorem namedOnly_unmaskBody (hen : i.hasEnable = true) (hclear : i.hasClear = true) (s : State) (b off : Nat) :
    NamedOnly i s (unmaskBody s b off) := by
  have henable (u : State) : NamedOnly i u (regWrite (u.maskUpdate b (Bank.enable (bitAt off))) b .intEn
      ((u.maskUpdate b (Bank.enable (bitAt off))).bank b).en0) :=
    (namedOnly_maskUpdate u b (f := Bank.enable (bitAt off)) fun k =>
      { Bank.NamedWriters.refl (i := i) k with en0 := fun h => by rw [hen] at h; cases h }).trans
      (namedOnly_regWrite (mayWrite_intEn hen) _ b _)
  unfold unmaskBody
  refine (namedOnly_regRead s b .intEdge).trans ?_
  simp only
  split
  · exact henable _
  · exact (namedOnly_clearDetect hclear _ b off).trans (henable _)

theorem namedOnly_wakeBody (hwake : i.hasWake = true) (s : State) (b off : Nat) (v : Bool) :
    NamedOnly i s (wakeBody s b off v) :=
  namedOnly_maskUpdate s b fun k =>
    { Bank.NamedWriters.refl (i := i) k with en1 := fun h => by rw [hwake] at h; cases h }

theorem namedOnly_triggerGroup (htrig : i.hasTrigger = true) (s : State) (b : Nat) (bit : Word) (t : Trigger) :
    NamedOnly i s (triggerGroup s b bit t) := by
  have hpos : mayWrite i .intPos = true := by rw [mayWrite, htrig, Bool.true_or]
  have hbe (f : Word → Word) (k : Bank) : k.NamedWriters i { k with be := f k.be } :=
    { Bank.NamedWriters.refl (i := i) k with be := fun h => by rw [htrig] at h; cases h }
  unfold triggerGroup
  refine (namedOnly_modifyBit (r := .intEdge) htrig s b bit (triggerEdge t)).trans ?_
  cases triggerPolarity t with
  | none => exact (namedOnly_maskUpdate _ b (hbe (· ||| bit))).trans (namedOnly_bothEdge hpos _ b)
  | some rising =>
    exact (namedOnly_maskUpdate _ b (hbe (· &&& ~~~bit))).trans (namedOnly_modifyBit hpos _ b bit rising)

/-- An option group writes only when it is present. -/
theorem namedOnly_whenPresent {α : Type} (o : Option α) (s : State) {f : State → α → State}
    (h : ∀ v, o = some v → NamedOnly i s (f s v)) : NamedOnly i s (whenPresent o s f) := by
  cases o with
  | none => exact .refl s
  | some v => exact h v rfl

theorem namedOnly_configureBody (pin : Nat) (o : Options) (s : State) (b off : Nat) :
    NamedOnly (.configure pin o) s (configureBody o s b off) := by
  unfold configureBody
  refine (namedOnly_whenPresent o.out s fun v h => ?_).trans <| (namedOnly_whenPresent o.dir _ fun v h => ?_).trans <|
    (namedOnly_whenPresent o.own _ fun v h => ?_).trans <| (namedOnly_whenPresent o.trig _ fun t h => ?_).trans <|
    (namedOnly_whenPresent o.int _ fun v h => ?_).trans <| namedOnly_whenPresent o.wake _ fun v h => ?_
  · exact namedOnly_modifyBit (r := .out) (by simp [mayWrite, Instr.hasOutput, h]) _ b _ v
  · exact namedOnly_modifyBit (r := .oe) (by simp [mayWrite, Instr.hasDirection, h]) _ b _ v
  · exact namedOnly_modifyBit (r := .owner) (by simp [mayWrite, Instr.hasOwner, h]) _ b _ v
  · exact namedOnly_triggerGroup (by simp [Instr.hasTrigger, h]) _ b _ t
  · have hen : (Instr.configure pin o).hasEnable = true := by simp [Instr.hasEnable, h]
    cases v with
    | false => exact namedOnly_maskBody hen _ b off
    | true => exact namedOnly_unmaskBody hen (by simp [Instr.hasClear, h]) _ b off
  · exact namedOnly_wakeBody (by simp [Instr.hasWake, h]) _ b off v

end

theorem bodyOf_namedOnly (i : Instr) (s : State) (b off : Nat) : NamedOnly i s (bodyOf i s b off) := by
  cases i with
  | configure pin o => exact namedOnly_configureBody pin o s b off
  | read pin => exact namedOnly_regRead s b .inp
  | write pin v => exact namedOnly_modifyBit (r := .out) rfl s b _ v
  | mask irq => exact namedOnly_maskBody rfl s b off
  | unmask irq => exact namedOnly_unmaskBody rfl rfl s b off
  | ack irq => exact namedOnly_clearDetect rfl s b off
  | setType irq t => exact namedOnly_triggerGroup rfl s b _ t
  | setWake irq v => exact namedOnly_wakeBody rfl s b off v
  | lineIrq l => exact .refl s
  | enterSleep fi => exact .refl s
  | exitSleep => exact .refl s
  | replay => exact .refl s

/-! ### The commands -/

theorem namedOnly_writeEnables {i : Instr} (h : i.isSleep = true) (fi : Bool) : ∀ (bs : List Nat) (s : State),
    NamedOnly i s (writeEnables s fi bs)
  | [], s => .refl s
  | b :: bs, s => (namedOnly_regWrite (r := .intEn) (by rw [mayWrite, h, Bool.or_true]) s b _).trans
      (namedOnly_writeEnables h fi bs _)

theorem namedOnly_passVisit {i : Instr} (s : State) (l low : Nat) : NamedOnly i s (passVisit s l low) := by
  cases passVisit_visits s l low with
  | snapshot b w _ _ _ e => rw [e]; exact namedOnly_regRead s b .intStatus
  | ends e => rw [e]; exact .refl s

theorem namedOnly_command {i : Instr} {s t : State} (ends : Ends s (.next t) i) : NamedOnly i s t := by
  cases ends with
  | stuck r e => cases e
  | refuse r e => cases e; exact .refl s
  | outOfRange e => cases e; exact .refl s
  | onBank b off v _ _ _ _ e => cases e; exact bodyOf_namedOnly i (s.start i) b off
  | passStarts l _ e => cases e; exact namedOnly_passVisit (s.start (.lineIrq l)) l 0
  | enterSleep fi _ _ _ e =>
    obtain ⟨u, hu, rfl⟩ := enterSleepBody_eq_ok (answer_eq_next.1 e)
    exact NamedOnly.trans (s := s.start (.enterSleep fi)) hu.passes.namedOnly (namedOnly_writeEnables rfl fi _ u)
  | exitSleep _ _ e =>
    obtain ⟨u, p, hu, rfl, -⟩ := exitSleepBody_eq_ok (answer_eq_next.1 e)
    have hw := namedOnly_writeEnables (i := .exitSleep) rfl true (s.start .exitSleep).bankIndices
      { s.start .exitSleep with sleepState := .awake }
    exact fun b => (hw b).trans (hu.passes.banks b).namedWriters
  | replayStarts _ _ e =>
    obtain ⟨u, hg, rfl⟩ := map_eq_ok.1 (answer_eq_next.1 e)
    obtain ⟨n, f, rfl, -⟩ := replayGroup_eq_ok hg
    exact (passes_access (s.start .replay)).namedOnly

/-- Settles O54. -/
theorem onlyNamedWriters : Obligations.OnlyNamedWriters := by
  intro i s t e b _
  have h := namedOnly_command (ends_of_exec e) b
  exact ⟨h.out, h.oe, h.owner, fun ht => ⟨h.edge ht, h.be ht⟩, h.pos, h.en0, h.intEn, h.en1, h.shadow⟩

/-! ### Status on steady pins -/

theorem still_wakeBody (s : State) (b off : Nat) (v : Bool) : Under Bank.Still s (wakeBody s b off v) :=
  still_maskUpdate s b (Bank.setWake (bitAt off) v) fun _ => ⟨rfl, rfl, rfl, rfl, rfl⟩

/-- On steady pins a command raises status only where it changed a trigger bit (60_exceptions.md R273). -/
theorem ans_byTrigger_exec (i : Instr) (s : State) : Ans Bank.ByTrigger s (exec i s) := by
  have still {a : Answer} (h : Ans Bank.Still s a) : Ans Bank.ByTrigger s a := fun t e => (h t e).stillTrigger
  have refl (k : Bank) : k.ByTrigger k := Bank.Still.byTrigger k k (.refl k)
  cases i with
  | configure pin o => exact ans_pin refl fun b off hb ho => byTrigger_configureBody o hb ho
  | read pin => exact still (ans_still_read pin s)
  | write pin v => exact ans_pin refl fun b off _ _ => (still_modifyBit _ b rfl _ v).stillTrigger
  | mask irq => exact ans_irq refl fun b off _ _ => (still_maskBody _ b off).stillTrigger
  | unmask irq => exact ans_irq refl fun b off hb ho => byTrigger_unmaskBody hb ho
  | ack irq =>
    exact ans_irq refl fun b off hb _ =>
      (clearDetect_steady (s := s.start (.ack irq)) off hb).1.mono Bank.ByPos.byTrigger
  | setType irq g => exact ans_irq refl fun b off hb _ => triggerGroup_steady (s := s.start (.setType irq g)) hb g
  | setWake irq v => exact ans_irq refl fun b off _ _ => (still_wakeBody _ b off v).stillTrigger
  | lineIrq l => exact still (ans_still_line l s)
  | enterSleep fi => exact still (ans_still_enter fi s)
  | exitSleep => exact still (ans_still_exit s)
  | replay => exact still (ans_still_replay s)

/-- With neither a trigger group nor a ClearDetect it changes no status. -/
theorem ans_still_exec {i : Instr} (ht : i.hasTrigger = false) (hc : i.hasClear = false) (s : State) :
    Ans Bank.Still s (exec i s) := by
  cases i with
  | configure pin o =>
    refine ans_pin Bank.Still.refl fun b off _ _ => still_configureBody_of ?_ ?_
    · simpa [Instr.hasTrigger] using ht
    · simpa [Instr.hasClear] using hc
  | read pin => exact ans_still_read pin s
  | write pin v => exact ans_pin Bank.Still.refl fun b off _ _ => still_modifyBit _ b rfl _ v
  | mask irq => exact ans_irq Bank.Still.refl fun b off _ _ => still_maskBody _ b off
  | unmask irq => cases hc
  | ack irq => cases hc
  | setType irq g => cases ht
  | setWake irq v =>
    exact ans_irq Bank.Still.refl fun b off _ _ => still_wakeBody _ b off v
  | lineIrq l => exact ans_still_line l s
  | enterSleep fi => exact ans_still_enter fi s
  | exitSleep => exact ans_still_exit s
  | replay => exact ans_still_replay s

/-- Taking an input off the agenda makes no access. -/
theorem ans_of_agenda {P : Bank → Bank → Prop} {s : State} {a : Answer} (agenda : List Input)
    (h : Ans P { s with agenda := agenda } a) : Ans P s a := fun t e => ⟨(h t e).uses, (h t e).banks⟩

/-- Nor does a step that takes neither a command nor an environment step. -/
theorem ans_still_step {s : State} (hcmd : ∀ ws rest, s.agenda ≠ .command ws :: rest)
    (hpins : ∀ p rest, s.agenda ≠ .pins p :: rest) : Ans Bank.Still s (step s) := by
  rw [step_eq_answer_fetch]
  unfold fetch
  cases ha : s.agenda with
  | nil => exact ans_still_advance s
  | cons input rest =>
    cases input with
    | boot => exact ans_of_agenda rest (ans_still_boot _)
    | command ws => exact absurd ha (hcmd ws rest)
    | pins p => exact absurd ha (hpins p rest)
    | mailboxByte offset v => exact ans_of_agenda rest (ans_still_mailbox _ offset v)
    | proceed => exact ans_of_agenda rest (ans_still_advance _)

/-- Settles O53: status is cleared by named writers only, and raised on steady pins where a trigger bit changed. -/
theorem statusClearedOnlyByClearDetect : Obligations.StatusClearedOnlyByClearDetect := by
  refine ⟨fun i s t e hclear b _ => (namedOnly_command (ends_of_exec e) b).status hclear,
    fun i s t e steady b _ => ?_, fun s t e steady hcmd hpins b _ => ?_⟩
  · have h := (ans_byTrigger_exec i s t e).banks steady b
    exact ⟨h.pad, fun j ht hs => (h.status j ht).resolve_left (by rw [hs]; decide),
      fun htrig hclear => ((ans_still_exec htrig hclear s t e).banks steady b).status⟩
  · have h := (ans_still_step hcmd hpins t e).banks steady b
    exact ⟨h.pad, h.status⟩

end Sys2Proof.Machine
end

section
/-! Settling O56: the `owner` registers have no effect. Every operation but the ownership group commutes with dropping
them (`State.ownerless`), and the ownership group writes nothing else. -/

namespace Sys2Proof.Machine

/-! ### The fields of a state without its `owner` registers -/

section
variable (s : State)

@[simp] theorem ownerless_params : s.ownerless.params = s.params := rfl
@[simp] theorem ownerless_banks : s.ownerless.banks = s.banks.map Bank.ownerless := rfl
@[simp] theorem ownerless_sleepState : s.ownerless.sleepState = s.sleepState := rfl
@[simp] theorem ownerless_replayPending : s.ownerless.replayPending = s.replayPending := rfl
@[simp] theorem ownerless_replayRun : s.ownerless.replayRun = s.replayRun := rfl
@[simp] theorem ownerless_mailboxPresent : s.ownerless.mailboxPresent = s.mailboxPresent := rfl
@[simp] theorem ownerless_booted : s.ownerless.booted = s.booted := rfl
@[simp] theorem ownerless_seq : s.ownerless.seq = s.seq := rfl
@[simp] theorem ownerless_beRegs : s.ownerless.beRegs = s.beRegs := rfl
@[simp] theorem ownerless_pass : s.ownerless.pass = s.pass := rfl

theorem ownerless_descs : s.ownerless.banks.map Bank.desc = s.banks.map Bank.desc := by
  rw [ownerless_banks, List.map_map]; rfl

@[simp] theorem ownerless_nwords : s.ownerless.nwords = s.nwords := nwords_congr (ownerless_descs s)

@[simp] theorem ownerless_inMailbox (a n : Nat) : s.ownerless.inMailbox a n = s.inMailbox a n := by
  simp only [State.inMailbox, State.mailboxSize, ownerless_nwords]; rfl

@[simp] theorem ownerless_countAddr (g : Nat) : s.ownerless.countAddr g = s.countAddr g := rfl

@[simp] theorem ownerless_arrayAddr (x : BitArray) (w : Nat) : s.ownerless.arrayAddr x w = s.arrayAddr x w := by
  simp only [State.arrayAddr, ownerless_nwords]; rfl

@[simp] theorem ownerless_mailboxFields : s.ownerless.mailboxFields = s.mailboxFields := by
  simp only [State.mailboxFields, ownerless_arrayAddr, ownerless_nwords]; rfl

@[simp] theorem ownerless_bankIndices : s.ownerless.bankIndices = s.bankIndices := by
  simp [State.bankIndices]

@[simp] theorem ownerless_resolve (p : Nat) : resolve s.ownerless p = resolve s p :=
  resolveFrom_congr s.banks s.ownerless.banks 0 p (ownerless_descs s)

@[simp] theorem ownerless_resolveIrq (n : Nat) : resolveIrq s.ownerless n = resolveIrq s n := by
  simp only [resolveIrq, ownerless_resolve]; rfl

@[simp] theorem ownerless_bank (b : Nat) : s.ownerless.bank b = (s.bank b).ownerless := by
  by_cases h : b < s.banks.length
  · rw [bank_eq_getElem h, bank_eq_getElem (by simpa using h)]
    simp
  · rw [bank_absent h, bank_absent (by simpa using h)]
    rfl

end

@[simp] theorem ownerless_ownerless (s : State) : s.ownerless.ownerless = s.ownerless := by
  simp only [State.ownerless, List.map_map]; rfl

theorem nextBankFrom_ownerless : ∀ (ks : List Bank) (b l low : Nat),
    nextBankFrom b (ks.map Bank.ownerless) l low = nextBankFrom b ks l low
  | [], _, _, _ => rfl
  | k :: ks, b, l, low => by
    simp only [List.map_cons, nextBankFrom, nextBankFrom_ownerless ks (b + 1) l low]
    rfl

@[simp] theorem ownerless_nextBank (s : State) (l low : Nat) : nextBank s.ownerless l low = nextBank s l low :=
  nextBankFrom_ownerless s.banks 0 l low

/-! ### Accesses -/

theorem sense_ownerless (sleep : SleepState) (b : Nat) : ∀ (ps : List PinStep) (k : Bank),
    Bank.sense sleep b k.ownerless ps = Bank.sense sleep b k ps
  | [], _ => rfl
  | p :: ps, k => by
    simp only [Bank.sense]
    split
    · cases sleep with
      | awake => exact sense_ownerless .awake b ps { k with
          pad := p.level, intStatus := k.intStatus ||| k.detected p.level }
      | asleep => exact sense_ownerless .asleep b ps { k with
          pad := p.level, intStatus := k.intStatus ||| (k.detected p.level &&& p.caught) }
    · exact sense_ownerless sleep b ps k

theorem watch_ownerless (sleep : SleepState) (ps : List PinStep) (b : Nat) (k : Bank) :
    k.ownerless.watch sleep ps b = (k.watch sleep ps b).ownerless := by
  simp only [Bank.watch, sense_ownerless]; rfl

theorem pinSteps_ownerless (sleep : SleepState) (ps : List PinStep) : ∀ (b : Nat) (ks : List Bank),
    pinSteps sleep ps b (ks.map Bank.ownerless) = (pinSteps sleep ps b ks).map Bank.ownerless
  | _, [] => rfl
  | b, k :: ks => by
    simp only [List.map_cons, pinSteps, watch_ownerless, pinSteps_ownerless sleep ps (b + 1) ks]

@[simp] theorem ownerless_access (s : State) : s.ownerless.access = s.access.ownerless := by
  simp only [State.access, ownerless_banks, pinSteps_ownerless]; rfl

@[simp] theorem ownerless_draw (s : State) : s.ownerless.draw = (s.draw.1, s.draw.2.ownerless) := rfl

/-- A change of a bank that neither reads nor writes the `owner` register. -/
theorem ownerless_setBank {f : Bank → Bank} (hf : ∀ k : Bank, f k.ownerless = (f k).ownerless) (s : State)
    (b : Nat) : s.ownerless.setBank b f = (s.setBank b f).ownerless := by
  have h : (s.banks.map Bank.ownerless).modify b f = (s.banks.modify b f).map Bank.ownerless := by
    apply List.ext_getElem?
    intro i
    rw [List.getElem?_modify, List.getElem?_map, List.getElem?_map, List.getElem?_modify]
    cases s.banks[i]? with
    | none => rfl
    | some k => by_cases hi : b = i <;> simp [hi, hf]
  simp only [State.setBank, ownerless_banks, h]
  rfl

/-- A change of a bank that writes only the `owner` register. -/
theorem setBank_ownerless {f : Bank → Bank} (hf : ∀ k : Bank, (f k).ownerless = k.ownerless) (s : State) (b : Nat) :
    (s.setBank b f).ownerless = s.ownerless := by
  have h : (s.banks.modify b f).map Bank.ownerless = s.banks.map Bank.ownerless := by
    apply List.ext_getElem?
    intro i
    rw [List.getElem?_map, List.getElem?_map, List.getElem?_modify]
    cases s.banks[i]? with
    | none => rfl
    | some k => by_cases hi : b = i <;> simp [hi, hf]
  simp only [State.ownerless, State.setBank_banks, h]
  rfl

theorem ownerless_maskUpdate {f : Bank → Bank} (hf : ∀ k : Bank, f k.ownerless = (f k).ownerless) (s : State)
    (b : Nat) : s.ownerless.maskUpdate b f = (s.maskUpdate b f).ownerless := by
  simp only [State.maskUpdate, ownerless_setBank hf]; rfl

theorem content_ownerless {r : Reg} (hr : r ≠ .owner) (k : Bank) (d : Word) :
    k.ownerless.content r d = k.content r d := by
  cases r
  case owner => exact absurd rfl hr
  all_goals rfl

/-- A read of a register other than `owner` gives the same word. -/
theorem ownerless_regRead {r : Reg} (hr : r ≠ .owner) (s : State) (b : Nat) :
    regRead s.ownerless b r = ((regRead s b r).1, (regRead s b r).2.ownerless) := by
  simp only [regRead, ownerless_access, ownerless_draw, ownerless_bank, content_ownerless hr]
  rfl

theorem written_ownerless {r : Reg} (hr : r ≠ .owner) (k : Bank) (v d : Word) :
    k.ownerless.written r v d = (k.written r v d).ownerless := by
  cases r
  case owner => exact absurd rfl hr
  all_goals rfl

theorem ownerless_regWrite {r : Reg} (hr : r ≠ .owner) (s : State) (b : Nat) (v : Word) :
    regWrite s.ownerless b r v = (regWrite s b r v).ownerless := by
  simp only [regWrite, ownerless_access, ownerless_draw]
  split
  · exact ownerless_setBank (fun k => written_ownerless hr k v _) _ b
  · exact ownerless_setBank (fun k => written_ownerless hr k v _) _ b

/-- A write of the `owner` register leaves the rest as the access does. -/
theorem regWrite_owner_ownerless (s : State) (b : Nat) (v : Word) :
    (regWrite s b .owner v).ownerless = s.access.ownerless :=
  setBank_ownerless (f := fun k => k.written .owner v 0) (fun _ => rfl) s.access b

theorem ownerless_modifyBit {r : Reg} (hr : r ≠ .owner) (s : State) (b : Nat) (bit : Word) (v : Bool) :
    modifyBit s.ownerless b r bit v = (modifyBit s b r bit v).ownerless := by
  simp only [modifyBit, ownerless_regRead hr, ownerless_regWrite hr]

/-- The ownership group reads the `owner` register, and writes it only. -/
theorem ownerGroup_ownerless (s : State) (b : Nat) (bit : Word) (v : Bool) :
    (ownerGroup s.ownerless b bit v).ownerless = (ownerGroup s b bit v).ownerless := by
  simp only [ownerGroup, modifyBit, regWrite_owner_ownerless]
  have h : (regRead s.ownerless b .owner).2 = (regRead s b .owner).2.ownerless := by
    simp only [regRead_rest, ownerless_access, ownerless_draw]
  rw [h, ownerless_access, ownerless_ownerless]

/-! ### The command bodies but the ownership group -/

theorem ownerless_bothEdgePass (s : State) (b iter : Nat) :
    bothEdgePass s.ownerless b iter = (bothEdgePass s b iter).ownerless := by
  simp only [bothEdgePass, ownerless_regRead (r := .inp) (by decide), ownerless_regRead (r := .intPos) (by decide),
    ownerless_regRead (r := .intStatus) (by decide), ownerless_regWrite (r := .intPos) (by decide), ownerless_bank]
  rfl

theorem ownerless_bothEdgeLoop (b : Nat) : ∀ (left : Nat) (s : State) (iter : Nat),
    bothEdgeLoop s.ownerless b iter left = (bothEdgeLoop s b iter left).ownerless
  | 0, _, _ => rfl
  | left + 1, s, iter => by
    simp only [bothEdgeLoop, ownerless_bothEdgePass, ownerless_bothEdgeLoop b left, ownerless_bank, ownerless_beRegs]
    generalize bothEdgePass s b iter = u
    change (if bothEdgeStable (u.bank b).be (u.beRegs.getD default) = true then _ else _) = _
    split
    · rfl
    · split <;> rfl

theorem ownerless_bothEdge (s : State) (b : Nat) : bothEdge s.ownerless b = (bothEdge s b).ownerless :=
  ownerless_bothEdgeLoop b _ s 0

theorem ownerless_clearDetect (s : State) (b off : Nat) :
    clearDetect s.ownerless b off = (clearDetect s b off).ownerless := by
  simp only [clearDetect, ownerless_regRead (r := .intStatus) (by decide),
    ownerless_maskUpdate (f := Bank.foldShadow _ _) (fun _ => rfl), ownerless_regWrite (r := .intClear) (by decide),
    ownerless_bank, ownerless_bothEdge]
  generalize regWrite _ b .intClear (bitAt off) = u
  change (if (u.bank b).be &&& bitAt off ≠ 0 then _ else _) = _
  split <;> rfl

theorem ownerless_maskBody (s : State) (b off : Nat) : maskBody s.ownerless b off = (maskBody s b off).ownerless := by
  simp only [maskBody, ownerless_maskUpdate (f := Bank.disable _) (fun _ => rfl),
    ownerless_maskUpdate (f := Bank.dropShadow _) (fun _ => rfl), ownerless_bank,
    ownerless_regWrite (r := .intEn) (by decide)]
  rfl

theorem ownerless_unmaskBody (s : State) (b off : Nat) :
    unmaskBody s.ownerless b off = (unmaskBody s b off).ownerless := by
  have henable (u : State) : regWrite (u.ownerless.maskUpdate b (Bank.enable (bitAt off))) b .intEn
      ((u.ownerless.maskUpdate b (Bank.enable (bitAt off))).bank b).en0 =
      (regWrite (u.maskUpdate b (Bank.enable (bitAt off))) b .intEn
        ((u.maskUpdate b (Bank.enable (bitAt off))).bank b).en0).ownerless := by
    rw [ownerless_maskUpdate (f := Bank.enable _) (fun _ => rfl), ownerless_bank, ownerless_regWrite (by decide)]
    rfl
  simp only [unmaskBody, ownerless_regRead (r := .intEdge) (by decide), ownerless_clearDetect]
  split <;> exact henable _

theorem ownerless_wakeBody (s : State) (b off : Nat) (v : Bool) :
    wakeBody s.ownerless b off v = (wakeBody s b off v).ownerless :=
  ownerless_maskUpdate (f := Bank.setWake (bitAt off) v) (fun _ => rfl) s b

theorem ownerless_triggerGroup (s : State) (b : Nat) (bit : Word) (t : Trigger) :
    triggerGroup s.ownerless b bit t = (triggerGroup s b bit t).ownerless := by
  simp only [triggerGroup, ownerless_modifyBit (r := .intEdge) (by decide)]
  cases triggerPolarity t with
  | none =>
    simp only [ownerless_maskUpdate (f := Bank.joinBothEdge _) (fun _ => rfl), ownerless_bothEdge]
  | some rising =>
    simp only [ownerless_maskUpdate (f := Bank.leaveBothEdge _) (fun _ => rfl),
      ownerless_modifyBit (r := .intPos) (by decide)]

theorem ownerless_enableGroup (s : State) (b off : Nat) (v : Bool) :
    enableGroup s.ownerless b off v = (enableGroup s b off v).ownerless := by
  cases v with
  | false => exact ownerless_maskBody s b off
  | true => exact ownerless_unmaskBody s b off

theorem ownerless_whenPresent {α : Type} {f : State → α → State}
    (hf : ∀ s v, f s.ownerless v = (f s v).ownerless) (o : Option α) (s : State) :
    whenPresent o s.ownerless f = (whenPresent o s f).ownerless := by
  cases o with
  | none => rfl
  | some v => exact hf s v

/-- The groups before the ownership group: output level and direction. -/
def beforeOwner (o : Options) (s : State) (b off : Nat) : State :=
  whenPresent o.dir (whenPresent o.out s fun s v => modifyBit s b .out (bitAt off) v)
    fun s v => modifyBit s b .oe (bitAt off) v

/-- The groups after it: trigger, interrupt enable, wake. -/
def afterOwner (o : Options) (s : State) (b off : Nat) : State :=
  wakeApplied o (enableApplied o (triggerApplied o s b off) b off) b off

theorem configureBody_eq_owner (o : Options) (s : State) (b off : Nat) : configureBody o s b off =
    afterOwner o (whenPresent o.own (beforeOwner o s b off) fun s v => ownerGroup s b (bitAt off) v) b off := rfl

theorem ownerless_beforeOwner (o : Options) (s : State) (b off : Nat) :
    beforeOwner o s.ownerless b off = (beforeOwner o s b off).ownerless := by
  have hgroup {r : Reg} (hr : r ≠ .owner) := ownerless_whenPresent (f := fun s v => modifyBit s b r (bitAt off) v)
    fun s v => ownerless_modifyBit hr s b (bitAt off) v
  rw [beforeOwner, hgroup (r := .out) (by decide), hgroup (r := .oe) (by decide)]
  rfl

theorem ownerless_afterOwner (o : Options) (s : State) (b off : Nat) :
    afterOwner o s.ownerless b off = (afterOwner o s b off).ownerless := by
  have htrig := ownerless_whenPresent (f := fun s t => triggerGroup s b (bitAt off) t)
    fun s t => ownerless_triggerGroup s b (bitAt off) t
  have hint := ownerless_whenPresent (f := fun s v => enableGroup s b off v) fun s v => ownerless_enableGroup s b off v
  have hwake := ownerless_whenPresent (f := fun s v => wakeBody s b off v) fun s v => ownerless_wakeBody s b off v
  rw [afterOwner, triggerApplied, htrig, enableApplied, hint, wakeApplied, hwake]
  rfl

/-- A CONFIGURE: the ownership group is its only group that sees the `owner` register. -/
theorem configureBody_ownerless (o : Options) (s : State) (b off : Nat) :
    (configureBody o s.ownerless b off).ownerless = (configureBody o s b off).ownerless := by
  rw [configureBody_eq_owner, configureBody_eq_owner, ← ownerless_afterOwner, ← ownerless_afterOwner,
    ownerless_beforeOwner]
  congr 1
  cases o.own with
  | none => exact ownerless_ownerless _
  | some v => exact ownerGroup_ownerless _ b (bitAt off) v

/-- No body of a command depends on an `owner` register. -/
theorem bodyOf_ownerless (i : Instr) (s : State) (b off : Nat) :
    (bodyOf i s.ownerless b off).ownerless = (bodyOf i s b off).ownerless := by
  have of_eq {t : State} (h : bodyOf i s.ownerless b off = t.ownerless) :
      (bodyOf i s.ownerless b off).ownerless = t.ownerless := by rw [h, ownerless_ownerless]
  cases i with
  | configure pin o => exact configureBody_ownerless o s b off
  | read pin => exact of_eq (congrArg Prod.snd (ownerless_regRead (r := .inp) (by decide) s b))
  | write pin v => exact of_eq (ownerless_modifyBit (r := .out) (by decide) s b (bitAt off) v)
  | mask irq => exact of_eq (ownerless_maskBody s b off)
  | unmask irq => exact of_eq (ownerless_unmaskBody s b off)
  | ack irq => exact of_eq (ownerless_clearDetect s b off)
  | setType irq t => exact of_eq (ownerless_triggerGroup s b (bitAt off) t)
  | setWake irq v => exact of_eq (ownerless_wakeBody s b off v)
  | lineIrq l => exact ownerless_ownerless s
  | enterSleep fi => exact ownerless_ownerless s
  | exitSleep => exact ownerless_ownerless s
  | replay => exact ownerless_ownerless s

/-! ### The sleep handoff and the replay -/

/-- A computation that goes on commutes with dropping the `owner` registers when both its parts do; `g` says what that
is for the first one's value. -/
theorem bind_ownerless {α : Type} {x x' : Except Fault α} {g : α → α} {f f' : α → Except Fault State}
    (hx : x' = x.map g) (hf : ∀ a, f' (g a) = (f a).map State.ownerless) :
    (x' >>= f') = (x >>= f).map State.ownerless := by
  subst hx
  cases x with
  | error e => rfl
  | ok a => exact hf a

theorem ownerless_memRead (s : State) (a n : Nat) :
    memRead s.ownerless a n = (memRead s a n).map (Prod.map id State.ownerless) := by
  simp only [memRead, ownerless_inMailbox, ownerless_access]
  split <;> rfl

theorem ownerless_memWrite (s : State) (a n v : Nat) :
    memWrite s.ownerless a n v = (memWrite s a n v).map State.ownerless := by
  simp only [memWrite, ownerless_inMailbox, ownerless_access]
  split <;> rfl

theorem ownerless_orWord (s : State) (a : Nat) (m : Word) :
    orWord s.ownerless a m = (orWord s a m).map State.ownerless :=
  bind_ownerless (ownerless_memRead s a 4) fun p => ownerless_memWrite p.2 a 4 _

theorem ownerless_packInto (s : State) (x : BitArray) (b : Nat) (m : Word) :
    packInto s.ownerless x b m = (packInto s x b m).map State.ownerless := by
  simp only [packInto, ownerless_bank, ownerless_arrayAddr]
  refine bind_ownerless (ownerless_orWord s _ _) fun u => ?_
  change (if (s.bank b).desc.start % 32 + (s.bank b).width > 32 then _ else _) = _
  split
  · exact ownerless_orWord u _ _
  · rfl

theorem ownerless_packBank (s : State) (b : Nat) (fi : Bool) :
    packBank s.ownerless b fi = (packBank s b fi).map State.ownerless := by
  simp only [packBank, ownerless_bank]
  refine bind_ownerless (ownerless_packInto s _ b _) fun u => ?_
  rw [ownerless_regRead (by decide)]
  refine bind_ownerless (ownerless_packInto (regRead u b .intEdge).2 _ b _) fun v => ?_
  rw [ownerless_regRead (by decide)]
  exact ownerless_packInto (regRead v b .intPos).2 _ b _

theorem ownerless_packBanks (fi : Bool) : ∀ (bs : List Nat) (s : State),
    packBanks s.ownerless fi bs = (packBanks s fi bs).map State.ownerless
  | [], _ => rfl
  | b :: bs, s => bind_ownerless (ownerless_packBank s b fi) fun u => ownerless_packBanks fi bs u

theorem ownerless_clearFields : ∀ (fs : List (Nat × Nat)) (s : State),
    clearFields s.ownerless fs = (clearFields s fs).map State.ownerless
  | [], _ => rfl
  | (a, n) :: fs, s => bind_ownerless (ownerless_memWrite s a n 0) fun u => ownerless_clearFields fs u

theorem ownerless_handOff (s : State) (fi : Bool) : handOff s.ownerless fi = (handOff s fi).map State.ownerless := by
  simp only [handOff, ownerless_mailboxPresent, mailboxClear, ownerless_mailboxFields]
  split
  · refine bind_ownerless (ownerless_clearFields _ s) fun u => ?_
    rw [ownerless_bankIndices]
    exact ownerless_packBanks fi _ u
  · rfl

theorem ownerless_writeEnables (fi : Bool) : ∀ (bs : List Nat) (s : State),
    writeEnables s.ownerless fi bs = (writeEnables s fi bs).ownerless
  | [], _ => rfl
  | b :: bs, s => by
    simp only [writeEnables, ownerless_bank, ownerless_regWrite (r := .intEn) (by decide)]
    exact ownerless_writeEnables fi bs _

theorem ownerless_enterSleepBody (s : State) (fi : Bool) :
    enterSleepBody s.ownerless fi = (enterSleepBody s fi).map State.ownerless := by
  refine bind_ownerless (ownerless_handOff s fi) fun u => ?_
  simp only [ownerless_bankIndices, ownerless_writeEnables]
  rfl

theorem ownerless_takeReport (s : State) : takeReport s.ownerless = (takeReport s).map State.ownerless := by
  unfold takeReport
  cases hm : s.mailboxPresent with
  | false =>
    simp only [ownerless_mailboxPresent, hm]
    rfl
  | true =>
    simp only [ownerless_mailboxPresent, hm, if_true, ownerless_countAddr]
    exact bind_ownerless (ownerless_memRead s _ 2) fun p => bind_ownerless (ownerless_memRead p.2 _ 2) fun q => rfl

theorem ownerless_exitSleepBody (s : State) : exitSleepBody s.ownerless = (exitSleepBody s).map State.ownerless := by
  simp only [exitSleepBody, ownerless_bankIndices]
  have hw := ownerless_writeEnables true s.bankIndices { s with sleepState := .awake }
  change (takeReport (writeEnables ({ s with sleepState := .awake } : State).ownerless true s.bankIndices) >>= _) = _
  rw [hw]
  exact bind_ownerless (ownerless_takeReport _) fun u => rfl

theorem ownerless_replayGroup (s : State) (g : Nat) :
    replayGroup s.ownerless g = (replayGroup s g).map State.ownerless := by
  refine bind_ownerless (ownerless_memRead s _ 2) fun p => ?_
  change (if p.1 > s.params.firedCap then _ else _) = Except.map _ (if p.1 > s.params.firedCap then _ else _)
  split <;> rfl

theorem ownerless_passVisit (s : State) (l low : Nat) :
    passVisit s.ownerless l low = (passVisit s l low).ownerless := by
  simp only [passVisit, ownerless_nextBank]
  split
  · simp only [snapshot, ownerless_regRead (r := .intStatus) (by decide), ownerless_bank]
    rfl
  · rfl

/-! ### The commands -/

/-- An answer without the `owner` registers. -/
def ownerlessAnswer : Answer → Answer
  | .next t => .next t.ownerless
  | .fault f => .fault f
  | .refused r => .refused r

@[simp] theorem ownerlessAnswer_next (t : State) : ownerlessAnswer (.next t) = .next t.ownerless := rfl
@[simp] theorem ownerlessAnswer_fault (f : Fault) : ownerlessAnswer (.fault f) = .fault f := rfl
@[simp] theorem ownerlessAnswer_refused (r : Refusal) : ownerlessAnswer (.refused r) = .refused r := rfl

theorem sameButOwner_of_eq {a1 a2 : Answer} (h : ownerlessAnswer a1 = ownerlessAnswer a2) : sameButOwner a1 a2 := by
  cases a1 with
  | next t1 => cases a2 with
    | next t2 => exact Host.Outcome.next.inj h
    | fault f2 => simp at h
    | refused r2 => simp at h
  | fault f1 => cases a2 with
    | next t2 => simp at h
    | fault f2 => exact Host.Outcome.fault.inj h
    | refused r2 => simp at h
  | refused r1 => cases a2 with
    | next t2 => simp at h
    | fault f2 => simp at h
    | refused r2 => exact Host.Outcome.refused.inj h

/-- What the command answers is the same, but for the `owner` registers, without those of `s`. -/
def Alike (command : State → Answer) (s : State) : Prop :=
  ownerlessAnswer (command s.ownerless) = ownerlessAnswer (command s)

theorem alike_answer {r r' : Except Fault State} (h : r' = r.map State.ownerless) :
    ownerlessAnswer (answer r') = ownerlessAnswer (answer r) := by
  rw [h]
  cases r with
  | error e => rfl
  | ok t => exact congrArg Host.Outcome.next (ownerless_ownerless t)

theorem alike_refuse (s : State) (r : RefuseReason) (o : Offered) :
    ownerlessAnswer (.next (s.ownerless.refuse r o)) = ownerlessAnswer (.next (s.refuse r o)) :=
  congrArg Host.Outcome.next (ownerless_ownerless (s.refuse r o))

section
variable {i : Instr} {s : State} {body : State → Answer}

theorem alike_admitBooted (h : Alike body s) : Alike (admitBooted i · body) s := by
  unfold Alike admitBooted
  cases hidle : s.seq.isIdle with
  | false => simp only [ownerless_seq, hidle, Bool.false_eq_true, if_false]
  | true =>
    cases hboot : s.booted with
    | false =>
      simp only [ownerless_seq, hidle, ownerless_booted, hboot, if_true, Bool.false_eq_true, if_false]
      exact alike_refuse s .notBooted (.command i)
    | true =>
      simp only [ownerless_seq, hidle, ownerless_booted, hboot, if_true]
      exact h

theorem alike_admitAwake (h : Alike body s) : Alike (admitAwake i · body) s := by
  refine alike_admitBooted ?_
  unfold Alike
  simp only [ownerless_sleepState]
  cases s.sleepState with
  | awake => exact h
  | asleep => exact alike_refuse s .asleep (.command i)

theorem alike_onResolved (i : Instr) (s : State) (target : Option (Nat × Nat)) :
    ownerlessAnswer (onResolved i s.ownerless target (bodyOf i)) =
      ownerlessAnswer (onResolved i s target (bodyOf i)) := by
  cases target with
  | none => exact congrArg Host.Outcome.next (ownerless_ownerless ((s.start i).raise i))
  | some p =>
    exact congrArg (fun t : State => Host.Outcome.next (t.finish i .ok false)) (bodyOf_ownerless i (s.start i) p.1 p.2)

end

theorem alike_onPin (i : Instr) (pin : Nat) (s : State) : Alike (onPin i pin · (bodyOf i)) s := by
  refine alike_admitAwake ?_
  unfold Alike
  simp only [ownerless_resolve]
  exact alike_onResolved i s (resolve s pin)

theorem alike_onIrq (i : Instr) (irq : Nat) (s : State) : Alike (onIrq i irq · (bodyOf i)) s := by
  refine alike_admitAwake ?_
  unfold Alike
  simp only [ownerless_resolveIrq]
  exact alike_onResolved i s (resolveIrq s irq)

theorem alike_read (pin : Nat) (s : State) : Alike (execRead pin) s := by
  refine alike_admitAwake ?_
  unfold Alike
  simp only [ownerless_resolve]
  cases resolve s pin with
  | none => exact congrArg Host.Outcome.next (ownerless_ownerless ((s.start (.read pin)).raise (.read pin)))
  | some p =>
    have h := ownerless_regRead (r := .inp) (by decide) (s.start (.read pin)) p.1
    change ownerlessAnswer (.next ((regRead (s.start (.read pin)).ownerless p.1 .inp).2.finish _ _
      ((regRead (s.start (.read pin)).ownerless p.1 .inp).1.getLsbD p.2))) = _
    rw [h]
    exact congrArg (fun t : State => Host.Outcome.next (t.finish (.read pin) .ok
      ((regRead (s.start (.read pin)) p.1 .inp).1.getLsbD p.2))) (ownerless_ownerless _)

theorem alike_lineIrq (l : Nat) (s : State) : Alike (execLineIrq l) s := by
  unfold Alike execLineIrq
  cases hidle : s.seq.isIdle with
  | false => simp only [ownerless_seq, hidle, Bool.false_eq_true, if_false]
  | true =>
    simp only [ownerless_seq, hidle, ownerless_params, if_true]
    by_cases hl : l < s.params.numLines
    · simp only [hl, if_true]
      refine alike_admitBooted ?_
      unfold Alike
      simp only [ownerless_sleepState, ownerless_pass]
      cases s.sleepState with
      | asleep => rfl
      | awake =>
        cases s.pass with
        | some p => rfl
        | none =>
          have h := ownerless_passVisit (s.start (.lineIrq l)) l 0
          change ownerlessAnswer (.next { passVisit (s.start (.lineIrq l)).ownerless l 0 with seq := .idle }) = _
          rw [h]
          exact congrArg Host.Outcome.next
            (ownerless_ownerless { passVisit (s.start (.lineIrq l)) l 0 with seq := .idle })
    · simp only [hl, if_false]
      exact alike_refuse s _ _

theorem alike_enterSleep (fi : Bool) (s : State) : Alike (execEnterSleep fi) s := by
  refine alike_admitAwake ?_
  unfold Alike
  simp only [ownerless_pass, ownerless_replayRun]
  split
  · exact alike_answer (ownerless_enterSleepBody (s.start (.enterSleep fi)) fi)
  · exact alike_refuse s _ _

theorem alike_exitSleep (s : State) : Alike execExitSleep s := by
  refine alike_admitBooted ?_
  unfold Alike
  simp only [ownerless_sleepState]
  split
  · exact alike_refuse s _ _
  · exact alike_answer (ownerless_exitSleepBody (s.start .exitSleep))

theorem alike_replay (s : State) : Alike execReplay s := by
  refine alike_admitBooted ?_
  unfold Alike
  simp only [ownerless_replayPending, ownerless_sleepState, ownerless_pass, ownerless_replayRun]
  split
  · have h := ownerless_replayGroup (s.start .replay) 0
    change replayGroup (s.ownerless.start .replay) 0 = _ at h
    rw [h]
    cases replayGroup (s.start .replay) 0 with
    | error f => rfl
    | ok t => exact congrArg Host.Outcome.next (ownerless_ownerless { t with seq := .idle })
  · rfl

/-- No command answers by an `owner` register. -/
theorem exec_alike (i : Instr) (s : State) : Alike (exec i) s := by
  cases i with
  | configure pin o => exact alike_onPin (.configure pin o) pin s
  | read pin => exact alike_read pin s
  | write pin v => exact alike_onPin (.write pin v) pin s
  | mask irq => exact alike_onIrq (.mask irq) irq s
  | unmask irq => exact alike_onIrq (.unmask irq) irq s
  | ack irq => exact alike_onIrq (.ack irq) irq s
  | setType irq t => exact alike_onIrq (.setType irq t) irq s
  | setWake irq v => exact alike_onIrq (.setWake irq v) irq s
  | lineIrq l => exact alike_lineIrq l s
  | enterSleep fi => exact alike_enterSleep fi s
  | exitSleep => exact alike_exitSleep s
  | replay => exact alike_replay s

/-- Settles O56: both states answer as the state without `owner` registers does. -/
theorem ownershipHasNoEffect : Obligations.OwnershipHasNoEffect := by
  intro i s1 s2 h
  refine sameButOwner_of_eq ?_
  rw [← exec_alike i s1, ← exec_alike i s2, h]

end Sys2Proof.Machine
end

section
/-! Settling O57: the bytes of a field lie in the parameter's byte order, and the block's mailbox accesses are reads and
writes of fields (20_memory.md R84). -/

namespace Sys2Proof.Machine

/-! ### The bytes of a written field -/

theorem Memory.read_writeBytes_getElem : ∀ (bs : List Byte) (a : Nat) {m : Memory} {j : Nat}, Memory.wf m = true →
    (hj : j < bs.length) → Memory.read (Memory.writeBytes m a bs) (a + j) = bs[j]
  | b :: bs, a, m, 0, hm, _ => by
    rw [Memory.writeBytes, Memory.read_writeBytes_outside bs _ (by omega)]
    exact Memory.read_write_same a b hm
  | b :: bs, a, m, j + 1, hm, hj => by
    rw [Memory.writeBytes, ← Nat.add_assoc, Nat.add_right_comm, List.getElem_cons_succ]
    exact Memory.read_writeBytes_getElem bs (a + 1) (Memory.wf_write a b hm) (Nat.lt_of_succ_lt_succ hj)

theorem getElem_bytesOf : ∀ (n v j : Nat) (hj : j < (bytesOf n v).length),
    (bytesOf n v)[j] = BitVec.ofNat 8 (v >>> (8 * j))
  | 0, _, _, hj => absurd hj (Nat.not_lt_zero _)
  | _ + 1, _, 0, _ => rfl
  | n + 1, v, j + 1, hj => by
    have hv : v / 256 = v >>> 8 := (Nat.shiftRight_eq_div_pow v 8).symm
    simp only [bytesOf, List.getElem_cons_succ, getElem_bytesOf n, hv]
    rw [← Nat.shiftRight_add, Nat.mul_succ, Nat.add_comm]

section
variable {m : Memory} {a n v j : Nat}

theorem Memory.read_writeField_littleEndian (hm : Memory.wf m = true) (hj : j < n) :
    Memory.read (Memory.writeField .littleEndian m a n v) (a + j) = BitVec.ofNat 8 (v >>> (8 * j)) := by
  have hlen : j < (bytesOf n v).length := by rwa [length_bytesOf]
  exact (Memory.read_writeBytes_getElem _ a hm hlen).trans (getElem_bytesOf n v j hlen)

/-- Big-endian order mirrors the address of a byte in the field. -/
theorem Memory.read_writeField_bigEndian (hm : Memory.wf m = true) (hj : j < n) :
    Memory.read (Memory.writeField .bigEndian m a n v) (a + (n - 1 - j)) = BitVec.ofNat 8 (v >>> (8 * j)) := by
  have hlen : n - 1 - j < (bytesOf n v).reverse.length := by rw [List.length_reverse, length_bytesOf]; omega
  have hmirror : n - 1 - (n - 1 - j) = j := by omega
  calc Memory.read (Memory.writeField .bigEndian m a n v) (a + (n - 1 - j))
      = (bytesOf n v).reverse[n - 1 - j] := Memory.read_writeBytes_getElem _ a hm hlen
    _ = BitVec.ofNat 8 (v >>> (8 * j)) := by
      simp only [List.getElem_reverse, getElem_bytesOf, length_bytesOf, hmirror]

/-- A value that fits its field is read back whole. -/
theorem Memory.readField_writeField_of_lt (o : ByteOrder) (hm : Memory.wf m = true) (hv : v < 256 ^ n) :
    Memory.readField o (Memory.writeField o m a n v) a n = v := by
  rw [Memory.readField_writeField o a n v hm, Nat.mod_eq_of_lt hv]

end

/-! ### The accesses of the block -/

section
variable {s t : State} {a n v : Nat}

/-- What a mailbox read answers: it exists only inside the mailbox. -/
theorem memRead_eq_ok_iff :
    memRead s a n = .ok (v, t) ↔ s.inMailbox a n = true ∧ v = s.field a n ∧ t = s.access := by
  unfold memRead
  cases s.inMailbox a n with
  | false => simp
  | true => simp [State.field, eq_comm]

theorem memWrite_eq_ok_iff : memWrite s a n v = .ok t ↔ s.inMailbox a n = true ∧
    t = { s.access with mem := Memory.writeField s.params.mbByteOrder s.mem a n v } := by
  unfold memWrite
  cases s.inMailbox a n with
  | false => simp
  | true => simp [eq_comm]

end

/-- Settles O57: a byte of a written field is read where its order puts it, and the whole field is read back. -/
theorem fieldByteOrder : Obligations.FieldByteOrder := by
  refine ⟨fun s t a n v e => ?_, fun s t a n v e => ?_, fun m a v hm => ⟨fun o hv => ?_, fun o hv => ?_,
    fun j hj => ?_, fun j hj => ?_⟩⟩
  · obtain ⟨-, rfl⟩ := memWrite_eq_ok_iff.1 e
    rfl
  · obtain ⟨-, rfl, rfl⟩ := memRead_eq_ok_iff.1 e
    exact ⟨rfl, rfl⟩
  · exact Memory.readField_writeField_of_lt o hm hv
  · exact Memory.readField_writeField_of_lt o hm hv
  · exact ⟨Memory.read_writeField_littleEndian hm hj, Memory.read_writeField_bigEndian hm hj⟩
  · exact ⟨Memory.read_writeField_littleEndian hm hj, Memory.read_writeField_bigEndian hm hj⟩

end Sys2Proof.Machine
end

section
/-! Settling O55: the block writes memory only inside ENTER_SLEEP (20_memory.md R86). -/

namespace Sys2Proof.Machine

section
variable {s t : State}

/-! ### The steps of a pass and of a replay -/

@[simp] theorem passVisit_mem (s : State) (l low : Nat) : (passVisit s l low).mem = s.mem := by
  cases passVisit_visits s l low with
  | snapshot b w _ _ _ e => rw [e]; rfl
  | ends e => rw [e]; rfl

@[simp] theorem passStep_mem (s : State) (p : Pass) : (passStep s p).mem = s.mem := by
  unfold passStep
  split
  · rfl
  · exact passVisit_mem s _ _

theorem replayGroup_keeps_mem {g : Nat} (e : replayGroup s g = .ok t) : t.mem = s.mem := by
  obtain ⟨n, f, rfl, -⟩ := replayGroup_eq_ok e
  rfl

theorem replayStep_keeps_mem {c : ReplayCursor} (e : replayStep s c = .ok t) : t.mem = s.mem := by
  cases replayStep_eq_ok e with
  | faulted e => rw [e]
  | entry ev _ e => rw [e]; rfl
  | nextGroup e => exact replayGroup_keeps_mem e
  | ends e => rw [e]; rfl

theorem advance_keeps_mem (e : advance s = .next t) : t.mem = s.mem := by
  unfold advance at e
  split at e
  · split at e
    · cases e; exact passStep_mem s _
    · split at e
      · exact replayStep_keeps_mem (answer_eq_next.1 e)
      · cases e; rfl
  · cases e

/-! ### The commands -/

/-- EXIT_SLEEP reads the counts of the report and writes nothing (44_sleep_wake.md R236). -/
theorem takeReport_keeps_mem (e : takeReport s = .ok t) : t.mem = s.mem := by
  unfold takeReport at e
  split at e
  · obtain ⟨⟨n0, s1⟩, e0, e⟩ := bind_eq_ok.1 e
    obtain ⟨⟨n1, s2⟩, e1, e⟩ := bind_eq_ok.1 e
    obtain rfl := memRead_eq_ok e0
    obtain rfl := memRead_eq_ok e1
    cases e
    rfl
  · cases e; rfl

theorem exitSleepBody_keeps_mem (e : exitSleepBody s = .ok t) : t.mem = s.mem := by
  obtain ⟨u, eu, e⟩ := bind_eq_ok.1 e
  cases e
  rw [State.finish_mem, takeReport_keeps_mem eu, mem_we]

theorem command_keeps_mem {i : Instr} (hi : ∀ fi, i ≠ .enterSleep fi) (ends : Ends s (.next t) i) :
    t.mem = s.mem := by
  cases ends with
  | stuck r e => cases e
  | refuse r e => cases e; rfl
  | outOfRange e => cases e; rfl
  | onBank b off v _ _ _ _ e => cases e; exact (bodyOf_keeps i b off (s.start i)).touch.mem
  | passStarts l _ e => cases e; exact passVisit_mem (s.start (.lineIrq l)) l 0
  | enterSleep fi => exact absurd rfl (hi fi)
  | exitSleep _ _ e => exact exitSleepBody_keeps_mem (s := s.start .exitSleep) (answer_eq_next.1 e)
  | replayStarts _ _ e =>
    obtain ⟨u, hu, rfl⟩ := map_eq_ok.1 (answer_eq_next.1 e)
    exact replayGroup_keeps_mem (s := s.start .replay) (t := u) hu

end

/-- Settles O55: of the ways a command ends, and of the steps that go on, only ENTER_SLEEP writes memory. -/
theorem mailboxWrittenOnlyByEnterSleep : Obligations.MailboxWrittenOnlyByEnterSleep := by
  refine ⟨fun i s t e hi => command_keeps_mem hi (ends_of_exec e), fun s t rest h e => ?_⟩
  rw [step_goesOn h] at e
  exact advance_keeps_mem (s := { s with agenda := rest }) e

end Sys2Proof.Machine
end

section
/-! The flags word (30_encoding.md R102, R114): `decodeFlags` reads it bit by bit as `flagsWord` lays it out, and which
flags words it accepts. -/

namespace Sys2Proof

open Machine

/-! ### The layout -/

/-- Bit `i` of the flags word of a set of option groups (30_encoding.md R102, R119). -/
def Options.flagBit (o : Options) : Nat → Bool
  | 0 => o.out.isSome
  | 1 => o.out == some true
  | 2 => o.dir.isSome
  | 3 => o.dir == some true
  | 4 => o.own.isSome
  | 5 => o.own == some true
  | 6 => o.trig.isSome
  | 7 => o.trig.any triggerEdge
  | 8 => o.trig.any (triggerPolarity · != some false)
  | 9 => o.trig.any (triggerPolarity · != some true)
  | 10 => o.int.isSome
  | 11 => o.int == some true
  | 12 => o.wake.isSome
  | 13 => o.wake == some true
  | _ => false

theorem getLsbD_groupBits (p : Nat) (v : Option Bool) {i : Nat} (hi : i < 32) :
    (groupBits p v).getLsbD i = ((decide (i = p) && v.isSome) || (decide (i = p + 1) && v == some true)) := by
  have low (n j : Nat) : (BitVec.ofNat 32 (2 ^ n - 1)).getLsbD j = (decide (j < 32) && decide (j < n)) := by
    rw [BitVec.getLsbD_ofNat, Nat.testBit_two_pow_sub_one]
  have shifted (n : Nat) : (BitVec.ofNat 32 (2 ^ n - 1) <<< p).getLsbD i = (decide (p ≤ i) && decide (i < p + n)) := by
    rw [BitVec.getLsbD_shiftLeft, low]
    grind
  rcases v with _ | _ | _
  · simp [groupBits]
  · rw [groupBits, show (1 : Word) = BitVec.ofNat 32 (2 ^ 1 - 1) from rfl, shifted]
    grind
  · rw [groupBits, show (3 : Word) = BitVec.ofNat 32 (2 ^ 2 - 1) from rfl, shifted]
    grind

theorem getLsbD_triggerBits (t : Option Trigger) {i : Nat} (hi : i < 32) :
    (triggerBits t).getLsbD i = ((decide (i = 6) && t.isSome) || (decide (i = 7) && t.any triggerEdge) ||
      (decide (i = 8) && t.any (triggerPolarity · != some false)) ||
      (decide (i = 9) && t.any (triggerPolarity · != some true))) := by
  revert i
  rcases t with _ | (_ | _ | _ | _ | _) <;> decide

theorem getLsbD_flagsWord (o : Options) {i : Nat} (hi : i < 32) : (flagsWord o).getLsbD i = o.flagBit i := by
  simp only [flagsWord, BitVec.getLsbD_or, getLsbD_groupBits _ _ hi, getLsbD_triggerBits _ hi]
  unfold Options.flagBit
  split <;> simp_all

theorem Options.flagBit_of_ge (o : Options) {i : Nat} (hi : 14 ≤ i) : o.flagBit i = false := by
  obtain ⟨j, rfl⟩ := Nat.exists_eq_add_of_le' hi
  rfl

theorem flagsWord_eq_iff {o : Options} {f : Word} : flagsWord o = f ↔ ∀ i, f.getLsbD i = o.flagBit i := by
  constructor
  · rintro rfl i
    by_cases hi : i < 32
    · exact getLsbD_flagsWord o hi
    · rw [BitVec.getLsbD_of_ge _ _ (by omega), o.flagBit_of_ge (by omega)]
  · intro h
    exact BitVec.eq_of_getLsbD_eq fun i hi => by rw [getLsbD_flagsWord o hi, h]

/-! ### What the decoder reads -/

theorem decoded_bind_eq_ok {α β : Type} {x : Decoded α} {k : α → Decoded β} {r : β} :
    (x >>= k) = .ok r ↔ ∃ a, x = .ok a ∧ k a = .ok r := by
  cases x with
  | error e => exact ⟨nofun, nofun⟩
  | ok a => exact ⟨fun h => ⟨a, rfl, h⟩, by rintro ⟨_, ⟨⟩, h⟩; exact h⟩

theorem flagGroup_eq_ok {f : Word} {p : Nat} {v : Option Bool} :
    flagGroup f p = .ok v ↔ f.getLsbD p = v.isSome ∧ f.getLsbD (p + 1) = (v == some true) := by
  unfold flagGroup
  cases f.getLsbD p <;> cases f.getLsbD (p + 1) <;> rcases v with _ | (_ | _) <;> simp

theorem flagTrigger_eq_ok {f : Word} {t : Option Trigger} :
    flagTrigger f = .ok t ↔ f.getLsbD 6 = t.isSome ∧ f.getLsbD 7 = t.any triggerEdge ∧
      f.getLsbD 8 = t.any (triggerPolarity · != some false) ∧ f.getLsbD 9 = t.any (triggerPolarity · != some true) := by
  unfold flagTrigger
  cases f.getLsbD 6 <;> cases f.getLsbD 7 <;> cases f.getLsbD 8 <;> cases f.getLsbD 9 <;>
    rcases t with _ | (_ | _ | _ | _ | _) <;> decide

/-- Bits 31:14 are 0 (R114 (a)). -/
theorem flagsReserved_iff {f : Word} : f.extractLsb' 14 18 = 0 ↔ ∀ i, 14 ≤ i → f.getLsbD i = false := by
  constructor
  · intro h i hi
    by_cases hl : i < 32
    · have := congrArg (·.getLsbD (i - 14)) h
      simpa [show i - 14 < 18 by omega, show 14 + (i - 14) = i by omega] using this
    · exact BitVec.getLsbD_of_ge _ _ (by omega)
  · intro h
    refine BitVec.eq_of_getLsbD_eq fun i hi => ?_
    rw [BitVec.getLsbD_extractLsb', h _ (by omega)]
    simp

theorem decodeFlags_eq_ok {f : Word} {o : Options} : decodeFlags f = .ok o ↔
    f.extractLsb' 14 18 = 0 ∧ flagGroup f 0 = .ok o.out ∧ flagGroup f 2 = .ok o.dir ∧ flagGroup f 4 = .ok o.own ∧
      flagTrigger f = .ok o.trig ∧ flagGroup f 10 = .ok o.int ∧ flagGroup f 12 = .ok o.wake := by
  obtain ⟨out, dir, own, trig, int, wake⟩ := o
  unfold decodeFlags
  by_cases h : f.extractLsb' 14 18 = 0
  · simp [h, decoded_bind_eq_ok, pure, Except.pure]
  · rw [if_pos (show f.extractLsb' 14 18 ≠ 0 from h)]
    exact ⟨nofun, fun e => absurd e.1 h⟩

theorem decodeFlags_eq_ok_iff_bits {f : Word} {o : Options} :
    decodeFlags f = .ok o ↔ ∀ i, f.getLsbD i = o.flagBit i := by
  simp only [decodeFlags_eq_ok, flagGroup_eq_ok, flagTrigger_eq_ok, flagsReserved_iff]
  constructor
  · rintro ⟨hr, ⟨h0, h1⟩, ⟨h2, h3⟩, ⟨h4, h5⟩, ⟨h6, h7, h8, h9⟩, ⟨h10, h11⟩, h12, h13⟩ i
    by_cases hi : 14 ≤ i
    · rw [hr i hi, o.flagBit_of_ge hi]
    · interval_cases i <;> assumption
  · intro h
    exact ⟨fun i hi => (h i).trans (o.flagBit_of_ge hi), ⟨h 0, h 1⟩, ⟨h 2, h 3⟩, ⟨h 4, h 5⟩, ⟨h 6, h 7, h 8, h 9⟩,
      ⟨h 10, h 11⟩, h 12, h 13⟩

/-- A flags word decodes to the groups it is the word of, and to nothing else. -/
theorem decodeFlags_eq_ok_iff {f : Word} {o : Options} : decodeFlags f = .ok o ↔ flagsWord o = f :=
  decodeFlags_eq_ok_iff_bits.trans flagsWord_eq_iff.symm

/-- A SET_TYPE admits the flags words of a trigger group alone (R114 (e)). -/
theorem decodeTypeFlags_eq_ok {f : Word} {t : Trigger} :
    decodeTypeFlags f = .ok t ↔ decodeFlags f = .ok { trig := some t } := by
  rw [decodeTypeFlags, decoded_bind_eq_ok]
  constructor
  · rintro ⟨o, ho, ht⟩
    split at ht
    · cases ht; exact ho
    · cases ht
  · exact fun h => ⟨_, h, rfl⟩

theorem decodeTypeFlags_eq_ok_iff {f : Word} {t : Trigger} : decodeTypeFlags f = .ok t ↔ triggerBits (some t) = f := by
  have hword : flagsWord { trig := some t } = triggerBits (some t) := by cases t <;> rfl
  rw [decodeTypeFlags_eq_ok, decodeFlags_eq_ok_iff, hword]

/-! ### Which flags words are legal -/

theorem exists_flagGroup_eq_ok {f : Word} {p : Nat} :
    (∃ v, flagGroup f p = .ok v) ↔ (f.getLsbD (p + 1) → f.getLsbD p) := by
  unfold flagGroup
  cases f.getLsbD p <;> cases f.getLsbD (p + 1) <;> simp

theorem exists_flagTrigger_eq_ok {f : Word} :
    (∃ t, flagTrigger f = .ok t) ↔ (f.getLsbD 7 ∨ f.getLsbD 8 ∨ f.getLsbD 9 → f.getLsbD 6) ∧
      (f.getLsbD 6 → f.getLsbD 8 ∨ f.getLsbD 9) ∧ (f.getLsbD 6 → ¬f.getLsbD 7 → ¬(f.getLsbD 8 ∧ f.getLsbD 9)) := by
  unfold flagTrigger
  cases f.getLsbD 6 <;> cases f.getLsbD 7 <;> cases f.getLsbD 8 <;> cases f.getLsbD 9 <;> simp

theorem exists_decodeFlags_eq_ok {f : Word} : (∃ o, decodeFlags f = .ok o) ↔
    f.extractLsb' 14 18 = 0 ∧ (∃ v, flagGroup f 0 = .ok v) ∧ (∃ v, flagGroup f 2 = .ok v) ∧
      (∃ v, flagGroup f 4 = .ok v) ∧ (∃ t, flagTrigger f = .ok t) ∧ (∃ v, flagGroup f 10 = .ok v) ∧
      ∃ v, flagGroup f 12 = .ok v := by
  simp only [decodeFlags_eq_ok]
  constructor
  · rintro ⟨o, hr, hout, hdir, hown, htrig, hint, hwake⟩
    exact ⟨hr, ⟨_, hout⟩, ⟨_, hdir⟩, ⟨_, hown⟩, ⟨_, htrig⟩, ⟨_, hint⟩, _, hwake⟩
  · rintro ⟨hr, ⟨out, hout⟩, ⟨dir, hdir⟩, ⟨own, hown⟩, ⟨trig, htrig⟩, ⟨int, hint⟩, wake, hwake⟩
    exact ⟨⟨out, dir, own, trig, int, wake⟩, hr, hout, hdir, hown, htrig, hint, hwake⟩

theorem exists_decodeTypeFlags_eq_ok {f : Word} : (∃ t, decodeTypeFlags f = .ok t) ↔
    (∃ o, decodeFlags f = .ok o) ∧ f.getLsbD 6 = true ∧ f.getLsbD 0 = false ∧ f.getLsbD 2 = false ∧
      f.getLsbD 4 = false ∧ f.getLsbD 10 = false ∧ f.getLsbD 12 = false := by
  constructor
  · rintro ⟨t, ht⟩
    have ho := decodeTypeFlags_eq_ok.1 ht
    have h := decodeFlags_eq_ok_iff_bits.1 ho
    exact ⟨⟨_, ho⟩, h 6, h 0, h 2, h 4, h 10, h 12⟩
  · rintro ⟨⟨⟨out, dir, own, trig, int, wake⟩, ho⟩, h6, h0, h2, h4, h10, h12⟩
    have h := decodeFlags_eq_ok_iff_bits.1 ho
    simp only [h, Options.flagBit, Option.isSome_eq_false_iff, Option.isNone_iff_eq_none, Option.isSome_iff_exists]
      at h6 h0 h2 h4 h10 h12
    obtain ⟨t, rfl⟩ := h6
    subst h0 h2 h4 h10 h12
    exact ⟨t, decodeTypeFlags_eq_ok.2 ho⟩

/-- The two spellings of "bits 31:14 are 0". -/
theorem flagsReserved_iff_shift {f : Word} : f.extractLsb' 14 18 = 0 ↔ f >>> 14 = 0 := by
  rw [flagsReserved_iff]
  constructor
  · intro h
    exact BitVec.eq_of_getLsbD_eq fun i _ => by rw [BitVec.getLsbD_ushiftRight, h _ (by omega)]; simp
  · intro h i hi
    have := congrArg (·.getLsbD (i - 14)) h
    simpa [show 14 + (i - 14) = i by omega] using this

end Sys2Proof

namespace Sys2Proof.Machine

/-- Settles O13: the decoder checks the reserved bits and each group by itself, and SET_TYPE which groups there are. -/
theorem flagsWordLegality : Obligations.FlagsWordLegality := by
  intro f legal
  have hlegal : (∃ o, decodeFlags f = .ok o) ↔ legal := by
    rw [exists_decodeFlags_eq_ok, flagsReserved_iff_shift]
    simp only [exists_flagGroup_eq_ok, exists_flagTrigger_eq_ok]
    tauto
  exact ⟨hlegal, exists_decodeTypeFlags_eq_ok.trans (and_congr_left' hlegal)⟩

end Sys2Proof.Machine
end

section
/-! The command words (30_encoding.md R101, R104, R112, R113): a list of words decodes to an instruction exactly when
its fields are the instruction's, and these are the words the encoder writes. -/

namespace Sys2Proof

open Machine

/-! ### The fields of a command word -/

theorem nField_lt (c : Word) : nField c < 2 ^ 16 := BitVec.isLt _

/-- A command word is its fields. -/
theorem commandWord_fields {c : Word} {op : BitVec 4} (hrsv : rsvField c = 0) (hop : opField c = op.toNat) :
    commandWord op (vField c) (nField c) = c := by
  have hrsv' : c.extractLsb' 16 11 = 0 := BitVec.eq_of_toNat_eq hrsv
  have hop' : c.extractLsb' 28 4 = op := BitVec.eq_of_toNat_eq hop
  refine BitVec.eq_of_getLsbD_eq fun i hi => ?_
  rw [getLsbD_commandWord, nField, BitVec.ofNat_toNat, BitVec.setWidth_eq, ← hop']
  split
  · simp [*]
  · split
    · have hbit := congrArg (·.getLsbD (i - 16)) hrsv'
      simpa [show i - 16 < 11 by omega, show 16 + (i - 16) = i by omega] using hbit.symm
    · split
      · obtain rfl : i = 27 := by omega
        simp [vField]
      · simp [show i - 28 < 4 by omega, show 28 + (i - 28) = i by omega]

theorem commandWord_eq_iff {c : Word} {op : BitVec 4} {v : Bool} {n : Nat} (hn : n < 2 ^ 16) :
    commandWord op v n = c ↔ rsvField c = 0 ∧ opField c = op.toNat ∧ vField c = v ∧ nField c = n := by
  constructor
  · rintro rfl
    exact ⟨rsvField_commandWord _ _ _, opField_commandWord _ _ _, vField_commandWord _ _ _, nField_commandWord _ _ hn⟩
  · rintro ⟨hrsv, hop, rfl, rfl⟩
    exact commandWord_fields hrsv hop

/-! ### The words of an instruction -/

/-- The V bit of an instruction's command word (30_encoding.md R101, R112). -/
def Instr.vBit : Instr → Bool
  | .write _ level => level
  | .setWake _ enable => enable
  | .enterSleep fromIdle => fromIdle
  | _ => false

/-- The words after an instruction's command word (30_encoding.md R102, R104). -/
def Instr.flagsWords : Instr → List Word
  | .configure _ opts => [flagsWord opts]
  | .setType _ trig => [triggerBits (some trig)]
  | _ => []

/-- The command word `c` has the opcode, V bit and number of instruction `i` (30_encoding.md R101, R112). -/
structure HasFields (c : Word) (i : Instr) : Prop where
  op : opField c = opcode i
  v : vField c = i.vBit
  n : nField c = i.number

theorem encode_eq (i : Instr) : encode i = commandWord (BitVec.ofNat 4 (opcode i)) i.vBit i.number :: i.flagsWords := by
  cases i <;> rfl

theorem toNat_ofNat_opcode (i : Instr) : (BitVec.ofNat 4 (opcode i)).toNat = opcode i := by
  cases i <;> rfl

/-- The word with an instruction's fields and RSV = 0 is the one the encoder writes. -/
theorem hasFields_iff {c : Word} {i : Instr} : rsvField c = 0 ∧ HasFields c i ↔
    commandWord (BitVec.ofNat 4 (opcode i)) i.vBit i.number = c ∧ i.wf = true := by
  have hwf : i.wf = true ↔ i.number < 2 ^ 16 := decide_eq_true_iff
  constructor
  · rintro ⟨hrsv, hop, hv, hn⟩
    have hlt : i.number < 2 ^ 16 := hn ▸ nField_lt c
    exact ⟨(commandWord_eq_iff hlt).2 ⟨hrsv, hop.trans (toNat_ofNat_opcode i).symm, hv, hn⟩, hwf.2 hlt⟩
  · rintro ⟨hc, hi⟩
    obtain ⟨hrsv, hop, hv, hn⟩ := (commandWord_eq_iff (hwf.1 hi)).1 hc
    exact ⟨hrsv, hop.trans (toNat_ofNat_opcode i), hv, hn⟩

/-! ### What the decoder reads -/

theorem needV0_eq_ok {c : Word} {u : Unit} : needV0 c = .ok u ↔ vField c = false := by
  rw [needV0]
  cases vField c <;> simp

theorem needN0_eq_ok {c : Word} {u : Unit} : needN0 c = .ok u ↔ nField c = 0 := by
  rw [needN0]
  by_cases h : nField c = 0 <;> simp [h]

theorem pure_eq_ok {α : Type} {a r : α} : (pure a : Decoded α) = .ok r ↔ a = r :=
  Except.ok.injEq a r ▸ Iff.rfl

theorem decodeOne_eq_ok_iff {c : Word} {i : Instr} : decodeOne c = .ok i ↔ HasFields c i ∧ i.flagsWords = [] := by
  constructor
  · intro h
    unfold decodeOne at h
    split at h <;>
      simp only [decoded_bind_eq_ok, needV0_eq_ok, needN0_eq_ok, pure_eq_ok, exists_const, reduceCtorEq] at h
    case h_1 _ hop | h_3 _ hop | h_4 _ hop | h_5 _ hop | h_7 _ hop => -- V fixed at 0
      obtain ⟨hv, rfl⟩ := h
      exact ⟨⟨hop, hv, rfl⟩, rfl⟩
    case h_2 _ hop | h_6 _ hop => -- V an operand
      obtain rfl := h
      exact ⟨⟨hop, rfl, rfl⟩, rfl⟩
    case h_8 _ hop => -- ENTER_SLEEP
      obtain ⟨hn, rfl⟩ := h
      exact ⟨⟨hop, rfl, hn⟩, rfl⟩
    case h_9 _ hop | h_10 _ hop => -- EXIT_SLEEP, REPLAY
      obtain ⟨hv, hn, rfl⟩ := h
      exact ⟨⟨hop, hv, hn⟩, rfl⟩
  · rintro ⟨⟨hop, hv, hn⟩, hf⟩
    cases i with
    | configure _ _ | setType _ _ => cases hf
    | _ =>
      simp only [opcode, Instr.vBit, Instr.number] at hop hv hn
      simp only [decodeOne, hop, decoded_bind_eq_ok, needV0_eq_ok, needN0_eq_ok, pure_eq_ok, hv, hn, exists_const,
        and_self]

theorem decodeTwo_eq_ok_iff {c f : Word} {i : Instr} :
    decodeTwo c f = .ok i ↔ HasFields c i ∧ i.flagsWords = [f] := by
  constructor
  · intro h
    unfold decodeTwo at h
    split at h <;>
      simp only [decoded_bind_eq_ok, needV0_eq_ok, pure_eq_ok, exists_and_left, exists_const, reduceCtorEq] at h
    case h_1 _ hop =>
      obtain ⟨hv, o, ho, rfl⟩ := h
      exact ⟨⟨hop, hv, rfl⟩, congrArg ([·]) (decodeFlags_eq_ok_iff.1 ho)⟩
    case h_2 _ hop =>
      obtain ⟨hv, t, ht, rfl⟩ := h
      exact ⟨⟨hop, hv, rfl⟩, congrArg ([·]) (decodeTypeFlags_eq_ok_iff.1 ht)⟩
  · rintro ⟨⟨hop, hv, hn⟩, hf⟩
    cases i with
    | configure _ _ | setType _ _ =>
      cases hf
      simp only [opcode, Instr.vBit, Instr.number] at hop hv hn
      simp only [decodeTwo, hop, decoded_bind_eq_ok, needV0_eq_ok, decodeFlags_eq_ok_iff, decodeTypeFlags_eq_ok_iff,
        pure_eq_ok, hv, hn, exists_const, true_and]
      exact ⟨_, rfl, rfl⟩
    | _ => cases hf

theorem decode_one_eq_ok {c : Word} {i : Instr} : decode [c] = .ok i ↔ rsvField c = 0 ∧ decodeOne c = .ok i := by
  rw [decode]
  split <;> simp_all

theorem decode_two_eq_ok {c f : Word} {i : Instr} :
    decode [c, f] = .ok i ↔ rsvField c = 0 ∧ decodeTwo c f = .ok i := by
  rw [decode]
  split <;> simp_all

/-- What a list of words decodes to, said once: the first word has the instruction's fields, the others are its flags
words. -/
theorem decode_eq_ok_iff_fields {ws : List Word} {i : Instr} :
    decode ws = .ok i ↔ ∃ c, ws = c :: i.flagsWords ∧ rsvField c = 0 ∧ HasFields c i := by
  have hcons (c : Word) (fs : List Word) : (rsvField c = 0 ∧ HasFields c i ∧ i.flagsWords = fs) ↔
      ∃ c', c :: fs = c' :: i.flagsWords ∧ rsvField c' = 0 ∧ HasFields c' i := by
    constructor
    · rintro ⟨hrsv, hc, rfl⟩
      exact ⟨c, rfl, hrsv, hc⟩
    · rintro ⟨c', h, hrsv, hc⟩
      obtain ⟨rfl, rfl⟩ := List.cons.inj h
      exact ⟨hrsv, hc, rfl⟩
  match ws with
  | [] => exact ⟨nofun, nofun⟩
  | [c] => rw [decode_one_eq_ok, decodeOne_eq_ok_iff, hcons]
  | [c, f] => rw [decode_two_eq_ok, decodeTwo_eq_ok_iff, hcons]
  | _ :: _ :: _ :: _ =>
    refine ⟨nofun, ?_⟩
    rintro ⟨c, h, -⟩
    cases i <;> cases h

/-- Decoding is the inverse of encoding (R116): the decoder accepts the encodings of well-formed instructions and no
other words. -/
theorem decode_eq_ok_iff {ws : List Word} {i : Instr} : decode ws = .ok i ↔ encode i = ws ∧ i.wf = true := by
  rw [decode_eq_ok_iff_fields, encode_eq]
  constructor
  · rintro ⟨c, rfl, h⟩
    obtain ⟨hc, hwf⟩ := hasFields_iff.1 h
    exact ⟨congrArg (· :: _) hc, hwf⟩
  · rintro ⟨rfl, hwf⟩
    exact ⟨_, rfl, hasFields_iff.2 ⟨rfl, hwf⟩⟩

end Sys2Proof

namespace Sys2Proof.Machine

/-- Settles O10: the words of a well-formed instruction have its fields, and these are all the decoder reads. -/
theorem decodeOfEncode : Obligations.DecodeOfEncode := fun _ hwf => decode_eq_ok_iff.2 ⟨rfl, hwf⟩

/-- Settles O11: the same equivalence, from the words to the instruction. -/
theorem encodeOfDecode : Obligations.EncodeOfDecode := fun _ _ h => decode_eq_ok_iff.1 h

/-- Settles O8: the encoder writes the words of R121, and O10 reads them back. -/
theorem encodingExamples : Obligations.EncodingExamples := by
  have shows {i : Instr} {ws : List Word} (he : encode i = ws) (hwf : i.wf = true) :
      encode i = ws ∧ decode ws = .ok i :=
    ⟨he, he ▸ decodeOfEncode i hwf⟩
  exact ⟨shows rfl rfl, shows rfl rfl, shows rfl rfl, shows rfl rfl, shows rfl rfl, shows rfl rfl⟩

/-- Settles O12: an instruction's command word has legal fields, and legal fields are those of the instruction that the
opcode names. -/
theorem commandWordLegality : Obligations.CommandWordLegality := by
  intro c f
  refine ⟨fun hop => ?_, fun h0 h6 => ?_⟩
  · simp only [decode_two_eq_ok, decodeTwo_eq_ok_iff]
    constructor
    · rintro ⟨i, hrsv, ⟨ho, hv, -⟩, hf⟩
      cases i with
      | configure pin o =>
        refine ⟨hrsv, hv, fun _ => ⟨o, decodeFlags_eq_ok_iff.2 (List.singleton_inj.1 hf)⟩, fun h => ?_⟩
        exact absurd (h.symm.trans ho) (by simp [opcode])
      | setType irq t =>
        refine ⟨hrsv, hv, fun h => ?_, fun _ => ⟨t, decodeTypeFlags_eq_ok_iff.2 (List.singleton_inj.1 hf)⟩⟩
        exact absurd (h.symm.trans ho) (by simp [opcode])
      | _ => cases hf
    · rintro ⟨hrsv, hv, hflags, htype⟩
      rcases hop with h | h
      · obtain ⟨o, ho⟩ := hflags h
        exact ⟨.configure (nField c) o, hrsv, ⟨h, hv, rfl⟩, congrArg ([·]) (decodeFlags_eq_ok_iff.1 ho)⟩
      · obtain ⟨t, ht⟩ := htype h
        exact ⟨.setType (nField c) t, hrsv, ⟨h, hv, rfl⟩, congrArg ([·]) (decodeTypeFlags_eq_ok_iff.1 ht)⟩
  · simp only [decode_one_eq_ok, decodeOne_eq_ok_iff]
    constructor
    · rintro ⟨i, hrsv, ⟨ho, hv, hn⟩, hf⟩
      cases i with
      | configure _ _ | setType _ _ => cases hf
      | _ => simp_all [opcode, Instr.vBit, Instr.number]
    · rintro ⟨hB, hrsv, hv, hn⟩
      have exists_of (i : Instr) (h : HasFields c i) (hf : i.flagsWords = []) :
          ∃ i, rsvField c = 0 ∧ HasFields c i ∧ i.flagsWords = [] := ⟨i, hrsv, h, hf⟩
      have v0 (h : ¬(opField c = 0x2 ∨ opField c = 0x7 ∨ opField c = 0x9)) : vField c = false :=
        Bool.eq_false_iff.2 (mt hv h)
      have n0 (h : ¬(opField c ≠ 0x9 ∧ opField c ≠ 0xA ∧ opField c ≠ 0xB)) : nField c = 0 := not_not.1 (mt hn h)
      match hop : opField c with
      | 0x0 => exact absurd hop h0
      | 0x6 => exact absurd hop h6
      | 0x1 => exact exists_of (.read (nField c)) ⟨hop, v0 (by simp [hop]), rfl⟩ rfl
      | 0x2 => exact exists_of (.write (nField c) (vField c)) ⟨hop, rfl, rfl⟩ rfl
      | 0x3 => exact exists_of (.mask (nField c)) ⟨hop, v0 (by simp [hop]), rfl⟩ rfl
      | 0x4 => exact exists_of (.unmask (nField c)) ⟨hop, v0 (by simp [hop]), rfl⟩ rfl
      | 0x5 => exact exists_of (.ack (nField c)) ⟨hop, v0 (by simp [hop]), rfl⟩ rfl
      | 0x7 => exact exists_of (.setWake (nField c) (vField c)) ⟨hop, rfl, rfl⟩ rfl
      | 0x8 => exact exists_of (.lineIrq (nField c)) ⟨hop, v0 (by simp [hop]), rfl⟩ rfl
      | 0x9 => exact exists_of (.enterSleep (vField c)) ⟨hop, rfl, n0 (by simp [hop])⟩ rfl
      | 0xA => exact exists_of .exitSleep ⟨hop, v0 (by simp [hop]), n0 (by simp [hop])⟩ rfl
      | 0xB => exact exists_of .replay ⟨hop, v0 (by simp [hop]), n0 (by simp [hop])⟩ rfl
      | n + 12 => omega

end Sys2Proof.Machine
end

section
/-! The result word (30_encoding.md R118), and what the command port makes of the words presented on it (R100, R104). -/

namespace Sys2Proof.Machine

/-! ### The result word -/

/-- The fields of the result word, cut out again. -/
theorem resultWord_fields (c : Instr) (st : Status) (v : Bool) :
    (resultWord c st v).extractLsb' 28 4 = BitVec.ofNat 4 (opcode c) ∧
      (resultWord c st v).extractLsb' 24 4 = BitVec.ofNat 4 (statusCode st) ∧
      (resultWord c st v).extractLsb' 1 23 = 0 ∧ (resultWord c st v).getLsbD 0 = v := by
  unfold resultWord
  refine ⟨?_, ?_, ?_, ?_⟩
  · rw [BitVec.extractLsb'_append_eq_of_le (by decide), BitVec.extractLsb'_append_eq_of_le (by decide)]
    exact BitVec.extractLsb'_append_eq_left
  · rw [BitVec.extractLsb'_append_eq_of_le (by decide), BitVec.extractLsb'_append_eq_of_le (by decide)]
    exact BitVec.extractLsb'_append_eq_right
  · rw [BitVec.extractLsb'_append_eq_of_le (by decide)]
    exact BitVec.extractLsb'_append_eq_right
  · rw [BitVec.getLsbD_append]
    cases v <;> rfl

theorem opField_of_mem_head?_encode {c : Instr} {h : Word} (hh : h ∈ (encode c).head?) : opField h = opcode c := by
  rw [encode_eq, List.head?_cons, Option.mem_some_iff] at hh
  rw [← hh, opField_commandWord, toNat_ofNat_opcode]

/-- Settles O9: the fields of the result word, its OP being the one the encoder writes. -/
theorem resultWordLayout : Obligations.ResultWordLayout := by
  intro c st v w
  obtain ⟨hop, hst, hz, hv⟩ := resultWord_fields c st v
  refine ⟨fun h hh => ?_, ?_, hz, hv⟩
  · rw [opField_of_mem_head?_encode hh, opField, hop, toNat_ofNat_opcode]
  · rw [hst]
    cases st <;> rfl

/-! ### The command port -/

/-- What the block does with the words of one command, `u` being the state with the words taken. -/
def runDecoded (u : State) (ws : List Word) : Decoded Instr → Answer
  | .ok i => exec i u
  | .error _ => .next (u.refuse .illegalCommand (.words ws))

/-- The agenda once one command's words are taken: words after them stay the next input (assumption log 15). -/
def agendaAfter (later : List Word) (rest : List Input) : List Input :=
  if later = [] then rest else .command later :: rest

/-- A step takes the words of the next command, as many as the first of them fixes, and does what they decode to. -/
theorem step_command {s : State} {c : Word} {cs later : List Word} {rest : List Input} (hs : s.seq = .idle)
    (ha : s.agenda = .command ((c :: cs) ++ later) :: rest) (hl : (c :: cs).length = commandLength c) :
    step s = runDecoded { s with agenda := agendaAfter later rest } (c :: cs) (decode (c :: cs)) := by
  have htake : (c :: (cs ++ later)).take (commandLength c) = c :: cs := List.take_left' hl
  have hdrop : (cs ++ later).drop (commandLength c - 1) = later := List.drop_left' (by simp [← hl])
  have hlen : ¬(c :: (cs ++ later)).length < commandLength c := by simp [← hl]
  simp only [step, fetch, ha, fetchCommand, List.cons_append, hs, Seq.isIdle, if_true, hlen, if_false, htake, hdrop]
  cases decode (c :: cs) <;> by_cases h : later = [] <;> simp only [runDecoded, agendaAfter, h, if_true, if_false]

/-- Words that decode are as many as their first word fixes (30_encoding.md R104). -/
theorem length_of_decode {ws : List Word} {i : Instr} (h : decode ws = .ok i) :
    ∃ c cs, ws = c :: cs ∧ (c :: cs).length = commandLength c := by
  obtain ⟨c, rfl, -, ⟨hop, -, -⟩⟩ := decode_eq_ok_iff_fields.1 h
  refine ⟨c, _, rfl, ?_⟩
  rw [commandLength, hop]
  cases i <;> rfl

/-- Settles O14: words that decode are all the words of one command, which the port takes. -/
theorem stepRunsDecodedCommand : Obligations.StepRunsDecodedCommand := by
  intro s ws later rest i hs ha hd
  obtain ⟨c, cs, rfl, hl⟩ := length_of_decode hd
  rw [step_command hs ha hl, hd]
  rfl

/-- Settles O15: the port refuses words that do not decode, LINE_IRQ a line the platform does not have. -/
theorem illegalCommandIsRefused : Obligations.IllegalCommandIsRefused := by
  refine ⟨fun s c cs rest e hs ha hl hd => ?_, fun s l hs hle => ?_⟩
  · rw [step_command (later := []) hs (by rw [ha, List.append_nil]) hl, hd]
    rfl
  · rw [exec, execLineIrq, if_pos (by rw [hs]; rfl), if_neg (Nat.not_lt.2 hle)]
    rfl

/-- Settles O23: with no group present the body of CONFIGURE is empty, so only the result is left. -/
theorem emptyConfigureTouchesNothing : Obligations.EmptyConfigureTouchesNothing := by
  intro s pin b off hready hr
  have hbody : configureBody {} (s.start (.configure pin {})) b off = s.start (.configure pin {}) := rfl
  rw [exec, execConfigure, onPin_ready hready hr, hbody]
  simp only [State.finish, State.emit, State.start, resultWord_configure]
  rw [← hready.idle]
  rfl

end Sys2Proof.Machine
end

section
/-! Settling O18 (40_pin_config.md R141): a number in no bank ends its command before any access. -/

namespace Sys2Proof.Machine

theorem resultWord_outOfRange (c : Instr) :
    resultWord c .outOfRange false = BitVec.ofNat 32 (opcode c * 2 ^ 28 + 1 * 2 ^ 24) := by
  simp only [resultWord, statusCode, codeValue]
  cases c <;> simp only [opcode] <;> decide

/-- The answer to a command whose number is in no bank: the result event and nothing else. -/
def outOfRangeAnswer (s : State) (c : Instr) : Answer :=
  .next { s with events := s.events ++ [.result c (BitVec.ofNat 32 (opcode c * 2 ^ 28 + 1 * 2 ^ 24))] }

theorem onResolved_none {s : State} (h : s.Ready) (c : Instr) (body : State → Nat → Nat → State) :
    onResolved c s none body = outOfRangeAnswer s c := by
  simp only [onResolved, State.raise, State.finish, State.emit, State.start, resultWord_outOfRange, outOfRangeAnswer]
  rw [← h.idle]

theorem admitAwake_ready {s : State} (h : s.Ready) (c : Instr) (body : State → Answer) :
    admitAwake c s body = body s := by
  simp [admitAwake, admitBooted, h.idle, h.booted, h.awake, Seq.isIdle]

theorem onPin_none {s : State} (h : s.Ready) (c : Instr) {pin : Nat} (hr : resolve s pin = none)
    (body : State → Nat → Nat → State) : onPin c pin s body = outOfRangeAnswer s c := by
  rw [onPin, admitAwake_ready h, hr, onResolved_none h]

theorem onIrq_none {s : State} (h : s.Ready) (c : Instr) {irq : Nat} (hr : resolveIrq s irq = none)
    (body : State → Nat → Nat → State) : onIrq c irq s body = outOfRangeAnswer s c := by
  rw [onIrq, admitAwake_ready h, hr, onResolved_none h]

/-- READ of a pin in no bank ends as the other pin commands do. -/
theorem execRead_none {s : State} (h : s.Ready) {pin : Nat} (hr : resolve s pin = none) :
    execRead pin s = outOfRangeAnswer s (.read pin) := by
  rw [execRead, admitAwake_ready h, hr]
  exact onResolved_none h (.read pin) fun s _ _ => s

/-- An interrupt number below BASE_IRQ, or whose pin is in no bank (42_irq_facade.md R181). -/
theorem resolveIrq_none {s : State} {irq : Nat} (h : irq < s.params.baseIrq ∨
    ∀ k ∈ s.banks, ¬(k.desc.start ≤ irq - s.params.baseIrq ∧ irq - s.params.baseIrq ≤ k.desc.last)) :
    resolveIrq s irq = none := by
  rcases h with h | h
  · exact resolveIrq_below_base h
  · unfold resolveIrq
    split
    · exact resolve_none_iff.2 h
    · rfl

/-- Settles O18: the number resolves to no bank, and the command ends with its result before its body. -/
theorem outOfRangeChangesNothing : Obligations.OutOfRangeChangesNothing := by
  intro s hready
  refine ⟨fun pin hpin => ?_, fun irq hirq => ?_⟩
  · have hr := resolve_none_iff.2 hpin
    exact ⟨fun _ => onPin_none hready _ hr _, execRead_none hready hr, fun _ => onPin_none hready _ hr _⟩
  · have hr := resolveIrq_none hirq
    exact ⟨onIrq_none hready _ hr _, onIrq_none hready _ hr _, onIrq_none hready _ hr _,
      fun _ => onIrq_none hready _ hr _, fun _ => onIrq_none hready _ hr _⟩

end Sys2Proof.Machine
end

section
/-! Settling O20, O21, O22 (40_pin_config.md R131, R132, R135, R136): READ, WRITE, and the output-level, direction and
ownership groups of CONFIGURE. -/

namespace Sys2Proof.Machine

/-! ### READ -/

/-- READ of a pin of a bank: one access of `in`, and the bit read in the result. -/
theorem execRead_ready {s : State} (h : s.Ready) {pin b off : Nat} (hr : resolve s pin = some (b, off)) :
    execRead pin s = .next ((regRead (s.start (.read pin)) b .inp).2.finish (.read pin) .ok
      ((regRead (s.start (.read pin)) b .inp).1.getLsbD off)) := by
  rw [execRead, admitAwake_ready h, hr]

/-- A read of `in` gives the pin's pad level at the access (10_state.md R35). -/
theorem getLsbD_regRead_inp (s : State) (b : Nat) {off : Nat} (hw : off < (s.bank b).width) :
    (regRead s b .inp).1.getLsbD off = ((regRead s b .inp).2.bank b).pad.getLsbD off := by
  by_cases h32 : off < 32
  · exact getLsbD_regRead s b .inp off h32 hw
  · rw [BitVec.getLsbD_of_ge _ _ (Nat.le_of_not_lt h32), BitVec.getLsbD_of_ge _ _ (Nat.le_of_not_lt h32)]

theorem resultWord_read_value (pin : Nat) (v : Bool) :
    resultWord (.read pin) .ok v = if v then 0x10000001 else 0x10000000 := by
  cases v
  · exact resultWord_read pin
  · exact resultWord_read_high pin

/-- Settles O20: the one access reads `in`, which is the pad level. -/
theorem readGivesPadLevel : Obligations.ReadGivesPadLevel := by
  intro s pin b off hready hr
  obtain ⟨-, -, -, -, hw⟩ := resolve_some hr
  have htouch := touches_regRead b (s.start (.read pin)) .inp
  refine ⟨_, execRead_ready hready hr, (htouch.frame hready hready.noRun _ _).1, htouch.length,
    access_pinsOnly (s.start (.read pin)), ?_⟩
  rw [State.finish_events, resultWord_read_value, getLsbD_regRead_inp (s.start (.read pin)) b hw]
  rfl

/-! ### WRITE -/

/-- Settles O21: WRITE is the read-modify-write of the pin's bit of `out`. -/
theorem writeSetsOutputLevel : Obligations.WriteSetsOutputLevel := by
  intro s pin b off level hready hr
  have hb := (resolve_some hr).1
  obtain ⟨d, hbank⟩ := modifyBit_pinsOnly (s := s.start (.write pin level)) hb (r := .out) rfl off level
  have htouch := touches_modifyBit b (s.start (.write pin level)) .out (bitAt off) level
  obtain ⟨hframe, hothers⟩ := htouch.frame hready ((modifyBit_beRegs _ _ _ _ _).trans hready.noRun) .ok false
  refine ⟨_, d, onPin_ready hready hr _, hframe, hothers, hbank, ?_⟩
  rw [State.finish_events, resultWord_write, outputGroup, modifyBit_events, State.start_events]
  rfl

/-! ### The three groups of CONFIGURE -/

/-- The three groups rewrite three registers, each as read with the pin's bit set to its group's value. -/
theorem outputsApplied_pinsOnly (o : Options) {s : State} {b : Nat} (off : Nat) (hb : b < s.banks.length) :
    ∃ d1 d2 d3, Bank.PinsOnly
      { s.bank b with
        out := regrouped (s.bank b) off (s.bank b).out d1 o.out
        oe := regrouped (s.bank b) off (s.bank b).oe d2 o.dir
        owner := regrouped (s.bank b) off (s.bank b).owner d3 o.own } ((outputsApplied o s b off).bank b) := by
  obtain ⟨d1, h1⟩ := whenPresent_modifyBit s b off hb .out rfl o.out
  have t1 := touches_whenPresent (b := b) o.out s (fun s v => modifyBit s b .out (bitAt off) v)
    fun v => touches_modifyBit _ _ _ _ _
  unfold outputsApplied
  generalize whenPresent o.out s _ = s1 at *
  have hb1 : b < s1.banks.length := by rw [t1.length]; exact hb
  obtain ⟨d2, h2⟩ := whenPresent_modifyBit s1 b off hb1 .oe rfl o.dir
  have t2 := touches_whenPresent (b := b) o.dir s1 (fun s v => modifyBit s b .oe (bitAt off) v)
    fun v => touches_modifyBit _ _ _ _ _
  generalize whenPresent o.dir s1 _ = s2 at *
  have hb2 : b < s2.banks.length := by rw [t2.length]; exact hb1
  obtain ⟨d3, h3⟩ := whenPresent_modifyBit s2 b off hb2 .owner rfl o.own
  refine ⟨d1, d2, d3, ?_⟩
  rw [regrouped_congr t1.wmask, show (s1.bank b).content .oe 0 = (s.bank b).oe from h1.oe] at h2
  have h12 := (h1.update (fun k => { k with oe := regrouped (s.bank b) off (s.bank b).oe d2 o.dir })
    fun _ _ _ => rfl).trans h2
  rw [regrouped_congr (t1.trans t2).wmask, show (s2.bank b).content .owner 0 = (s.bank b).owner from h12.owner] at h3
  exact (h12.update (fun k => { k with owner := regrouped (s.bank b) off (s.bank b).owner d3 o.own })
    fun _ _ _ => rfl).trans h3

/-- The frame of a CONFIGURE, whatever its groups. -/
theorem configure_frame {s : State} (h : s.Ready) (pin b off : Nat) (o : Options) :
    Frame s ((configureBody o (s.start (.configure pin o)) b off).finish (.configure pin o) .ok false) ∧
      OthersKept b s ((configureBody o (s.start (.configure pin o)) b off).finish (.configure pin o) .ok false) :=
  (touches_configureBody o b (s.start (.configure pin o)) off).frame h (configureBody_beRegs o b off h.noRun) .ok false

/-- Settles O22: with no other group CONFIGURE is the three groups, one after the other. -/
theorem configureOutputDirectionOwner : Obligations.ConfigureOutputDirectionOwner := by
  intro s pin b off out dir own hready hr opts
  obtain ⟨hb, -, -, -, hw⟩ := resolve_some hr
  obtain ⟨d1, d2, d3, hbank⟩ := outputsApplied_pinsOnly (s := s.start (.configure pin opts)) opts off hb
  obtain ⟨hframe, hothers⟩ := configure_frame hready pin b off opts
  have hevents : (configureBody opts (s.start (.configure pin opts)) b off).events = s.events := by
    by_contra h
    exact absurd ((logs_configure opts (s.start (.configure pin opts)) b off hb hw).2 h) (by simp [opts])
  refine ⟨_, d1, d2, d3, onPin_ready hready hr _, hframe, hothers, hbank, ?_⟩
  rw [State.finish_events, resultWord_configure, hevents]
  rfl

end Sys2Proof.Machine
end

section
/-! Settling O26 and O28 (40_pin_config.md R137, R140): SET_TYPE with one polarity and with both. -/

namespace Sys2Proof.Machine

/-- The frame of a SET_TYPE, whatever its trigger. -/
theorem setType_frame {s : State} (h : s.Ready) (irq b off : Nat) (g : Trigger) :
    Frame s ((triggerGroup (s.start (.setType irq g)) b (bitAt off) g).finish (.setType irq g) .ok false) ∧
      OthersKept b s ((triggerGroup (s.start (.setType irq g)) b (bitAt off) g).finish (.setType irq g) .ok false) :=
  (touches_triggerGroup b (s.start (.setType irq g)) (bitAt off) g).frame h (triggerGroup_beRegs b _ g h.noRun) .ok false

/-- Settles O26: the trigger group with one polarity, then the result. -/
theorem setTypeOnePolarity : Obligations.SetTypeOnePolarity := by
  intro s irq b off g rising hready hr hg
  have hb := (resolve_some (resolveIrq_some hr)).1
  obtain ⟨d1, d2, hbank, hevents⟩ := triggerGroup_one (s := s.start (.setType irq g)) (off := off) hb g rising hg
  obtain ⟨hframe, hothers⟩ := setType_frame hready irq b off g
  refine ⟨_, d1, d2, onIrq_ready hready hr _, hframe, hothers, hbank, ?_⟩
  rw [State.finish_events, resultWord_setType, hevents]
  rfl

/-- Settles O28: the both-edge machine runs on the bank with the pin in its mask; it writes `int_pos` at both-edge pins
only, and logs nothing exactly when it ends STABLE. -/
theorem setTypeBothEdges : Obligations.SetTypeBothEdges := by
  intro s irq b off hready hr hpasses
  have hb := (resolve_some (resolveIrq_some hr)).1
  obtain ⟨d, u, hu, hlength, huevents, hparams, hrun⟩ :=
    triggerGroup_both (s := s.start (.setType irq .edgeBoth)) (off := off) hb .edgeBoth rfl
  have hmachine := bothEdge_effect (s := u) (b := b) (by rw [hlength]; exact hb) (by rw [hparams]; exact hpasses)
  obtain ⟨hframe, hothers⟩ := setType_frame hready irq b off .edgeBoth
  rw [hrun] at hframe hothers
  have hevents : u.events = s.events := huevents
  have hwidth : (u.bank b).width = (s.bank b).width := by rw [Bank.width, hu.desc]; rfl
  have hbe : ((bothEdge u b).bank b).be = (u.bank b).be := hmachine.bank.be
  have hpos : (u.bank b).intPos = (s.bank b).intPos := hu.intPos
  refine ⟨(bothEdge u b).finish (.setType irq .edgeBoth) .ok false, d, ?_, hframe, hothers, ?_, ?_, ?_, ?_⟩
  · rw [← hrun]; exact onIrq_ready hready hr _
  · obtain ⟨logs, hlogs, hbound⟩ := (bothEdge_bank (s := u) (b := b) (by rw [hlength]; exact hb)).2.2
    exact ⟨logs, by rw [State.finish_events, hlogs, hevents, resultWord_setType]; rfl, hbound⟩
  · exact (hu.update (fun k => { k with intPos := ((bothEdge u b).bank b).intPos }) fun _ _ _ => rfl).trans hmachine.bank
  · intro i hi hw hout
    rw [bank_finish, ← hpos]
    exact hmachine.others i hi (by rw [hwidth]; exact hw) (by rw [← hbe]; exact hout)
  · intro hquiet i hi hw hin
    rcases hmachine.exit with ⟨-, harmed⟩ | ⟨v1, v2, hbound⟩
    · exact harmed i hi (by rw [hwidth]; exact hw) (by rw [← hbe]; exact hin)
    · rw [State.finish_events, hbound.events, hevents] at hquiet
      simp at hquiet

end Sys2Proof.Machine
end

section
/-! Settling O25 (40_pin_config.md R142): what each group of a CONFIGURE leaves of another pin's bit. -/

namespace Sys2Proof.Machine

/-- What a CONFIGURE that does (`enables`) or does not enable an interrupt leaves of bit `i`, the bit of another pin.
`int_en` is kept only together with its agreement with the active set (10_state.md R48), which the enable group's write
relies on. -/
structure Bank.KeepsBit (enables : Bool) (i : Nat) (k k' : Bank) : Prop where
  width : k'.width = k.width
  out : k'.out.getLsbD i = k.out.getLsbD i
  oe : k'.oe.getLsbD i = k.oe.getLsbD i
  owner : k'.owner.getLsbD i = k.owner.getLsbD i
  edge : k'.intEdge.getLsbD i = k.intEdge.getLsbD i
  en0 : k'.en0.getLsbD i = k.en0.getLsbD i
  en1 : k'.en1.getLsbD i = k.en1.getLsbD i
  be : k'.be.getLsbD i = k.be.getLsbD i
  agree : k.intEn.getLsbD i = k.en0.getLsbD i → k'.intEn.getLsbD i = k'.en0.getLsbD i
  pos : k.be.getLsbD i = false → k'.intPos.getLsbD i = k.intPos.getLsbD i
  shadow : enables = false → k'.shadow.getLsbD i = k.shadow.getLsbD i
  status : enables = false → k.intStatus.getLsbD i = true → k'.intStatus.getLsbD i = true

theorem Bank.PinsOnly.keepsBit {k k' : Bank} (h : k.PinsOnly k') (enables : Bool) (i : Nat) :
    k.KeepsBit enables i k' where
  width := by simp only [Bank.width, h.desc]
  out := by rw [h.out]
  oe := by rw [h.oe]
  owner := by rw [h.owner]
  edge := by rw [h.intEdge]
  en0 := by rw [h.en0]
  en1 := by rw [h.en1]
  be := by rw [h.be]
  agree e := by rw [h.intEn, h.en0, e]
  pos _ := by rw [h.intPos]
  shadow _ := by rw [h.shadow]
  status _ := (within_iff _ _).1 h.kept i

section
variable {enables : Bool} {i : Nat}

theorem Bank.KeepsBit.refl (k : Bank) : k.KeepsBit enables i k := (Bank.PinsOnly.refl k).keepsBit enables i

theorem Bank.KeepsBit.trans {k1 k2 k3 : Bank} (h1 : k1.KeepsBit enables i k2) (h2 : k2.KeepsBit enables i k3) :
    k1.KeepsBit enables i k3 where
  width := h2.width.trans h1.width
  out := h2.out.trans h1.out
  oe := h2.oe.trans h1.oe
  owner := h2.owner.trans h1.owner
  edge := h2.edge.trans h1.edge
  en0 := h2.en0.trans h1.en0
  en1 := h2.en1.trans h1.en1
  be := h2.be.trans h1.be
  agree e := h2.agree (h1.agree e)
  pos hbe := (h2.pos (h1.be.trans hbe)).trans (h1.pos hbe)
  shadow he := (h2.shadow he).trans (h1.shadow he)
  status he hs := h2.status he (h1.status he hs)

theorem Bank.KeepsBit.pins {k k1 k2 : Bank} (h : k.KeepsBit enables i k1) (hp : k1.PinsOnly k2) :
    k.KeepsBit enables i k2 := h.trans (hp.keepsBit enables i)

/-! ### The bits of a changed word -/

theorem getLsbD_or_bitAt {off : Nat} (hne : i ≠ off) (w : Word) : (w ||| bitAt off).getLsbD i = w.getLsbD i := by
  simp [Ne.symm hne, -BitVec.getLsbD_eq_getElem]

theorem getLsbD_and_not_bitAt {off : Nat} (hne : i ≠ off) (w : Word) :
    (w &&& ~~~bitAt off).getLsbD i = w.getLsbD i := by
  cases h : w.getLsbD i with
  | false => simp [h, -BitVec.getLsbD_eq_getElem]
  | true => simp [h, Ne.symm hne, BitVec.lt_of_getLsbD h, -BitVec.getLsbD_eq_getElem]

theorem getLsbD_regrouped_ne {k : Bank} {off : Nat} (hne : i ≠ off) (hi : i < 32) (hw : i < k.width) (v d : Word)
    (o : Option Bool) : (regrouped k off v d o).getLsbD i = v.getLsbD i := by
  cases o with
  | none => rfl
  | some x => rw [getLsbD_regrouped k off v d x i hi hw, if_neg hne]

/-! ### The groups -/

variable {s : State} {b off : Nat} (hb : b < s.banks.length) (hne : i ≠ off) (hi : i < 32) (hw : i < (s.bank b).width)
include hb hne hi hw

theorem keepsBit_outputs (o : Options) : (s.bank b).KeepsBit enables i ((outputsApplied o s b off).bank b) := by
  obtain ⟨d1, d2, d3, h⟩ := outputsApplied_pinsOnly o off hb
  refine Bank.KeepsBit.pins ?_ h
  exact { Bank.KeepsBit.refl (s.bank b) with
    out := getLsbD_regrouped_ne hne hi hw _ _ _
    oe := getLsbD_regrouped_ne hne hi hw _ _ _
    owner := getLsbD_regrouped_ne hne hi hw _ _ _ }

theorem keepsBit_triggerGroup (g : Trigger) :
    (s.bank b).KeepsBit enables i ((triggerGroup s b (bitAt off) g).bank b) := by
  cases hg : triggerPolarity g with
  | some rising =>
    obtain ⟨d1, d2, h, -⟩ := triggerGroup_one (off := off) hb g rising hg
    refine Bank.KeepsBit.pins ?_ h
    exact { Bank.KeepsBit.refl (s.bank b) with
      edge := getLsbD_regrouped_ne hne hi hw _ _ _
      be := getLsbD_and_not_bitAt hne _
      pos := fun _ => getLsbD_regrouped_ne hne hi hw _ _ _ }
  | none =>
    obtain ⟨d, u, h, hlength, -, -, hrun⟩ := triggerGroup_both (off := off) hb g hg
    rw [hrun]
    have hu : (s.bank b).KeepsBit enables i (u.bank b) := by
      refine Bank.KeepsBit.pins ?_ h
      exact { Bank.KeepsBit.refl (s.bank b) with
        edge := getLsbD_regrouped_ne hne hi hw _ _ _
        be := getLsbD_or_bitAt hne _ }
    obtain ⟨hmachine, hothers, -⟩ := bothEdge_bank (s := u) (b := b) (by rw [hlength]; exact hb)
    refine hu.trans (Bank.KeepsBit.pins ?_ hmachine)
    exact { Bank.KeepsBit.refl (u.bank b) with pos := hothers i hi (by rw [hu.width]; exact hw) }

omit hi hw in
theorem keepsBit_maskBody : (s.bank b).KeepsBit enables i ((maskBody s b off).bank b) := by
  refine Bank.KeepsBit.pins ?_ (maskBody_bank off hb)
  exact { Bank.KeepsBit.refl (s.bank b) with
    en0 := getLsbD_and_not_bitAt hne _
    agree := fun _ => rfl
    shadow := fun _ => getLsbD_and_not_bitAt hne _ }

omit hb hne in
/-- ClearDetect rewrites the shadow and the status, so it needs a command that enables an interrupt. -/
theorem keepsBit_clearEffect {t : State} (h : ClearEffect b off s t) : (s.bank b).KeepsBit true i (t.bank b) := by
  rw [h.bank]
  exact { Bank.KeepsBit.refl (enables := true) (s.bank b) with pos := h.others i hi hw, shadow := nofun, status := nofun }

theorem keepsBit_unmaskBody (ho : off < (s.bank b).width) :
    (s.bank b).KeepsBit true i ((unmaskBody s b off).bank b) := by
  have henable (k : Bank) (hk : k.en0 = (s.bank b).en0) : k.KeepsBit true i
      { k with en0 := (s.bank b).en0 ||| bitAt off, intEn := (s.bank b).en0 ||| bitAt off } :=
    { Bank.KeepsBit.refl k with en0 := by rw [hk]; exact getLsbD_or_bitAt hne _, agree := fun _ => rfl }
  cases hedge : (s.bank b).intEdge.getLsbD off with
  | true => exact (henable _ rfl).pins (unmaskBody_edge hb ho hedge).1
  | false =>
    obtain ⟨u, hclear, -, h, -⟩ := unmaskBody_level hb ho hedge
    have hread := access_pinsOnly s b
    have hu := keepsBit_clearEffect (i := i) (s := (regRead s b .intEdge).2) hi
      (by rw [bank_regRead, access_bank_width]; exact hw) hclear
    have hen : (u.bank b).en0 = (s.bank b).en0 := by rw [hclear.bank]; exact hread.en0
    exact ((hread.keepsBit true i).trans hu).trans ((henable _ hen).pins h)

omit hi hw in
theorem keepsBit_wakeBody (v : Bool) : (s.bank b).KeepsBit enables i ((wakeBody s b off v).bank b) := by
  rw [wakeBody, bank_maskUpdate_same _ hb]
  exact { Bank.KeepsBit.refl (s.bank b) with
    en1 := by simp only [Bank.setWake, getLsbD_withBit, hne, false_and, if_false] }

theorem keepsBit_enableGroup (ho : off < (s.bank b).width) (v : Bool) (henables : v = true → enables = true) :
    (s.bank b).KeepsBit enables i ((enableGroup s b off v).bank b) := by
  cases v with
  | false => exact keepsBit_maskBody hb hne
  | true => rw [henables rfl]; exact keepsBit_unmaskBody hb hne hi hw ho

end

/-- A group, when present, does what it does to the bank. -/
theorem keepsBit_whenPresent {α : Type} {enables : Bool} {i b : Nat} (o : Option α) (s : State) {f : State → α → State}
    (h : ∀ v, o = some v → (s.bank b).KeepsBit enables i ((f s v).bank b)) :
    (s.bank b).KeepsBit enables i ((whenPresent o s f).bank b) := by
  cases o with
  | none => exact .refl _
  | some v => exact h v rfl

theorem keepsBit_configureBody (o : Options) {s : State} {b off i : Nat} (hb : b < s.banks.length)
    (ho : off < (s.bank b).width) (hne : i ≠ off) (hi : i < 32) (hw : i < (s.bank b).width) :
    (s.bank b).KeepsBit (o.int == some true) i ((configureBody o s b off).bank b) := by
  have t1 := touches_outputs o s b off
  have h1 := keepsBit_outputs (enables := o.int == some true) hb hne hi hw o
  rw [configureBody_groups]
  generalize outputsApplied o s b off = s1 at *
  have t2 : Touches b s (triggerApplied o s1 b off) := t1.trans (touches_whenPresent (b := b) o.trig s1 _
    fun _ => touches_triggerGroup _ _ _ _)
  have h2 : (s1.bank b).KeepsBit (o.int == some true) i ((triggerApplied o s1 b off).bank b) :=
    keepsBit_whenPresent o.trig s1 fun g _ =>
      keepsBit_triggerGroup (by rw [t1.length]; exact hb) hne hi (by rw [t1.width]; exact hw) g
  generalize triggerApplied o s1 b off = s2 at *
  have t3 : Touches b s (enableApplied o s2 b off) := t2.trans (touches_whenPresent (b := b) o.int s2 _
    fun _ => touches_enableGroup _ _ _ _)
  have h3 : (s2.bank b).KeepsBit (o.int == some true) i ((enableApplied o s2 b off).bank b) :=
    keepsBit_whenPresent o.int s2 fun v hv =>
      keepsBit_enableGroup (by rw [t2.length]; exact hb) hne hi (by rw [t2.width]; exact hw)
        (by rw [t2.width]; exact ho) v (fun h => by rw [hv, h]; rfl)
  generalize enableApplied o s2 b off = s3 at *
  have h4 : (s3.bank b).KeepsBit (o.int == some true) i ((wakeApplied o s3 b off).bank b) :=
    keepsBit_whenPresent o.wake s3 fun v _ => keepsBit_wakeBody (by rw [t3.length]; exact hb) hne v
  exact ((h1.trans h2).trans h3).trans h4

/-- Settles O25: every group keeps the bits of the other pins, and R48 holds of them at both ends. -/
theorem configureLeavesOtherPins : Obligations.ConfigureLeavesOtherPins := by
  intro s t pin b off o hready hr hen e
  obtain ⟨hb, -, -, -, ho⟩ := resolve_some hr
  have ht : (configureBody o (s.start (.configure pin o)) b off).finish (.configure pin o) .ok false = t :=
    Host.Outcome.next.inj ((onPin_ready hready hr (configureBody o)).symm.trans e)
  subst ht
  refine ⟨(configure_frame hready pin b off o).2, fun i hne hi hw => ?_⟩
  have h := keepsBit_configureBody o (s := s.start (.configure pin o)) hb ho hne hi hw
  have hagree : (s.bank b).intEn.getLsbD i = (s.bank b).en0.getLsbD i := by
    rw [← hen]
    simp [hi, hw, -BitVec.getLsbD_eq_getElem]
  exact ⟨h.out, h.oe, h.owner, h.edge, (h.agree hagree).trans (h.en0.trans hagree.symm), h.en0, h.en1, h.be, h.pos,
    fun hint => ⟨h.shadow (by simpa using hint), h.status (by simpa using hint)⟩⟩

end Sys2Proof.Machine
end

section
/-! Settling O24 (40_pin_config.md R130 to R139): what a CONFIGURE with any groups leaves of the pin itself, each group
taken in its order. -/

namespace Sys2Proof.Machine

/-- The wake group, present or absent (40_pin_config.md R139). -/
structure WakeEffect (o : Option Bool) (off : Nat) (k k' : Bank) : Prop where
  same : k' = { k with en1 := k'.en1 }
  en1 : Sets o off k.en1 k'.en1

theorem wakeGroup_effect (o : Options) {s : State} {b off : Nat} (hb : b < s.banks.length) (h32 : off < 32) :
    WakeEffect o.wake off (s.bank b) ((wakeApplied o s b off).bank b) := by
  unfold wakeApplied
  cases o.wake with
  | none => exact ⟨rfl, nofun, fun _ => rfl⟩
  | some v =>
    simp only [whenPresent, wakeBody, bank_maskUpdate_same _ hb]
    refine ⟨rfl, fun x hx => ?_, nofun⟩
    cases hx
    simp only [Bank.setWake, getLsbD_withBit, h32, and_self, if_true]

/-- The four effects of a CONFIGURE, from bank `k` through `k1`, `k2`, `k3` to `k'` (40_pin_config.md R130). -/
structure GroupEffects (o : Options) (off : Nat) (k k1 k2 k3 k' : Bank) : Prop where
  outputs : OutputsEffect o off k k1
  trigger : TriggerEffect o.trig off k1 k2
  enable : EnableGroupEffect o.int off k2 k3
  wake : WakeEffect o.wake off k3 k'

theorem configureBody_effects (o : Options) {s : State} {b off : Nat} (hb : b < s.banks.length) (h32 : off < 32)
    (hw : off < (s.bank b).width) :
    ∃ k1 k2 k3, GroupEffects o off (s.bank b) k1 k2 k3 ((configureBody o s b off).bank b) := by
  have t1 := touches_outputs o s b off
  have h1 : OutputsEffect o off (s.bank b) ((outputsApplied o s b off).bank b) :=
    (outputs_effect s b off o hb h32 hw).1
  rw [configureBody_groups]
  generalize outputsApplied o s b off = s1 at *
  have t2 : Touches b s (triggerApplied o s1 b off) := t1.trans (touches_whenPresent (b := b) o.trig s1 _
    fun _ => touches_triggerGroup _ _ _ _)
  have h2 := (triggerGroup_effect s1 b off o.trig (by rw [t1.length]; exact hb) h32 (by rw [t1.width]; exact hw)).1
  have t3 : Touches b s (enableApplied o (triggerApplied o s1 b off) b off) :=
    t2.trans (touches_whenPresent (b := b) o.int _ _ fun _ => touches_enableGroup _ _ _ _)
  have h3 := (enableGroup_effect (triggerApplied o s1 b off) b off o.int (by rw [t2.length]; exact hb) h32
    (by rw [t2.width]; exact hw)).1
  exact ⟨_, _, _, h1, h2, h3, wakeGroup_effect o (by rw [t3.length]; exact hb) h32⟩

theorem beq_edgeBoth_of_polarity {g : Trigger} {rising : Bool} (h : triggerPolarity g = some rising) :
    (g == .edgeBoth) = false := by
  rw [beq_eq_false_iff_ne]
  rintro rfl
  cases h

/-! ### What no later group undoes -/

section
variable {o : Options} {off : Nat} {k k1 k2 k3 k' : Bank} (h : GroupEffects o off k k1 k2 k3 k')
include h

theorem GroupEffects.out : Sets o.out off k.out k'.out := by
  rw [h.wake.same, h.enable.same, h.trigger.same]; exact h.outputs.out

theorem GroupEffects.oe : Sets o.dir off k.oe k'.oe := by
  rw [h.wake.same, h.enable.same, h.trigger.same]; exact h.outputs.oe

theorem GroupEffects.owner : Sets o.own off k.owner k'.owner := by
  rw [h.wake.same, h.enable.same, h.trigger.same]; exact h.outputs.owner

theorem GroupEffects.en1 : Sets o.wake off k.en1 k'.en1 := by
  have e : k3.en1 = k.en1 := by rw [h.enable.same, h.trigger.same, h.outputs.same]
  exact e ▸ h.wake.en1

theorem GroupEffects.edge_eq_trigger : k'.intEdge = k2.intEdge := by rw [h.wake.same, h.enable.same]

theorem GroupEffects.be_eq_trigger : k'.be = k2.be := by rw [h.wake.same, h.enable.same]

theorem GroupEffects.pos_eq_enable : k'.intPos = k3.intPos := by rw [h.wake.same]

theorem GroupEffects.width_trigger : k2.width = k.width := by rw [h.trigger.same, h.outputs.same]; rfl

theorem GroupEffects.desc : k'.desc = k.desc := by
  rw [h.wake.same, h.enable.same, h.trigger.same, h.outputs.same]

/-- Of a pin with one polarity the enable group runs no both-edge machine, so `int_pos` stays as the trigger group left
it. -/
theorem GroupEffects.trigger_some (h32 : off < 32) (hw : off < k.width) {g : Trigger} (hg : o.trig = some g) :
    k'.intEdge.getLsbD off = triggerEdge g ∧ k'.be.getLsbD off = (g == .edgeBoth) ∧
      ∀ rising, triggerPolarity g = some rising → k'.intPos.getLsbD off = rising := by
  obtain ⟨hedge, hbe, hpos⟩ := h.trigger.some g hg
  rw [h.edge_eq_trigger, h.be_eq_trigger, h.pos_eq_enable]
  refine ⟨hedge, hbe, fun rising hr => ?_⟩
  have hone : k2.be.getLsbD off = false := hbe.trans (beq_edgeBoth_of_polarity hr)
  rw [h.enable.others off (by rw [h.width_trigger]; exact hw) h32 hone]
  exact hpos rising hr

/-- With no trigger group the enable group finds the trigger bits of the bank as they were. -/
theorem GroupEffects.trigger_none (hg : o.trig = none) :
    k2.intEdge = k.intEdge ∧ k2.be = k.be ∧ k2.intPos = k.intPos := by
  obtain ⟨hedge, hbe, hpos⟩ := h.trigger.none hg
  rw [hedge, hbe, hpos, h.outputs.same]
  exact ⟨rfl, rfl, rfl⟩

theorem GroupEffects.edge_none (hg : o.trig = none) : k'.intEdge = k.intEdge :=
  h.edge_eq_trigger.trans (h.trigger_none hg).1

theorem GroupEffects.be_none (hg : o.trig = none) : k'.be = k.be :=
  h.be_eq_trigger.trans (h.trigger_none hg).2.1

theorem GroupEffects.pos_of_edge (hg : o.trig = none) (hint : o.int ≠ some true ∨ k.intEdge.getLsbD off = true) :
    k'.intPos = k.intPos := by
  obtain ⟨hedge, -, hpos⟩ := h.trigger_none hg
  rw [h.pos_eq_enable, h.enable.pos (by rw [hedge]; exact hint), hpos]

theorem GroupEffects.pos_others (hg : o.trig = none) {i : Nat} (hi : i < 32) (hw : i < k.width)
    (hbe : k.be.getLsbD i = false) : k'.intPos.getLsbD i = k.intPos.getLsbD i := by
  obtain ⟨-, hbe2, hpos⟩ := h.trigger_none hg
  rw [h.pos_eq_enable, h.enable.others i (by rw [h.width_trigger]; exact hw) hi (by rw [hbe2]; exact hbe), hpos]

theorem GroupEffects.en0_eq_enable : k'.en0 = k3.en0 := by rw [h.wake.same]

theorem GroupEffects.intEn_eq_enable : k'.intEn = k3.intEn := by rw [h.wake.same]

theorem GroupEffects.shadow_eq_enable : k'.shadow = k3.shadow := by rw [h.wake.same]

theorem GroupEffects.shadow_trigger : k2.shadow = k.shadow := by rw [h.trigger.same, h.outputs.same]

theorem GroupEffects.enable_some {v : Bool} (hv : o.int = some v) : k'.en0.getLsbD off = v ∧ k'.intEn = k'.en0 := by
  rw [h.en0_eq_enable, h.intEn_eq_enable]
  exact h.enable.some v hv

theorem GroupEffects.enable_none (hv : o.int = none) : k'.en0 = k.en0 ∧ k'.intEn = k.intEn ∧ k'.shadow = k.shadow := by
  obtain ⟨hen0, hintEn, hshadow⟩ := h.enable.none hv
  rw [h.en0_eq_enable, h.intEn_eq_enable, h.shadow_eq_enable, hen0, hintEn, hshadow, h.trigger.same, h.outputs.same]
  exact ⟨rfl, rfl, rfl⟩

theorem GroupEffects.disable (hv : o.int = some false) : k'.shadow = k.shadow &&& ~~~bitAt off := by
  rw [h.shadow_eq_enable, ← h.shadow_trigger]
  exact h.enable.drop hv

theorem GroupEffects.enable_shadow (hv : o.int = some true) :
    (k'.intEdge.getLsbD off = true → k'.shadow = k.shadow) ∧
    (k'.intEdge.getLsbD off = false → k'.shadow.getLsbD off = false) := by
  rw [h.edge_eq_trigger, h.shadow_eq_enable, ← h.shadow_trigger]
  exact h.enable.on hv

end

/-- Settles O24: each group's effect is still there at the end; the clauses for steady pins are those of
`byTrigger_configureBody`, `still_configureBody_edge` and `configureBody_enables`. -/
theorem configureReflectsGroups : Obligations.ConfigureReflectsGroups := by
  intro s pin b off o hready hr hwidth
  obtain ⟨hb, -, -, -, ho⟩ := resolve_some hr
  have h32 : off < 32 := Nat.lt_of_lt_of_le ho hwidth
  let s0 := s.start (.configure pin o)
  obtain ⟨k1, k2, k3, h⟩ := configureBody_effects o (s := s0) hb h32 ho
  obtain ⟨hframe, hothers⟩ := configure_frame hready pin b off o
  have hlogs : EventsAdded b s ((configureBody o s0 b off).finish (.configure pin o) .ok false)
      (.result (.configure pin o) 0x00000000) := by
    obtain ⟨logs, hlogs, hbound⟩ := (logs_configure o s0 b off hb ho).1
    exact ⟨logs, by rw [State.finish_events, hlogs, resultWord_configure]; rfl, hbound⟩
  exact ⟨_, onPin_ready hready hr (configureBody o), hframe, hothers, h.desc, hlogs,
    h.out.some, h.out.none, h.oe.some, h.oe.none, h.owner.some, h.owner.none,
    fun g hg => h.trigger_some h32 ho hg,
    fun hg => ⟨h.edge_none hg, h.be_none hg, h.pos_of_edge hg,
      fun i hi hbe => h.pos_others hg (Nat.lt_of_lt_of_le hi hwidth) hi hbe⟩,
    fun v hv => h.enable_some hv, h.disable, h.enable_shadow, h.enable_none, h.en1.some, h.en1.none,
    fun hsteady => ⟨((byTrigger_configureBody o (s := s0) hb ho).banks hsteady b).pad,
      fun hg hint => ((still_configureBody_edge (s := s0) hb h32 ho hg hint).banks hsteady b).status,
      fun hint hedge => configureBody_enables (s := s0) (t := configureBody o s0 b off) hb h32 ho hint rfl
        hsteady hedge⟩⟩

end Sys2Proof.Machine
end

section
/-! Settling O29, O30, O31, O38 (41_both_edge.md): the exits of a run of the both-edge machine, its bound, the run that
the pin environment leaves alone, and the run that ACK starts. -/

namespace Sys2Proof.Machine

/-! ### The exits -/

/-- Settles O29: a run ends STABLE or BOUND, as `bothEdge_effect` has it. -/
theorem bothEdgeExit : Obligations.BothEdgeExit := by
  intro s b hb hpasses
  rcases (bothEdge_effect hb hpasses).exit with hstable | ⟨v1, v2, hbound⟩
  · exact .inl hstable
  · exact .inr ⟨v1, v2, hbound.events, hbound.passes, hbound.level, hbound.moved, hbound.armed⟩

/-! ### The bound -/

/-- A pass is five accesses (41_both_edge.md R161 to R164). -/
theorem bothEdgePass_busy {s : State} {c : Instr} {k : Nat} (h : s.seq = .busy c k) (b iter : Nat) :
    (bothEdgePass s b iter).seq = .busy c (k + 5) := by
  rw [← advance_busy h]
  simp [bothEdgePass]

/-- With `left` passes still allowed at most `left` are made, of five accesses each. -/
theorem bothEdgeLoop_busy (b : Nat) {c : Instr} : ∀ (left : Nat) {s : State} {k : Nat} (iter : Nat), s.seq = .busy c k →
    ∃ n, n ≤ left ∧ (bothEdgeLoop s b iter left).seq = .busy c (k + 5 * n)
  | 0, _, _, _, h => ⟨0, Nat.le_refl 0, h⟩
  | left + 1, s, k, iter, h => by
    have hpass := bothEdgePass_busy h b iter
    have hone : 1 ≤ left + 1 := Nat.le_add_left 1 left
    unfold bothEdgeLoop
    simp only
    split
    · exact ⟨1, hone, hpass⟩
    · split
      · exact ⟨1, hone, hpass⟩
      · obtain ⟨n, hn, hseq⟩ := bothEdgeLoop_busy b left (iter + 1) hpass
        exact ⟨n + 1, Nat.succ_le_succ hn, by rw [hseq, Nat.mul_succ, Nat.add_assoc, Nat.add_comm 5]⟩

/-- Settles O30: the passes allowed at the start are `BE_MAX_PASSES`. -/
theorem bothEdgeBounded : Obligations.BothEdgeBounded := fun s b _ _ h => bothEdgeLoop_busy b s.params.beMaxPasses 0 h

/-! ### A run that the pin environment leaves alone, whatever is drawn -/

@[simp] theorem regRead_pins (s : State) (b : Nat) (r : Reg) :
    (regRead s b r).2.choices.pins = s.choices.pins.tail :=
  (nextWord_pins _).trans (nextPins_pins _)

theorem bank_access_quiet {s : State} {ps : List (List PinStep)} (h : s.choices.pins = [] :: ps) (b : Nat) :
    s.access.bank b = s.bank b := by
  rw [access_quiet h]
  rfl

theorem bank_regRead_quiet {s : State} {ps : List (List PinStep)} (h : s.choices.pins = [] :: ps) (b b' : Nat) (r : Reg) :
    (regRead s b r).2.bank b' = s.bank b' := bank_access_quiet h b'

theorem Bank.pad_written (k : Bank) (r : Reg) (v d : Word) : (k.written r v d).pad = k.pad := by cases r <;> rfl

theorem pad_regWrite_quiet {s : State} {ps : List (List PinStep)} (h : s.choices.pins = [] :: ps) {b : Nat}
    (hb : b < s.banks.length) (r : Reg) (v : Word) : ((regWrite s b r v).bank b).pad = (s.bank b).pad := by
  rw [bank_regWrite_same hb, Bank.pad_written, bank_access_quiet h]

/-- A pass at whose five accesses the environment does nothing leaves the pads as they are. -/
theorem pad_bothEdgePass_quiet {s : State} {b : Nat} (hb : b < s.banks.length) (iter : Nat)
    {later : List (List PinStep)} (h : s.choices.pins = [] :: [] :: [] :: [] :: [] :: later) :
    ((bothEdgePass s b iter).bank b).pad = (s.bank b).pad := by
  let s1 := (regRead s b .inp).2
  let s2 := (regRead s1 b .intPos).2
  let s3 := regWrite s2 b .intPos (armedPolarity (s2.bank b).be (regRead s1 b .intPos).1 (regRead s b .inp).1)
  let s4 := (regRead s3 b .intStatus).2
  have h1 : s1.choices.pins = [] :: [] :: [] :: [] :: later := by simp [s1, h]
  have h2 : s2.choices.pins = [] :: [] :: [] :: later := by simp [s2, h1]
  have h3 : s3.choices.pins = [] :: [] :: later := by simp [s3, h2]
  have h4 : s4.choices.pins = [] :: later := by simp [s4, h3]
  have hb2 : b < s2.banks.length := by simpa [s2, s1] using hb
  calc ((bothEdgePass s b iter).bank b).pad
    _ = (s4.bank b).pad := congrArg Bank.pad (bank_regRead_quiet h4 b b .inp)
    _ = (s3.bank b).pad := congrArg Bank.pad (bank_regRead_quiet h3 b b .intStatus)
    _ = (s2.bank b).pad := pad_regWrite_quiet h2 hb2 .intPos _
    _ = (s1.bank b).pad := congrArg Bank.pad (bank_regRead_quiet h1 b b .intPos)
    _ = (s.bank b).pad := congrArg Bank.pad (bank_regRead_quiet h b b .inp)

/-- A pass uses up the environment's next five turns. -/
theorem bothEdgePass_pins (s : State) (b iter : Nat) :
    (bothEdgePass s b iter).choices.pins = s.choices.pins.tail.tail.tail.tail.tail := by
  simp [bothEdgePass]

/-- The level a pass finds at its first access (41_both_edge.md R161). -/
theorem bothEdgePass_v1_quiet {s : State} {b iter : Nat} {r : BothEdgeRegs} (hr : (bothEdgePass s b iter).beRegs = some r)
    {ps : List (List PinStep)} (h : s.choices.pins = [] :: ps) {i : Nat} (hi : i < 32) (hw : i < (s.bank b).width) :
    r.v1.getLsbD i = (s.bank b).pad.getLsbD i := by
  obtain rfl := Option.some.inj hr
  have hread := getLsbD_regRead s b .inp i hi hw
  rw [bank_access_quiet h] at hread
  exact hread

/-- A run whose first pass is stable is that pass (41_both_edge.md R165). -/
theorem bothEdge_of_stable {s : State} {b : Nat} {r : BothEdgeRegs} (hpasses : 1 ≤ s.params.beMaxPasses)
    (hr : (bothEdgePass s b 0).beRegs = some r) (hstable : bothEdgeStable ((bothEdgePass s b 0).bank b).be r = true) :
    bothEdge s b = { bothEdgePass s b 0 with beRegs := none } := by
  obtain ⟨n, hn⟩ := Nat.exists_eq_add_of_le' hpasses
  simp only [bothEdge, hn, bothEdgeLoop, hr, Option.getD_some, hstable, if_true]

/-- The pins of a bank, as its masks have them. -/
theorem Bank.wmask_iff (k : Bank) (i : Nat) : k.wmask.getLsbD i = true ↔ i < 32 ∧ i < k.width := by
  simp only [Bank.getLsbD_wmask, Bool.and_eq_true, decide_eq_true_eq]

section
variable {b : Nat} {s t : State} {r : BothEdgeRegs} (h : PassEffect b s t r)
  (hlevel : ∀ i, i < 32 → i < (s.bank b).width → r.v1.getLsbD i = (t.bank b).pad.getLsbD i)
include h hlevel

/-- A pass whose two readings of the level agree at the bank's pins is stable (41_both_edge.md R165). -/
theorem PassEffect.stable_of_level (hfit : (s.bank b).be &&& ~~~(s.bank b).wmask = 0) :
    bothEdgeStable (t.bank b).be r = true := by
  refine bothEdgeStable_of fun i hbe => ?_
  rw [h.bank.be] at hbe
  obtain ⟨hi, hw⟩ := (Bank.wmask_iff _ i).1 ((within_iff _ _).1 hfit i hbe)
  exact (hlevel i hi hw).trans (h.level i hi hw).symm

/-- Such a pass arms every both-edge pin away from the level and keeps the other polarities (41_both_edge.md R162, R163). -/
theorem PassEffect.intPos_of_level : (t.bank b).intPos &&& (s.bank b).wmask =
    (((s.bank b).intPos &&& ~~~(s.bank b).be) ||| (~~~(t.bank b).pad &&& (s.bank b).be)) &&& (s.bank b).wmask := by
  rw [masked_eq_iff]
  intro i hm
  obtain ⟨hi, hw⟩ := (Bank.wmask_iff _ i).1 hm
  rw [h.bank.intPos, h.pol i hi hw, hlevel i hi hw]
  cases hbe : (s.bank b).be.getLsbD i <;> simp [hi, hbe, -BitVec.getLsbD_eq_getElem]

end

/-- Settles O31: the level is read twice as it stands, so the first pass is stable, and it has armed every both-edge pin
away from that level. -/
theorem bothEdgeSettlesOnSteadyPins : Obligations.BothEdgeSettlesOnSteadyPins := by
  intro s b later hb hpasses hpins hfit
  obtain ⟨r, hpass⟩ := bothEdgePass_effect hb 0
  have hpad := pad_bothEdgePass_quiet hb 0 hpins
  have hlevel (i : Nat) (hi : i < 32) (hw : i < (s.bank b).width) :
      r.v1.getLsbD i = ((bothEdgePass s b 0).bank b).pad.getLsbD i := by
    rw [hpad]
    exact bothEdgePass_v1_quiet hpass.regs hpins hi hw
  have hpos := hpass.intPos_of_level hlevel
  rw [hpad] at hpos
  rw [bothEdge_of_stable hpasses hpass.regs (hpass.stable_of_level hlevel hfit)]
  exact ⟨hpass.events, by simp [bothEdgePass_pins, hpins], hpad, hpos, hpass.bank.kept⟩

/-! ### The run that ACK starts -/

/-- Settles O38: ACK is ClearDetect and its result, and a run that ClearDetect starts and that logs nothing has ended
STABLE. -/
theorem ackRearmsBothEdgePins : Obligations.AckRearmsBothEdgePins := by
  intro s t irq b off hready hr _ hbe hpasses e hquiet
  have hb := (resolve_some (resolveIrq_some hr)).1
  have ht : (clearDetect (s.start (.ack irq)) b off).finish (.ack irq) .ok false = t :=
    Host.Outcome.next.inj ((onIrq_ready hready hr clearDetect).symm.trans e)
  subst ht
  have hevents : (clearDetect (s.start (.ack irq)) b off).events = s.events := by
    rw [State.finish_events, resultWord_ack] at hquiet
    exact List.append_cancel_right hquiet
  exact (clearDetect_effect (s := s.start (.ack irq)) off hb).rearmed hbe hpasses hevents

end Sys2Proof.Machine
end

section
/-! Settling O32 to O37 and O39 (42_irq_facade.md): MASK, UNMASK, ACK and SET_WAKE. -/

namespace Sys2Proof.Machine

/-! ### MASK -/

/-- Settles O32: the body of MASK, then the result. -/
theorem maskDisablesAndDropsShadow : Obligations.MaskDisablesAndDropsShadow := by
  intro s irq b off hready hr
  have hb := (resolve_some (resolveIrq_some hr)).1
  have htouch := touches_maskBody b (s.start (.mask irq)) off
  obtain ⟨hframe, hothers⟩ := htouch.frame hready (maskBody_beRegs b off hready.noRun) .ok false
  refine ⟨_, onIrq_ready hready hr maskBody, hframe, hothers, maskBody_bank (s := s.start (.mask irq)) off hb, ?_⟩
  rw [State.finish_events, resultWord_mask, maskBody_events]
  rfl

/-! ### UNMASK -/

/-- The frame of an UNMASK, whatever the pin's detection type. -/
theorem unmask_frame {s : State} (h : s.Ready) (irq b off : Nat) :
    Frame s ((unmaskBody (s.start (.unmask irq)) b off).finish (.unmask irq) .ok false) ∧
      OthersKept b s ((unmaskBody (s.start (.unmask irq)) b off).finish (.unmask irq) .ok false) :=
  (touches_unmaskBody b (s.start (.unmask irq)) off).frame h (unmaskBody_beRegs b off h.noRun) .ok false

/-- Settles O33: of an edge pin the body of UNMASK is the enable write. -/
theorem unmaskEdgePin : Obligations.UnmaskEdgePin := by
  intro s irq b off hready hr hedge
  obtain ⟨hb, -, -, -, hw⟩ := resolve_some (resolveIrq_some hr)
  obtain ⟨hbank, hevents⟩ := unmaskBody_edge (s := s.start (.unmask irq)) hb hw hedge
  obtain ⟨hframe, hothers⟩ := unmask_frame hready irq b off
  refine ⟨_, onIrq_ready hready hr unmaskBody, hframe, hothers, hbank, ?_⟩
  rw [State.finish_events, resultWord_unmask, hevents]
  rfl

/-- What the pin environment does before ClearDetect is part of its effect. -/
theorem ClearEffect.after_pins {b off : Nat} {s s1 t : State} (h : ClearEffect b off s1 t)
    (hp : (s.bank b).PinsOnly (s1.bank b)) (hparams : s1.params = s.params) (hevents : s1.events = s.events) :
    ClearEffect b off s t where
  bank := by rw [h.bank, hp.same]
  steady hbe := (h.steady (hp.be ▸ hbe)).trans hp.intPos
  others i hi hw hbe := by
    rw [← hp.intPos]
    exact h.others i hi (by rw [Bank.width, hp.desc]; exact hw) (hp.be ▸ hbe)
  cleared := h.cleared
  saved i hi hor := h.saved i hi (hor.imp (hp.shadow ▸ ·) fun ⟨hw, hst⟩ =>
    ⟨by rw [Bank.width, hp.desc]; exact hw, (within_iff _ _).1 hp.kept i hst⟩)
  fits hf := by rw [← hp.wmask]; exact h.fits (by rw [hp.shadow, hp.wmask]; exact hf)
  events := hevents ▸ h.events
  rearmed hbe hpasses he i hi hw hin := h.rearmed (hp.be ▸ hbe) (hparams ▸ hpasses) (he.trans hevents.symm) i hi
    (by rw [Bank.width, hp.desc]; exact hw) (hp.be ▸ hin)

/-- Settles O34: the read of `int_edge` and ClearDetect, then the enable write, which keeps what ClearDetect left. -/
theorem unmaskLevelPin : Obligations.UnmaskLevelPin := by
  intro s irq b off hready hr hlevel
  obtain ⟨hb, -, -, -, hw⟩ := resolve_some (resolveIrq_some hr)
  obtain ⟨u, hu, -, hbank, hevents⟩ := unmaskBody_level (s := s.start (.unmask irq)) hb hw hlevel
  have hclear : ClearEffect b off s u := hu.after_pins (access_pinsOnly (s.start (.unmask irq)) b) rfl rfl
  obtain ⟨hframe, hothers⟩ := unmask_frame hready irq b off
  have hpos : ((unmaskBody (s.start (.unmask irq)) b off).bank b).intPos = (u.bank b).intPos := hbank.intPos
  have hshadow : ((unmaskBody (s.start (.unmask irq)) b off).bank b).shadow = (u.bank b).shadow := hbank.shadow
  refine ⟨_, onIrq_ready hready hr unmaskBody, hframe, hothers, ?_, ?_, ?_⟩
  · obtain ⟨logs, hlogs, hbound⟩ := hclear.events
    exact ⟨logs, by rw [State.finish_events, hevents, hlogs, resultWord_unmask]; rfl, hbound⟩
  · rw [bank_finish, hshadow, hpos, hbank.same, hclear.bank]
    rfl
  · rw [bank_finish, hshadow, hpos]
    exact ⟨hclear.steady, hclear.others, hclear.cleared, hclear.saved⟩

/-! ### ACK, whatever the pins do -/

/-- Settles O36: ACK is ClearDetect and its result. -/
theorem ackSavesOtherPending : Obligations.AckSavesOtherPending := by
  intro s irq b off hready hr
  have hb := (resolve_some (resolveIrq_some hr)).1
  have hclear := clearDetect_effect (s := s.start (.ack irq)) off hb
  have htouch := touches_clearDetect b (s.start (.ack irq)) off
  obtain ⟨hframe, hothers⟩ := htouch.frame hready (clearDetect_beRegs b off hready.noRun) .ok false
  obtain ⟨logs, hlogs, hbound⟩ := hclear.events
  exact ⟨_, onIrq_ready hready hr clearDetect, hframe, hothers,
    ⟨logs, by rw [State.finish_events, hlogs, resultWord_ack]; rfl, hbound⟩,
    hclear.bank, hclear.steady, hclear.others, hclear.cleared, hclear.saved⟩

/-! ### ClearDetect with its free values listed -/

/-- Bank `k` after the sample and the clear of ClearDetect (R185), `lost` being what the erratum loses besides
(20_memory.md R73). -/
def Bank.cleared (off : Nat) (lost : Word) (k : Bank) : Bank :=
  { k with
    shadow := (k.shadow ||| (k.intStatus &&& k.wmask)) &&& ~~~bitAt off
    intStatus := k.intStatus &&& ~~~(bitAt off ||| lost) }

/-- The fold of the status as read, then the write of `int_clear`. -/
theorem written_foldShadow (off : Nat) (d lost : Word) (k : Bank) :
    (k.foldShadow (k.readAs k.intStatus d) (bitAt off)).written .intClear (bitAt off) lost = k.cleared off lost := by
  simp only [Bank.foldShadow, Bank.written, Bank.cleared, Bank.readAs, fold_read]

@[simp] theorem State.seen_banks (s : State) (pins : List (List PinStep)) (words : List Word) (seq : Seq) :
    (s.seen pins words seq).banks = s.banks := rfl

@[simp] theorem bank_seen (s : State) (pins : List (List PinStep)) (words : List Word) (seq : Seq) (b : Nat) :
    (s.seen pins words seq).bank b = s.bank b := rfl

section
variable {s : State} {b : Nat} (hb : b < s.banks.length) (off : Nat) {later : List (List PinStep)} {d lost : Word}
  {words : List Word} (hpins : s.choices.pins = [] :: [] :: later) (hwords : s.choices.words = d :: lost :: words)
include hb hpins hwords

/-- The sample and the clear of ClearDetect on steady pins: two accesses and a mask update. -/
theorem clearSteps_quiet :
    regWrite ((regRead s b .intStatus).2.maskUpdate b (Bank.foldShadow (regRead s b .intStatus).1 (bitAt off))) b
      .intClear (bitAt off) =
    (s.setBank b (Bank.cleared off lost)).seen later words s.seq.advance.advance.advance := by
  rw [regRead_quiet b .intStatus hpins hwords, regWrite_quiet (ps := later) (w := lost) (ws := words) b rfl _ rfl rfl]
  simp only [State.seen, State.setBank, State.maskUpdate]
  rw [modify_modify hb _ _ (Bank.cleared off lost)]
  rw [← bank_eq_getElem hb]
  exact written_foldShadow off d lost (s.bank b)

/-- ClearDetect of a pin that is not both-edge, on steady pins. -/
theorem clearDetect_quiet (hbe : (s.bank b).be &&& bitAt off = 0) :
    clearDetect s b off = (s.setBank b (Bank.cleared off lost)).seen later words s.seq.advance.advance.advance := by
  simp only [clearDetect]
  rw [clearSteps_quiet hb off hpins hwords, if_neg]
  rwa [bank_seen, bank_setBank_same _ hb, not_not]

end

/-- ClearDetect of a both-edge pin, on steady pins: one pass of the both-edge machine follows the clear. -/
theorem clearDetect_quiet_bothEdge {s : State} {b : Nat} (hb : b < s.banks.length) (off : Nat)
    {later : List (List PinStep)} {d lost d1 d2 spurious d3 d4 : Word} {words : List Word}
    (hpins : s.choices.pins = [] :: [] :: [] :: [] :: [] :: [] :: [] :: later)
    (hwords : s.choices.words = d :: lost :: d1 :: d2 :: spurious :: d3 :: d4 :: words) (hrun : s.beRegs = none)
    (hpasses : 1 ≤ s.params.beMaxPasses) (hfit : (s.bank b).be &&& ~~~(s.bank b).wmask = 0)
    (hbe : (s.bank b).be &&& bitAt off ≠ 0) (pol : Word)
    (hpol : armedPolarity (s.bank b).be ((s.bank b).readAs (s.bank b).intPos d2)
      ((s.bank b).readAs (s.bank b).pad d1) = pol) :
    ∃ seq, clearDetect s b off =
      (s.setBank b fun k => (k.cleared off lost).written .intPos pol spurious).seen later words seq := by
  let u := (s.setBank b (Bank.cleared off lost)).seen ([] :: [] :: [] :: [] :: [] :: later)
    (d1 :: d2 :: spurious :: d3 :: d4 :: words) s.seq.advance.advance.advance
  have hu : u.bank b = (s.bank b).cleared off lost := bank_setBank_same _ hb
  have hmachine := bothEdge_quiet (s := u) (b := b) (by simpa [u] using hb) hrun hpasses (by rw [hu]; exact hfit)
    rfl rfl pol (by rw [hu]; exact hpol)
  refine ⟨u.seq.advance.advance.advance.advance.advance, ?_⟩
  simp only [clearDetect]
  rw [clearSteps_quiet hb off hpins hwords, if_pos (by rw [hu]; exact hbe), hmachine]
  simp only [u, State.seen, State.setBank, List.modify_modify_eq]
  rfl

/-! ### UNMASK of a level pin on steady pins -/

/-- UnmaskBody of a level pin (R182): ClearDetect, then the enable write. -/
theorem unmaskBody_of_level {s u : State} {b off : Nat} (hw : off < (s.bank b).width)
    (hlevel : (s.bank b).intEdge.getLsbD off = false) (hclear : clearDetect (regRead s b .intEdge).2 b off = u) :
    unmaskBody s b off = regWrite (u.maskUpdate b (Bank.enable (bitAt off))) b .intEn
      ((u.maskUpdate b (Bank.enable (bitAt off))).bank b).en0 := by
  have hread : (regRead s b .intEdge).1.getLsbD off = false := by
    by_cases h32 : off < 32
    · rw [getLsbD_regRead s b .intEdge off h32 hw]
      exact (congrArg (·.getLsbD off) (access_bank_intEdge s b)).trans hlevel
    · exact BitVec.getLsbD_of_ge _ _ (Nat.le_of_not_lt h32)
  simp only [unmaskBody, hread, Bool.false_eq_true, if_false, hclear]

/-- The enable write of UNMASK on steady pins (R182, last lines). -/
theorem bank_enableWrite_quiet {s : State} {b : Nat} (hb : b < s.banks.length) (off : Nat) {ps : List (List PinStep)}
    (hpins : s.choices.pins = [] :: ps) :
    (regWrite (s.maskUpdate b (Bank.enable (bitAt off))) b .intEn
      ((s.maskUpdate b (Bank.enable (bitAt off))).bank b).en0).bank b =
      { s.bank b with en0 := (s.bank b).en0 ||| bitAt off, intEn := (s.bank b).en0 ||| bitAt off } := by
  rw [bank_regWrite_same (by simpa using hb), bank_access_quiet (s := s.maskUpdate _ _) hpins,
    bank_maskUpdate_same _ hb]
  rfl

/-- On steady pins UnmaskBody of a level pin that is not both-edge clears the stale status and enables the pin. -/
theorem bank_unmaskBody_level_quiet {s : State} {b off : Nat} (hb : b < s.banks.length) (hw : off < (s.bank b).width)
    (hlevel : (s.bank b).intEdge.getLsbD off = false) (hbe : (s.bank b).be &&& bitAt off = 0)
    {later : List (List PinStep)} {d1 d2 lost : Word} {words : List Word}
    (hpins : s.choices.pins = [] :: [] :: [] :: [] :: later) (hwords : s.choices.words = d1 :: d2 :: lost :: words) :
    (unmaskBody s b off).bank b =
      { (s.bank b).cleared off lost with
        en0 := (s.bank b).en0 ||| bitAt off
        intEn := (s.bank b).en0 ||| bitAt off } := by
  let s1 := s.seen ([] :: [] :: [] :: later) (d2 :: lost :: words) s.seq.advance
  have hread : (regRead s b .intEdge).2 = s1 := congrArg Prod.snd (regRead_quiet b .intEdge hpins hwords)
  have hclear := clearDetect_quiet (s := s1) (later := [] :: later) (d := d2) hb off rfl rfl hbe
  rw [unmaskBody_of_level hw hlevel rfl, hread, hclear,
    bank_enableWrite_quiet (ps := later) (by simpa [s1] using hb) off rfl, bank_seen, bank_setBank_same (s := s1) _ hb]
  rfl

/-- Settles O35: the body of UNMASK on steady pins. -/
theorem unmaskClearsStaleStatus : Obligations.UnmaskClearsStaleStatus := by
  intro s irq b off later d1 d2 lost words hready hr hlevel hbe hpins hwords
  obtain ⟨hb, -, -, -, hw⟩ := resolve_some (resolveIrq_some hr)
  exact ⟨_, onIrq_ready hready hr unmaskBody,
    bank_unmaskBody_level_quiet (s := s.start (.unmask irq)) hb hw hlevel hbe hpins hwords⟩

/-! ### ACK on steady pins -/

/-- A command that changed one bank and took free values, with its result: `seq` is IDLE again. -/
theorem finish_seen {s : State} (hidle : s.seq = .idle) (c : Instr) (b : Nat) (f : Bank → Bank)
    (pins : List (List PinStep)) (words : List Word) (seq : Seq) :
    (((s.start c).setBank b f).seen pins words seq).finish c .ok false =
      { s with
        banks := s.banks.modify b f
        choices := { s.choices with pins := pins, words := words }
        events := s.events ++ [.result c (resultWord c .ok false)] } := by
  simp only [State.finish, State.emit, State.seen, State.setBank, State.start, ← hidle]

/-- Settles O37: ClearDetect on steady pins, and for a both-edge pin the one pass that follows. -/
theorem ackExactWithErratum : Obligations.AckExactWithErratum := by
  intro s irq b off later d lost words hready hr
  have hb := (resolve_some (resolveIrq_some hr)).1
  refine ⟨fun hbe hpins hwords => ?_, fun d1 d2 spurious d3 d4 hbe hfit hpasses hpins hwords => ?_⟩
  · rw [exec, execAck, onIrq_ready hready hr,
      clearDetect_quiet (s := s.start (.ack irq)) hb off hpins hwords hbe, finish_seen hready.idle, resultWord_ack]
    rfl
  · obtain ⟨seq, hclear⟩ := clearDetect_quiet_bothEdge (s := s.start (.ack irq)) hb off hpins hwords hready.noRun
      hpasses hfit hbe _ rfl
    rw [exec, execAck, onIrq_ready hready hr, hclear, finish_seen hready.idle, resultWord_ack]
    rfl

/-! ### SET_WAKE -/

theorem onIrq_asleep {s : State} (hidle : s.seq = .idle) (hbooted : s.booted = true) (hsleep : s.sleepState = .asleep)
    (c : Instr) (irq : Nat) (body : State → Nat → Nat → State) :
    onIrq c irq s body = .next (s.refuse .asleep (.command c)) := by
  simp only [onIrq, admitAwake, admitBooted, hidle, hbooted, hsleep, Seq.isIdle, if_true]

theorem onIrq_awake {s : State} (hidle : s.seq = .idle) (hbooted : s.booted = true) (hsleep : s.sleepState = .awake)
    (c : Instr) (irq : Nat) (body : State → Nat → Nat → State) :
    onIrq c irq s body = onResolved c s (resolveIrq s irq) body := by
  simp only [onIrq, admitAwake, admitBooted, hidle, hbooted, hsleep, Seq.isIdle, if_true]

/-- The body of SET_WAKE makes no access, and with the result `seq` is IDLE again. -/
theorem wakeBody_finish {s : State} (hidle : s.seq = .idle) (c : Instr) (b off : Nat) (v : Bool) :
    (wakeBody (s.start c) b off v).finish c .ok false =
      { s.setBank b (Bank.setWake (bitAt off) v) with events := s.events ++ [.result c (resultWord c .ok false)] } := by
  simp only [wakeBody, State.maskUpdate, State.finish, State.emit, State.start, State.setBank, ← hidle]

/-- Settles O39: refused while ASLEEP; else the number's bank decides. -/
theorem setWakeWritesWakeSetOnly : Obligations.SetWakeWritesWakeSetOnly := by
  intro s irq v hidle hbooted
  refine ⟨fun hsleep => onIrq_asleep hidle hbooted hsleep _ _ _, fun hsleep hr => ?_, fun hsleep b off hr => ?_⟩
  · rw [exec, execSetWake, onIrq_awake hidle hbooted hsleep, hr]
    simp only [onResolved, State.raise, State.finish, State.emit, State.start, resultWord_setWake_outOfRange, ← hidle]
    rfl
  · rw [exec, execSetWake, onIrq_awake hidle hbooted hsleep, hr]
    simp only [onResolved]
    rw [wakeBody_finish hidle, resultWord_setWake]
    rfl

end Sys2Proof.Machine
end

section
/-! Settling O40, O41, O42, O59 (43_demux.md): the snapshot that starts a pass, its dispatches, and the step from one bank
to the next. -/

namespace Sys2Proof.Machine

/-! ### Visiting a bank of the line -/

/-- A visit of the line's next bank is one access, after which the working word is the snapshot (R211). -/
theorem passVisit_some {s : State} {l low b : Nat} (hnext : nextBank s l low = some b)
    (hfit : (s.bank b).en0 &&& ~~~(s.bank b).wmask = 0) :
    passVisit s l low = { s.access.draw.2 with
      pass := some ⟨l, b, ((s.access.bank b).intStatus ||| (s.bank b).shadow) &&& (s.bank b).en0⟩ } := by
  rw [passVisit, hnext]
  exact snapshot_eq l b hfit

/-- With no bank left the line is acknowledged, the result of LINE_IRQ emitted, and the pass over (R210, R214). -/
theorem passVisit_none {s : State} {l low : Nat} (hnext : nextBank s l low = none) :
    passVisit s l low = { s with
      pass := none, events := s.events ++ [.lineAck l, .result (.lineIrq l) 0x80000000] } := by
  simp only [passVisit, hnext, passEnd, State.emit, resultWord_lineIrq, List.append_assoc, List.cons_append,
    List.nil_append]
  rfl

/-! ### LINE_IRQ -/

/-- An admitted LINE_IRQ outside a pass is the first visit of its pass (R210, assumption log 12). -/
theorem exec_lineIrq_ready {s : State} (h : s.Ready) (hpass : s.pass = none) {l : Nat} (hl : l < s.params.numLines) :
    exec (.lineIrq l) s = .next { passVisit (s.start (.lineIrq l)) l 0 with seq := .idle } := by
  simp only [exec, execLineIrq, admitBooted, h.idle, h.booted, h.awake, hpass, hl, Seq.isIdle, if_true]

/-- Settles O40: the visit from bank 0 on finds the line's first bank, or none. -/
theorem lineIrqTakesSnapshot : Obligations.LineIrqTakesSnapshot := by
  intro s l hready hpass hl
  refine ⟨fun b hb hline hfirst hfit => ?_, fun hnone => ?_⟩
  · have hnext : nextBank (s.start (.lineIrq l)) l 0 = some b :=
      nextBank_some (s := s.start (.lineIrq l)) hb hline (Nat.zero_le b) fun b' _ h => hfirst b' h
    refine ⟨_, exec_lineIrq_ready hready hpass hl, ?_⟩
    rw [passVisit_some hnext hfit]
    refine ⟨rfl, ?_, length_access _, access_pinsOnly (s.start (.lineIrq l))⟩
    simp only [State.draw, State.access, State.start, ← hready.idle]
  · have hnext : nextBank (s.start (.lineIrq l)) l 0 = none :=
      nextBank_none (s := s.start (.lineIrq l)) fun b _ h => hnone b h
    rw [exec_lineIrq_ready hready hpass hl, passVisit_none hnext]
    simp only [State.start, ← hready.idle, ← hpass]

/-! ### Dispatches -/

theorem lsb_eq {w : Word} {i : Nat} (hi : w.getLsbD i = true) (hlow : ∀ j < i, w.getLsbD j = false) : lsb w = i := by
  have hfind : (List.range 32).find? (fun j => w.getLsbD j) = some i := by
    rw [List.find?_range_eq_some]
    exact ⟨hi, List.mem_range.2 (BitVec.lt_of_getLsbD hi), fun j hj => by rw [hlow j hj]; rfl⟩
  rw [lsb, hfind, Option.getD_some]

/-- `s` after the pass `p` has dispatched the pins `is` of its bank, in this order, `work` being left of its working word
(R212, R213). -/
def State.dispatched (s : State) (p : Pass) (is : List Nat) (work : Word) : State :=
  { s with
    pass := some { p with work := work }
    events := s.events ++ is.map fun i => .dispatch (s.params.baseIrq + (s.bank p.bank).desc.start + i) .demux }

theorem dispatched_dispatched (s : State) (p : Pass) (is js : List Nat) (w work : Word) :
    (s.dispatched p is w).dispatched { p with work := w } js work = s.dispatched p (is ++ js) work := by
  simp only [State.dispatched, List.map_append, List.append_assoc]
  rfl

/-- The next atomic step of a pass with work left hands over its lowest set bit and clears it (R212, R213). -/
theorem passStep_work {s : State} {p : Pass} (hwork : p.work ≠ 0) :
    passStep s p = s.dispatched p [lsb p.work] (p.work &&& ~~~bitAt (lsb p.work)) := if_pos hwork

/-- A step that goes on inside a pass is the pass's. -/
theorem step_pass {s : State} {rest : List Input} {p : Pass} (hidle : s.seq = .idle) (hgoes : s.GoesOn rest)
    (hpass : s.pass = some p) : step s = .next (passStep { s with agenda := rest } p) := by
  rw [step_goesOn hgoes, advance_pass (s := { s with agenda := rest }) hidle hpass]

/-- Settles O59: the lowest set bit is the least one. -/
theorem passDispatchesLowestBit : Obligations.PassDispatchesLowestBit := by
  intro s rest p i hidle hgoes hpass hi hlow
  have hwork : p.work ≠ 0 := by
    intro h
    simp [h] at hi
  rw [step_pass hidle hgoes hpass, passStep_work hwork, lsb_eq hi hlow]
  rfl

/-- The dispatches of a pass left alone, by recursion on the set bits of its working word. -/
theorem run_dispatches : ∀ (is : List Nat) {s : State} {p : Pass}, s.seq = .idle → s.agenda = [] → s.pass = some p →
    setBits p.work = is → Host.Core.run Sys2Proof.core is.length s = .next (s.dispatched p is 0)
  | [], s, p, _, _, hpass, hbits => by
    have hwork : p.work = 0 := setBits_nil hbits
    have hsame : s.dispatched p [] 0 = s := by
      simp only [State.dispatched, List.map_nil, List.append_nil, ← hwork, ← hpass]
    rw [hsame]
    exact run_zero s
  | i :: is, s, p, hidle, hagenda, hpass, hbits => by
    have hwork : p.work ≠ 0 := by
      intro h
      rw [h] at hbits
      cases hbits
    obtain ⟨hi, his⟩ := List.cons.inj ((lsb_setBits hwork).symm.trans hbits)
    have hstep : step s = .next (s.dispatched p [i] (p.work &&& ~~~bitAt i)) := by
      have hsame : { s with agenda := [] } = s := by rw [← hagenda]
      rw [step_pass hidle (.inr ⟨hagenda, rfl⟩) hpass, hsame, passStep_work hwork, hi]
    have hrest := run_dispatches is (s := s.dispatched p [i] (p.work &&& ~~~bitAt i)) hidle hagenda rfl (hi ▸ his)
    rw [dispatched_dispatched] at hrest
    exact (run_succ _ hstep).trans hrest

/-- Settles O41: the run over the set bits. -/
theorem passDispatchesExactlySetBits : Obligations.PassDispatchesExactlySetBits :=
  fun _ p hidle hagenda hpass => run_dispatches (setBits p.work) hidle hagenda hpass rfl

/-! ### The next bank, or the end of the pass -/

/-- Settles O42: with the working word empty the step is a visit from the next index on. -/
theorem passVisitsNextBankOrEnds : Obligations.PassVisitsNextBankOrEnds := by
  intro s rest l b hidle hgoes hpass
  have hstep : step s = .next (passVisit { s with agenda := rest } l (b + 1)) := step_pass hidle hgoes hpass
  refine ⟨fun b' hlt hb' hline hfirst hfit => ?_, fun hnone => ?_⟩
  · have hnext : nextBank { s with agenda := rest } l (b + 1) = some b' :=
      nextBank_some (s := { s with agenda := rest }) hb' hline hlt hfirst
    refine ⟨_, hstep, ?_⟩
    rw [passVisit_some hnext hfit]
    refine ⟨rfl, ?_, access_pinsOnly { s with agenda := rest }⟩
    simp only [State.draw, State.access, hidle, Seq.advance]
  · have hnext : nextBank { s with agenda := rest } l (b + 1) = none :=
      nextBank_none (s := { s with agenda := rest }) hnone
    rw [hstep, passVisit_none hnext]

end Sys2Proof.Machine
end

section
/-! Settling O44, O45, O46, O47 (44_sleep_wake.md R230 to R241): the states that ENTER_SLEEP and EXIT_SLEEP end in, and
the mailbox that ENTER_SLEEP leaves. -/

namespace Sys2Proof.Machine

/-! ### ENTER_SLEEP -/

/-- The end of ENTER_SLEEP after the hand-off: the enables, the result, ASLEEP (R230). -/
def State.fallAsleep (u : State) (fi : Bool) : State :=
  { (writeEnables u fi u.bankIndices).finish (.enterSleep fi) .ok false with sleepState := .asleep }

theorem fallAsleep_eq (u : State) (fi : Bool) : u.fallAsleep fi = { u with
    banks := (writeEnables u fi u.bankIndices).banks
    choices := (writeEnables u fi u.bankIndices).choices
    seq := .idle
    events := u.events ++ [.result (.enterSleep fi) 0x90000000]
    sleepState := .asleep } := by
  rw [State.fallAsleep, (writeEnables_effect fi u.bankIndices u).rest]
  simp only [State.finish, State.emit, resultWord_enterSleep]
  rfl

theorem sameControl_fallAsleep (u : State) (fi : Bool) : SameControl u (u.fallAsleep fi) :=
  (sameControl_writeEnables fi u.bankIndices u).trans ⟨rfl, rfl⟩

@[simp] theorem fallAsleep_mem (u : State) (fi : Bool) : (u.fallAsleep fi).mem = u.mem := mem_we fi u.bankIndices u

/-- An admitted ENTER_SLEEP outside a pass and a replay is its hand-off, then its end (R230). -/
theorem exec_enterSleep_ready {s u : State} (h : s.Ready) (hpass : s.pass = none) (hrun : s.replayRun = none)
    {fi : Bool} (e : handOff (s.start (.enterSleep fi)) fi = .ok u) :
    exec (.enterSleep fi) s = .next (u.fallAsleep fi) := by
  have hbody : enterSleepBody (s.start (.enterSleep fi)) fi = .ok (u.fallAsleep fi) := bind_eq_ok.2 ⟨u, e, rfl⟩
  simp only [exec, execEnterSleep, admitAwake, admitBooted, h.idle, h.booted, h.awake, hpass, hrun, Seq.isIdle, if_true,
    hbody, answer]

/-- The set selected is written to the `int_en` of every bank (R232, R239). -/
theorem EnableEffect.selected {fi : Bool} {s t : State} (w : EnableEffect fi s.bankIndices s t) {b : Nat}
    (hb : b < s.banks.length) :
    Bank.PinsOnly { s.bank b with intEn := if fi then (s.bank b).en0 else (s.bank b).en1 } (t.bank b) := by
  simpa only [mem_bankIndices.2 hb, if_true, Bank.selected] using w.banks b hb

/-- Settles O44: the hand-off leaves the banks to the pin environment, and the enables follow it. -/
theorem enterSleepWritesSelectedSet : Obligations.EnterSleepWritesSelectedSet := by
  intro s fi hready hpass hrun htable
  obtain ⟨u, e, p, hnone⟩ := handOff_ok (s := s.start (.enterSleep fi)) htable fi
  have w := writeEnables_effect fi u.bankIndices u
  refine ⟨_, exec_enterSleep_ready hready hpass hrun e, rfl, ?_, ?_, w.length.trans p.length, fun b hb => ?_,
    fun hm => ?_⟩
  · rw [fallAsleep_eq, p.rest]
    simp only [State.start, ← hready.idle]
  · rw [fallAsleep_eq, p.events]
    rfl
  · have hpins : (s.bank b).PinsOnly (u.bank b) := p.banks b
    have hsel := w.selected (b := b) (by rw [p.length]; exact hb)
    rw [hpins.en0, hpins.en1] at hsel
    exact (hpins.update (fun k => { k with intEn := if fi then (s.bank b).en0 else (s.bank b).en1 })
      fun _ _ _ => rfl).trans hsel
  · rw [fallAsleep_mem, hnone hm]
    rfl

/-! ### The mailbox after ENTER_SLEEP -/

/-- What ENTER_SLEEP with a mailbox leaves there for the coprocessor (R231, R233): each array bit is that of the bank
that holds the pin, the counts and the fired lists are 0, and nothing outside the mailbox has changed. -/
structure HandedOver (fi : Bool) (s t : State) : Prop where
  control : SameControl s t
  wf      : Memory.wf t.mem = true
  bits    : ∀ x p, p / 32 < s.nwords → t.arrayBit x p =
    s.bankIndices.any fun b => (s.bank b).inRange p && ((s.bank b).source fi x).getLsbD (p - (s.bank b).desc.start)
  cleared : ∀ g < 2, t.field (s.countAddr g) 2 = 0 ∧ ∀ j < s.params.firedCap, t.field (s.firedAddr g j) 2 = 0
  bytes   : ∀ a, a < s.params.mbBase ∨ s.params.mbBase + s.mailboxSize ≤ a → Memory.read t.mem a = Memory.read s.mem a

theorem SameControl.field {s t : State} (c : SameControl s t) (hmem : t.mem = s.mem) (a n : Nat) :
    t.field a n = s.field a n := by
  simp only [State.field, c.params, hmem]

theorem SameControl.arrayAddr {s t : State} (c : SameControl s t) (x : BitArray) (w : Nat) :
    t.arrayAddr x w = s.arrayAddr x w := by
  simp only [State.arrayAddr, c.params, nwords_congr c.descs]

theorem SameControl.arrayBit {s t : State} (c : SameControl s t) (hmem : t.mem = s.mem) (x : BitArray) (p : Nat) :
    t.arrayBit x p = s.arrayBit x p := by
  simp only [State.arrayBit, c.arrayAddr, c.field hmem]

theorem enterSleep_handsOver {s : State} {fi : Bool} (hready : s.Ready) (hpass : s.pass = none)
    (hrun : s.replayRun = none) (htable : tableOk s.params s.banks = true)
    (hm : s.mailboxPresent = true) (hwf : Memory.wf s.mem = true) :
    ∃ t, exec (.enterSleep fi) s = .next t ∧ HandedOver fi s t := by
  obtain ⟨u, e, p, wf, bits, cleared, bytes⟩ := handOff_bits (s := s.start (.enterSleep fi)) htable hm hwf fi
  have c := sameControl_fallAsleep u fi
  have hmem := fallAsleep_mem u fi
  refine ⟨_, exec_enterSleep_ready hready hpass hrun e,
    (sameControl_start s (.enterSleep fi)).trans (p.sameControl.trans c), by rw [hmem]; exact wf, fun x p hp => ?_,
    fun g hg => ?_, fun a ha => by rw [hmem]; exact bytes a ha⟩
  · exact (c.arrayBit hmem x p).trans (bits x p hp)
  · obtain ⟨hcount, hfired⟩ := cleared g hg
    exact ⟨(c.field hmem _ _).trans hcount, fun j hj => (c.field hmem _ _).trans (hfired j hj)⟩

/-- In a checked table no other bank has a bit for a pin of bank `b` (00_scope.md R6). -/
theorem any_inRange_eq {s : State} (htable : tableOk s.params s.banks = true) {b p : Nat} (hb : b < s.banks.length)
    (hp : (s.bank b).inRange p = true) (f : Nat → Bool) :
    (s.bankIndices.any fun b' => (s.bank b').inRange p && f b') = f b := by
  have honly : ∀ b' ∈ s.bankIndices, (s.bank b').inRange p = true → b' = b := by
    intro b' hb' hp'
    by_contra hne
    simp only [Bank.inRange, decide_eq_true_eq] at hp hp'
    have := table_disjoint htable (mem_bankIndices.1 hb') hb hne
    omega
  rw [Bool.eq_iff_iff, List.any_eq_true]
  constructor
  · rintro ⟨b', hb', h⟩
    rw [Bool.and_eq_true] at h
    rw [← honly b' hb' h.1]
    exact h.2
  · intro h
    exact ⟨b, mem_bankIndices.2 hb, by rw [hp, h]; rfl⟩

theorem any_inRange_eq_false {s : State} {p : Nat} (hp : ∀ k ∈ s.banks, ¬(k.desc.start ≤ p ∧ p ≤ k.desc.last))
    (f : Nat → Bool) : (s.bankIndices.any fun b => (s.bank b).inRange p && f b) = false := by
  rw [List.any_eq_false]
  intro b hb
  have hout : (s.bank b).inRange p = false := decide_eq_false (hp _ (bank_mem (mem_bankIndices.1 hb)))
  simp only [hout, Bool.false_and, Bool.false_eq_true, not_false_eq_true]

theorem unpack_within (s : State) (x : BitArray) (b : Nat) : unpack s x b &&& (s.bank b).wmask = unpack s x b := by
  simp only [unpack, BitVec.and_assoc, BitVec.and_self]

/-- The round trip of R241: the gather gives back the word that `Pack` put in. -/
theorem HandedOver.unpack_eq {fi : Bool} {s t : State} (h : HandedOver fi s t)
    (htable : tableOk s.params s.banks = true) {b : Nat} (hb : b < s.banks.length) (x : BitArray) :
    unpack t x b = (s.bank b).source fi x &&& (s.bank b).wmask := by
  rw [← unpack_within, h.control.wmask, masked_eq_iff]
  intro i hi
  simp only [Bank.getLsbD_wmask, Bool.and_eq_true, decide_eq_true_eq] at hi
  obtain ⟨h32, hw⟩ := hi
  have hdesc := h.control.desc b
  have hin : (s.bank b).inRange ((s.bank b).desc.start + i) = true := by
    simp only [Bank.width] at hw
    simp only [Bank.inRange, decide_eq_true_eq]
    omega
  have hword : ((s.bank b).desc.start + i) / 32 < s.nwords := by
    have := last_word hb
    simp only [Bank.inRange, decide_eq_true_eq] at hin
    omega
  rw [getLsbD_unpack x b i h32 (by simp only [Bank.width, hdesc]; exact hw), hdesc, h.bits x _ hword,
    any_inRange_eq htable hb hin, Nat.add_sub_cancel_left]

/-- Settles O45: the round trip for each array, and the bits of no bank. -/
theorem enterSleepPacksEveryBank : Obligations.EnterSleepPacksEveryBank := by
  intro s fi hready hpass hrun htable hm hwf
  obtain ⟨t, e, h⟩ := enterSleep_handsOver (fi := fi) hready hpass hrun htable hm hwf
  refine ⟨t, e, h.wf, fun b hb => ?_, fun x w i hw hi hnone => ?_⟩
  · exact ⟨h.unpack_eq htable hb .enabled, h.unpack_eq htable hb .detection, h.unpack_eq htable hb .polarity⟩
  · have hdiv : (32 * w + i) / 32 = w := by omega
    have hmod : (32 * w + i) % 32 = i := by omega
    have hbit := h.bits x (32 * w + i) (by rw [hdiv]; exact hw)
    rw [any_inRange_eq_false hnone, State.arrayBit, hdiv, hmod] at hbit
    exact hbit

/-- Settles O46: what the hand-off clears, and what it leaves alone. -/
theorem enterSleepClearsTheRest : Obligations.EnterSleepClearsTheRest := by
  intro s t fi hready hpass hrun htable hm hwf e
  obtain ⟨t', e', h⟩ := enterSleep_handsOver (fi := fi) hready hpass hrun htable hm hwf
  obtain rfl : t' = t := Host.Outcome.next.inj (e'.symm.trans e)
  simp only [State.countAddr, State.firedAddr, h.control.params]
  exact ⟨h.cleared, h.bytes⟩

/-! ### EXIT_SLEEP -/

/-- The report of R236: some count of fired entries is above 0, in a mailbox that is there. -/
def State.reportsFired (s : State) : Bool :=
  s.mailboxPresent && (decide (0 < s.field (s.countAddr 0) 2) || decide (0 < s.field (s.countAddr 1) 2))

/-- The counts are read where there is a mailbox, which nothing writes meanwhile (R236, R240). -/
theorem takeReport_eq (s : State) : ∃ u, Passes s u ∧ u.mem = s.mem ∧
    takeReport s = .ok { u with replayPending := s.replayPending || s.reportsFired } := by
  unfold takeReport State.reportsFired
  cases hm : s.mailboxPresent with
  | false => exact ⟨s, .refl s, rfl, by simp only [Bool.false_and, Bool.or_false, Bool.false_eq_true, if_false]⟩
  | true =>
    have h0 : s.inMailbox (s.countAddr 0) 2 = true := count_inMailbox hm (by decide)
    have h1 : s.access.inMailbox (s.countAddr 1) 2 = true := by
      rw [(passes_access s).inMailbox]; exact count_inMailbox hm (by decide)
    refine ⟨s.access.access, (passes_access s).trans (passes_access s.access), rfl, ?_⟩
    rw [if_pos rfl, Bool.true_and, ← Bool.or_assoc]
    exact bind_eq_ok.2 ⟨_, memRead_eq h0, bind_eq_ok.2 ⟨_, memRead_eq h1, rfl⟩⟩

/-- The enables that EXIT_SLEEP writes, AWAKE again (R236). -/
def State.wakeUp (s : State) : State := writeEnables { s with sleepState := .awake } true s.bankIndices

theorem wakeUp_effect (s : State) : EnableEffect true s.bankIndices { s with sleepState := .awake } s.wakeUp :=
  writeEnables_effect true s.bankIndices { s with sleepState := .awake }

theorem exec_exitSleep_asleep {s t : State} (hidle : s.seq = .idle) (hbooted : s.booted = true)
    (hasleep : s.sleepState = .asleep) (e : takeReport (s.start .exitSleep).wakeUp = .ok t) :
    exec .exitSleep s = .next (t.finish .exitSleep .ok false) := by
  have hbody : exitSleepBody (s.start .exitSleep) = .ok (t.finish .exitSleep .ok false) := bind_eq_ok.2 ⟨t, e, rfl⟩
  simp only [exec, execExitSleep, admitBooted, hidle, hbooted, hasleep, Seq.isIdle, if_true, hbody, answer]

/-- Settles O47: the enables, then the report. -/
theorem exitSleepRestoresActiveSet : Obligations.ExitSleepRestoresActiveSet := by
  intro s hidle hbooted hasleep
  have w := wakeUp_effect (s.start .exitSleep)
  obtain ⟨u, p, hmem, e⟩ := takeReport_eq (s.start .exitSleep).wakeUp
  have hreport : ((s.start .exitSleep).wakeUp.replayPending || (s.start .exitSleep).wakeUp.reportsFired) =
      (s.replayPending || s.reportsFired) := by rw [w.rest]; rfl
  rw [hreport] at e
  have hu : u = { s with
      banks := u.banks, choices := u.choices, seq := u.seq, sleepState := .awake } := by
    rw [p.rest, hmem, w.rest]
    rfl
  refine ⟨_, exec_exitSleep_asleep hidle hbooted hasleep e, ?_, p.length.trans w.length, fun b hb => ?_, ?_, ?_, ?_⟩
  · rw [hu]; rfl
  · exact (w.active (b := b) hb (mem_bankIndices.2 hb)).trans (p.banks b)
  · rw [hu]
    simp only [State.finish, State.emit, resultWord_exitSleep]
    rfl
  · simp only [State.finish_replayPending, State.reportsFired, Bool.or_eq_true, Bool.and_eq_true, decide_eq_true_eq]
  · rw [hu]
    simp only [State.finish, State.emit, ← hidle]

end Sys2Proof.Machine
end

section
/-! Settling O48, O49, O50, O60 (44_sleep_wake.md R238, 60_exceptions.md R263): the start of each group of a replay, its
entries, its end, and the run of a replay left alone. -/

namespace Sys2Proof.Machine

/-! ### The start of a group -/

/-- Group `g` has begun: its count is read, and marked when it is above K (R238, 60_exceptions.md R263). -/
def State.groupBegun (s : State) (g : Nat) : State :=
  { s.access with
    replayRun := some ⟨g, s.field (s.countAddr g) 2, 0⟩
    fault := if s.field (s.countAddr g) 2 > s.params.firedCap then
      some (.mailboxCountOverflow g (s.field (s.countAddr g) 2)) else s.fault }

section
variable {s : State} {g : Nat}

theorem groupBegun_fault_of_le (h : s.field (s.countAddr g) 2 ≤ s.params.firedCap) :
    (s.groupBegun g).fault = s.fault := if_neg (Nat.not_lt.2 h)

theorem groupBegun_fault_of_lt (h : s.params.firedCap < s.field (s.countAddr g) 2) :
    (s.groupBegun g).fault = some (.mailboxCountOverflow g (s.field (s.countAddr g) 2)) := if_pos h

/-- But for the cursor and the mark the start of a group changes what an access does and nothing else. -/
theorem groupBegun_frame (hidle : s.seq = .idle) : s.groupBegun g = { s with
    banks := (s.groupBegun g).banks
    choices := (s.groupBegun g).choices
    replayRun := (s.groupBegun g).replayRun
    fault := (s.groupBegun g).fault } := by
  simp only [State.groupBegun, State.access, hidle, Seq.advance]

/-- With a count above K the replay makes no further step (60_exceptions.md R263). -/
theorem step_groupBegun_faulted (h : s.params.firedCap < s.field (s.countAddr g) 2) (hidle : s.seq = .idle)
    (hpass : s.pass = none) {rest : List Input} (hgoes : (s.groupBegun g).GoesOn rest) :
    step (s.groupBegun g) = .next { s.groupBegun g with agenda := rest } :=
  step_faulted hgoes ((passes_access s).idle hidle) hpass rfl (by rw [groupBegun_fault_of_lt h]; nofun)

end

/-- An admitted REPLAY begins group 0, and leaves `seq` IDLE (R238, assumption log 13). -/
theorem exec_replay_ready {s : State} (h : s.Ready) (hpending : s.replayPending = true) (hpass : s.pass = none)
    (hrun : s.replayRun = none) (hm : s.mailboxPresent = true) : exec .replay s = .next (s.groupBegun 0) := by
  have hgroup : replayGroup (s.start .replay) 0 = .ok ((s.start .replay).groupBegun 0) :=
    replayGroup_eq (s := s.start .replay) hm (by decide)
  have hseq : { (s.start .replay).groupBegun 0 with seq := .idle } = s.groupBegun 0 := by
    simp only [State.groupBegun, State.access, State.start, h.idle, Seq.advance]
    rfl
  simp only [exec, execReplay, admitBooted, h.idle, h.booted, h.awake, hpending, hpass, hrun, Seq.isIdle, if_true,
    hgroup, hseq]

/-- Settles O48: REPLAY is the start of group 0. -/
theorem replayStartsOrFaults : Obligations.ReplayStartsOrFaults := by
  intro s hready hpending hpass hrun hm
  refine ⟨_, exec_replay_ready hready hpending hpass hrun hm, rfl, groupBegun_frame hready.idle, length_access s,
    access_pinsOnly s, groupBegun_fault_of_le, fun h => ?_⟩
  exact ⟨groupBegun_fault_of_lt h, fun rest hgoes => step_groupBegun_faulted h hready.idle hpass hgoes⟩

/-! ### The steps of a running replay -/

/-- A step that goes on with no pass active is the replay's. -/
theorem step_replay {s t : State} {rest : List Input} {c : ReplayCursor} (hidle : s.seq = .idle) (hgoes : s.GoesOn rest)
    (hpass : s.pass = none) (hrun : s.replayRun = some c) (e : replayStep { s with agenda := rest } c = .ok t) :
    step s = .next t := by
  rw [step_goesOn hgoes, advance_replay (s := { s with agenda := rest }) hidle hpass hrun, e, answer]

/-- Settles O49: the step is the entry at the index. -/
theorem replayStepHandsOverOneEntry : Obligations.ReplayStepHandsOverOneEntry := by
  intro s rest g n j hidle hgoes hpass hfault hm hrun hg hj hn
  have e := replayStep_entry (s := { s with agenda := rest }) hfault hm hg hj hn
  refine ⟨_, step_replay hidle hgoes hpass hrun e, rfl, rfl, ?_, access_pinsOnly { s with agenda := rest }⟩
  simp only [State.access, hidle, Seq.advance]

/-- With group 0 handed over the step is the start of group 1. -/
theorem replayStep_nextGroup {s : State} {m j : Nat} (hfault : s.fault = none) (hm : s.mailboxPresent = true)
    (hj : m ≤ j) : replayStep s ⟨0, m, j⟩ = .ok (s.groupBegun 1) := by
  simp only [replayStep, hfault, if_neg (Nat.not_lt.2 hj), if_true]
  exact replayGroup_eq hm (by decide)

/-- With group 1 handed over the step is the end of the replay. -/
theorem replayStep_end {s : State} {m j : Nat} (hfault : s.fault = none) (hj : m ≤ j) :
    replayStep s ⟨1, m, j⟩ = .ok (replayEnd s) := by
  simp only [replayStep, hfault, if_neg (Nat.not_lt.2 hj), Nat.one_ne_zero, if_false]

theorem replayEnd_eq (s : State) : replayEnd s = { s with
    events := s.events ++ [.result .replay 0xB0000000], replayPending := false, replayRun := none } := by
  simp only [replayEnd, State.emit, resultWord_replay]
  rfl

/-- Settles O60: group 1 begins, or the replay ends. -/
theorem replayEndsEachGroup : Obligations.ReplayEndsEachGroup := by
  intro s rest g m j hidle hgoes hpass hfault hrun hj
  refine ⟨?_, ?_⟩
  · rintro rfl hm
    have e := replayStep_nextGroup (s := { s with agenda := rest }) hfault hm hj
    refine ⟨_, step_replay hidle hgoes hpass hrun e, rfl, groupBegun_frame (s := { s with agenda := rest }) hidle,
      length_access { s with agenda := rest }, access_pinsOnly { s with agenda := rest },
      fun h => (groupBegun_fault_of_le (s := { s with agenda := rest }) h).trans hfault, fun h => ?_⟩
    exact ⟨groupBegun_fault_of_lt (s := { s with agenda := rest }) h,
      fun later hlater => step_groupBegun_faulted (s := { s with agenda := rest }) h hidle hpass hlater⟩
  · rintro rfl
    rw [step_replay hidle hgoes hpass hrun (replayStep_end (s := { s with agenda := rest }) hfault hj), replayEnd_eq]

/-! ### A replay left alone -/

/-- A running replay with nothing to take the next step before it: no input, no pass, no fault. -/
structure State.Replaying (s : State) (c : ReplayCursor) : Prop where
  idle    : s.seq = .idle
  agenda  : s.agenda = []
  pass    : s.pass = none
  fault   : s.fault = none
  mailbox : s.mailboxPresent = true
  run     : s.replayRun = some c

/-- `t` is `s` after a replay has added the events `es` and come to `c`. -/
structure Replays (s t : State) (es : List Event) (c : ReplayCursor) : Prop where
  rest : t = { s with banks := t.banks, choices := t.choices, events := s.events ++ es, replayRun := some c }
  length : t.banks.length = s.banks.length
  banks : ∀ b, (s.bank b).PinsOnly (t.bank b)

section
variable {s t u : State} {es es' : List Event} {c c' : ReplayCursor}

theorem State.Replaying.step_eq (h : s.Replaying c) (e : replayStep s c = .ok t) : step s = .next t := by
  have hsame : { s with agenda := [] } = s := by rw [← h.agenda]
  exact step_replay h.idle (.inr ⟨h.agenda, rfl⟩) h.pass h.run (by rw [hsame]; exact e)

theorem State.Replaying.replays_refl (h : s.Replaying c) : Replays s s [] c :=
  ⟨by rw [List.append_nil, ← h.run], rfl, fun _ => .refl _⟩

theorem Replays.trans (h1 : Replays s t es c) (h2 : Replays t u es' c') : Replays s u (es ++ es') c' :=
  ⟨by rw [h2.rest, h1.rest, List.append_assoc], h2.length.trans h1.length, fun b => (h1.banks b).trans (h2.banks b)⟩

theorem Replays.replaying (r : Replays s t es c') (h : s.Replaying c) : t.Replaying c' := by
  rw [r.rest]
  exact ⟨h.idle, h.agenda, h.pass, h.fault, h.mailbox, rfl⟩

theorem Replays.params (r : Replays s t es c) : t.params = s.params := by rw [r.rest]
theorem Replays.mem (r : Replays s t es c) : t.mem = s.mem := by rw [r.rest]
theorem Replays.events (r : Replays s t es c) : t.events = s.events ++ es := by rw [r.rest]

theorem Replays.field (r : Replays s t es c) (a n : Nat) : t.field a n = s.field a n := by
  simp only [State.field, r.params, r.mem]

/-- The mailbox holds the same entries, and they name the same events. -/
theorem Replays.entry (r : Replays s t es c) (g j : Nat) :
    firedEvent t (t.field (t.firedAddr g j) 2) = firedEvent s (s.field (s.firedAddr g j) 2) := by
  rw [firedEvent_congr (descs_eq r.length fun b => (r.banks b).desc) r.params, r.field, State.firedAddr, r.params]
  rfl

/-- An access within the replay leaves its step with the events it added. -/
theorem State.Replaying.replays_access (h : s.Replaying c) (es : List Event) (c' : ReplayCursor) :
    Replays s { s.access with events := s.events ++ es, replayRun := some c' } es c' :=
  ⟨by simp only [State.access, h.idle, Seq.advance], length_access s, access_pinsOnly s⟩

end

/-- The entries of a group from index `j` on, handed over one a step. -/
theorem run_entries {g n : Nat} (hg : g < 2) : ∀ (k j : Nat) {s : State}, s.Replaying ⟨g, n, j⟩ → j + k = n →
    n ≤ s.params.firedCap → ∃ t : State, Host.Core.run Sys2Proof.core k s = .next t ∧
      Replays s t ((List.range' j k).map fun i => firedEvent s (s.field (s.firedAddr g i) 2)) ⟨g, n, n⟩
  | 0, j, s, h, hk, _ => by
    obtain rfl : j = n := hk
    exact ⟨s, run_zero s, h.replays_refl⟩
  | k + 1, j, s, h, hk, hn => by
    have hstep := h.step_eq (replayStep_entry h.fault h.mailbox hg (j := j) (by omega) hn)
    have r := h.replays_access [firedEvent s (s.field (s.firedAddr g j) 2)] ⟨g, n, j + 1⟩
    obtain ⟨t, hrun, rt⟩ := run_entries hg k (j + 1) (r.replaying h) (by omega) hn
    refine ⟨t, (run_succ k hstep).trans hrun, ?_⟩
    simp only [r.entry] at rt
    exact r.trans rt

/-- From the start of a group with a count within K to its end. -/
theorem run_group {s : State} {g n : Nat} (h : s.Replaying ⟨g, n, 0⟩) (hg : g < 2) (hn : n ≤ s.params.firedCap) :
    ∃ t : State, Host.Core.run Sys2Proof.core n s = .next t ∧
      Replays s t ((List.range n).map fun i => firedEvent s (s.field (s.firedAddr g i) 2)) ⟨g, n, n⟩ := by
  rw [List.range_eq_range']
  exact run_entries hg n 0 h (Nat.zero_add n) hn

/-- The step from group 0 to a group 1 whose count is within K. -/
theorem State.Replaying.step_nextGroup {s : State} {n0 n1 : Nat} (h : s.Replaying ⟨0, n0, n0⟩)
    (hcount : s.field (s.countAddr 1) 2 = n1) (hn1 : n1 ≤ s.params.firedCap) :
    ∃ t, step s = .next t ∧ Replays s t [] ⟨1, n1, 0⟩ := by
  refine ⟨_, h.step_eq (replayStep_nextGroup h.fault h.mailbox (Nat.le_refl n0)), ?_⟩
  have hbegun : s.groupBegun 1 = { s.access with events := s.events ++ [], replayRun := some ⟨1, n1, 0⟩ } := by
    simp only [State.groupBegun, hcount, if_neg (Nat.not_lt.2 hn1), List.append_nil]
    rfl
  rw [hbegun]
  exact h.replays_access [] ⟨1, n1, 0⟩

/-- Settles O50: group 0, the step to group 1, group 1, the end. -/
theorem replayRunsToItsEnd : Obligations.ReplayRunsToItsEnd := by
  intro s n0 n1 hidle hagenda hpass hfault hm hrun hn0 hcount hn1
  have h : s.Replaying ⟨0, n0, 0⟩ := ⟨hidle, hagenda, hpass, hfault, hm, hrun⟩
  obtain ⟨t0, run0, r0⟩ := run_group h (by decide) hn0
  obtain ⟨t1, step1, r1⟩ := (r0.replaying h).step_nextGroup (n1 := n1)
    (by simp only [State.countAddr, r0.field, r0.params]; exact hcount) (by rw [r0.params]; exact hn1)
  have r01 := r0.trans r1
  obtain ⟨t2, run2, r2⟩ := run_group (r01.replaying h) (by decide) (by rw [r01.params]; exact hn1)
  simp only [r01.entry] at r2
  have r := r01.trans r2
  have h2 := r.replaying h
  refine ⟨replayEnd t2, ?_, ?_, rfl, rfl, r.mem, h2.fault, r.banks⟩
  · calc Host.Core.run Sys2Proof.core (n0 + 1 + n1 + 1) s
        = Host.Core.run Sys2Proof.core (n0 + (1 + (n1 + 1))) s := by congr 1; omega
      _ = Host.Core.run Sys2Proof.core (1 + (n1 + 1)) t0 := run_append Sys2Proof.core n0 _ s t0 run0
      _ = Host.Core.run Sys2Proof.core (n1 + 1) t1 := run_append Sys2Proof.core 1 _ t0 t1 (run_one step1)
      _ = Host.Core.run Sys2Proof.core 1 t2 := run_append Sys2Proof.core n1 1 t1 t2 run2
      _ = .next (replayEnd t2) := run_one (h2.step_eq (replayStep_end h2.fault (Nat.le_refl n1)))
  · simp only [replayEnd_eq, r.events, List.append_nil, List.append_assoc]

end Sys2Proof.Machine
end

section
/-! Settling O16 and O17 (60_exceptions.md R265, R275, R276): when a command is refused for the state, and when it has
no step. -/

namespace Sys2Proof.Machine

section
variable {s : State} {i : Instr} {body : State → Answer}

theorem admitBooted_booted (hidle : s.seq = .idle) (hbooted : s.booted = true) : admitBooted i s body = body s := by
  rw [admitBooted, if_pos (by rw [hidle]; rfl), if_pos hbooted]

theorem admitBooted_notBooted (hidle : s.seq = .idle) (hbooted : s.booted = false) :
    admitBooted i s body = .next (s.refuse .notBooted (.command i)) := by
  rw [admitBooted, if_pos (by rw [hidle]; rfl), if_neg (by rw [hbooted]; decide)]

theorem admitAwake_asleep (hidle : s.seq = .idle) (hbooted : s.booted = true) (hsleep : s.sleepState = .asleep) :
    admitAwake i s body = .next (s.refuse .asleep (.command i)) := by
  rw [admitAwake, admitBooted_booted hidle hbooted, hsleep]

end

/-! ### The refusals -/

/-- Every command but those of the agents and EXIT_SLEEP is admitted only while AWAKE (60_exceptions.md R265 (a)). -/
theorem exec_eq_admitAwake {i : Instr} (hexit : i ≠ .exitSleep) (hreplay : i ≠ .replay) (hline : ∀ l, i ≠ .lineIrq l)
    (s : State) : ∃ body, exec i s = admitAwake i s body := by
  cases i with
  | configure pin o => exact ⟨_, by rw [exec, execConfigure, onPin]⟩
  | read pin => exact ⟨_, by rw [exec, execRead]⟩
  | write pin v => exact ⟨_, by rw [exec, execWrite, onPin]⟩
  | mask irq => exact ⟨_, by rw [exec, execMask, onIrq]⟩
  | unmask irq => exact ⟨_, by rw [exec, execUnmask, onIrq]⟩
  | ack irq => exact ⟨_, by rw [exec, execAck, onIrq]⟩
  | setType irq g => exact ⟨_, by rw [exec, execSetType, onIrq]⟩
  | setWake irq v => exact ⟨_, by rw [exec, execSetWake, onIrq]⟩
  | lineIrq l => exact absurd rfl (hline l)
  | enterSleep v => exact ⟨_, by rw [exec, execEnterSleep]⟩
  | exitSleep => exact absurd rfl hexit
  | replay => exact absurd rfl hreplay

/-- Every command is admitted only after boot, LINE_IRQ once its line is one of the platform (60_exceptions.md R265 (o),
30_encoding.md R113 (e)). -/
theorem exec_eq_admitBooted {i : Instr} {s : State} (hidle : s.seq = .idle)
    (hline : ∀ l, i = .lineIrq l → l < s.params.numLines) : ∃ body, exec i s = admitBooted i s body := by
  by_cases hline' : ∃ l, i = .lineIrq l
  · obtain ⟨l, rfl⟩ := hline'
    exact ⟨_, by rw [exec, execLineIrq, if_pos (by rw [hidle]; rfl), if_pos (hline l rfl)]⟩
  by_cases hexit : i = .exitSleep
  · subst hexit
    exact ⟨_, by rw [exec, execExitSleep]⟩
  by_cases hreplay : i = .replay
  · subst hreplay
    exact ⟨_, by rw [exec, execReplay]⟩
  obtain ⟨body, h⟩ := exec_eq_admitAwake hexit hreplay (not_exists.1 hline') s
  exact ⟨_, h⟩

theorem exec_notBooted {i : Instr} {s : State} (hidle : s.seq = .idle) (hbooted : s.booted = false)
    (hline : ∀ l, i = .lineIrq l → l < s.params.numLines) : exec i s = .next (s.refuse .notBooted (.command i)) := by
  obtain ⟨body, h⟩ := exec_eq_admitBooted hidle hline
  rw [h, admitBooted_notBooted hidle hbooted]

theorem exec_asleep {i : Instr} {s : State} (hidle : s.seq = .idle) (hbooted : s.booted = true)
    (hsleep : s.sleepState = .asleep) (hexit : i ≠ .exitSleep) (hreplay : i ≠ .replay) (hline : ∀ l, i ≠ .lineIrq l) :
    exec i s = .next (s.refuse .asleep (.command i)) := by
  obtain ⟨body, h⟩ := exec_eq_admitAwake hexit hreplay hline s
  rw [h, admitAwake_asleep hidle hbooted hsleep]

/-- EXIT_SLEEP is refused while AWAKE (60_exceptions.md R265 (b)). -/
theorem exec_exitSleep_awake {s : State} (hidle : s.seq = .idle) (hbooted : s.booted = true)
    (hsleep : s.sleepState = .awake) : exec .exitSleep s = .next (s.refuse .notAsleep (.command .exitSleep)) := by
  rw [exec, execExitSleep, admitBooted_booted hidle hbooted, hsleep]

/-- ENTER_SLEEP is refused inside a pass or a replay (60_exceptions.md R265 (c)). -/
theorem exec_enterSleep_busy {s : State} (hidle : s.seq = .idle) (hbooted : s.booted = true)
    (hsleep : s.sleepState = .awake) (hbusy : s.pass ≠ none ∨ s.replayRun ≠ none) (v : Bool) :
    exec (.enterSleep v) s = .next (s.refuse .busy (.command (.enterSleep v))) := by
  rw [exec, execEnterSleep, admitAwake, admitBooted_booted hidle hbooted, hsleep]
  cases hp : s.pass with
  | some p => rfl
  | none =>
    cases hr : s.replayRun with
    | some c => rfl
    | none => simp [hp, hr] at hbusy

/-! ### The agents' commands -/

/-- LINE_IRQ of a line of the platform, once booted: the pass starts, or there is no step (60_exceptions.md R275). -/
theorem exec_lineIrq_booted {s : State} (hidle : s.seq = .idle) (hbooted : s.booted = true) {l : Nat}
    (hl : l < s.params.numLines) : exec (.lineIrq l) s =
      if s.sleepState = .awake ∧ s.pass = none then .next { passVisit (s.start (.lineIrq l)) l 0 with seq := .idle }
      else .refused .lineAgentDuty := by
  rw [exec, execLineIrq, if_pos (by rw [hidle]; rfl), if_pos hl, admitBooted_booted hidle hbooted]
  cases hsleep : s.sleepState with
  | asleep => rfl
  | awake => cases hp : s.pass <;> rfl

/-- REPLAY, once booted: it reads the count of group 0, or there is no step (60_exceptions.md R276). -/
theorem exec_replay_booted {s : State} (hidle : s.seq = .idle) (hbooted : s.booted = true) : exec .replay s =
      if s.replayPending = true ∧ s.sleepState = .awake ∧ s.pass = none ∧ s.replayRun = none then
        answer ((replayGroup (s.start .replay) 0).map fun t => { t with seq := .idle })
      else .refused .bottomHalfDuty := by
  rw [exec, execReplay, admitBooted_booted hidle hbooted]
  cases hpend : s.replayPending with
  | false => rfl
  | true =>
    cases hsleep : s.sleepState with
    | asleep => rfl
    | awake =>
      cases hp : s.pass with
      | some p => rfl
      | none =>
        cases hr : s.replayRun with
        | some c => rfl
        | none => cases replayGroup (s.start .replay) 0 <;> rfl

/-- Once booted the commands of the two agents are never refused for state: the pass or the replay starts. -/
theorem exec_agent_refusals {s t : State} (hidle : s.seq = .idle) (hbooted : s.booted = true) {i : Instr}
    (hline : ∀ l, i = .lineIrq l → l < s.params.numLines) (hagent : i = .replay ∨ ∃ l, i = .lineIrq l)
    (e : exec i s = .next t) : t.refusals = s.refusals := by
  rcases hagent with rfl | ⟨l, rfl⟩
  · rw [exec_replay_booted hidle hbooted] at e
    split at e
    · obtain ⟨u, hg, rfl⟩ := map_eq_ok.1 (answer_eq_next.1 e)
      obtain ⟨n, f, rfl, -⟩ := replayGroup_eq_ok hg
      rfl
    · cases e
  · rw [exec_lineIrq_booted hidle hbooted (hline l rfl)] at e
    split at e
    · cases e
      cases passVisit_visits (s.start (.lineIrq l)) l 0 with
      | snapshot b w _ _ _ e => rw [e]; rfl
      | ends e => rw [e]; rfl
    · cases e

/-- Settles O16: the admission of each command, in the order of R265. -/
theorem stateRefusals : Obligations.StateRefusals := by
  intro i s hidle hline
  refine ⟨fun hbooted => exec_notBooted hidle hbooted hline,
    fun hbooted hsleep => exec_asleep hidle hbooted hsleep, ?_, ?_,
    fun hbooted hagent _ e => exec_agent_refusals hidle hbooted hline hagent e⟩
  · rintro hbooted hsleep rfl
    exact exec_exitSleep_awake hidle hbooted hsleep
  · rintro hbooted hsleep hbusy v rfl
    exact exec_enterSleep_busy hidle hbooted hsleep hbusy v

/-- Settles O17: each agent's condition, negated. -/
theorem agentDutiesHaveNoStep : Obligations.AgentDutiesHaveNoStep := by
  intro s hidle hbooted
  refine ⟨fun l hl hduty => ?_, fun hduty => ?_⟩
  · rw [exec_lineIrq_booted hidle hbooted hl, if_neg]
    rintro ⟨hawake, hpass⟩
    rcases hduty with h | h
    · rw [hawake] at h; cases h
    · exact h hpass
  · rw [exec_replay_booted hidle hbooted, if_neg]
    rintro ⟨hpending, hawake, hpass, hrun⟩
    simp [hpending, hawake, hpass, hrun] at hduty

end Sys2Proof.Machine
end

section
/-! Settling O27 (60_exceptions.md R273, 20_memory.md R75): the spurious status of a SET_TYPE with one polarity. -/

namespace Sys2Proof.Machine

theorem bank_regWrite_quiet {s : State} {ps : List (List PinStep)} (h : s.choices.pins = [] :: ps) {b : Nat}
    (hb : b < s.banks.length) (r : Reg) (v : Word) :
    (regWrite s b r v).bank b = (s.bank b).written r v (writeDraw s r) := by
  rw [bank_regWrite_same hb, bank_access_quiet h]

/-- A read-modify-write whose two accesses the environment leaves alone is one write. -/
theorem modifyBit_quiet {s : State} {ps : List (List PinStep)} (h : s.choices.pins = [] :: [] :: ps) {b : Nat}
    (hb : b < s.banks.length) (r : Reg) (bit : Word) (val : Bool) :
    (∃ v d, (modifyBit s b r bit val).bank b = (s.bank b).written r v d) ∧
      (modifyBit s b r bit val).choices.pins = ps := by
  have hread : (regRead s b r).2.choices.pins = [] :: ps := by rw [regRead_pins, h, List.tail_cons]
  refine ⟨⟨withBit (regRead s b r).1 bit val, writeDraw (regRead s b r).2 r, ?_⟩, ?_⟩
  · rw [modifyBit, bank_regWrite_quiet hread (by rw [length_regRead]; exact hb), bank_regRead_quiet h]
  · rw [modifyBit, regWrite_pins, hread, List.tail_cons]

/-- TriggerGroup with one polarity is four accesses; when the environment leaves them alone it raises status only where
it changed a trigger bit. -/
theorem byTrigger_triggerGroup_quiet {s : State} {later : List (List PinStep)} {b : Nat} (hb : b < s.banks.length)
    (hpins : s.choices.pins = [] :: [] :: [] :: [] :: later) (bit : Word) {g : Trigger} {rising : Bool}
    (hg : triggerPolarity g = some rising) : (s.bank b).ByTrigger ((triggerGroup s b bit g).bank b) := by
  obtain ⟨⟨v, d, hedge⟩, hpins1⟩ := modifyBit_quiet hpins hb .intEdge bit (triggerEdge g)
  have hb1 : b < (modifyBit s b .intEdge bit (triggerEdge g)).banks.length := by
    rw [(touches_modifyBit b s .intEdge bit (triggerEdge g)).length]; exact hb
  simp only [triggerGroup, hg]
  generalize modifyBit s b .intEdge bit (triggerEdge g) = u at *
  obtain ⟨⟨v', d', hpos⟩, -⟩ := modifyBit_quiet (s := u.maskUpdate b (Bank.leaveBothEdge bit)) hpins1
    (by rw [length_maskUpdate]; exact hb1) .intPos bit rising
  rw [hpos, bank_maskUpdate_same _ hb1, hedge]
  have h1 : (s.bank b).ByEdge (((s.bank b).written .intEdge v d).leaveBothEdge bit) :=
    ⟨rfl, rfl, fun _ _ _ => rfl, fun _ h => getLsbD_raised h⟩
  have h2 (k : Bank) : k.ByPos (k.written .intPos v' d') :=
    ⟨rfl, rfl, fun _ _ _ => rfl, fun _ h => getLsbD_raised h⟩
  exact h1.thenPos _ _ _ (h2 _)

/-- Settles O27: the two trigger writes are all that touches the status. -/
theorem spuriousStatusOnChangedBits : Obligations.SpuriousStatusOnChangedBits := by
  intro s irq b off g rising later hready hr hg hpins
  have hb := (resolve_some (resolveIrq_some hr)).1
  have h := byTrigger_triggerGroup_quiet (s := s.start (.setType irq g)) hb hpins (bitAt off) hg
  refine ⟨_, onIrq_ready hready hr _, h.pad, fun i ht hs => (h.status i ht).resolve_left ?_⟩
  rw [bank_start, hs]
  decide

end Sys2Proof.Machine
end

section
/-! Settling O43, O51, O52 (60_exceptions.md R270 to R274, R282, R283): the level of a line, the detector, and the
coprocessor's writes. -/

namespace Sys2Proof.Machine

/-! ### The level of a line -/

/-- A bank asserts its line by a pin that is pending and enabled. -/
theorem Bank.asserts_iff (k : Bank) : k.intStatus &&& k.intEn &&& k.wmask ≠ 0 ↔
    ∃ i, i < 32 ∧ i < k.width ∧ k.intStatus.getLsbD i = true ∧ k.intEn.getLsbD i = true := by
  refine (not_congr BitVec.zero_iff_eq_false).trans (not_forall.trans (exists_congr fun i => ?_))
  simp only [Bool.not_eq_false, BitVec.getLsbD_and, Bank.getLsbD_wmask, Bool.and_eq_true, decide_eq_true_eq]
  tauto

/-- Settles O43: of the banks of the line, one has such a pin. -/
theorem lineLevel : Obligations.LineLevel := by
  intro s l
  simp only [lineAsserted, List.any_eq_true, Bool.and_eq_true, decide_eq_true_eq, Bank.asserts_iff]
  constructor
  · rintro ⟨k, hk, h⟩
    obtain ⟨b, hb, rfl⟩ := List.getElem_of_mem hk
    rw [← bank_eq_getElem hb] at h
    exact ⟨b, hb, h⟩
  · rintro ⟨b, hb, h⟩
    exact ⟨s.bank b, bank_mem hb, h⟩

/-! ### The detector -/

theorem bank_pinEnvironment {s : State} (p : PinStep) {b : Nat} (hb : b < s.banks.length) :
    (pinEnvironment s p).bank b = (s.bank b).watch s.sleepState [p] b := by
  simp only [State.bank, List.getD_eq_getElem?_getD, pinEnvironment, getElem?_pinSteps, Nat.zero_add]
  simp [hb]

theorem bank_pinEnvironment_ne (s : State) {p : PinStep} {b : Nat} (hne : b ≠ p.bank) :
    (pinEnvironment s p).bank b = s.bank b := by
  by_cases hb : b < s.banks.length
  · rw [bank_pinEnvironment p hb]
    simp only [Bank.watch, Bank.sense, if_neg (Ne.symm hne)]
  · rw [bank_absent hb, bank_absent (by rw [(passes_pinEnvironment s p).length]; exact hb)]

/-- The detections of one step: all of them while AWAKE, the drawn ones while ASLEEP (R271, R272). -/
def Bank.latched (sleep : SleepState) (k : Bank) (p : PinStep) : Word :=
  match sleep with
  | .awake => k.detected p.level
  | .asleep => k.detected p.level &&& p.caught

theorem Bank.watch_single (sleep : SleepState) (k : Bank) (p : PinStep) :
    k.watch sleep [p] p.bank = { k with pad := p.level, intStatus := k.intStatus ||| k.latched sleep p } := by
  simp only [Bank.watch, Bank.sense, if_true]
  rfl

/-- Bit `i` is detected by its edge or by its level, as `int_edge` says, with the polarity of `int_pos` (R271, R272). -/
theorem Bank.getLsbD_detected (k : Bank) (level : Word) {i : Nat} (hi : i < 32) : (k.detected level).getLsbD i =
    if k.intEdge.getLsbD i then
      (if k.intPos.getLsbD i then !k.pad.getLsbD i && level.getLsbD i else k.pad.getLsbD i && !level.getLsbD i)
    else level.getLsbD i == k.intPos.getLsbD i := by
  simp only [Bank.detected, BitVec.getLsbD_or, BitVec.getLsbD_and, BitVec.getLsbD_not, BitVec.getLsbD_xor, hi,
    decide_true, Bool.true_and]
  cases k.intEdge.getLsbD i <;> cases k.intPos.getLsbD i <;> cases level.getLsbD i <;> simp

theorem Bank.getLsbD_latched (sleep : SleepState) (k : Bank) (p : PinStep) (i : Nat) :
    (k.latched sleep p).getLsbD i =
      ((k.detected p.level).getLsbD i && (decide (sleep = .awake) || p.caught.getLsbD i)) := by
  cases sleep with
  | awake => simp only [Bank.latched, decide_true, Bool.true_or, Bool.and_true]
  | asleep => rw [Bank.latched, BitVec.getLsbD_and, decide_eq_false (by decide), Bool.false_or]

/-- Settles O51. -/
theorem detectorLatchesStatus : Obligations.DetectorLatchesStatus := by
  intro s p rest ha hb k
  have hstep : step s = .next (pinEnvironment { s with agenda := rest } p) := by simp only [step, fetch, ha]
  have hbank : (pinEnvironment { s with agenda := rest } p).bank p.bank =
      { k with pad := p.level, intStatus := k.intStatus ||| k.latched s.sleepState p } := by
    rw [bank_pinEnvironment (s := { s with agenda := rest }) p hb]
    exact Bank.watch_single s.sleepState k p
  refine ⟨_, hstep, rfl, (passes_pinEnvironment { s with agenda := rest } p).length,
    fun b hne => bank_pinEnvironment_ne { s with agenda := rest } hne, by rw [hbank], fun i hi => ?_⟩
  rw [hbank, BitVec.getLsbD_or, Bank.getLsbD_latched, Bank.getLsbD_detected k p.level hi]

/-! ### The coprocessor -/

/-- Byte `o` of the mailbox exists (20_memory.md R80). -/
theorem inMailbox_byte_iff (s : State) (o : Nat) :
    s.inMailbox (s.params.mbBase + o) 1 = true ↔ s.mailboxPresent = true ∧ o < s.mailboxSize := by
  simp only [State.inMailbox, Bool.and_eq_true, decide_eq_true_eq, and_assoc]
  exact and_congr_right fun _ => by omega

/-- The coprocessor writes a byte that exists, while ASLEEP; otherwise there is no step (R282, R283). -/
theorem coprocessorWrite_eq (s : State) (o : Nat) (v : Byte) : coprocessorWrite s o v =
    if s.sleepState = .asleep ∧ s.mailboxPresent = true ∧ o < s.mailboxSize then
      .next { s with mem := Memory.write s.mem (s.params.mbBase + o) v }
    else .refused .coprocessorDuty := by
  simp only [coprocessorWrite, ← inMailbox_byte_iff]
  cases s.sleepState with
  | awake => rfl
  | asleep => cases s.inMailbox (s.params.mbBase + o) 1 <;> rfl

/-- Settles O52: the step is the coprocessor's write, and a write of memory changes one byte. -/
theorem coprocessorWritesMailboxOnlyAsleep : Obligations.CoprocessorWritesMailboxOnlyAsleep := by
  intro s o v rest ha
  have hstep : step s = coprocessorWrite { s with agenda := rest } o v := by simp only [step, fetch, ha]
  rw [hstep, coprocessorWrite_eq]
  refine ⟨fun hasleep hm ho hwf => ?_, fun hduty => if_neg ?_⟩
  · exact ⟨_, if_pos ⟨hasleep, hm, ho⟩, rfl, Memory.read_write_same _ v hwf,
      fun a hne => Memory.read_write_ne v hne s.mem⟩
  · rintro ⟨hasleep, hm, ho⟩
    rcases hduty with h | h | h
    · exact absurd (hasleep.symm.trans h) (by decide)
    · exact absurd (hm.symm.trans h) (by decide)
    · exact Nat.not_lt.2 h ho

end Sys2Proof.Machine
end

section
/-! Settling O58 (60_exceptions.md R260 to R263, R266): the code table, and the codes that each command reports. -/

namespace Sys2Proof.Machine

/-! ### What a command may report -/

/-- The column "raised by" of the code table, of an event `e` among the events `more` that command `i` adds (R266). -/
structure Reported (i : Instr) (more : List Event) (e : Event) : Prop where
  ok : eventCode e = some 0x0 → ∃ v, e = .result i (resultWord i .ok v)
  outOfRange : eventCode e = some 0x1 → more = [.result i (resultWord i .outOfRange false)] ∧ i.takesPin = true
  bound : eventCode e = some 0x2 → (∃ b v1 v2, e = .convergenceBound b v1 v2) ∧
    (i.hasTrigger = true ∨ i.hasClear = true) ∧ .result i (resultWord i .ok false) ∈ more
  mailbox : eventCode e ≠ some 0x3

/-- From `s` to `t` command `i` reports as the code table has it, on the history and on the fault mark (R266). -/
structure Reports (i : Instr) (s t : State) : Prop where
  events : ∃ more, t.events = s.events ++ more ∧ ∀ e ∈ more, Reported i more e
  fault  : t.fault ≠ s.fault → i = .replay ∧ ∃ n, s.params.firedCap < n ∧ t.fault = some (.mailboxCountOverflow 0 n)

/-- A next state that is answered is so reported. -/
def AnsReports (i : Instr) (s : State) (a : Answer) : Prop := ∀ t, a = .next t → Reports i s t

section
variable {i : Instr} {s t : State} {more logs : List Event} {e : Event}

theorem Reported.of_noCode (h : eventCode e = none) : Reported i more e := by
  constructor <;> simp [h]

theorem Reported.of_ok (h : ∃ v, e = .result i (resultWord i .ok v)) : Reported i more e := by
  have hcode : eventCode e = some 0x0 := by
    obtain ⟨v, rfl⟩ := h
    exact eventCode_result i i .ok v
  exact ⟨fun _ => h, by simp [hcode], by simp [hcode], by simp [hcode]⟩

theorem Reported.of_bound (h : ∃ b v1 v2, e = .convergenceBound b v1 v2)
    (hcommand : i.hasTrigger = true ∨ i.hasClear = true) (hresult : .result i (resultWord i .ok false) ∈ more) :
    Reported i more e := by
  have hcode : eventCode e = some 0x2 := by
    obtain ⟨b, v1, v2, rfl⟩ := h
    rfl
  exact ⟨by simp [hcode], by simp [hcode], fun _ => ⟨h, hcommand, hresult⟩, by simp [hcode]⟩

/-- A command that ends with OutOfRange adds its result and nothing else (R260). -/
theorem Reported.of_outOfRange (hpin : i.takesPin = true) :
    Reported i [.result i (resultWord i .outOfRange false)] (.result i (resultWord i .outOfRange false)) := by
  have hcode : eventCode (.result i (resultWord i .outOfRange false)) = some 0x1 :=
    eventCode_result i i .outOfRange false
  exact ⟨by simp [hcode], fun _ => ⟨rfl, hpin⟩, by simp [hcode], by simp [hcode]⟩

/-- A command that adds no event and leaves the mark reports nothing. -/
theorem Reports.of_events (hevents : t.events = s.events) (hfault : t.fault = s.fault) : Reports i s t :=
  ⟨⟨[], by rw [hevents, List.append_nil], by simp⟩, fun h => absurd hfault h⟩

theorem reports_refuse (s : State) (i : Instr) (r : RefuseReason) : Reports i s (s.refuse r (.command i)) :=
  .of_events rfl rfl

theorem reports_raise (s : State) (hpin : i.takesPin = true) : Reports i s ((s.start i).raise i) :=
  ⟨⟨_, rfl, fun e he => by
    rw [List.mem_singleton] at he
    rw [he]
    exact .of_outOfRange hpin⟩, fun h => absurd rfl h⟩

/-- A command that ends with OK after the events `before`, each without a code or a log of the both-edge machine. -/
theorem Reports.of_result {before : List Event} {v : Bool}
    (hevents : t.events = s.events ++ (before ++ [.result i (resultWord i .ok v)])) (hfault : t.fault = s.fault)
    (hbefore : ∀ e ∈ before, eventCode e = none ∨ (∃ b v1 v2, e = .convergenceBound b v1 v2) ∧
      (i.hasTrigger = true ∨ i.hasClear = true) ∧ v = false) : Reports i s t := by
  refine ⟨⟨_, hevents, fun e he => ?_⟩, fun h => absurd hfault h⟩
  rcases List.mem_append.1 he with he | he
  · rcases hbefore e he with h | ⟨hlog, hcommand, rfl⟩
    · exact .of_noCode h
    · exact .of_bound hlog hcommand (by simp)
  · exact .of_ok ⟨v, List.mem_singleton.1 he⟩

/-- A command that adds its result OK and nothing else. -/
theorem reports_finish {v : Bool} (hevents : t.events = s.events) (hfault : t.fault = s.fault) :
    Reports i s (t.finish i .ok v) :=
  .of_result (before := []) (v := v) (by rw [State.finish_events, hevents]; rfl) hfault (by simp)

/-! ### Admission -/

theorem ansReports_admitBooted {body : State → Answer} (h : s.booted = true → AnsReports i s (body s)) :
    AnsReports i s (admitBooted i s body) := by
  intro t e
  unfold admitBooted at e
  cases hidle : s.seq.isIdle with
  | false => rw [hidle] at e; cases e
  | true =>
    rw [hidle] at e
    cases hbooted : s.booted with
    | false => rw [hbooted] at e; cases e; exact reports_refuse s i .notBooted
    | true => rw [hbooted] at e; exact h hbooted t e

theorem ansReports_admitAwake {body : State → Answer} (h : AnsReports i s (body s)) :
    AnsReports i s (admitAwake i s body) := by
  refine ansReports_admitBooted fun _ => ?_
  cases hsleep : s.sleepState with
  | asleep => intro t e; cases e; exact reports_refuse s i .asleep
  | awake => exact h

/-! ### Pin and interrupt commands -/

/-- Only a command with a trigger group or a ClearDetect runs the both-edge machine (40_pin_config.md R137,
42_irq_facade.md R185). -/
theorem hasTrigger_or_hasClear_of_logs {b off : Nat} (hb : b < s.banks.length) (ho : off < (s.bank b).width)
    (h : (bodyOf i s b off).events ≠ s.events) : i.hasTrigger = true ∨ i.hasClear = true := by
  cases i with
  | configure pin o => exact ((logs_configure o s b off hb ho).2 h).imp id fun hint => beq_iff_eq.2 hint
  | read pin => exact absurd rfl h
  | write pin v => exact absurd (modifyBit_events s b .out (bitAt off) v) h
  | mask irq => exact absurd (maskBody_events s b off) h
  | unmask irq => exact .inr rfl
  | ack irq => exact .inr rfl
  | setType irq g => exact .inl rfl
  | setWake irq v => exact absurd rfl h
  | lineIrq l => exact absurd rfl h
  | enterSleep v => exact absurd rfl h
  | exitSleep => exact absurd rfl h
  | replay => exact absurd rfl h

/-- The body of a command, and then its result. -/
theorem reports_body {b off : Nat} (hb : b < s.banks.length) (ho : off < (s.bank b).width) :
    Reports i s ((bodyOf i (s.start i) b off).finish i .ok false) := by
  obtain ⟨logs, hevents, hlogs⟩ := bodyOf_logs i (s := s.start i) hb ho
  refine .of_result (before := logs) (v := false) (by rw [State.finish_events, hevents, List.append_assoc]; rfl)
    (bodyOf_keeps i b off (s.start i)).touch.sameControl.fault fun e he => .inr ⟨⟨b, hlogs e he⟩, ?_, rfl⟩
  refine hasTrigger_or_hasClear_of_logs (s := s.start i) hb ho fun hsame => ?_
  rw [List.append_right_eq_self.1 (hevents.symm.trans hsame)] at he
  cases he

theorem ansReports_onResolved (hpin : i.takesPin = true) {target : Option (Nat × Nat)}
    (hin : ∀ b off, target = some (b, off) → b < s.banks.length ∧ off < (s.bank b).width) :
    AnsReports i s (onResolved i s target (bodyOf i)) := by
  intro t e
  cases target with
  | none => cases e; exact reports_raise s hpin
  | some r =>
    cases e
    obtain ⟨hb, ho⟩ := hin r.1 r.2 rfl
    exact reports_body hb ho

theorem resolve_in_bank {p b off : Nat} (h : resolve s p = some (b, off)) :
    b < s.banks.length ∧ off < (s.bank b).width :=
  ⟨(resolve_some h).1, resolve_offset_lt_width h⟩

theorem ansReports_onPin (hpin : i.takesPin = true) (pin : Nat) (s : State) :
    AnsReports i s (onPin i pin s (bodyOf i)) :=
  ansReports_admitAwake (ansReports_onResolved hpin fun _ _ => resolve_in_bank)

theorem ansReports_onIrq (hpin : i.takesPin = true) (irq : Nat) (s : State) :
    AnsReports i s (onIrq i irq s (bodyOf i)) :=
  ansReports_admitAwake (ansReports_onResolved hpin fun _ _ h => resolve_in_bank (resolveIrq_some h))

theorem ansReports_read (pin : Nat) (s : State) : AnsReports (.read pin) s (execRead pin s) := by
  refine ansReports_admitAwake fun t e => ?_
  split at e
  · cases e; exact reports_raise s rfl
  · cases e; exact reports_finish rfl rfl

/-! ### The other commands -/

theorem reports_passVisit (l : Nat) (s : State) :
    Reports (.lineIrq l) s { passVisit (s.start (.lineIrq l)) l 0 with seq := .idle } := by
  cases passVisit_visits (s.start (.lineIrq l)) l 0 with
  | snapshot b w _ _ _ e => rw [e]; exact .of_events rfl rfl
  | ends e =>
    rw [e]
    exact .of_result (before := [.lineAck l]) (v := false) (List.append_assoc _ _ _) rfl
      fun e he => .inl (by rw [List.mem_singleton.1 he]; rfl)

theorem ansReports_lineIrq (l : Nat) (s : State) : AnsReports (.lineIrq l) s (execLineIrq l s) := by
  intro t e
  unfold execLineIrq at e
  split at e
  · split at e
    · refine ansReports_admitBooted (fun _ t e => ?_) t e
      split at e
      · cases e; exact reports_passVisit l s
      · cases e
    · cases e; exact reports_refuse s _ .illegalCommand
  · cases e

theorem ansReports_enterSleep (fi : Bool) (s : State) : AnsReports (.enterSleep fi) s (execEnterSleep fi s) := by
  refine ansReports_admitAwake fun t e => ?_
  split at e
  · obtain ⟨u, hu, rfl⟩ := enterSleepBody_eq_ok (answer_eq_next.1 e)
    have hw := enables_quiet fi u.bankIndices u
    exact .of_result (before := []) (v := false)
      (by rw [List.nil_append]; exact congrArg (· ++ _) (hw.1.trans hu.passes.events))
      (hw.2.trans hu.passes.sameControl.fault) (by simp)
  · cases e; exact reports_refuse s _ .busy

theorem ansReports_exitSleep (s : State) : AnsReports .exitSleep s (execExitSleep s) := by
  refine ansReports_admitBooted fun _ t e => ?_
  split at e
  · cases e; exact reports_refuse s _ .notAsleep
  · obtain ⟨u, p, hu, rfl, -⟩ := exitSleepBody_eq_ok (answer_eq_next.1 e)
    have hw := enables_quiet true (s.start .exitSleep).bankIndices { s.start .exitSleep with sleepState := .awake }
    exact reports_finish (hu.passes.events.trans hw.1) (hu.passes.sameControl.fault.trans hw.2)

/-- A group of the replay that has begun is the one `State.groupBegun` names. -/
theorem eq_groupBegun_of_replayGroup {g : Nat} (e : replayGroup s g = .ok t) : t = s.groupBegun g := by
  obtain ⟨⟨n, u⟩, hread, e⟩ := bind_eq_ok.1 e
  obtain ⟨-, rfl, rfl⟩ := memRead_eq_ok_iff.1 hread
  simp only at e
  split at e
  · rename_i hn
    cases e
    rw [State.groupBegun, if_pos hn]
  · rename_i hn
    cases e
    rw [State.groupBegun, if_neg hn]
    rfl

/-- The start of REPLAY sets the mark only on a count of group 0 above K (R263). -/
theorem reports_groupBegun (s : State) : Reports .replay s { (s.start .replay).groupBegun 0 with seq := .idle } := by
  refine ⟨⟨[], by rw [List.append_nil]; rfl, by simp⟩,
    fun h => ⟨rfl, (s.start .replay).field ((s.start .replay).countAddr 0) 2, ?_⟩⟩
  by_cases hn : (s.start .replay).params.firedCap < (s.start .replay).field ((s.start .replay).countAddr 0) 2
  · exact ⟨hn, groupBegun_fault_of_lt hn⟩
  · exact absurd (groupBegun_fault_of_le (Nat.not_lt.1 hn)) h

theorem ansReports_replay (s : State) : AnsReports .replay s (execReplay s) := by
  refine ansReports_admitBooted fun _ t e => ?_
  split at e
  · split at e
    · rename_i u hgroup
      cases e
      rw [eq_groupBegun_of_replayGroup hgroup]
      exact reports_groupBegun s
    · cases e
  · cases e

end

/-! ### Every command -/

theorem exec_reports (i : Instr) (s : State) : AnsReports i s (exec i s) := by
  cases i with
  | configure pin o => exact ansReports_onPin rfl pin s
  | read pin => exact ansReports_read pin s
  | write pin v => exact ansReports_onPin (i := .write pin v) rfl pin s
  | mask irq => exact ansReports_onIrq (i := .mask irq) rfl irq s
  | unmask irq => exact ansReports_onIrq (i := .unmask irq) rfl irq s
  | ack irq => exact ansReports_onIrq (i := .ack irq) rfl irq s
  | setType irq g => exact ansReports_onIrq (i := .setType irq g) rfl irq s
  | setWake irq v => exact ansReports_onIrq (i := .setWake irq v) rfl irq s
  | lineIrq l => exact ansReports_lineIrq l s
  | enterSleep fi => exact ansReports_enterSleep fi s
  | exitSleep => exact ansReports_exitSleep s
  | replay => exact ansReports_replay s

/-- Settles O58: the table by the words themselves, its column "raised by" over all commands. -/
theorem commandsReportTheirCodes : Obligations.CommandsReportTheirCodes := by
  refine ⟨⟨rfl, rfl, eventCode_logOutOfRange, eventCode_convergenceBound, eventCode_mailboxUnavailable,
    fun _ _ => rfl, fun c st v => eventCode_result c c st v, eventCode_dispatch, eventCode_lineAck⟩, fun i s t e => ?_⟩
  obtain ⟨⟨more, hevents, hmore⟩, hfault⟩ := exec_reports i s t e
  refine ⟨more, hevents, fun e he => ?_, hfault⟩
  have h := hmore e he
  exact ⟨h.ok, h.outOfRange, h.bound, h.mailbox⟩

end Sys2Proof.Machine
end

section
/-! Settling O1, O2, O3 (70_reset_and_hazards.md R300, R302, R303): the state after reset, and boot registration. -/

namespace Sys2Proof.Machine

/-! ### Reset -/

theorem mem_reset_banks {k : Bank} : k ∈ State.reset.banks ↔ k = { desc := Config.bankA } := List.mem_singleton

/-- Masks that are 0 lie within any width (10_state.md R43 to R46). -/
theorem Bank.masksFit_of_zero {k : Bank} (h0 : k.en0 = 0) (h1 : k.en1 = 0) (hbe : k.be = 0) (hshadow : k.shadow = 0) :
    k.MasksFit :=
  ⟨by simp [h0], by simp [h1], by simp [hbe], by simp [hshadow]⟩

/-- Settles O2: the masks are those of the one bank of the reset state; the rest are values of its fields. -/
theorem resetHoldsStatedValues : Obligations.ResetHoldsStatedValues := by
  refine ⟨fun k hk => ?_, rfl, rfl, rfl, rfl, rfl, rfl, rfl, rfl, rfl⟩
  rw [mem_reset_banks.1 hk]
  exact ⟨rfl, rfl, rfl, rfl⟩

/-- Settles O1: by the values of O2, the clauses about a booted or sleeping block, a pass or a replay do not apply, and
masks of 0 fit every bank. -/
theorem resetMeetsInvariant : Obligations.ResetMeetsInvariant := by
  obtain ⟨hmasks, hawake, hpending, hrun, hidle, hpass, -, -, -, hbooted⟩ := resetHoldsStatedValues
  have notBooted : State.reset.booted ≠ true := ne_true_of_eq_false hbooted
  exact {
    idle := hidle
    noRun := rfl
    memory := rfl
    table := fun h => absurd h notBooted
    mailbox := fun h => absurd h notBooted
    masks := fun k hk =>
      have ⟨h0, h1, hbe, hshadow⟩ := hmasks k hk
      Bank.masksFit_of_zero h0 h1 hbe hshadow
    enables := fun h => absurd h notBooted
    asleep := fun h => nomatch hawake.symm.trans h
    pass := fun _ h => nomatch hpass.symm.trans h
    replay := fun _ h => nomatch hrun.symm.trans h
    pending := fun h => nomatch hpending.symm.trans h
    marks := iff_of_false Bool.false_ne_true (not_not_intro rfl) }

/-! ### Boot registration -/

theorem step_boot {s : State} {rest : List Input} (ha : s.agenda = .boot :: rest) :
    step s = bootRegistration { s with agenda := rest } := by
  simp only [step, fetch, ha]

theorem bootRegistration_booted {s : State} (hbooted : s.booted = true) :
    bootRegistration s = .refused .platformDuty :=
  if_pos hbooted

theorem bootRegistration_badTable {s : State} (hbooted : s.booted = false)
    (htable : tableOk s.params s.banks = false) : bootRegistration s = .next (s.refuse .badBankTable .boot) :=
  (if_neg (ne_true_of_eq_false hbooted)).trans (if_neg (ne_true_of_eq_false htable))

/-- The mailbox allocation logs one event exactly when the platform has no mailbox (R303, 60_exceptions.md R262). -/
theorem mailboxAllocation_logs (s : State) : mailboxAllocation s = { s with
    events := s.events ++ (if s.params.mailboxPresent then [] else [.mailboxUnavailable])
    mailboxPresent := s.params.mailboxPresent } := by
  unfold mailboxAllocation
  cases s.params.mailboxPresent with
  | true => simp
  | false => rfl

/-- With a good table the banks are booted, then the mailbox is allocated (R302, R303). -/
theorem bootRegistration_goodTable {s : State} (hbooted : s.booted = false)
    (htable : tableOk s.params s.banks = true) :
    ∃ u, BootEffect s.bankIndices s u ∧ bootRegistration s = .next { u with
      events := u.events ++ (if u.params.mailboxPresent then [] else [.mailboxUnavailable])
      mailboxPresent := u.params.mailboxPresent
      booted := true } := by
  refine ⟨_, bootBanks_effect s.bankIndices s, ?_⟩
  rw [bootRegistration, if_neg (ne_true_of_eq_false hbooted), if_pos htable, mailboxAllocation_logs]

theorem BootEffect.all {s u : State} (w : BootEffect s.bankIndices s u) {b : Nat} (hb : b < s.banks.length) :
    (s.bank b).booted.PinsOnly (u.bank b) := by
  simpa only [if_pos (mem_bankIndices.2 hb)] using w.banks b hb

/-- Settles O3: the three cases of boot registration; with a good table the effect on the banks gives the rest. -/
theorem bootRegistrationRunsOnce : Obligations.BootRegistrationRunsOnce := by
  intro s rest ha
  rw [step_boot ha]
  refine ⟨fun hbooted htable => ?_, fun hbooted htable => bootRegistration_badTable hbooted htable,
    fun hbooted => bootRegistration_booted hbooted⟩
  obtain ⟨u, w, hboot⟩ := bootRegistration_goodTable (s := { s with agenda := rest }) hbooted htable
  refine ⟨_, hboot, rfl, ?_, ?_, w.length, fun b hb => w.all hb, ?_⟩ <;> rw [w.rest]

end Sys2Proof.Machine
end
